-- ==== Sys2Proof/Word.lean ====
section
/-! DEFINITION. The value types of the part: bytes, 16-bit words, and the numbers of ports, channels and slots
(spec/00_scope.md "Terms" and "Conventions"). -/

namespace Sys2Proof

/-- One byte of a frame. -/
abbrev Byte := BitVec 8

/-- A 16-bit value: a time count, a tag, a commit number. -/
abbrev Word := BitVec 16

/-- A setpoint code, an unsigned 16-bit value. -/
abbrev Code := BitVec 16

/-- A channel mask, bit n standing for channel n (R153). -/
abbrev Mask := BitVec 16

/-- A host port HP0 to HP2, and the host on it. -/
abbrev Port := Fin 3

/-- A channel CH0 to CH15. -/
abbrev Channel := Fin 16

/-- A slot SLOT0 to SLOT3 of the converter link. -/
abbrev Slot := Fin 4

/-- A channel within one converter, 0 to 3. -/
abbrev ConverterChannel := Fin 4

end Sys2Proof
end

