-- ==== Sys2Proof/Syntax.lean ====
section
/-! DEFINITION. The commands of the part: one constructor for each row of spec/opcode_table.json, in the table's order.
A host command carries its port and the argument bytes of its request: the request's CODE is the row's, its LEN the number
of the bytes and its CHECK is right (R137, R138). The byte layouts (R155) are read by the meanings, so a request of a
wrong length or with any argument value is a command too. -/

namespace Sys2Proof

/-- One command of the VT3160: a request on a host port, or an occurrence on its pins, timebase or converter link. -/
inductive Instr where
  /-- Nop, code 10h (R146). -/
  | nop (p : Port) (args : List Byte)
  /-- Read Status, code 11h (R147). -/
  | readStatus (p : Port) (args : List Byte)
  /-- Read Ident, code 12h (R150). -/
  | readIdent (p : Port) (args : List Byte)
  /-- Repeat Reply, code 13h (R145). -/
  | repeatReply (p : Port) (args : List Byte)
  /-- Port Clear, code 14h (R148). -/
  | portClear (p : Port) (args : List Byte)
  /-- Claim, code 20h (R26 to R30). -/
  | claim (p : Port) (args : List Byte)
  /-- Renew, code 21h (R31). -/
  | renew (p : Port) (args : List Byte)
  /-- Release, code 22h (R33). -/
  | release (p : Port) (args : List Byte)
  /-- Read Lease, code 23h (R44). -/
  | readLease (p : Port) (args : List Byte)
  /-- Set Warning, code 24h (R41). -/
  | setWarning (p : Port) (args : List Byte)
  /-- Stage, code 30h (R52, R53). -/
  | stage (p : Port) (args : List Byte)
  /-- Unstage, code 31h (R55). -/
  | unstage (p : Port) (args : List Byte)
  /-- Read Stage, code 32h (R56). -/
  | readStage (p : Port) (args : List Byte)
  /-- Commit, code 33h (R57 to R65). -/
  | commit (p : Port) (args : List Byte)
  /-- Arm, code 34h (R69, R70). -/
  | arm (p : Port) (args : List Byte)
  /-- Disarm, code 35h (R73). -/
  | disarm (p : Port) (args : List Byte)
  /-- Sync, code 36h (R76). -/
  | sync (p : Port) (args : List Byte)
  /-- Read Armed, code 37h (R72). -/
  | readArmed (p : Port) (args : List Byte)
  /-- Set Limits, code 40h (R16). -/
  | setLimits (p : Port) (args : List Byte)
  /-- Set Fallback, code 41h (R17). -/
  | setFallback (p : Port) (args : List Byte)
  /-- Set Ramp, code 42h (R93). -/
  | setRamp (p : Port) (args : List Byte)
  /-- Read Channel, code 43h (R18). -/
  | readChannel (p : Port) (args : List Byte)
  /-- Force Safe, code 44h (R127). -/
  | forceSafe (p : Port) (args : List Byte)
  /-- Clear Fault, code 45h (R130). -/
  | clearFault (p : Port) (args : List Byte)
  /-- Read Events, code 50h (R169). -/
  | readEvents (p : Port) (args : List Byte)
  /-- Set Event Mask, code 51h (R170). -/
  | setEventMask (p : Port) (args : List Byte)
  /-- Event Test, code 52h (R171). -/
  | eventTest (p : Port) (args : List Byte)
  /-- A request whose check value is wrong or whose code is no command's, as sent (R140). -/
  | badCommand (p : Port) (code : Byte) (args : List Byte) (check : Byte)
  /-- HPn_CS falls (R135). -/
  | frameOpen (p : Port)
  /-- HPn_CS rises before the last bit of CHECK, after these complete bytes of the frame (R143). -/
  | frameCut (p : Port) (bytes : List Byte)
  /-- HPn_CS rises after CHECK (R144). -/
  | frameEnd (p : Port)
  /-- The 1 ms lease tick (R35). -/
  | leaseTick
  /-- A lease tick that finds the remaining of this channel's held lease at 1 (R36). -/
  | leaseExpiry (c : Channel)
  /-- A lease tick that finds the arm window remaining of this port's armed set at 1 (R74). -/
  | armWindowExpiry (p : Port)
  /-- The 25 us ramp tick (R86). -/
  | rampTick
  /-- SYNC rises and has stayed high for 100 ns (R178). -/
  | syncEdge
  /-- SYNC has been low for 100 ns (R178). -/
  | syncQualifierArm
  /-- The FAULT pin has shown low for 1 us (R121, R122). -/
  | faultAssertion
  /-- The FAULT pin has shown high for 1 us (R121, R125). -/
  | faultRelease
  /-- Power-on, or RESET low for 1 us (R177). -/
  | deviceReset
  /-- RESET rises, with the levels of RANK0A to RANK2A, of RANK0B to RANK2B (bit n for port n) and of SYNC (R177). -/
  | deviceResetEnd (rankA rankB : BitVec 3) (syncHigh : Bool)
  /-- The Read Ident frame of the slot being probed ends; the two bytes read on DSDI (R102). -/
  | probeSlot (mark revision : Byte)
  /-- The IDLE link takes the head of the update queue (R111). -/
  | linkTakeEntry
  /-- The Write Code frame of the in-flight entry ends (R112). -/
  | writeCodeDone
  /-- The Read Code frame of the in-flight entry ends; the value read on DSDI (R112). -/
  | verifyResult (read : Code)
  /-- The last bit of RCHECK has been shifted out on HPn_SDO (R135). -/
  | rcheckShiftedOut (p : Port)
  deriving DecidableEq, Repr

end Sys2Proof
end

