-- ==== Sys2Proof/Decode.lean ====
section
/-! DEFINITION. The command a word spells by the table's bits. spec/opcode_table.json gives no row any bits (its "fields"
are empty and it has no "fixed"), so no word spells a command. The bytes of a request on a host port are read by
Sys2Proof/Machine/Framing.lean and Sys2Proof/Machine/Operands.lean. -/

namespace Sys2Proof

/-- The table gives no row any bits, so every word is refused. -/
def decodeTableWord (_nbits _w : Nat) : Option Instr :=
  none

end Sys2Proof
end

