-- ==== Sys2Proof/Config.lean ====
section
/-! DEFINITION. What the silicon fixes: identity codes, the check value's polynomial, and the bounds of counts and times. -/

namespace Sys2Proof.Config

/-- The vendor code of the ident record (R150). -/
def vendorCode : Byte := 0x44

/-- The part code of the ident record (R150). -/
def partCode : Word := 0x3160

/-- The silicon revision of the ident record (R150). -/
def siliconRevision : Byte := 0x01

/-- The presence mark a converter drives in a Read Ident frame (R99, R102). -/
def presenceMark : Byte := 0x5A

/-- The generator polynomial of the check value, without its top term (R138). -/
def crcPolynomial : Byte := 0x07

/-- The initial value of the check value's register (R138). -/
def crcInitial : Byte := 0xFF

/-- How many argument bytes of a request the port keeps (R137). -/
def keptArguments : Nat := 48

/-- The longest lease, in milliseconds (R20, R26). -/
def maxDuration : Nat := 60000

/-- The largest warning lead, in milliseconds (R41). -/
def maxLead : Nat := 1000

/-- The longest limited arm window, in milliseconds (R69). -/
def maxArmWindow : Nat := 60000

/-- How many records an event queue holds (R168). -/
def eventCapacity : Nat := 16

/-- How many records one Read Events may ask for (R169). -/
def maxReadEvents : Nat := 4

/-- The value to which the lost count of an OVERFLOW record saturates (R168). -/
def maxLost : Word := 255

/-- How many consecutive verify failures make a channel FAULTED (R115). -/
def failuresToFault : Nat := 3

/-- How many DSCK rising edges an accepted link frame has (R97, R99). -/
def linkFrameEdges : Nat := 24

end Sys2Proof.Config
end

