-- ==== Sys2Proof/Machine/Framing.lean ====
section
/-! DEFINITION. The bytes of a request on a host port: the check value (R138), the command code table (R154) and how a
port receives a request byte by byte (R137). -/

namespace Sys2Proof.Machine

/-- One shift of the check value's register (R138). -/
def crcShift (reg : Byte) : Byte :=
  if reg.msb then (reg <<< 1) ^^^ Config.crcPolynomial else reg <<< 1

/-- `n` shifts of the check value's register. -/
def crcShifts : Nat → Byte → Byte
  | 0, reg => reg
  | n + 1, reg => crcShifts n (crcShift reg)

/-- The register after one more byte: exclusive-or, then eight shifts (R138). -/
def crcByte (reg b : Byte) : Byte :=
  crcShifts 8 (reg ^^^ b)

/-- The check value over a sequence of bytes (R138). -/
def crc (bytes : List Byte) : Byte :=
  bytes.foldl crcByte Config.crcInitial

/-- The commands of the code table (R154). -/
inductive CommandName where
  | nop | readStatus | readIdent | repeatReply | portClear
  | claim | renew | release | readLease | setWarning
  | stage | unstage | readStage | commit | arm | disarm | sync | readArmed
  | setLimits | setFallback | setRamp | readChannel | forceSafe | clearFault
  | readEvents | setEventMask | eventTest
  deriving DecidableEq, Repr

/-- Every command of the code table, in its order. -/
def CommandName.all : List CommandName :=
  [.nop, .readStatus, .readIdent, .repeatReply, .portClear,
   .claim, .renew, .release, .readLease, .setWarning,
   .stage, .unstage, .readStage, .commit, .arm, .disarm, .sync, .readArmed,
   .setLimits, .setFallback, .setRamp, .readChannel, .forceSafe, .clearFault,
   .readEvents, .setEventMask, .eventTest]

/-- The column Code of R154. -/
def CommandName.code : CommandName → Byte
  | .nop => 0x10
  | .readStatus => 0x11
  | .readIdent => 0x12
  | .repeatReply => 0x13
  | .portClear => 0x14
  | .claim => 0x20
  | .renew => 0x21
  | .release => 0x22
  | .readLease => 0x23
  | .setWarning => 0x24
  | .stage => 0x30
  | .unstage => 0x31
  | .readStage => 0x32
  | .commit => 0x33
  | .arm => 0x34
  | .disarm => 0x35
  | .sync => 0x36
  | .readArmed => 0x37
  | .setLimits => 0x40
  | .setFallback => 0x41
  | .setRamp => 0x42
  | .readChannel => 0x43
  | .forceSafe => 0x44
  | .clearFault => 0x45
  | .readEvents => 0x50
  | .setEventMask => 0x51
  | .eventTest => 0x52

/-- The column LEN of R154: is this number of argument bytes one the command allows? -/
def CommandName.lenAllowed (name : CommandName) (len : Nat) : Bool :=
  match name with
  | .nop | .readStatus | .readIdent | .repeatReply | .portClear => len == 0
  | .claim => len == 5
  | .renew => len == 2
  | .release => len == 3
  | .readLease => len == 1
  | .setWarning => len == 2
  | .stage => decide (4 ≤ len ∧ len ≤ 48 ∧ len % 4 = 0)
  | .unstage => len == 2
  | .readStage | .commit => len == 0
  | .arm => len == 2
  | .disarm | .sync | .readArmed => len == 0
  | .setLimits => len == 5
  | .setFallback => len == 3
  | .setRamp => len == 4
  | .readChannel => len == 1
  | .forceSafe => len == 2
  | .clearFault => len == 1
  | .readEvents => len == 1
  | .setEventMask => len == 2
  | .eventTest => len == 0

/-- The column "Taken in STARTING" of R154, the list of check 4 of R140. -/
def CommandName.takenInStarting : CommandName → Bool
  | .nop | .readStatus | .readIdent | .repeatReply | .readChannel
  | .readEvents | .setEventMask | .eventTest => true
  | _ => false

/-- The command a code names, none where it names none (R154). -/
def CommandName.ofCode (b : Byte) : Option CommandName :=
  CommandName.all.find? (fun name => name.code == b)

/-- The request in progress of a port: what it has received in this frame (R135, R137). -/
structure Request where
  /-- CODE, LEN and the first 48 argument bytes, in the order received. -/
  kept : List Byte
  /-- The number of complete bytes received. -/
  count : Nat
  /-- The running check value over the bytes before CHECK. -/
  running : Byte
  /-- CHECK, once it has been received. -/
  check : Option Byte
  deriving DecidableEq, Repr

/-- No byte received. -/
def Request.empty : Request :=
  { kept := [], count := 0, running := Config.crcInitial, check := none }

/-- Byte 0, CODE. -/
def Request.code (r : Request) : Byte :=
  r.kept.getD 0 0

/-- Byte 1, LEN. -/
def Request.len (r : Request) : Nat :=
  (r.kept.getD 1 0).toNat

/-- The argument bytes kept. -/
def Request.args (r : Request) : List Byte :=
  r.kept.drop 2

/-- The port receives one more byte (R137): CHECK is the byte after LEN argument bytes; every earlier byte runs into the
check value, and the first 48 argument bytes are kept; a byte after CHECK is ignored (R139). -/
def Request.receive (r : Request) (b : Byte) : Request :=
  match r.check with
  | some _ => r
  | none =>
    if 2 ≤ r.count ∧ r.count = r.len + 2 then
      { r with count := r.count + 1, check := some b }
    else
      { r with
        kept := if r.count < 2 + Config.keptArguments then r.kept ++ [b] else r.kept
        count := r.count + 1
        running := crcByte r.running b }

/-- The port receives these bytes in turn. -/
def Request.receiveAll (r : Request) (bytes : List Byte) : Request :=
  bytes.foldl Request.receive r

/-- CODE, LEN and arguments of a request. -/
def requestBody (code : Byte) (args : List Byte) : List Byte :=
  code :: BitVec.ofNat 8 args.length :: args

/-- A whole request, with its CHECK (R137, R138). -/
def requestBytes (name : CommandName) (args : List Byte) : List Byte :=
  requestBody name.code args ++ [crc (requestBody name.code args)]

end Sys2Proof.Machine
end

