-- ==== Sys2Proof/Machine/Table.lean ====
section
/-! DEFINITION. A table of a fixed number of like records (sixteen channels, four slots, three ports): a list with its
length. Unlike Vector's, its equality is decided by structural recursion alone, so two states can be compared in the
kernel. -/

namespace Sys2Proof.Machine

/-- n records of one kind. -/
structure Table (n : Nat) (α : Type) where
  /-- The records, number 0 first. -/
  entries : List α
  /-- There is one for each number. -/
  size : entries.length = n
  deriving DecidableEq, Repr

/-- The record of number i. -/
def Table.get {n : Nat} {α : Type} (t : Table n α) (i : Fin n) : α :=
  t.entries[i.val]'(by rw [t.size]; exact i.isLt)

/-- The table with the record of number i replaced. -/
def Table.set {n : Nat} {α : Type} (t : Table n α) (i : Fin n) (x : α) : Table n α :=
  ⟨t.entries.set i x, by simp [t.size]⟩

/-- The table whose every record is x. -/
def Table.fill (n : Nat) {α : Type} (x : α) : Table n α :=
  ⟨List.replicate n x, by simp⟩

/-- The table whose record of number i is f i. -/
def Table.ofFn {n : Nat} {α : Type} (f : Fin n → α) : Table n α :=
  ⟨(List.finRange n).map f, by simp⟩

end Sys2Proof.Machine
end

