-- ==== Sys2Proof/Machine/State.lean ====
section
/-! DEFINITION. The state of the VT3160 as plain data, block by block as the manual divides it, the reasons a step can
stop, and the state after device reset. -/

namespace Sys2Proof.Machine

/-- The device phase (R101). -/
inductive DevicePhase where
  | starting | running
  deriving DecidableEq, Repr

/-- The five states of a channel (section 1.2). -/
inductive ChannelState where
  | starting | unavailable | safe | live | faulted
  deriving DecidableEq, Repr

/-- The cause that placed or last replaced an update entry's code (R107). -/
inductive Origin where
  | start | commit | ramp | safe | recovery
  deriving DecidableEq, Repr

/-- One channel record (R1). -/
structure ChannelRecord where
  state : ChannelState
  target : Code
  present : Code
  confirmed : Option Code
  fallback : Code
  limitLow : Code
  limitHigh : Code
  rampStep : Code
  rampToFallback : Bool
  rampDoneReport : Bool
  failures : Nat
  deriving DecidableEq, Repr

/-- What a channel's lease record holds while the channel has a holder (R20). `warningPutOff` is the model's own: the
lease's warning was due at the next lease tick when a renewal was taken, and no tick has been taken since (log 19). -/
structure Lease where
  holder : Port
  duration : Nat
  remaining : Nat
  warned : Bool
  warningPutOff : Bool := false
  deriving DecidableEq, Repr

/-- One waiter of a wait list (R20). -/
structure Waiter where
  port : Port
  duration : Nat
  deriving DecidableEq, Repr

/-- One channel's lease record (R20): duration, remaining and warned exist only with a holder. -/
structure LeaseRecord where
  held : Option Lease
  waiters : List Waiter
  deriving DecidableEq, Repr

/-- One entry of a staging list or armed set (R51, R68). -/
structure StageEntry where
  channel : Channel
  code : Code
  jump : Bool
  deriving DecidableEq, Repr

/-- An armed set (R68); window 0 means no limit. -/
structure ArmedSet where
  entries : List StageEntry
  number : Word
  window : Nat
  deriving DecidableEq, Repr

/-- What the commit unit holds for one host (R51, R64, R68). -/
structure CommitRecord where
  staging : List StageEntry
  armed : Option ArmedSet
  nextNumber : Word
  deriving DecidableEq, Repr

/-- The reply status codes (R156). -/
inductive Status where
  | ok | checkError | badCommand | badLength | badArgument | notReady | faultActive | notHolder
  | unavailable | faulted | armed | notArmed | nothingStaged | outOfWindow | noReply | held
  deriving DecidableEq, Repr

/-- A reply: its status and its data bytes; RLEN is their number (R139). -/
structure Reply where
  status : Status
  data : List Byte
  deriving DecidableEq, Repr

/-- The decoder phase of a port (R135). -/
inductive DecoderPhase where
  | deselected | request | reply | trailer
  deriving DecidableEq, Repr

/-- What one host port holds (R135). `sending` is the reply being shifted out; `csLow` is the level of the pin HPn_CS. -/
structure PortRecord where
  phase : DecoderPhase
  request : Request
  sending : Option Reply
  store : Option Reply
  rank : BitVec 2
  csLow : Bool
  deriving DecidableEq, Repr

/-- The state of a slot (R100). -/
inductive SlotState where
  | probing | present | absent
  deriving DecidableEq, Repr

/-- One slot record (R100). -/
structure SlotRecord where
  state : SlotState
  revision : Option Byte
  deriving DecidableEq, Repr

/-- One update, waiting or in flight (R107, R111). -/
structure UpdateEntry where
  channel : Channel
  code : Code
  origin : Origin
  deriving DecidableEq, Repr

/-- The link phase (R97). -/
inductive LinkPhase where
  | probing | idle | writing | verifying
  deriving DecidableEq, Repr

/-- The fifteen kinds of event record (R164). -/
inductive EventKind where
  | startupDone | faultAsserted | faultReleased
  | leaseGranted | leaseLost | leaseExpired | leaseWarning
  | commitApplied | commitFailed | armExpired
  | channelFault | rampDone | frameCut | test | overflow
  deriving DecidableEq, Repr

/-- One event record (R163), channel and reason as they are carried: FFh and 00h where absent. -/
structure EventRecord where
  kind : EventKind
  channel : Byte
  reason : Byte
  tag : Word
  time : Word
  deriving DecidableEq, Repr

/-- What the event unit holds for one host (R162). -/
structure EventUnit where
  queue : List EventRecord
  mask : BitVec 6
  enable : Bool
  deriving DecidableEq, Repr

/-- The part stops at no occurrence: the manual gives every one an effect, so there is no fault. -/
inductive Fault where
  deriving DecidableEq, Repr

/-- The reasons a command has no meaning here. -/
inductive Refusal where
  /-- Raised by exec's arm of a command that has no meaning yet; safe. No arm raises it. -/
  | notModelled (mnemonic : String)
  deriving DecidableEq, Repr

/-- The whole part, and the queue of the commands that wait for it. -/
@[ext]
structure State where
  /-- Device reset lasts (R177). -/
  inReset : Bool
  devicePhase : DevicePhase
  timeCount : Word
  /-- The filtered state of the FAULT input is asserted (R121). -/
  faultAsserted : Bool
  /-- The SYNC qualifier is armed (R178). -/
  syncArmed : Bool
  channels : Table 16 ChannelRecord
  leases : Table 16 LeaseRecord
  /-- Each host's warning lead (R21). -/
  leads : Table 3 Nat
  commits : Table 3 CommitRecord
  ports : Table 3 PortRecord
  slots : Table 4 SlotRecord
  /-- The update queue, oldest entry first (R107). -/
  queue : List UpdateEntry
  inFlight : Option UpdateEntry
  linkPhase : LinkPhase
  events : Table 3 EventUnit
  /-- The commands waiting, first in first out: the model's own field. -/
  pending : List Instr
  deriving DecidableEq, Repr

/-- A channel record after device reset (R1). -/
def ChannelRecord.reset : ChannelRecord :=
  { state := .starting, target := 0, present := 0, confirmed := none, fallback := 0, limitLow := 0,
    limitHigh := 65535, rampStep := 0, rampToFallback := false, rampDoneReport := false, failures := 0 }

/-- A lease record after device reset (R20). -/
def LeaseRecord.reset : LeaseRecord :=
  { held := none, waiters := [] }

/-- A host's part of the commit unit after device reset (R67). -/
def CommitRecord.reset : CommitRecord :=
  { staging := [], armed := none, nextNumber := 1 }

/-- A port after device reset (R135, R152). DESIGN CHOICE, unsafe: the rank before it is sampled is 0 and the chip select
stands high (log 2, log 3). -/
def PortRecord.reset : PortRecord :=
  { phase := .deselected, request := Request.empty, sending := none, store := none, rank := 0, csLow := false }

/-- A slot after device reset (R100). -/
def SlotRecord.reset : SlotRecord :=
  { state := .probing, revision := none }

/-- A host's part of the event unit after device reset (R162). -/
def EventUnit.reset : EventUnit :=
  { queue := [], mask := 0x3F, enable := false }

/-- The part held in device reset, every block at its reset values (R177). DESIGN CHOICE, unsafe: the SYNC qualifier
stands disarmed until the end of reset sets it (log 4); no command waits (log 6). -/
def State.reset : State :=
  { inReset := true
    devicePhase := .starting
    timeCount := 0
    faultAsserted := false
    syncArmed := false
    channels := Table.fill 16 ChannelRecord.reset
    leases := Table.fill 16 LeaseRecord.reset
    leads := Table.fill 3 0
    commits := Table.fill 3 CommitRecord.reset
    ports := Table.fill 3 PortRecord.reset
    slots := Table.fill 4 SlotRecord.reset
    queue := []
    inFlight := none
    linkPhase := .probing
    events := Table.fill 3 EventUnit.reset
    pending := [] }

end Sys2Proof.Machine
end

