-- ==== Sys2Proof/Machine/Ops.lean ====
section
/-! DEFINITION. Reading and replacing the records of State, the marks a record carries on the wire, and the update queue's
two operations (R108, R109). -/

namespace Sys2Proof.Machine

/-- The numbers 0 to n - 1 in ascending order. -/
def ascending (n : Nat) : List (Fin n) :=
  List.finRange n

/-- One act over the numbers 0 to n - 1, in ascending order. -/
def overAll (n : Nat) (act : Fin n → State → State) (s : State) : State :=
  (ascending n).foldl (fun s i => act i s) s

/-- The record of a channel. -/
def State.chan (s : State) (c : Channel) : ChannelRecord := s.channels.get c

/-- The state with the record of a channel replaced. -/
def State.setChan (s : State) (c : Channel) (r : ChannelRecord) : State :=
  { s with channels := s.channels.set c r }

/-- The lease record of a channel. -/
def State.lease (s : State) (c : Channel) : LeaseRecord := s.leases.get c

/-- The state with the lease record of a channel replaced. -/
def State.setLease (s : State) (c : Channel) (r : LeaseRecord) : State :=
  { s with leases := s.leases.set c r }

/-- The holder of a channel, as the other blocks read it (R50). -/
def State.holder (s : State) (c : Channel) : Option Port := (s.lease c).held.map Lease.holder

/-- Does this port hold the channel? -/
def State.holds (s : State) (p : Port) (c : Channel) : Bool := s.holder c == some p

/-- The warning lead of a host. -/
def State.lead (s : State) (p : Port) : Nat := s.leads.get p

/-- The state with the warning lead of a host replaced. -/
def State.setLead (s : State) (p : Port) (n : Nat) : State :=
  { s with leads := s.leads.set p n }

/-- A host's part of the commit unit. -/
def State.commit (s : State) (p : Port) : CommitRecord := s.commits.get p

/-- The state with a host's part of the commit unit replaced. -/
def State.setCommit (s : State) (p : Port) (r : CommitRecord) : State :=
  { s with commits := s.commits.set p r }

/-- The record of a port. -/
def State.port (s : State) (p : Port) : PortRecord := s.ports.get p

/-- The state with the record of a port replaced. -/
def State.setPort (s : State) (p : Port) (r : PortRecord) : State :=
  { s with ports := s.ports.set p r }

/-- The record of a slot. -/
def State.slot (s : State) (k : Slot) : SlotRecord := s.slots.get k

/-- The state with the record of a slot replaced. -/
def State.setSlot (s : State) (k : Slot) (r : SlotRecord) : State :=
  { s with slots := s.slots.set k r }

/-- A host's part of the event unit. -/
def State.event (s : State) (p : Port) : EventUnit := s.events.get p

/-- The state with a host's part of the event unit replaced. -/
def State.setEvent (s : State) (p : Port) (r : EventUnit) : State :=
  { s with events := s.events.set p r }

/-- The rank of a port (R151). -/
def State.rank (s : State) (p : Port) : BitVec 2 := (s.port p).rank

/-- The state with these commands waiting. -/
def State.withPending (s : State) (cs : List Instr) : State :=
  { s with pending := cs }

/-- The slot a channel belongs to (R1, R98). -/
def slotOf (c : Channel) : Slot := ⟨c.val / 4, by omega⟩

/-- The converter channel of a channel within its slot (R1, R98). -/
def converterChannelOf (c : Channel) : ConverterChannel := ⟨c.val % 4, by omega⟩

/-- A code is placed for a channel (R108): in place of the channel's waiting entry, else at the tail. -/
def place (q : List UpdateEntry) (c : Channel) (code : Code) (origin : Origin) : List UpdateEntry :=
  if q.any (fun e => e.channel == c) then
    q.map (fun e => if e.channel = c then { e with code := code, origin := origin } else e)
  else
    q ++ [{ channel := c, code := code, origin := origin }]

/-- The channel's waiting entry leaves the queue (R109). -/
def unplace (q : List UpdateEntry) (c : Channel) : List UpdateEntry :=
  q.filter (fun e => e.channel != c)

/-- The waiting entry of a channel. -/
def State.waiting (s : State) (c : Channel) : Option UpdateEntry :=
  s.queue.find? (fun e => e.channel == c)

/-- The in-flight entry, where it is of this channel. -/
def State.flying (s : State) (c : Channel) : Option UpdateEntry :=
  s.inFlight.filter (fun e => e.channel == c)

/-- A code for a channel is placed in the update queue (R108). -/
def State.place (s : State) (c : Channel) (code : Code) (origin : Origin) : State :=
  { s with queue := Machine.place s.queue c code origin }

end Sys2Proof.Machine
end

