-- ==== Sys2Proof/Machine/Events.lean ====
section
/-! DEFINITION. The event unit's placing of records (R165 to R168) and the records the blocks send (R164). -/

namespace Sys2Proof.Machine

/-- The kind codes of R164. -/
def EventKind.code : EventKind → Byte
  | .startupDone => 0x01
  | .faultAsserted => 0x02
  | .faultReleased => 0x03
  | .leaseGranted => 0x10
  | .leaseLost => 0x11
  | .leaseExpired => 0x12
  | .leaseWarning => 0x13
  | .commitApplied => 0x20
  | .commitFailed => 0x21
  | .armExpired => 0x22
  | .channelFault => 0x30
  | .rampDone => 0x31
  | .frameCut => 0x40
  | .test => 0x50
  | .overflow => 0x7F

/-- The class mask bit of a kind (R164); OVERFLOW belongs to no class. -/
def EventKind.classBit : EventKind → Option (Fin 6)
  | .startupDone | .faultAsserted | .faultReleased => some 0
  | .leaseGranted | .leaseLost | .leaseExpired | .leaseWarning => some 1
  | .commitApplied | .commitFailed | .armExpired => some 2
  | .channelFault | .rampDone => some 3
  | .frameCut => some 4
  | .test => some 5
  | .overflow => none

/-- Does the class mask let the kind through (R165)? -/
def EventKind.enabled (kind : EventKind) (mask : BitVec 6) : Bool :=
  match kind.classBit with
  | some b => mask.getLsbD b.val
  | none => true

/-- The channel byte of a record with no channel (R163). -/
def noChannel : Byte := 0xFF

/-- The reason byte of a record with no reason (R163). -/
def noReason : Byte := 0x00

/-- A channel as one byte. -/
def channelByte (c : Channel) : Byte := BitVec.ofNat 8 c.val

/-- A port as one byte. -/
def portByte (p : Port) : Byte := BitVec.ofNat 8 p.val

/-- The OVERFLOW record created by an arrival (R168). -/
def overflowRecord (time : Word) : EventRecord :=
  { kind := .overflow, channel := noChannel, reason := noReason, tag := 2, time := time }

/-- The OVERFLOW record after one more lost record (R168). -/
def EventRecord.lostOneMore (r : EventRecord) : EventRecord :=
  { r with tag := if r.tag < Config.maxLost then r.tag + 1 else r.tag }

/-- A record that the mask lets through arrives at a queue (R168). -/
def enqueue (q : List EventRecord) (r : EventRecord) : List EventRecord :=
  match q.getLast? with
  | none => [r]
  | some last =>
    if last.kind = .overflow then q.dropLast ++ [last.lostOneMore]
    else if q.length < Config.eventCapacity then q ++ [r]
    else q.dropLast ++ [overflowRecord r.time]

/-- A record is handed to one host's part of the event unit (R165). -/
def EventUnit.take (u : EventUnit) (r : EventRecord) : EventUnit :=
  if r.kind.enabled u.mask then { u with queue := enqueue u.queue r } else u

/-- A record addressed to one host, stamped with the time count as it stands (R165, R167). -/
def State.sendTo (s : State) (p : Port) (kind : EventKind) (channel reason : Byte) (tag : Word) : State :=
  s.setEvent p ((s.event p).take
    { kind := kind, channel := channel, reason := reason, tag := tag, time := s.timeCount })

/-- A record addressed to every host, decided for each on its own mask and queue (R165). -/
def State.sendAll (s : State) (kind : EventKind) (channel reason : Byte) (tag : Word) : State :=
  overAll 3 (fun p s => s.sendTo p kind channel reason tag) s

/-- A record addressed to a holder, or to every host when there is none (R115). -/
def State.sendHolderOrAll (s : State) (holder : Option Port) (kind : EventKind) (channel reason : Byte) (tag : Word) :
    State :=
  match holder with
  | some p => s.sendTo p kind channel reason tag
  | none => s.sendAll kind channel reason tag

end Sys2Proof.Machine
end

