-- ==== Sys2Proof/Machine/Flags.lean ====
section
/-! DEFINITION. The masks, flags and output lines that the part computes from its state: each is one function of State and
is stored nowhere else (log 13). -/

namespace Sys2Proof.Machine

/-- The channel mask of the channels that f names. -/
def maskOf (f : Channel → Bool) : Mask := BitVec.ofFnLE f

/-- Does the mask name the channel? -/
def inMask (m : Mask) (c : Channel) : Bool := m.getLsbD c.val

/-- A flag as one byte: 01h set, 00h clear. -/
def flagByte (b : Bool) : Byte := if b then 1 else 0

/-- The channels a host holds (R43). -/
def State.heldMask (s : State) (p : Port) : Mask := maskOf (fun c => s.holds p c)

/-- Does the host stand in the channel's wait list? -/
def State.waits (s : State) (p : Port) (c : Channel) : Bool := (s.lease c).waiters.any (fun w => w.port == p)

/-- The channels on whose wait lists a host stands (R43). -/
def State.waitingMask (s : State) (p : Port) : Mask := maskOf (fun c => s.waits p c)

/-- The slot presence mask: bit s set when SLOTs is PRESENT, bits 4 to 7 clear (R100). -/
def State.presenceMask (s : State) : Byte :=
  BitVec.ofFnLE (fun i : Fin 8 => if h : i.val < 4 then (s.slot ⟨i.val, h⟩).state == .present else false)

/-- The device flags byte of the status record (R157). -/
def State.deviceFlags (s : State) : Byte :=
  (if s.devicePhase = .running then 1 else 0) ||| (if s.faultAsserted then 2 else 0)

/-- INTn is driven low: the enable is set and the queue holds a record (R172, R179). -/
def State.interruptDriven (s : State) (p : Port) : Bool :=
  (s.event p).enable && !(s.event p).queue.isEmpty

/-- What the part does with HPn_SDO. -/
inductive SdoDrive where
  /-- The output is high-impedance. -/
  | highImpedance
  /-- The output drives FFh bytes. -/
  | ones
  /-- The output shifts out this reply. -/
  | shifting (r : Reply)
  deriving DecidableEq, Repr

/-- HPn_SDO by the decoder phase (R135). -/
def State.sdo (s : State) (p : Port) : SdoDrive :=
  match (s.port p).phase, (s.port p).sending with
  | .deselected, _ => .highImpedance
  | .reply, some r => .shifting r
  | _, _ => .ones

end Sys2Proof.Machine
end

