-- ==== Sys2Proof/Machine/Operands.lean ====
section
/-! DEFINITION. Every byte layout a host sees (section 8.6): how the argument bytes of a request are read (R155), and the
status codes, records and replies as bytes (R156 to R160). -/

namespace Sys2Proof.Machine

/-- The high byte of a 16-bit value, sent first (R153). -/
def hiByte (w : Word) : Byte := w.extractLsb' 8 8

/-- The low byte of a 16-bit value. -/
def loByte (w : Word) : Byte := w.extractLsb' 0 8

/-- A 16-bit value as it is sent, most significant byte first (R153). -/
def wordBytes (w : Word) : List Byte := [hiByte w, loByte w]

/-- The 16-bit value of two bytes received. -/
def wordOf (hi lo : Byte) : Word := hi ++ lo

/-- Argument byte i of a request. -/
def argByte (args : List Byte) (i : Nat) : Byte := args.getD i 0

/-- The 16-bit argument whose high byte is argument byte i. -/
def argWord (args : List Byte) (i : Nat) : Word := wordOf (argByte args i) (argByte args (i + 1))

/-- The channel a byte names, none above 15. -/
def channelOf (b : Byte) : Option Channel :=
  if h : b.toNat < 16 then some ⟨b.toNat, h⟩ else none

/-- The code of a status (R156). -/
def Status.code : Status → Byte
  | .ok => 0x00
  | .checkError => 0x01
  | .badCommand => 0x02
  | .badLength => 0x03
  | .badArgument => 0x04
  | .notReady => 0x05
  | .faultActive => 0x06
  | .notHolder => 0x07
  | .unavailable => 0x08
  | .faulted => 0x09
  | .armed => 0x0A
  | .notArmed => 0x0B
  | .nothingStaged => 0x0C
  | .outOfWindow => 0x0D
  | .noReply => 0x0E
  | .held => 0x0F

/-- A reply with no data. -/
def Reply.bare (st : Status) : Reply := { status := st, data := [] }

/-- A reply whose one data byte is a channel. -/
def Reply.naming (st : Status) (c : Channel) : Reply := { status := st, data := [channelByte c] }

/-- A reply whose data are channel masks. -/
def Reply.masks (st : Status) (ms : List Mask) : Reply := { status := st, data := ms.flatMap wordBytes }

/-- STATUS, RLEN and data of a reply (R139). -/
def Reply.body (r : Reply) : List Byte :=
  r.status.code :: BitVec.ofNat 8 r.data.length :: r.data

/-- The bytes of a reply as shifted out, RCHECK last (R138, R139). -/
def Reply.bytes (r : Reply) : List Byte := r.body ++ [crc r.body]

/-- The four-byte entry layout of Stage, Read Stage and Read Armed (R155). -/
def StageEntry.bytes (e : StageEntry) : List Byte :=
  channelByte e.channel :: (wordBytes e.code ++ [flagByte e.jump])

/-- The entries as they are sent, head first. -/
def entryBytes (es : List StageEntry) : List Byte := es.flatMap StageEntry.bytes

/-- The entry that four argument bytes spell, none where R52 refuses it. -/
def stageEntryOf (b0 b1 b2 b3 : Byte) : Option StageEntry :=
  match channelOf b0 with
  | none => none
  | some c =>
    if b3 = 0 then some { channel := c, code := wordOf b1 b2, jump := false }
    else if b3 = 1 then some { channel := c, code := wordOf b1 b2, jump := true }
    else none

/-- The entries of a Stage request, none where any entry fails (R52). -/
def stageEntriesOf : List Byte → Option (List StageEntry)
  | [] => some []
  | b0 :: b1 :: b2 :: b3 :: rest =>
    match stageEntryOf b0 b1 b2 b3, stageEntriesOf rest with
    | some e, some es => some (e :: es)
    | _, _ => none
  | _ => none

/-- The status record (R157). -/
def State.statusRecord (s : State) (p : Port) : List Byte :=
  [s.deviceFlags, (s.rank p).setWidth 8]
    ++ wordBytes (s.heldMask p)
    ++ wordBytes (s.waitingMask p)
    ++ [BitVec.ofNat 8 (s.commit p).staging.length]
    ++ (match (s.commit p).armed with
        | none => [0, 0, 0, 0]
        | some a => [1, BitVec.ofNat 8 a.entries.length] ++ wordBytes a.number)
    ++ [BitVec.ofNat 8 (s.event p).queue.length, flagByte (s.event p).enable]

/-- The revision byte of a slot in the ident record (R100, R150). -/
def SlotRecord.revisionByte (r : SlotRecord) : Byte :=
  match r.state, r.revision with
  | .present, some v => v
  | _, _ => 0xFF

/-- The ident record (R157). -/
def State.identRecord (s : State) : List Byte :=
  [Config.vendorCode] ++ wordBytes Config.partCode ++ [Config.siliconRevision, s.presenceMask]
    ++ (ascending 4).map (fun k => (s.slot k).revisionByte)

/-- A waiter in the lease record (R158). -/
def Waiter.bytes (w : Waiter) : List Byte := portByte w.port :: wordBytes (BitVec.ofNat 16 w.duration)

/-- The lease record (R158). -/
def State.leaseRecord (s : State) (c : Channel) : List Byte :=
  match (s.lease c).held with
  | none => [0xFF, 0, 0, 0, 0, 0, 0]
  | some l =>
    [portByte l.holder, (s.rank l.holder).setWidth 8]
      ++ wordBytes (BitVec.ofNat 16 l.duration)
      ++ wordBytes (BitVec.ofNat 16 l.remaining)
      ++ [BitVec.ofNat 8 (s.lease c).waiters.length]
      ++ (s.lease c).waiters.flatMap Waiter.bytes

/-- The armed set record (R158). -/
def ArmedSet.bytes (a : ArmedSet) : List Byte :=
  wordBytes a.number ++ wordBytes (BitVec.ofNat 16 a.window) ++ entryBytes a.entries

/-- The code of a channel state (R159). -/
def ChannelState.code : ChannelState → Byte
  | .starting => 0x00
  | .unavailable => 0x01
  | .safe => 0x02
  | .live => 0x03
  | .faulted => 0x04

/-- The code of an origin (R159). -/
def Origin.code : Origin → Byte
  | .start => 0x01
  | .commit => 0x02
  | .ramp => 0x03
  | .safe => 0x04
  | .recovery => 0x05

/-- The indication of an entry: 00h none, or its origin (R159). -/
def originByte : Option UpdateEntry → Byte
  | none => 0
  | some e => e.origin.code

/-- The options byte of a channel (R155, R159). -/
def ChannelRecord.options (r : ChannelRecord) : Byte :=
  (if r.rampToFallback then 1 else 0) ||| (if r.rampDoneReport then 2 else 0)

/-- The holder byte: the port, or FFh (R159). -/
def holderByte : Option Port → Byte
  | none => 0xFF
  | some p => portByte p

/-- The channel record (R159). -/
def State.channelRecord (s : State) (c : Channel) : List Byte :=
  let r := s.chan c
  [channelByte c, r.state.code]
    ++ wordBytes r.target
    ++ wordBytes r.present
    ++ [flagByte r.confirmed.isSome]
    ++ wordBytes (r.confirmed.getD 0)
    ++ wordBytes r.fallback
    ++ wordBytes r.limitLow
    ++ wordBytes r.limitHigh
    ++ wordBytes r.rampStep
    ++ [r.options, BitVec.ofNat 8 r.failures, holderByte (s.holder c),
        originByte (s.waiting c), originByte (s.flying c)]

/-- An event record (R160). -/
def EventRecord.bytes (r : EventRecord) : List Byte :=
  [r.kind.code, r.channel, r.reason] ++ wordBytes r.tag ++ wordBytes r.time

/-- The data of a Read Events reply (R160). -/
def eventsBytes (rs : List EventRecord) : List Byte :=
  BitVec.ofNat 8 rs.length :: rs.flatMap EventRecord.bytes

end Sys2Proof.Machine
end

