-- ==== Sys2Proof/Machine/Channel.lean ====
section
/-! DEFINITION. The channel table (chapter 1) and fault handling within it (sections 7.2 and 7.4): clamping, motion on a
target write, safe entry, and the commands Set Limits, Set Fallback, Set Ramp, Read Channel, Force Safe and Clear Fault. -/

namespace Sys2Proof.Machine

/-- A code clamped into the channel's limit window (R4). -/
def ChannelRecord.clamp (r : ChannelRecord) (code : Code) : Code :=
  if code < r.limitLow then r.limitLow
  else if r.limitHigh < code then r.limitHigh
  else code

/-- Does safe entry ramp the channel to its fallback (R11, R14)? -/
def ChannelRecord.rampsToFallback (r : ChannelRecord) : Bool :=
  r.rampToFallback && r.rampStep != 0

/-- Present jumps to a code and an update entry carries it (R14). -/
def State.jumpTo (s : State) (c : Channel) (code : Code) (origin : Origin) : State :=
  (s.setChan c { s.chan c with present := code }).place c code origin

/-- Target becomes the fallback, and present with it unless the channel ramps (R11 steps 1 to 3). -/
def ChannelRecord.toFallback (r : ChannelRecord) : ChannelRecord :=
  { r with
    target := r.fallback
    present := if r.rampsToFallback then r.present else r.fallback }

/-- A SAFE channel's target becomes its fallback; the motion of R11 steps 2 and 3 follows. -/
def State.toFallback (s : State) (c : Channel) : State :=
  let r := s.chan c
  let s' := s.setChan c r.toFallback
  if r.rampsToFallback then s' else s'.place c r.fallback .safe

/-- The record after safe entry, by the state when it is taken (R10 to R12). -/
def ChannelRecord.safed (r : ChannelRecord) : ChannelRecord :=
  match r.state with
  | .live | .safe => { r.toFallback with state := .safe }
  | .starting | .faulted => { r with target := r.fallback }
  | .unavailable => r

/-- Does safe entry make present jump and place an update entry (R11 step 3)? On a channel that ramps to its fallback it
places none, whatever waits (R11 step 2, R14, R89, R90, R118, R132). -/
def ChannelRecord.safeJumps (r : ChannelRecord) : Bool :=
  (r.state == .live || r.state == .safe) && !r.rampsToFallback

/-- Safe entry (R10 to R13). The replacement of a waiting jump entry by the safe code, which R13, R66 and R82 name, is that of
R11's jump case; on a channel that ramps to its fallback the entry stays. DEDUCED, unsafe (log 20). -/
def State.safeEntry (s : State) (c : Channel) : State :=
  let r := s.chan c
  let s' := s.setChan c r.safed
  if r.safeJumps then s'.place c r.fallback .safe else s'

/-- Checks 1 to 3 of R15: the channel, or the refusal. -/
def State.settingChecks (s : State) (p : Port) (channel : Byte) : Except Reply Channel :=
  match channelOf channel with
  | none => .error (Reply.bare .badArgument)
  | some c =>
    if (s.chan c).state = .unavailable then .error (Reply.naming .unavailable c)
    else if s.holds p c then .ok c
    else .error (Reply.naming .notHolder c)

/-- The effect of an accepted Set Limits (R16). -/
def State.applyLimits (s : State) (c : Channel) (low high : Code) : State :=
  let r := s.chan c
  let r' := { r with limitLow := low, limitHigh := high }
  let target := r'.clamp r.target
  let s' := s.setChan c { r' with target := target }
  if r.state = .live ∧ target ≠ r.target ∧ r.rampStep = 0 then s'.jumpTo c target .commit else s'

/-- Set Limits (R15, R16). -/
def takeSetLimits (p : Port) (args : List Byte) (s : State) : State × Reply :=
  match s.settingChecks p (argByte args 0) with
  | .error r => (s, r)
  | .ok c =>
    let low := argWord args 1
    let high := argWord args 3
    if high < low then (s, Reply.naming .badArgument c)
    else if (s.chan c).fallback < low ∨ high < (s.chan c).fallback then (s, Reply.naming .outOfWindow c)
    else (s.applyLimits c low high, Reply.bare .ok)

/-- The effect of an accepted Set Fallback (R17). -/
def State.applyFallback (s : State) (c : Channel) (code : Code) : State :=
  let r := s.chan c
  let s' := s.setChan c { r with fallback := code }
  if r.state = .safe ∧ r.target ≠ code then s'.toFallback c else s'

/-- Set Fallback (R15, R17). -/
def takeSetFallback (p : Port) (args : List Byte) (s : State) : State × Reply :=
  match s.settingChecks p (argByte args 0) with
  | .error r => (s, r)
  | .ok c =>
    let code := argWord args 1
    if code < (s.chan c).limitLow ∨ (s.chan c).limitHigh < code then (s, Reply.naming .outOfWindow c)
    else (s.applyFallback c code, Reply.bare .ok)

/-- Set Ramp (R15, R93). -/
def takeSetRamp (p : Port) (args : List Byte) (s : State) : State × Reply :=
  match s.settingChecks p (argByte args 0) with
  | .error r => (s, r)
  | .ok c =>
    let options := argByte args 3
    if options &&& 0xFC ≠ 0 then (s, Reply.naming .badArgument c)
    else
      (s.setChan c { s.chan c with
        rampStep := argWord args 1
        rampToFallback := options.getLsbD 0
        rampDoneReport := options.getLsbD 1 }, Reply.bare .ok)

/-- Read Channel (R18). -/
def takeReadChannel (_p : Port) (args : List Byte) (s : State) : State × Reply :=
  match channelOf (argByte args 0) with
  | none => (s, Reply.bare .badArgument)
  | some c => (s, { status := .ok, data := s.channelRecord c })

/-- Does Force Safe take the channel through safe entry (R127)? -/
def State.forceable (s : State) (p : Port) (c : Channel) : Bool :=
  s.holds p c && ((s.chan c).state == .safe || (s.chan c).state == .live)

/-- Force Safe (R127). -/
def takeForceSafe (p : Port) (args : List Byte) (s : State) : State × Reply :=
  let m := argWord args 0
  if m = 0 then (s, Reply.bare .badArgument)
  else
    let done := maskOf (fun c => inMask m c && s.forceable p c)
    let refused := maskOf (fun c => inMask m c && !s.forceable p c)
    let s' := overAll 16 (fun c t => if inMask done c then t.safeEntry c else t) s
    let status : Status :=
      if refused = 0 then .ok
      else if (ascending 16).any (fun c => inMask refused c && !s.holds p c) then .notHolder
      else .faulted
    (s', Reply.masks status [done, refused])

/-- The effect of an accepted Clear Fault (R130). -/
def State.recover (s : State) (c : Channel) : State :=
  let r := s.chan c
  (s.setChan c { r with failures := 0, target := r.fallback, state := .safe }).jumpTo c r.fallback .recovery

/-- Clear Fault (R15, R130). -/
def takeClearFault (p : Port) (args : List Byte) (s : State) : State × Reply :=
  match s.settingChecks p (argByte args 0) with
  | .error r => (s, r)
  | .ok c =>
    if (s.chan c).state = .faulted then (s.recover c, Reply.bare .ok)
    else (s, Reply.naming .badArgument c)

end Sys2Proof.Machine
end

