-- ==== Sys2Proof/Machine/LeaseTable.lean ====
section
/-! DEFINITION. The lease table (chapter 2): grants, waits, preemption, renewal, release and expiry, and the commands Claim,
Renew, Release, Read Lease and Set Warning. -/

namespace Sys2Proof.Machine

/-- A fresh lease: remaining is the duration, warned is clear (R23, R27). -/
def Lease.fresh (p : Port) (duration : Nat) : Lease :=
  { holder := p, duration := duration, remaining := duration, warned := false, warningPutOff := false }

/-- The four tests of R40, with this remaining after the tick. -/
def warnTests (lead remaining : Nat) (l : Lease) : Bool :=
  decide (lead ≠ 0 ∧ lead < l.duration ∧ remaining ≤ lead) && !l.warned

/-- A lease renewed with this duration (R27, R31, R32). Where a lease tick taken before the renewal would have sent the
lease's warning, the tick taken after it sends none (R46, R66, R82). Only at a lead of the new duration less 1 could that
tick warn by the tests of R40, so the renewal asks for the warning due at that lead. DEDUCED, unsafe (log 19). -/
def Lease.renewed (duration : Nat) (l : Lease) : Lease :=
  { holder := l.holder, duration := duration, remaining := duration, warned := false,
    warningPutOff := decide (1 < l.remaining) && warnTests (duration - 1) (l.remaining - 1) l }

/-- The lease of a channel, if held, is renewed (R32). -/
def State.renewLease (s : State) (c : Channel) : State :=
  match (s.lease c).held with
  | none => s
  | some l => s.setLease c { s.lease c with held := some (l.renewed l.duration) }

/-- A waiter joins a wait list, behind every waiter of equal or higher rank and before every one of lower rank (R25). -/
def joinWaiters (rank : Port → BitVec 2) (w : Waiter) (ws : List Waiter) : List Waiter :=
  ws.takeWhile (fun v => decide (rank w.port ≤ rank v.port)) ++ w ::
    ws.dropWhile (fun v => decide (rank w.port ≤ rank v.port))

/-- The wait list without a host (R25). -/
def withoutWaiter (p : Port) (ws : List Waiter) : List Waiter :=
  ws.filter (fun w => w.port != p)

/-- The channel loses its holder; the lease's fields lapse with it (R20, R38). -/
def State.dropHolder (s : State) (c : Channel) : State :=
  s.setLease c { s.lease c with held := none }

/-- The grant to the head waiter, the last step of a loss of holder (R42). -/
def State.grantHead (s : State) (c : Channel) : State :=
  match (s.lease c).waiters with
  | [] => s
  | w :: ws =>
    (s.setLease c { held := some (Lease.fresh w.port w.duration), waiters := ws }).sendTo w.port .leaseGranted
      (channelByte c) noReason (BitVec.ofNat 16 w.duration)

/-- The outcome of a Claim for one channel (R27). -/
inductive ClaimOutcome where
  | granted | waiting | refused
  deriving DecidableEq, Repr

/-- The options of a Claim (R155). -/
structure ClaimOptions where
  wait : Bool
  preempt : Bool
  atomic : Bool
  deriving DecidableEq, Repr

/-- The options byte of a Claim (R155). -/
def claimOptionsOf (b : Byte) : ClaimOptions :=
  { wait := b.getLsbD 0, preempt := b.getLsbD 1, atomic := b.getLsbD 2 }

/-- May the claimant preempt this holder (R24, R30)? -/
def State.preempts (s : State) (p : Port) (o : ClaimOptions) (holder : Port) : Bool :=
  o.preempt && decide (s.rank holder < s.rank p)

/-- The first row of R27 that fits the channel, as the outcome it reports. -/
def State.claimOutcome (s : State) (p : Port) (o : ClaimOptions) (c : Channel) : ClaimOutcome :=
  if (s.chan c).state = .unavailable then .refused
  else
    match s.holder c with
    | none => .granted
    | some h =>
      if h = p then .granted
      else if s.preempts p o h then .granted
      else if o.wait then .waiting
      else .refused

/-- Preemption (R30): the old holder receives LEASE_LOST and the claimant leaves the wait list. -/
def State.preempt (s : State) (p : Port) (duration : Nat) (c : Channel) (old : Port) : State :=
  (s.setLease c { held := some (Lease.fresh p duration), waiters := withoutWaiter p (s.lease c).waiters }).sendTo old
    .leaseLost (channelByte c) (portByte p) 0

/-- A grant on the claimant's own Claim (R27): on a free channel, on its own as a renewal with a new duration, or by
preemption. -/
def State.claimGrant (s : State) (p : Port) (duration : Nat) (c : Channel) : State :=
  match (s.lease c).held with
  | none => s.setLease c { s.lease c with held := some (Lease.fresh p duration) }
  | some l =>
    if l.holder = p then s.setLease c { s.lease c with held := some (l.renewed duration) }
    else s.preempt p duration c l.holder

/-- The claimant joins the wait list, or its requested duration is replaced and its place kept (R25, R27). -/
def State.claimWait (s : State) (p : Port) (duration : Nat) (c : Channel) : State :=
  let r := s.lease c
  let ws :=
    if s.waits p c then r.waiters.map (fun w => if w.port = p then { w with duration := duration } else w)
    else joinWaiters s.rank { port := p, duration := duration } r.waiters
  s.setLease c { r with waiters := ws }

/-- The effect of a Claim on one channel of its mask (R27). -/
def State.claimChannel (s : State) (p : Port) (o : ClaimOptions) (duration : Nat) (c : Channel) : State :=
  match s.claimOutcome p o c with
  | .granted => s.claimGrant p duration c
  | .waiting => s.claimWait p duration c
  | .refused => s

/-- The effect of a Claim on every channel of its mask. -/
def State.claimAll (s : State) (p : Port) (o : ClaimOptions) (duration : Nat) (m : Mask) : State :=
  overAll 16 (fun c t => if inMask m c then t.claimChannel p o duration c else t) s

/-- The channels of a mask with this outcome. -/
def State.claimMask (s : State) (p : Port) (o : ClaimOptions) (m : Mask) (x : ClaimOutcome) : Mask :=
  maskOf (fun c => inMask m c && s.claimOutcome p o c == x)

/-- Claim (R26 to R30). -/
def takeClaim (p : Port) (args : List Byte) (s : State) : State × Reply :=
  let m := argWord args 0
  let duration := (argWord args 2).toNat
  let o := claimOptionsOf (argByte args 4)
  if m = 0 then (s, Reply.bare .badArgument)
  else if duration < 1 ∨ Config.maxDuration < duration then (s, Reply.bare .badArgument)
  else if argByte args 4 &&& 0xF8 ≠ 0 then (s, Reply.bare .badArgument)
  else if o.atomic ∧ o.wait then (s, Reply.bare .badArgument)
  else if o.atomic then
    match (ascending 16).find? (fun c => inMask m c && s.claimOutcome p o c != .granted) with
    | some c => (s, Reply.naming .held c)
    | none => (s.claimAll p o duration m, Reply.masks .ok [m, 0, 0])
  else
    (s.claimAll p o duration m,
      Reply.masks .ok [s.claimMask p o m .granted, s.claimMask p o m .waiting, s.claimMask p o m .refused])

/-- Renew (R31). -/
def takeRenew (p : Port) (args : List Byte) (s : State) : State × Reply :=
  let m := argWord args 0
  if m = 0 then (s, Reply.bare .badArgument)
  else
    let renewed := maskOf (fun c => inMask m c && s.holds p c)
    let notHeld := maskOf (fun c => inMask m c && !s.holds p c)
    (overAll 16 (fun c t => if inMask renewed c then t.renewLease c else t) s,
      Reply.masks (if notHeld = 0 then .ok else .notHolder) [renewed, notHeld])

/-- The two policies of a Release (R34). -/
inductive Policy where
  | keep | safe
  deriving DecidableEq, Repr

/-- The policy a byte names (R155). -/
def policyOf (b : Byte) : Option Policy :=
  if b = 0 then some .keep else if b = 1 then some .safe else none

/-- The sender's lease on a channel ends under the policy, and the head waiter is granted (R33, R34, R42). -/
def State.releaseChannel (s : State) (policy : Policy) (c : Channel) : State :=
  match policy with
  | .keep => (s.dropHolder c).grantHead c
  | .safe => ((s.dropHolder c).safeEntry c).grantHead c

/-- The sender's wait on a channel is withdrawn (R25, R33). -/
def State.withdraw (s : State) (p : Port) (c : Channel) : State :=
  s.setLease c { s.lease c with waiters := withoutWaiter p (s.lease c).waiters }

/-- Release (R33, R34). -/
def takeRelease (p : Port) (args : List Byte) (s : State) : State × Reply :=
  let m := argWord args 0
  if m = 0 then (s, Reply.bare .badArgument)
  else
    match policyOf (argByte args 2) with
    | none => (s, Reply.bare .badArgument)
    | some policy =>
      let released := maskOf (fun c => inMask m c && s.holds p c)
      let withdrawn := maskOf (fun c => inMask m c && (!s.holds p c && s.waits p c))
      let notHeld := maskOf (fun c => inMask m c && (!s.holds p c && !s.waits p c))
      (overAll 16 (fun c t =>
          if inMask released c then t.releaseChannel policy c
          else if inMask withdrawn c then t.withdraw p c
          else t) s,
        Reply.masks (if notHeld = 0 then .ok else .notHolder) [released, withdrawn, notHeld])

/-- Read Lease (R44). -/
def takeReadLease (_p : Port) (args : List Byte) (s : State) : State × Reply :=
  match channelOf (argByte args 0) with
  | none => (s, Reply.bare .badArgument)
  | some c => (s, { status := .ok, data := s.leaseRecord c })

/-- Set Warning (R41). -/
def takeSetWarning (p : Port) (args : List Byte) (s : State) : State × Reply :=
  let lead := (argWord args 0).toNat
  if Config.maxLead < lead then (s, Reply.bare .badArgument)
  else (s.setLead p lead, Reply.bare .ok)

/-- Expiry of the lease of a channel held by h (R36). -/
def State.expire (s : State) (c : Channel) (h : Port) : State :=
  (((s.dropHolder c).safeEntry c).sendTo h .leaseExpired (channelByte c) noReason 0).grantHead c

/-- Is the holder of this lease warned, with this remaining after the tick: the four tests of R40, and no warning that a
renewal has put off (R46, R66, R82). DEDUCED, unsafe (log 19). -/
def warnDue (lead remaining : Nat) (l : Lease) : Bool :=
  warnTests lead remaining l && !l.warningPutOff

/-- A held lease whose remaining is above 1, on a lease tick (R37, R40). -/
def State.reduceLease (s : State) (c : Channel) (l : Lease) : State :=
  let remaining := l.remaining - 1
  if warnDue (s.lead l.holder) remaining l then
    (s.setLease c { s.lease c with
      held := some { l with remaining := remaining, warned := true, warningPutOff := false } }).sendTo l.holder .leaseWarning
      (channelByte c) noReason (BitVec.ofNat 16 remaining)
  else
    s.setLease c { s.lease c with held := some { l with remaining := remaining, warningPutOff := false } }

/-- The lease tick's action on one channel's lease (R36, R37, R39). -/
def State.tickLease (s : State) (c : Channel) : State :=
  match (s.lease c).held with
  | none => s
  | some l => if 1 < l.remaining then s.reduceLease c l else s.expire c l.holder

end Sys2Proof.Machine
end

