-- ==== Sys2Proof/Machine/CommitUnit.lean ====
section
/-! DEFINITION. The commit unit (chapters 3 and 4): the staging list, the commit checks, applying a commit, armed sets and
sync events, and the commands Stage, Unstage, Read Stage, Commit, Arm, Disarm, Sync and Read Armed. -/

namespace Sys2Proof.Machine

/-- An entry is placed in a staging list: at the tail, or in place of the channel's entry (R53). -/
def stageEntry (es : List StageEntry) (e : StageEntry) : List StageEntry :=
  if es.any (fun x => x.channel == e.channel) then es.map (fun x => if x.channel = e.channel then e else x)
  else es ++ [e]

/-- Stage (R52, R53). -/
def takeStage (p : Port) (args : List Byte) (s : State) : State × Reply :=
  match stageEntriesOf args with
  | none => (s, Reply.bare .badArgument)
  | some es =>
    let staging := es.foldl stageEntry (s.commit p).staging
    (s.setCommit p { s.commit p with staging := staging },
      { status := .ok, data := [BitVec.ofNat 8 staging.length] })

/-- Unstage (R55). -/
def takeUnstage (p : Port) (args : List Byte) (s : State) : State × Reply :=
  let m := argWord args 0
  if m = 0 then (s, Reply.bare .badArgument)
  else
    let es := (s.commit p).staging
    (s.setCommit p { s.commit p with staging := es.filter (fun e => !inMask m e.channel) },
      Reply.masks .ok [maskOf (fun c => inMask m c && es.any (fun e => e.channel == c))])

/-- Read Stage (R56). -/
def takeReadStage (p : Port) (_args : List Byte) (s : State) : State × Reply :=
  (s, { status := .ok, data := entryBytes (s.commit p).staging })

/-- The commit number after this one (R64). -/
def advanceNumber (n : Word) : Word :=
  if n = 0xFFFF then 1 else n + 1

/-- Check 5: the first entry in list order whose channel the host does not hold (R58). -/
def State.firstNotHeld (s : State) (p : Port) (es : List StageEntry) : Option Channel :=
  (es.find? (fun e => !s.holds p e.channel)).map StageEntry.channel

/-- Check 6: the first entry in list order whose channel is FAULTED (R58). -/
def State.firstFaulted (s : State) (es : List StageEntry) : Option Channel :=
  (es.find? (fun e => (s.chan e.channel).state == .faulted)).map StageEntry.channel

/-- Check 5 of a Commit or Arm, which tells an UNAVAILABLE channel from one not held (R58): the first failing entry in
list order, and its status. -/
def State.heldCheck (s : State) (p : Port) : List StageEntry → Option Reply
  | [] => none
  | e :: es =>
    if (s.chan e.channel).state = .unavailable then some (Reply.naming .unavailable e.channel)
    else if s.holds p e.channel then s.heldCheck p es
    else some (Reply.naming .notHolder e.channel)

/-- Checks 2 to 6 of a Commit or Arm; the refusal, or none when every check passes (R57, R69). -/
def State.commitChecks (s : State) (p : Port) : Option Reply :=
  if s.faultAsserted then some (Reply.bare .faultActive)
  else if (s.commit p).armed.isSome then some (Reply.bare .armed)
  else if (s.commit p).staging.isEmpty then some (Reply.bare .nothingStaged)
  else
    match s.heldCheck p (s.commit p).staging with
    | some r => some r
    | none => (s.firstFaulted (s.commit p).staging).map (Reply.naming .faulted)

/-- Is the entry applied as a jump (R60 step 4)? -/
def ChannelRecord.jumpsFor (r : ChannelRecord) (e : StageEntry) : Bool :=
  e.jump || r.rampStep == 0

/-- The record after an entry is applied (R60 steps 1, 2 and 4). -/
def ChannelRecord.committed (r : ChannelRecord) (e : StageEntry) : ChannelRecord :=
  { r with
    state := .live
    target := r.clamp e.code
    present := if r.jumpsFor e then r.clamp e.code else r.present }

/-- One entry is applied: its record, the renewal of its lease, and the update entry of a jump (R60, R62, R63). -/
def State.applyEntry (s : State) (e : StageEntry) : State :=
  let r := s.chan e.channel
  let s' := (s.setChan e.channel (r.committed e)).renewLease e.channel
  if r.jumpsFor e then s'.place e.channel (r.clamp e.code) .commit else s'

/-- Every entry is applied, in list order (R60). -/
def State.applyEntries (s : State) (es : List StageEntry) : State :=
  es.foldl State.applyEntry s

/-- The channels whose code the clamp changes (R61). -/
def State.clampedMask (s : State) (es : List StageEntry) : Mask :=
  maskOf (fun c => es.any (fun e => e.channel == c && (s.chan c).clamp e.code != e.code))

/-- Commit (R57 to R65). -/
def takeCommit (p : Port) (_args : List Byte) (s : State) : State × Reply :=
  match s.commitChecks p with
  | some r => (s, r)
  | none =>
    let rec' := s.commit p
    ((s.applyEntries rec'.staging).setCommit p
        { rec' with staging := [], nextNumber := advanceNumber rec'.nextNumber },
      { status := .ok, data := wordBytes rec'.nextNumber ++ wordBytes (s.clampedMask rec'.staging) })

/-- Arm (R69, R70). -/
def takeArm (p : Port) (args : List Byte) (s : State) : State × Reply :=
  let window := (argWord args 0).toNat
  if Config.maxArmWindow < window then (s, Reply.bare .badArgument)
  else
    match s.commitChecks p with
    | some r => (s, r)
    | none =>
      let rec' := s.commit p
      (s.setCommit p
          { staging := []
            armed := some { entries := rec'.staging, number := rec'.nextNumber, window := window }
            nextNumber := advanceNumber rec'.nextNumber },
        { status := .ok, data := wordBytes rec'.nextNumber })

/-- The host's armed set is gone. -/
def State.disarm (s : State) (p : Port) : State :=
  s.setCommit p { s.commit p with armed := none }

/-- Disarm (R73). -/
def takeDisarm (p : Port) (_args : List Byte) (s : State) : State × Reply :=
  match (s.commit p).armed with
  | none => (s, Reply.bare .notArmed)
  | some _ => (s.disarm p, Reply.bare .ok)

/-- Read Armed (R72). -/
def takeReadArmed (p : Port) (_args : List Byte) (s : State) : State × Reply :=
  match (s.commit p).armed with
  | none => (s, Reply.bare .notArmed)
  | some a => (s, { status := .ok, data := a.bytes })

/-- Why an armed set fails at fire, with the channel byte of its COMMIT_FAILED; none when it passes (R77, R79). -/
def State.fireCheck (s : State) (p : Port) (a : ArmedSet) : Option (Status × Byte) :=
  if s.faultAsserted then some (.faultActive, noChannel)
  else
    match s.firstNotHeld p a.entries with
    | some c => some (.notHolder, channelByte c)
    | none => (s.firstFaulted a.entries).map (fun c => (.faulted, channelByte c))

/-- An armed set fires: it is applied with COMMIT_APPLIED, or discarded with COMMIT_FAILED (R78, R79). -/
def State.fireSet (s : State) (p : Port) (a : ArmedSet) : State :=
  match s.fireCheck p a with
  | some (why, c) => (s.disarm p).sendTo p .commitFailed c why.code a.number
  | none =>
    ((s.applyEntries a.entries).disarm p).sendTo p .commitApplied (hiByte (s.clampedMask a.entries))
      (loByte (s.clampedMask a.entries)) a.number

/-- The armed set of a port, if it has one, fires. -/
def State.firePort (s : State) (p : Port) : State :=
  match (s.commit p).armed with
  | none => s
  | some a => s.fireSet p a

/-- A sync event: every armed set present fires, in ascending port order (R75, R80). -/
def State.syncEvent (s : State) : State :=
  overAll 3 (fun p t => t.firePort p) s

/-- Does the port's armed set pass at a sync event? None where there is no set. -/
def State.firePasses (s : State) (p : Port) : Option Bool :=
  (s.commit p).armed.map (fun a => (s.fireCheck p a).isNone)

/-- A port mask: bit p for port p, bits 3 to 7 clear (R76). -/
def portMaskOf (f : Port → Bool) : Byte :=
  BitVec.ofFnLE (fun i : Fin 8 => if h : i.val < 3 then f ⟨i.val, h⟩ else false)

/-- Sync (R76). The masks are decided on the state standing when the sync event is taken, which no set's application
changes for another (R80). -/
def takeSync (_p : Port) (_args : List Byte) (s : State) : State × Reply :=
  (s.syncEvent,
    { status := .ok
      data := [portMaskOf (fun q => s.firePasses q == some true), portMaskOf (fun q => s.firePasses q == some false)] })

/-- The lease tick's action on a host's armed set (R74). -/
def State.tickArm (s : State) (p : Port) : State :=
  match (s.commit p).armed with
  | none => s
  | some a =>
    if a.window = 0 then s
    else if a.window = 1 then (s.disarm p).sendTo p .armExpired noChannel noReason a.number
    else s.setCommit p { s.commit p with armed := some { a with window := a.window - 1 } }

/-- The whole lease tick (R35): the time count rises, then every held lease is acted on, then every limited arm window
(R166). -/
def State.tick (s : State) : State :=
  overAll 3 (fun p t => t.tickArm p)
    (overAll 16 (fun c t => t.tickLease c) { s with timeCount := s.timeCount + 1 })

/-- LEASE_TICK: the timebase does not run during device reset (R177). -/
def execLeaseTick (s : State) : Host.Outcome State Fault Refusal :=
  .next (if s.inReset then s else s.tick)

/-- Does the lease tick find this channel's held lease at its last millisecond (R36)? -/
def State.leaseEnds (s : State) (c : Channel) : Bool :=
  match (s.lease c).held with
  | none => false
  | some l => l.remaining == 1

/-- Does the lease tick find this host's arm window at its last millisecond (R74)? -/
def State.windowEnds (s : State) (p : Port) : Bool :=
  match (s.commit p).armed with
  | none => false
  | some a => a.window == 1

/-- LEASE_EXPIRY: the lease tick at which this channel's lease ends, whole, since a lease tick is one act (R35, R36).
DEDUCED, safe (log 8). -/
def execLeaseExpiry (c : Channel) (s : State) : Host.Outcome State Fault Refusal :=
  .next (if s.inReset || !s.leaseEnds c then s else s.tick)

/-- ARM_WINDOW_EXPIRY: the lease tick at which this host's arm window ends, whole (R35, R74). DEDUCED, safe (log 8). -/
def execArmWindowExpiry (p : Port) (s : State) : Host.Outcome State Fault Refusal :=
  .next (if s.inReset || !s.windowEnds p then s else s.tick)

/-- SYNC_EDGE: a qualified rising edge on an armed qualifier is one sync event, and disarms it (R178). -/
def execSyncEdge (s : State) : Host.Outcome State Fault Refusal :=
  .next (if s.inReset || !s.syncArmed then s else { s.syncEvent with syncArmed := false })

/-- SYNC_QUALIFIER_ARM: SYNC low for 100 ns arms the qualifier (R178). -/
def execSyncQualifierArm (s : State) : Host.Outcome State Fault Refusal :=
  .next (if s.inReset then s else { s with syncArmed := true })

end Sys2Proof.Machine
end

