-- ==== Sys2Proof/Machine/Ramp.lean ====
section
/-! DEFINITION. The ramp engine (chapter 5). -/

namespace Sys2Proof.Machine

/-- Present moves toward target by the step or the distance, whichever is smaller (R87). -/
def rampStepped (present target step : Code) : Code :=
  if present < target then
    if target - present ≤ step then target else present + step
  else
    if present - target ≤ step then target else present - step

/-- Is the channel moving (chapter 5)? -/
def ChannelRecord.moving (r : ChannelRecord) : Bool :=
  (r.state == .safe || r.state == .live) && r.present != r.target

/-- Present after the ramp tick: at target by a jump when the step is 0 (R88), one step nearer otherwise (R87), where it
stands on a channel that is not moving (R86). -/
def ChannelRecord.rampedPresent (r : ChannelRecord) : Code :=
  if r.moving then
    if r.rampStep = 0 then r.target else rampStepped r.present r.target r.rampStep
  else r.present

/-- Is RAMP_DONE due: a ramp step that brings present to target, with the report option set (R92)? -/
def ChannelRecord.rampDoneDue (r : ChannelRecord) : Bool :=
  r.moving && r.rampStep != 0 && r.rampedPresent == r.target && r.rampDoneReport

/-- RAMP_DONE goes to the holder; with no holder none is sent (R92). -/
def State.reportRamp (s : State) (c : Channel) (reached : Code) : State :=
  match s.holder c with
  | some p => s.sendTo p .rampDone (channelByte c) noReason reached
  | none => s

/-- The ramp tick's action on one channel (R86 to R88, R92). -/
def State.rampChannel (s : State) (c : Channel) : State :=
  let r := s.chan c
  if r.moving then
    let s' := s.jumpTo c r.rampedPresent .ramp
    if r.rampDoneDue then s'.reportRamp c r.rampedPresent else s'
  else s

/-- The whole ramp tick, in ascending channel order (R85, R87). -/
def State.rampTick (s : State) : State :=
  overAll 16 (fun c t => t.rampChannel c) s

/-- RAMP_TICK: the timebase does not run during device reset (R177). -/
def execRampTick (s : State) : Host.Outcome State Fault Refusal :=
  .next (if s.inReset then s else s.rampTick)

end Sys2Proof.Machine
end

