-- ==== Sys2Proof/Machine/Link.lean ====
section
/-! DEFINITION. The converter link controller (chapter 6): the frame on the link and its lines, the start-up probe, taking entries, the
verify result, and the end of start-up. -/

namespace Sys2Proof.Machine

/-- A link frame under way: the slot whose chip select is low and the three bytes on DSDO (R97, R161). -/
structure LinkFrame where
  slot : Slot
  bytes : List Byte
  deriving DecidableEq, Repr

/-- Write Code (R161). -/
def writeCodeFrame (e : UpdateEntry) : LinkFrame :=
  { slot := slotOf e.channel
    bytes := (0x20 ||| BitVec.ofNat 8 (converterChannelOf e.channel).val) :: wordBytes e.code }

/-- Read Code (R161). -/
def readCodeFrame (e : UpdateEntry) : LinkFrame :=
  { slot := slotOf e.channel
    bytes := [0x60 ||| BitVec.ofNat 8 (converterChannelOf e.channel).val, 0, 0] }

/-- Read Ident (R161). -/
def readIdentFrame (k : Slot) : LinkFrame :=
  { slot := k, bytes := [0xE0, 0, 0] }

/-- The slot being probed: the first one still PROBING (R102). -/
def State.probed (s : State) : Option Slot :=
  (ascending 4).find? (fun k => (s.slot k).state == .probing)

/-- The frame the link carries in its present phase (R97, R102, R111, R112); none while device reset lasts (R177). -/
def State.linkFrame (s : State) : Option LinkFrame :=
  if s.inReset then none
  else
    match s.linkPhase with
    | .probing => s.probed.map readIdentFrame
    | .idle => none
    | .writing => s.inFlight.map writeCodeFrame
    | .verifying => s.inFlight.map readCodeFrame

/-- DCSs is high but for the slot whose frame is under way; so at most one chip select is low (R97, R177). -/
def State.chipSelectHigh (s : State) (k : Slot) : Bool :=
  match s.linkFrame with
  | some f => f.slot != k
  | none => true

/-- What the part does with DSCK. -/
inductive DsckDrive where
  /-- The clock rests low. -/
  | low
  /-- The clock runs for this many periods, one whole frame. -/
  | clocking (periods : Nat)
  deriving DecidableEq, Repr

/-- DSCK: it runs within a frame, and rests low between frames and while device reset lasts (R97, R120, R177). -/
def State.dsck (s : State) : DsckDrive :=
  match s.linkFrame with
  | some _ => .clocking Config.linkFrameEdges
  | none => .low

/-- What the part does with DSDO. -/
inductive DsdoDrive where
  /-- The output is held low. -/
  | low
  /-- The output sends these bytes of a frame. -/
  | sending (bytes : List Byte)
  /-- Between two frames the manual states no level, and the model has none (log 21). -/
  | unstated
  deriving DecidableEq, Repr

/-- DSDO: low while device reset lasts (R177), the frame's bytes within a frame (R97, R161). DESIGN CHOICE, safe: no level
between frames (log 21). -/
def State.dsdo (s : State) : DsdoDrive :=
  if s.inReset then .low
  else
    match s.linkFrame with
    | some f => .sending f.bytes
    | none => .unstated

/-- Is any channel STARTING? -/
def State.anyStarting (s : State) : Bool :=
  (ascending 16).any (fun c => (s.chan c).state == .starting)

/-- The act that leaves no channel STARTING ends start-up (R101, R106). -/
def State.endStartup (s : State) : State :=
  if s.devicePhase = .starting ∧ s.anyStarting = false then
    ({ s with devicePhase := .running }).sendAll .startupDone noChannel noReason (s.presenceMask.setWidth 16)
  else s

/-- A slot's outcome (R102): PRESENT with its revision, or ABSENT with its channels UNAVAILABLE (R103). -/
def State.decideSlot (s : State) (k : Slot) (mark revision : Byte) : State :=
  if mark = Config.presenceMark then s.setSlot k { state := .present, revision := some revision }
  else
    overAll 16 (fun c t => if slotOf c = k then t.setChan c { t.chan c with state := .unavailable } else t)
      (s.setSlot k { state := .absent, revision := none })

/-- The start-up writes: one START entry of the fallback for every channel of every PRESENT slot (R104). -/
def State.placeStarts (s : State) : State :=
  overAll 16 (fun c t =>
    if (t.slot (slotOf c)).state = .present then t.place c (t.chan c).fallback .start else t) s

/-- When the fourth slot's outcome has been decided, the probe ends (R102, R104, R106). -/
def State.endProbe (s : State) : State :=
  match s.probed with
  | some _ => s
  | none => ({ s with linkPhase := .idle }).placeStarts.endStartup

/-- PROBE_SLOT: the Read Ident frame of the slot being probed ends (R102). -/
def execProbeSlot (mark revision : Byte) (s : State) : Host.Outcome State Fault Refusal :=
  .next
    (if s.inReset then s
     else
       match s.linkPhase, s.probed with
       | .probing, some k => (s.decideSlot k mark revision).endProbe
       | _, _ => s)

/-- LINK_TAKE_ENTRY: the IDLE link takes the head entry (R111). -/
def execLinkTakeEntry (s : State) : Host.Outcome State Fault Refusal :=
  .next
    (match s.linkPhase, s.queue with
     | .idle, e :: rest => { s with queue := rest, inFlight := some e, linkPhase := .writing }
     | _, _ => s)

/-- WRITE_CODE_DONE: the Read Code frame follows (R112). -/
def execWriteCodeDone (s : State) : Host.Outcome State Fault Refusal :=
  .next (if s.linkPhase = .writing then { s with linkPhase := .verifying } else s)

/-- The record after a verify match of this code (R113). -/
def ChannelRecord.verified (r : ChannelRecord) (code : Code) : ChannelRecord :=
  { r with
    confirmed := some code
    failures := 0
    state := if r.state = .starting then .safe else r.state }

/-- A verify match (R113). -/
def State.verifyMatch (s : State) (e : UpdateEntry) : State :=
  s.setChan e.channel ((s.chan e.channel).verified e.code)

/-- A first or second verify failure (R114). -/
def State.verifyRetry (s : State) (e : UpdateEntry) : State :=
  let r := s.chan e.channel
  let s' := s.setChan e.channel { r with failures := r.failures + 1 }
  if (s.waiting e.channel).isSome then s' else s'.place e.channel e.code e.origin

/-- The record of a channel that becomes FAULTED (R115, R116). -/
def ChannelRecord.fault (r : ChannelRecord) : ChannelRecord :=
  { r with failures := Config.failuresToFault, state := .faulted }

/-- The channel's waiting entry is removed (R109). -/
def State.unplace (s : State) (c : Channel) : State :=
  { s with queue := Machine.unplace s.queue c }

/-- The third consecutive verify failure (R115). -/
def State.verifyFault (s : State) (e : UpdateEntry) (read : Code) : State :=
  ((s.setChan e.channel (s.chan e.channel).fault).unplace e.channel).sendHolderOrAll (s.holder e.channel) .channelFault
    (channelByte e.channel) (loByte read) e.code

/-- The verify result of the in-flight entry (R112 to R115). -/
def State.verify (s : State) (e : UpdateEntry) (read : Code) : State :=
  if read = e.code then s.verifyMatch e
  else if (s.chan e.channel).failures + 1 < Config.failuresToFault then s.verifyRetry e
  else s.verifyFault e read

/-- VERIFY_RESULT: the result is acted on, the transaction ends and the link is IDLE again (R112, R117). -/
def execVerifyResult (read : Code) (s : State) : Host.Outcome State Fault Refusal :=
  .next
    (match s.linkPhase, s.inFlight with
     | .verifying, some e => ({ s.verify e read with inFlight := none, linkPhase := .idle }).endStartup
     | _, _ => s)

end Sys2Proof.Machine
end

