-- ==== Sys2Proof/Machine/Converter.lean ====
section
/-! DEFINITION. The converter side of the link protocol as far as the part depends on it (R99). A converter is outside the
part: it is no field of State, and what it drives on DSDI is an operand of PROBE_SLOT and VERIFY_RESULT (log 14). -/

namespace Sys2Proof.Machine

/-- A converter: a held code for each of its four channels, and its revision. -/
structure Converter where
  held : Table 4 Code
  revision : Byte
  deriving DecidableEq, Repr

/-- What a converter does with the three bytes of an accepted frame. -/
inductive ConverterRequest where
  | write (k : ConverterChannel) (code : Code)
  | read (k : ConverterChannel)
  | ident
  | other
  deriving DecidableEq, Repr

/-- The converter channel in the low nibble of a first byte (R161), none above 3. -/
def converterNibble (b : Byte) : Option ConverterChannel :=
  if h : b.toNat % 16 < 4 then some ⟨b.toNat % 16, h⟩ else none

/-- The request three frame bytes carry (R161). -/
def converterRequest : List Byte → ConverterRequest
  | [b, hi, lo] =>
    match b >>> 4, converterNibble b with
    | 2, some k => .write k (wordOf hi lo)
    | 6, some k => .read k
    | _, _ => if b = 0xE0 then .ident else .other
  | _ => .other

/-- The converter after a frame (R99): a frame of 24 edges that writes replaces the held code; any other count of edges
changes nothing. -/
def Converter.after (v : Converter) (edges : Nat) (bytes : List Byte) : Converter :=
  if edges = Config.linkFrameEdges then
    match converterRequest bytes with
    | .write k code => { v with held := v.held.set k code }
    | _ => v
  else v

/-- What the converter drives on DSDI in the second and third bytes of a frame (R99); none where it drives nothing. -/
def Converter.answer (v : Converter) (bytes : List Byte) : Option (Byte × Byte) :=
  match converterRequest bytes with
  | .read k => some (hiByte (v.held.get k), loByte (v.held.get k))
  | .ident => some (Config.presenceMark, v.revision)
  | _ => none

end Sys2Proof.Machine
end

