-- ==== Sys2Proof/Machine/FaultInput.lean ====
section
/-! DEFINITION. The FAULT input (section 7.1). -/

namespace Sys2Proof.Machine

/-- The host's armed set, if any, is dropped with COMMIT_FAILED (R83, R122). -/
def State.dropArmed (s : State) (p : Port) : State :=
  match (s.commit p).armed with
  | none => s
  | some a => (s.disarm p).sendTo p .commitFailed noChannel Status.faultActive.code a.number

/-- An assertion (R122): safe entry everywhere, armed sets dropped, every host told. -/
def State.assertFault (s : State) : State :=
  (overAll 3 (fun p t => t.dropArmed p)
    (overAll 16 (fun c t => t.safeEntry c) { s with faultAsserted := true })).sendAll .faultAsserted noChannel noReason 0

/-- FAULT_ASSERTION: the filtered state changes from released to asserted (R121, R122); the pin is not sampled during
device reset (R177). -/
def execFaultAssertion (s : State) : Host.Outcome State Fault Refusal :=
  .next (if s.inReset || s.faultAsserted then s else s.assertFault)

/-- FAULT_RELEASE: the filtered state changes from asserted to released (R121, R125). -/
def execFaultRelease (s : State) : Host.Outcome State Fault Refusal :=
  .next
    (if s.inReset || !s.faultAsserted then s
     else ({ s with faultAsserted := false }).sendAll .faultReleased noChannel noReason 0)

end Sys2Proof.Machine
end

