-- ==== Sys2Proof/Machine/EventUnit.lean ====
section
/-! DEFINITION. The commands of the event unit (chapter 9): Read Events, Set Event Mask and Event Test. -/

namespace Sys2Proof.Machine

/-- Read Events (R169). -/
def takeReadEvents (p : Port) (args : List Byte) (s : State) : State × Reply :=
  let count := (argByte args 0).toNat
  if count = 0 ∨ Config.maxReadEvents < count then (s, Reply.bare .badArgument)
  else
    let q := (s.event p).queue
    (s.setEvent p { s.event p with queue := q.drop count }, { status := .ok, data := eventsBytes (q.take count) })

/-- Set Event Mask (R170). -/
def takeSetEventMask (p : Port) (args : List Byte) (s : State) : State × Reply :=
  let mask := argByte args 0
  let enable := argByte args 1
  if mask &&& 0xC0 ≠ 0 ∨ 1 < enable then (s, Reply.bare .badArgument)
  else
    (s.setEvent p { s.event p with mask := mask.setWidth 6, enable := enable == 1 }, Reply.bare .ok)

/-- Event Test (R171). -/
def takeEventTest (p : Port) (_args : List Byte) (s : State) : State × Reply :=
  (s.sendTo p .test noChannel noReason 0, Reply.bare .ok)

end Sys2Proof.Machine
end

