-- ==== Sys2Proof/Machine/HostPort.lean ====
section
/-! DEFINITION. The host ports (chapter 8): the port's own commands, the framing checks, taking a request, the last-reply
store and the edges of the chip select. -/

namespace Sys2Proof.Machine

/-- Nop (R146). -/
def takeNop (_p : Port) (_args : List Byte) (s : State) : State × Reply :=
  (s, Reply.bare .ok)

/-- Read Status (R147). -/
def takeReadStatus (p : Port) (_args : List Byte) (s : State) : State × Reply :=
  (s, { status := .ok, data := s.statusRecord p })

/-- Read Ident (R150). -/
def takeReadIdent (_p : Port) (_args : List Byte) (s : State) : State × Reply :=
  (s, { status := .ok, data := s.identRecord })

/-- Repeat Reply (R145). -/
def takeRepeatReply (p : Port) (_args : List Byte) (s : State) : State × Reply :=
  (s, (s.port p).store.getD (Reply.bare .noReply))

/-- Port Clear in the commit unit: the staging list and the armed set go, the number stays (R67, R84). -/
def State.clearCommit (s : State) (p : Port) : State :=
  s.setCommit p { s.commit p with staging := [], armed := none }

/-- Port Clear on one channel's lease record: the host's wait is withdrawn; its lease ends with policy SAFE and the head
waiter is granted (R48). -/
def State.clearLease (s : State) (p : Port) (c : Channel) : State :=
  let s' := if s.waits p c then s.withdraw p c else s
  if s'.holds p c then s'.releaseChannel .safe c else s'

/-- Port Clear in the event unit (R174). -/
def State.clearEvents (s : State) (p : Port) : State :=
  s.setEvent p EventUnit.reset

/-- Port Clear (R148): the teardown in every block; the port empties its store and its request as it answers. -/
def takePortClear (p : Port) (_args : List Byte) (s : State) : State × Reply :=
  ((((overAll 16 (fun c t => t.clearLease p c) (s.clearCommit p)).setLead p 0).clearEvents p), Reply.bare .ok)

/-- A request that has passed the framing checks is taken by the block that owns its command (R141, R154). -/
def takeCommand (name : CommandName) (p : Port) (args : List Byte) (s : State) : State × Reply :=
  match name with
  | .nop => takeNop p args s
  | .readStatus => takeReadStatus p args s
  | .readIdent => takeReadIdent p args s
  | .repeatReply => takeRepeatReply p args s
  | .portClear => takePortClear p args s
  | .claim => takeClaim p args s
  | .renew => takeRenew p args s
  | .release => takeRelease p args s
  | .readLease => takeReadLease p args s
  | .setWarning => takeSetWarning p args s
  | .stage => takeStage p args s
  | .unstage => takeUnstage p args s
  | .readStage => takeReadStage p args s
  | .commit => takeCommit p args s
  | .arm => takeArm p args s
  | .disarm => takeDisarm p args s
  | .sync => takeSync p args s
  | .readArmed => takeReadArmed p args s
  | .setLimits => takeSetLimits p args s
  | .setFallback => takeSetFallback p args s
  | .setRamp => takeSetRamp p args s
  | .readChannel => takeReadChannel p args s
  | .forceSafe => takeForceSafe p args s
  | .clearFault => takeClearFault p args s
  | .readEvents => takeReadEvents p args s
  | .setEventMask => takeSetEventMask p args s
  | .eventTest => takeEventTest p args s

/-- The four framing checks of R140, in their order: the refusal, or the command. -/
def framing (phase : DevicePhase) (r : Request) : Except Status CommandName :=
  if r.check ≠ some r.running then .error .checkError
  else
    match CommandName.ofCode r.code with
    | none => .error .badCommand
    | some name =>
      if !name.lenAllowed r.len then .error .badLength
      else if phase = .starting ∧ !name.takenInStarting then .error .notReady
      else .ok name

/-- The port answers: it enters REPLY with the request it has received and begins to shift the reply out (R135, R139). -/
def PortRecord.answered (r : PortRecord) (q : Request) (reply : Reply) : PortRecord :=
  { r with phase := .reply, request := q, sending := some reply }

/-- The last-reply store after a taken command (R142): its reply, but untouched by Repeat Reply (R145) and emptied by Port
Clear (R148). -/
def PortRecord.stored (r : PortRecord) (name : CommandName) (reply : Reply) : PortRecord :=
  match name with
  | .repeatReply => r
  | .portClear => { r with store := none }
  | _ => { r with store := some reply }

/-- What the port keeps of the request once it has answered: Port Clear leaves none (R135). -/
def requestAfter (name : CommandName) (q : Request) : Request :=
  match name with
  | .portClear => Request.empty
  | _ => q

/-- A taken command: its effect on the part, then its reply in the port (R141). -/
def State.takeAndAnswer (s : State) (p : Port) (name : CommandName) (q : Request) : State :=
  let (s', reply) := takeCommand name p q.args s
  s'.setPort p (((s'.port p).stored name reply).answered (requestAfter name q) reply)

/-- CHECK has been received: the request is checked, and refused or taken (R140, R141). -/
def State.decideRequest (s : State) (p : Port) (q : Request) : State :=
  match framing s.devicePhase q with
  | .error st => s.setPort p ((s.port p).answered q (Reply.bare st))
  | .ok name => s.takeAndAnswer p name q

/-- Bytes arrive on HPn_SDI (R135, R137): in REQUEST they are received, and the CHECK among them decides the request; in
every other decoder phase they are ignored. -/
def State.receiveBytes (s : State) (p : Port) (bytes : List Byte) : State :=
  let r := s.port p
  if r.phase = .request then
    let q := r.request.receiveAll bytes
    if q.check.isSome then s.decideRequest p q else s.setPort p { r with request := q }
  else s

/-- A whole request of this command arrives (R137). -/
def State.request (s : State) (p : Port) (name : CommandName) (args : List Byte) : State :=
  s.receiveBytes p (requestBytes name args)

/-- The frame is over: DESELECTED, with nothing received and nothing to send (R135). -/
def PortRecord.deselect (r : PortRecord) : PortRecord :=
  { r with phase := .deselected, request := Request.empty, sending := none, csLow := false }

/-- HPn_CS rises (R135, R143, R144): in REQUEST the frame is cut, and FRAME_CUT is sent when at least one complete byte
arrived; in any other phase no event is sent. -/
def State.chipSelectRise (s : State) (p : Port) : State :=
  let r := s.port p
  let s' := s.setPort p r.deselect
  if r.phase = .request ∧ r.request.count ≠ 0 then
    s'.sendTo p .frameCut noChannel noReason (BitVec.ofNat 16 r.request.count)
  else s'

/-- FRAME_OPEN: HPn_CS falls (R135). A chip select already low gives no falling edge; during device reset the port does not
sample its inputs, so no frame opens (R177). -/
def execFrameOpen (p : Port) (s : State) : Host.Outcome State Fault Refusal :=
  let r := s.port p
  .next
    (if r.csLow then s
     else if s.inReset ∨ r.phase ≠ .deselected then s.setPort p { r with csLow := true }
     else s.setPort p { r with csLow := true, phase := .request, request := Request.empty })

/-- FRAME_CUT: these complete bytes arrive and HPn_CS rises (R143). -/
def execFrameCut (p : Port) (bytes : List Byte) (s : State) : Host.Outcome State Fault Refusal :=
  .next ((s.receiveBytes p bytes).chipSelectRise p)

/-- FRAME_END: HPn_CS rises (R144). -/
def execFrameEnd (p : Port) (s : State) : Host.Outcome State Fault Refusal :=
  .next (s.chipSelectRise p)

/-- RCHECK_SHIFTED_OUT: the port leaves REPLY for TRAILER (R135, R139). -/
def execRcheckShiftedOut (p : Port) (s : State) : Host.Outcome State Fault Refusal :=
  .next
    (if (s.port p).phase = .reply then s.setPort p { s.port p with phase := .trailer, sending := none } else s)

/-- BAD_COMMAND: a request with this code and this CHECK (R140). -/
def execBadCommand (p : Port) (code : Byte) (args : List Byte) (check : Byte) (s : State) :
    Host.Outcome State Fault Refusal :=
  .next (s.receiveBytes p (requestBody code args ++ [check]))

/-- NOP (R146). -/
def execNop (p : Port) (args : List Byte) (s : State) : Host.Outcome State Fault Refusal :=
  .next (s.request p .nop args)

/-- READ_STATUS (R147). -/
def execReadStatus (p : Port) (args : List Byte) (s : State) : Host.Outcome State Fault Refusal :=
  .next (s.request p .readStatus args)

/-- READ_IDENT (R150). -/
def execReadIdent (p : Port) (args : List Byte) (s : State) : Host.Outcome State Fault Refusal :=
  .next (s.request p .readIdent args)

/-- REPEAT_REPLY (R145). -/
def execRepeatReply (p : Port) (args : List Byte) (s : State) : Host.Outcome State Fault Refusal :=
  .next (s.request p .repeatReply args)

/-- PORT_CLEAR (R148). -/
def execPortClear (p : Port) (args : List Byte) (s : State) : Host.Outcome State Fault Refusal :=
  .next (s.request p .portClear args)

/-- CLAIM (R26 to R30). -/
def execClaim (p : Port) (args : List Byte) (s : State) : Host.Outcome State Fault Refusal :=
  .next (s.request p .claim args)

/-- RENEW (R31). -/
def execRenew (p : Port) (args : List Byte) (s : State) : Host.Outcome State Fault Refusal :=
  .next (s.request p .renew args)

/-- RELEASE (R33). -/
def execRelease (p : Port) (args : List Byte) (s : State) : Host.Outcome State Fault Refusal :=
  .next (s.request p .release args)

/-- READ_LEASE (R44). -/
def execReadLease (p : Port) (args : List Byte) (s : State) : Host.Outcome State Fault Refusal :=
  .next (s.request p .readLease args)

/-- SET_WARNING (R41). -/
def execSetWarning (p : Port) (args : List Byte) (s : State) : Host.Outcome State Fault Refusal :=
  .next (s.request p .setWarning args)

/-- STAGE (R53). -/
def execStage (p : Port) (args : List Byte) (s : State) : Host.Outcome State Fault Refusal :=
  .next (s.request p .stage args)

/-- UNSTAGE (R55). -/
def execUnstage (p : Port) (args : List Byte) (s : State) : Host.Outcome State Fault Refusal :=
  .next (s.request p .unstage args)

/-- READ_STAGE (R56). -/
def execReadStage (p : Port) (args : List Byte) (s : State) : Host.Outcome State Fault Refusal :=
  .next (s.request p .readStage args)

/-- COMMIT (R57). -/
def execCommit (p : Port) (args : List Byte) (s : State) : Host.Outcome State Fault Refusal :=
  .next (s.request p .commit args)

/-- ARM (R70). -/
def execArm (p : Port) (args : List Byte) (s : State) : Host.Outcome State Fault Refusal :=
  .next (s.request p .arm args)

/-- DISARM (R73). -/
def execDisarm (p : Port) (args : List Byte) (s : State) : Host.Outcome State Fault Refusal :=
  .next (s.request p .disarm args)

/-- SYNC (R76). -/
def execSync (p : Port) (args : List Byte) (s : State) : Host.Outcome State Fault Refusal :=
  .next (s.request p .sync args)

/-- READ_ARMED (R72). -/
def execReadArmed (p : Port) (args : List Byte) (s : State) : Host.Outcome State Fault Refusal :=
  .next (s.request p .readArmed args)

/-- SET_LIMITS (R16). -/
def execSetLimits (p : Port) (args : List Byte) (s : State) : Host.Outcome State Fault Refusal :=
  .next (s.request p .setLimits args)

/-- SET_FALLBACK (R17). -/
def execSetFallback (p : Port) (args : List Byte) (s : State) : Host.Outcome State Fault Refusal :=
  .next (s.request p .setFallback args)

/-- SET_RAMP (R93). -/
def execSetRamp (p : Port) (args : List Byte) (s : State) : Host.Outcome State Fault Refusal :=
  .next (s.request p .setRamp args)

/-- READ_CHANNEL (R18). -/
def execReadChannel (p : Port) (args : List Byte) (s : State) : Host.Outcome State Fault Refusal :=
  .next (s.request p .readChannel args)

/-- FORCE_SAFE (R127). -/
def execForceSafe (p : Port) (args : List Byte) (s : State) : Host.Outcome State Fault Refusal :=
  .next (s.request p .forceSafe args)

/-- CLEAR_FAULT (R130). -/
def execClearFault (p : Port) (args : List Byte) (s : State) : Host.Outcome State Fault Refusal :=
  .next (s.request p .clearFault args)

/-- READ_EVENTS (R169). -/
def execReadEvents (p : Port) (args : List Byte) (s : State) : Host.Outcome State Fault Refusal :=
  .next (s.request p .readEvents args)

/-- SET_EVENT_MASK (R170). -/
def execSetEventMask (p : Port) (args : List Byte) (s : State) : Host.Outcome State Fault Refusal :=
  .next (s.request p .setEventMask args)

/-- EVENT_TEST (R171). -/
def execEventTest (p : Port) (args : List Byte) (s : State) : Host.Outcome State Fault Refusal :=
  .next (s.request p .eventTest args)

end Sys2Proof.Machine
end

