-- ==== Sys2Proof/Machine/Device.lean ====
section
/-! DEFINITION. Device reset (R177): its beginning and its end. -/

namespace Sys2Proof.Machine

/-- The port as device reset finds its pin: at its reset values, the chip select where the host holds it (log 15). -/
def PortRecord.resetAt (r : PortRecord) : PortRecord :=
  { PortRecord.reset with csLow := r.csLow }

/-- Every block at its reset values (R177); the levels of the chip selects are the hosts' (log 15). -/
def State.deviceReset (s : State) : State :=
  { State.reset with
    ports := Table.ofFn (fun p => (s.port p).resetAt)
    pending := s.pending }

/-- DEVICE_RESET: power-on, or RESET low for 1 us (R177). -/
def execDeviceReset (s : State) : Host.Outcome State Fault Refusal :=
  .next s.deviceReset

/-- The rank that a port's straps give: RANKnB high bit, RANKnA low bit (R151). -/
def strapRank (rankA rankB : BitVec 3) (p : Port) : BitVec 2 :=
  BitVec.ofBool (rankB.getLsbD p.val) ++ BitVec.ofBool (rankA.getLsbD p.val)

/-- The end of device reset (R177): ranks sampled, the time count 0, the FAULT filter released, the SYNC qualifier armed
exactly when SYNC is low (R178); the link stands PROBING before SLOT0. -/
def State.resetEnd (s : State) (rankA rankB : BitVec 3) (syncHigh : Bool) : State :=
  { overAll 3 (fun p t => t.setPort p { t.port p with rank := strapRank rankA rankB p }) s with
    inReset := false
    timeCount := 0
    faultAsserted := false
    syncArmed := !syncHigh }

/-- DEVICE_RESET_END: RESET rises while device reset lasts (R177); otherwise nothing ends. -/
def execDeviceResetEnd (rankA rankB : BitVec 3) (syncHigh : Bool) (s : State) : Host.Outcome State Fault Refusal :=
  .next (if s.inReset then s.resetEnd rankA rankB syncHigh else s)

end Sys2Proof.Machine
end

