-- ==== Sys2Proof/Machine/Dispatch.lean ====
section
/-! DEFINITION. One arm per command: each calls its own meaning. -/

namespace Sys2Proof.Machine

/-- The effect of a command on everything but the queue of waiting commands. -/
def exec (i : Instr) (s : State) : Host.Outcome State Fault Refusal :=
  match i with
  | .nop p args => Sys2Proof.Machine.execNop p args s
  | .readStatus p args => Sys2Proof.Machine.execReadStatus p args s
  | .readIdent p args => Sys2Proof.Machine.execReadIdent p args s
  | .repeatReply p args => Sys2Proof.Machine.execRepeatReply p args s
  | .portClear p args => Sys2Proof.Machine.execPortClear p args s
  | .claim p args => Sys2Proof.Machine.execClaim p args s
  | .renew p args => Sys2Proof.Machine.execRenew p args s
  | .release p args => Sys2Proof.Machine.execRelease p args s
  | .readLease p args => Sys2Proof.Machine.execReadLease p args s
  | .setWarning p args => Sys2Proof.Machine.execSetWarning p args s
  | .stage p args => Sys2Proof.Machine.execStage p args s
  | .unstage p args => Sys2Proof.Machine.execUnstage p args s
  | .readStage p args => Sys2Proof.Machine.execReadStage p args s
  | .commit p args => Sys2Proof.Machine.execCommit p args s
  | .arm p args => Sys2Proof.Machine.execArm p args s
  | .disarm p args => Sys2Proof.Machine.execDisarm p args s
  | .sync p args => Sys2Proof.Machine.execSync p args s
  | .readArmed p args => Sys2Proof.Machine.execReadArmed p args s
  | .setLimits p args => Sys2Proof.Machine.execSetLimits p args s
  | .setFallback p args => Sys2Proof.Machine.execSetFallback p args s
  | .setRamp p args => Sys2Proof.Machine.execSetRamp p args s
  | .readChannel p args => Sys2Proof.Machine.execReadChannel p args s
  | .forceSafe p args => Sys2Proof.Machine.execForceSafe p args s
  | .clearFault p args => Sys2Proof.Machine.execClearFault p args s
  | .readEvents p args => Sys2Proof.Machine.execReadEvents p args s
  | .setEventMask p args => Sys2Proof.Machine.execSetEventMask p args s
  | .eventTest p args => Sys2Proof.Machine.execEventTest p args s
  | .badCommand p code args check => Sys2Proof.Machine.execBadCommand p code args check s
  | .frameOpen p => Sys2Proof.Machine.execFrameOpen p s
  | .frameCut p bytes => Sys2Proof.Machine.execFrameCut p bytes s
  | .frameEnd p => Sys2Proof.Machine.execFrameEnd p s
  | .leaseTick => Sys2Proof.Machine.execLeaseTick s
  | .leaseExpiry c => Sys2Proof.Machine.execLeaseExpiry c s
  | .armWindowExpiry p => Sys2Proof.Machine.execArmWindowExpiry p s
  | .rampTick => Sys2Proof.Machine.execRampTick s
  | .syncEdge => Sys2Proof.Machine.execSyncEdge s
  | .syncQualifierArm => Sys2Proof.Machine.execSyncQualifierArm s
  | .faultAssertion => Sys2Proof.Machine.execFaultAssertion s
  | .faultRelease => Sys2Proof.Machine.execFaultRelease s
  | .deviceReset => Sys2Proof.Machine.execDeviceReset s
  | .deviceResetEnd rankA rankB syncHigh => Sys2Proof.Machine.execDeviceResetEnd rankA rankB syncHigh s
  | .probeSlot mark revision => Sys2Proof.Machine.execProbeSlot mark revision s
  | .linkTakeEntry => Sys2Proof.Machine.execLinkTakeEntry s
  | .writeCodeDone => Sys2Proof.Machine.execWriteCodeDone s
  | .verifyResult read => Sys2Proof.Machine.execVerifyResult read s
  | .rcheckShiftedOut p => Sys2Proof.Machine.execRcheckShiftedOut p s

end Sys2Proof.Machine
end

