-- ==== Sys2Proof/Safety.lean ====
section
/-! DEFINITION. What counts as a sound state of the part: the laws the manual says hold at all times, block by block, and
their conjunction, which reset has and every step keeps. After them, the terms in which the claims about single commands
speak: a port that waits for a request, a reply, a grant, a row of the Claim table, a failed commit check. -/

namespace Sys2Proof.Safety

open Sys2Proof.Machine

/-- The law of a channel record (R3), its failure count (R116), and the records that keep their reset values (R5, R6). -/
structure ChannelLaw (r : ChannelRecord) : Prop where
  fallbackInWindow : r.limitLow ≤ r.fallback ∧ r.fallback ≤ r.limitHigh
  targetInWindow : r.limitLow ≤ r.target ∧ r.target ≤ r.limitHigh
  safeRests : r.state = .safe → r.target = r.fallback
  failureCount : r.failures ≤ 3 ∧ (r.failures = 3 ↔ r.state = .faulted)
  startingRests : r.state = .starting → r = { ChannelRecord.reset with failures := r.failures }
  unavailableRests : r.state = .unavailable → r = { ChannelRecord.reset with state := .unavailable }

/-- The laws of a lease record (R20, R22, R23) and of the order of its wait list (R25); a warning put
off is that of a lease at its duration (R46). -/
structure LeaseLaw (rank : Port → BitVec 2) (r : LeaseRecord) : Prop where
  times : ∀ l, r.held = some l → 1 ≤ l.remaining ∧ l.remaining ≤ l.duration ∧ l.duration ≤ Config.maxDuration
  noHolderNoWaiter : r.held = none → r.waiters = []
  holderNotWaiting : ∀ l, r.held = some l → ∀ w ∈ r.waiters, w.port ≠ l.holder
  noneTwice : (r.waiters.map Waiter.port).Nodup
  requested : ∀ w ∈ r.waiters, 1 ≤ w.duration ∧ w.duration ≤ Config.maxDuration
  ordered : r.waiters.Pairwise (fun v w => rank w.port ≤ rank v.port)
  restarted : ∀ l, r.held = some l → l.warningPutOff = true → l.remaining = l.duration

/-- The laws of a host's part of the commit unit (R51, R64, R68). -/
structure CommitLaw (r : CommitRecord) : Prop where
  stagedOnce : (r.staging.map StageEntry.channel).Nodup
  armedOnce : ∀ a, r.armed = some a → (a.entries.map StageEntry.channel).Nodup
  armedSome : ∀ a, r.armed = some a → a.entries ≠ []
  armedNumber : ∀ a, r.armed = some a → a.number ≠ 0
  armedWindow : ∀ a, r.armed = some a → a.window ≤ Config.maxArmWindow
  numberNotZero : r.nextNumber ≠ 0

/-- The law of an event queue (R168): at most 16 records, and an OVERFLOW record is the last, with a lost count of 2 to
255. -/
structure EventLaw (u : EventUnit) : Prop where
  capacity : u.queue.length ≤ Config.eventCapacity
  overflowLast : ∀ r ∈ u.queue.dropLast, r.kind ≠ .overflow
  lostCount : ∀ r ∈ u.queue, r.kind = .overflow → 2 ≤ r.tag ∧ r.tag ≤ Config.maxLost

/-- The law of a port (R135): a frame is open only while the chip select is low, a request waits for its first byte, and
a reply is being sent exactly in REPLY. -/
structure PortLaw (r : PortRecord) : Prop where
  frameSelected : r.phase ≠ .deselected → r.csLow = true
  requestFresh : r.phase = .request → r.request = Request.empty
  replySent : r.sending.isSome = true ↔ r.phase = .reply

/-- The law of a slot (R100): a revision is recorded exactly for a PRESENT slot. -/
def SlotLaw (r : SlotRecord) : Prop :=
  r.revision.isSome = true ↔ r.state = .present

/-- A state of which an entry may wait or be in flight (R108, R118). -/
def Deliverable (st : ChannelState) : Prop :=
  st ≠ .faulted ∧ st ≠ .unavailable

/-- The laws of the converter link (R97, R100 to R108, R111). -/
structure LinkLaw (s : State) : Prop where
  oncePerChannel : (s.queue.map UpdateEntry.channel).Nodup
  waitingDeliverable : ∀ e ∈ s.queue, Deliverable (s.chan e.channel).state
  flyingDeliverable : ∀ e, s.inFlight = some e → Deliverable (s.chan e.channel).state
  flyingPhase : s.inFlight.isSome = true ↔ (s.linkPhase = .writing ∨ s.linkPhase = .verifying)
  probingPhase : s.linkPhase = .probing ↔ s.probed.isSome = true
  probingEmpty : s.linkPhase = .probing → s.queue = [] ∧ s.devicePhase = .starting
  probingSlot : ∀ c, (s.slot (slotOf c)).state = .probing → (s.chan c).state = .starting
  probingChannel : s.linkPhase = .probing → ∀ c, s.chan c = ChannelRecord.reset ∨ (s.chan c).state = .unavailable
  absentSlot : ∀ c, (s.slot (slotOf c)).state = .absent ↔ (s.chan c).state = .unavailable

/-- The laws of start-up (R23, R51, R64, R101): the phase is STARTING exactly while a channel is, and nothing a host may
only do in RUNNING has been done. -/
structure StartLaw (s : State) : Prop where
  phase : s.devicePhase = .starting ↔ ∃ c, (s.chan c).state = .starting
  noLease : s.devicePhase = .starting → ∀ c, s.lease c = LeaseRecord.reset
  noCommit : s.devicePhase = .starting → ∀ p, s.commit p = CommitRecord.reset
  noLive : s.devicePhase = .starting → ∀ c, (s.chan c).state ≠ .live

/-- Every block stands at the values the manual gives for device reset (R1, R20, R21, R51, R64, R68, R100, R101, R107, R121,
R135, R162); the ranks and the levels of the chip selects are no such values. -/
structure ResetValues (s : State) : Prop where
  phase : s.devicePhase = .starting
  time : s.timeCount = 0
  fault : s.faultAsserted = false
  channels : ∀ c, s.chan c =
    { state := .starting, target := 0, present := 0, confirmed := none, fallback := 0, limitLow := 0, limitHigh := 65535,
      rampStep := 0, rampToFallback := false, rampDoneReport := false, failures := 0 }
  leases : ∀ c, s.lease c = { held := none, waiters := [] }
  leads : ∀ p, s.lead p = 0
  commits : ∀ p, s.commit p = { staging := [], armed := none, nextNumber := 1 }
  ports : ∀ p, (s.port p).phase = .deselected ∧ (s.port p).request = Request.empty ∧ (s.port p).store = none
  slots : ∀ k, s.slot k = { state := .probing, revision := none }
  queue : s.queue = [] ∧ s.inFlight = none ∧ s.linkPhase = .probing
  events : ∀ p, s.event p = { queue := [], mask := 0x3F, enable := false }

/-- While device reset lasts every block stands at its reset values (R120, R135, R152, R177). -/
def ResetLaw (s : State) : Prop :=
  s.inReset = true → ResetValues s

/-- An UNAVAILABLE channel never has a holder or a waiter (R6, R42). -/
def HoldLaw (s : State) : Prop :=
  ∀ c, (s.chan c).state = .unavailable → s.lease c = LeaseRecord.reset

/-- The law of the FAULT input (R123): while it is asserted no channel is LIVE and no host has an armed set. -/
structure FaultLaw (s : State) : Prop where
  noLive : s.faultAsserted = true → ∀ c, (s.chan c).state ≠ .live
  noArmed : s.faultAsserted = true → ∀ p, (s.commit p).armed = none

/-- Every law of the part. -/
structure Inv (s : State) : Prop where
  channels : ∀ c, ChannelLaw (s.chan c)
  leases : ∀ c, LeaseLaw s.rank (s.lease c)
  leads : ∀ p, s.lead p ≤ Config.maxLead
  commits : ∀ p, CommitLaw (s.commit p)
  events : ∀ p, EventLaw (s.event p)
  ports : ∀ p, PortLaw (s.port p)
  slots : ∀ k, SlotLaw (s.slot k)
  link : LinkLaw s
  startup : StartLaw s
  reset : ResetLaw s
  fault : FaultLaw s
  hold : HoldLaw s

/-! The terms of claims about one command -/

/-- The command of this name as its sender sends it (R154). -/
def commandOf (name : CommandName) (p : Port) (args : List Byte) : Instr :=
  match name with
  | .nop => .nop p args
  | .readStatus => .readStatus p args
  | .readIdent => .readIdent p args
  | .repeatReply => .repeatReply p args
  | .portClear => .portClear p args
  | .claim => .claim p args
  | .renew => .renew p args
  | .release => .release p args
  | .readLease => .readLease p args
  | .setWarning => .setWarning p args
  | .stage => .stage p args
  | .unstage => .unstage p args
  | .readStage => .readStage p args
  | .commit => .commit p args
  | .arm => .arm p args
  | .disarm => .disarm p args
  | .sync => .sync p args
  | .readArmed => .readArmed p args
  | .setLimits => .setLimits p args
  | .setFallback => .setFallback p args
  | .setRamp => .setRamp p args
  | .readChannel => .readChannel p args
  | .forceSafe => .forceSafe p args
  | .clearFault => .clearFault p args
  | .readEvents => .readEvents p args
  | .setEventMask => .setEventMask p args
  | .eventTest => .eventTest p args

/-- A frame is open on the port and no byte of its request has arrived (R135). -/
structure Listening (s : State) (p : Port) : Prop where
  frameOpen : (s.port p).phase = .request
  nothingReceived : (s.port p).request = Request.empty

/-- From s to t port p answers: it shifts the reply out, its last-reply store becomes `store`, its rank and chip select
stand, and so do the other ports (R139, R141). -/
structure Replies (s t : State) (p : Port) (r : Reply) (store : Option Reply) : Prop where
  phase : (t.port p).phase = .reply
  shifting : t.sdo p = .shifting r
  stored : (t.port p).store = store
  rank : t.rank p = s.rank p
  selected : (t.port p).csLow = (s.port p).csLow
  others : ∀ q, q ≠ p → t.port q = s.port q

/-- A taken command's reply: it is shifted out and stored (R141). -/
def Answers (s t : State) (p : Port) (r : Reply) : Prop := Replies s t p r (some r)

/-- A refusal by a framing check: no data, and the store keeps what it held (R140). -/
def Refuses (s t : State) (p : Port) (st : Status) : Prop :=
  Replies s t p { status := st, data := [] } (s.port p).store

/-- A lease just granted: remaining is the duration, warned is clear (R27, R42). -/
def newLease (p : Port) (duration : Nat) : Lease :=
  { holder := p, duration := duration, remaining := duration, warned := false, warningPutOff := false }

/-- A lease after a renewal with this duration: remaining is the duration, warned is clear (R27, R31, R32). A warning due at
the next tick is put off where the lead is the duration less 1; warningPutOff is the model's own field (R46, log 19). -/
def renewedLease (duration : Nat) (l : Lease) : Lease :=
  { holder := l.holder, duration := duration, remaining := duration, warned := false,
    warningPutOff :=
      decide (1 < l.remaining ∧ l.remaining ≤ duration ∧ duration ≤ l.duration ∧ l.warned = false) }

/-- A channel's lease record after it has lost its holder with these waiters: the head waiter holds it (R42). -/
def afterLoss : List Waiter → LeaseRecord
  | [] => { held := none, waiters := [] }
  | w :: ws => { held := some (newLease w.port w.duration), waiters := ws }

/-- A host's part of the event unit after a channel has lost its holder with these waiters: the head waiter receives
LEASE_GRANTED (R42). -/
def seenGrant (q : Port) (time : Word) (c : Channel) (ws : List Waiter) (u : EventUnit) : EventUnit :=
  match ws with
  | [] => u
  | w :: _ =>
    if w.port = q then
      u.take { kind := .leaseGranted, channel := channelByte c, reason := 0, tag := BitVec.ofNat 16 w.duration,
               time := time }
    else u

/-- The rows of R27, as the lease record a Claim leaves and the outcome it reports. -/
inductive ClaimRow (s : State) (p : Port) (duration : Nat) (wait preempt : Bool) (c : Channel) :
    LeaseRecord → ClaimOutcome → Prop
  | unavailable (h : (s.chan c).state = .unavailable) :
      ClaimRow s p duration wait preempt c (s.lease c) .refused
  | free (h : (s.chan c).state ≠ .unavailable) (hf : s.holder c = none) :
      ClaimRow s p duration wait preempt c { s.lease c with held := some (newLease p duration) } .granted
  | own (h : (s.chan c).state ≠ .unavailable) (l : Lease) (hl : (s.lease c).held = some l) (hp : l.holder = p) :
      ClaimRow s p duration wait preempt c { s.lease c with held := some (renewedLease duration l) } .granted
  | preempted (old : Port) (h : (s.chan c).state ≠ .unavailable) (ho : s.holder c = some old) (hp : old ≠ p)
      (hpre : preempt = true) (hr : s.rank old < s.rank p) :
      ClaimRow s p duration wait preempt c
        { held := some (newLease p duration), waiters := (s.lease c).waiters.filter (fun w => w.port ≠ p) } .granted
  | joined (old : Port) (before after : List Waiter) (h : (s.chan c).state ≠ .unavailable)
      (ho : s.holder c = some old) (hp : old ≠ p) (hn : ¬(preempt = true ∧ s.rank old < s.rank p)) (hw : wait = true)
      (hnew : ∀ w ∈ (s.lease c).waiters, w.port ≠ p) (hold : (s.lease c).waiters = before ++ after)
      (hbefore : ∀ w ∈ before, s.rank p ≤ s.rank w.port) (hafter : ∀ w ∈ after, s.rank w.port < s.rank p) :
      ClaimRow s p duration wait preempt c
        { s.lease c with waiters := before ++ { port := p, duration := duration } :: after } .waiting
  | waitsAgain (old : Port) (before after : List Waiter) (w : Waiter) (h : (s.chan c).state ≠ .unavailable)
      (ho : s.holder c = some old) (hp : old ≠ p) (hn : ¬(preempt = true ∧ s.rank old < s.rank p)) (hw : wait = true)
      (hold : (s.lease c).waiters = before ++ w :: after) (hport : w.port = p) :
      ClaimRow s p duration wait preempt c
        { s.lease c with waiters := before ++ { port := p, duration := duration } :: after } .waiting
  | refused (old : Port) (h : (s.chan c).state ≠ .unavailable) (ho : s.holder c = some old) (hp : old ≠ p)
      (hn : ¬(preempt = true ∧ s.rank old < s.rank p)) (hw : wait = false) :
      ClaimRow s p duration wait preempt c (s.lease c) .refused

/-- A Claim with ATOMIC passes on the channel (R28). -/
def AtomicPasses (s : State) (p : Port) (preempt : Bool) (c : Channel) : Prop :=
  (s.chan c).state ≠ .unavailable ∧
    ∀ old, s.holder c = some old → old = p ∨ (preempt = true ∧ s.rank old < s.rank p)

/-- A host's part of the event unit after a Claim of p has taken the channel by preemption: the old holder receives
LEASE_LOST (R30). -/
def seenPreemption (s : State) (p : Port) (preempt : Bool) (q : Port) (c : Channel) (u : EventUnit) : EventUnit :=
  match s.holder c with
  | none => u
  | some old =>
    if old = q ∧ old ≠ p ∧ preempt = true ∧ s.rank old < s.rank p ∧ (s.chan c).state ≠ .unavailable then
      u.take { kind := .leaseLost, channel := channelByte c, reason := portByte p, tag := 0, time := s.timeCount }
    else u

/-- Every commit check passes for the entries of a list (checks 2, 5 and 6 of R57, R69, R77). -/
structure EntriesPass (s : State) (p : Port) (es : List StageEntry) : Prop where
  faultReleased : s.faultAsserted = false
  held : ∀ e ∈ es, s.holder e.channel = some p
  available : ∀ e ∈ es, (s.chan e.channel).state ≠ .unavailable
  sound : ∀ e ∈ es, (s.chan e.channel).state ≠ .faulted

/-- The commit checks 2 to 6 of a Commit or Arm by host p pass (R57, R69). -/
structure CommitPasses (s : State) (p : Port) : Prop where
  notArmed : (s.commit p).armed = none
  staged : (s.commit p).staging ≠ []
  entries : EntriesPass s p (s.commit p).staging

/-- The refusals of a Commit or Arm by its checks 2 to 6, in their order (R57, R58, R69). -/
inductive CommitRefusal (s : State) (p : Port) : Reply → Prop
  | faultActive (h2 : s.faultAsserted = true) : CommitRefusal s p { status := .faultActive, data := [] }
  | armed (h2 : s.faultAsserted = false) (h3 : (s.commit p).armed ≠ none) :
      CommitRefusal s p { status := .armed, data := [] }
  | nothingStaged (h2 : s.faultAsserted = false) (h3 : (s.commit p).armed = none) (h4 : (s.commit p).staging = []) :
      CommitRefusal s p { status := .nothingStaged, data := [] }
  | notHeld (before after : List StageEntry) (e : StageEntry) (st : Status) (h2 : s.faultAsserted = false)
      (h3 : (s.commit p).armed = none) (h4 : (s.commit p).staging = before ++ e :: after)
      (hbefore : ∀ x ∈ before, s.holder x.channel = some p ∧ (s.chan x.channel).state ≠ .unavailable)
      (h5 : ((s.chan e.channel).state = .unavailable ∧ st = .unavailable) ∨
        ((s.chan e.channel).state ≠ .unavailable ∧ s.holder e.channel ≠ some p ∧ st = .notHolder)) :
      CommitRefusal s p { status := st, data := [channelByte e.channel] }
  | faulted (before after : List StageEntry) (e : StageEntry) (h2 : s.faultAsserted = false)
      (h3 : (s.commit p).armed = none) (h4 : (s.commit p).staging = before ++ e :: after)
      (h5 : ∀ x ∈ (s.commit p).staging, s.holder x.channel = some p ∧ (s.chan x.channel).state ≠ .unavailable)
      (hbefore : ∀ x ∈ before, (s.chan x.channel).state ≠ .faulted) (h6 : (s.chan e.channel).state = .faulted) :
      CommitRefusal s p { status := .faulted, data := [channelByte e.channel] }

/-- The commit number that follows a number: 65535 is followed by 1 (R64). -/
def numberAfter (n : Word) : Word := if n = 65535 then 1 else n + 1

/-- A channel's record after a commit has applied an entry to it (R60, R61). -/
def applied (r : ChannelRecord) (e : StageEntry) : ChannelRecord :=
  { r with
    state := .live
    target := r.clamp e.code
    present := if e.jump = true ∨ r.rampStep = 0 then r.clamp e.code else r.present }

/-- A lease record after an applied commit or a Renew (R31, R32). -/
def renewed (r : LeaseRecord) : LeaseRecord :=
  { r with held := r.held.map (fun l => renewedLease l.duration l) }

/-- The update queue after the entries of a commit have been applied in list order: each jump is placed with the clamped
code and origin COMMIT (R62). -/
def queueAfter (s : State) (es : List StageEntry) (q : List UpdateEntry) : List UpdateEntry :=
  es.foldl (fun q e =>
    if e.jump = true ∨ (s.chan e.channel).rampStep = 0 then
      place q e.channel ((s.chan e.channel).clamp e.code) .commit
    else q) q

/-- The mask names exactly the channels of the list whose code the clamp changes (R61). -/
def NamesClamped (s : State) (es : List StageEntry) (m : Mask) : Prop :=
  ∀ c, inMask m c = true ↔ ∃ e ∈ es, e.channel = c ∧ (s.chan c).clamp e.code ≠ e.code

/-- The armed set of host p fails at fire, with this channel byte and reason in its COMMIT_FAILED (R77, R79). -/
inductive FireFailure (s : State) (p : Port) (es : List StageEntry) : Byte → Status → Prop
  | notHolder (before after : List StageEntry) (e : StageEntry) (h2 : s.faultAsserted = false)
      (hes : es = before ++ e :: after) (hbefore : ∀ x ∈ before, s.holder x.channel = some p)
      (h5 : s.holder e.channel ≠ some p) : FireFailure s p es (channelByte e.channel) .notHolder
  | faulted (before after : List StageEntry) (e : StageEntry) (h2 : s.faultAsserted = false)
      (hes : es = before ++ e :: after) (h5 : ∀ x ∈ es, s.holder x.channel = some p)
      (hbefore : ∀ x ∈ before, (s.chan x.channel).state ≠ .faulted) (h6 : (s.chan e.channel).state = .faulted) :
      FireFailure s p es (channelByte e.channel) .faulted

/-- What one sync event does (R75, R77 to R80): every armed set present fires on the state that stands, and is gone. -/
structure SyncEventDone (s t : State) : Prop where
  /-- Every armed set is gone; the rest of the commit unit stands. -/
  sets : ∀ p, t.commit p = { s.commit p with armed := none }
  /-- A host without a set receives nothing. -/
  noSet : ∀ p, (s.commit p).armed = none → t.event p = s.event p
  /-- A set that passes is applied, with COMMIT_APPLIED to its host. -/
  passed : ∀ p a, (s.commit p).armed = some a → EntriesPass s p a.entries →
    (∃ m, NamesClamped s a.entries m ∧
      t.event p = (s.event p).take { kind := .commitApplied, channel := hiByte m, reason := loByte m, tag := a.number,
                                     time := s.timeCount }) ∧
    ∀ e ∈ a.entries, t.chan e.channel = applied (s.chan e.channel) e ∧ t.lease e.channel = renewed (s.lease e.channel)
  /-- A set that fails is discarded, with COMMIT_FAILED to its host. -/
  failed : ∀ p a, (s.commit p).armed = some a → ¬EntriesPass s p a.entries →
    ∃ c why, FireFailure s p a.entries c why ∧
      t.event p = (s.event p).take { kind := .commitFailed, channel := c, reason := why.code, tag := a.number,
                                     time := s.timeCount }
  /-- A channel in no passing set is untouched, and so is its lease. -/
  untouched : ∀ c, (∀ p a, (s.commit p).armed = some a → EntriesPass s p a.entries →
      ∀ e ∈ a.entries, e.channel ≠ c) → t.chan c = s.chan c ∧ t.lease c = s.lease c
  /-- The jumps of the passing sets join the update queue set by set, in ascending port order. -/
  queue : ∀ es : Port → List StageEntry,
    (∀ p, (∃ a, (s.commit p).armed = some a ∧ EntriesPass s p a.entries ∧ es p = a.entries) ∨
      (es p = [] ∧ ∀ a, (s.commit p).armed = some a → ¬EntriesPass s p a.entries)) →
    t.queue = queueAfter s (es 0 ++ es 1 ++ es 2) s.queue
  /-- Nothing else changes but what the sender's port and the SYNC qualifier hold. -/
  rest : t = { s with channels := t.channels, leases := t.leases, commits := t.commits, queue := t.queue,
                      events := t.events, ports := t.ports, syncArmed := t.syncArmed }

/-- The motion of a SAFE channel whose target becomes its fallback (steps 1 to 3 of R11): the record after it. -/
def movedToFallback (r : ChannelRecord) : ChannelRecord :=
  if r.rampToFallback = true ∧ r.rampStep ≠ 0 then { r with target := r.fallback }
  else { r with target := r.fallback, present := r.fallback }

/-- A channel's record after safe entry, by its state (R10 to R12). -/
def safeRecord (r : ChannelRecord) : ChannelRecord :=
  match r.state with
  | .live | .safe => { movedToFallback r with state := .safe }
  | .starting | .faulted => { r with target := r.fallback }
  | .unavailable => r

/-- The update queue after safe entry on a channel (steps 2 and 3 of R11, R12). That a commit's jump entry stays where the
channel ramps to its fallback is read from R11, R89 and R132 (log 20). -/
def safeQueue (r : ChannelRecord) (c : Channel) (q : List UpdateEntry) : List UpdateEntry :=
  if (r.state = .live ∨ r.state = .safe) ∧ ¬(r.rampToFallback = true ∧ r.rampStep ≠ 0) then place q c r.fallback .safe
  else q

/-- The update queue after these channels have taken safe entry, in ascending channel order (R108). -/
def safeQueues (s : State) (takes : Channel → Bool) (q : List UpdateEntry) : List UpdateEntry :=
  (ascending 16).foldl (fun q c => if takes c = true then safeQueue (s.chan c) c q else q) q

/-- Is the holder of this lease to be warned at a lease tick: its remaining after the tick is at or below the lead (R40)?
A warning that a renewal has put off is not sent (R46, R66, R82, log 19). -/
def warnedAtTick (lead : Nat) (l : Lease) : Bool :=
  decide (lead ≠ 0 ∧ lead < l.duration ∧ l.remaining - 1 ≤ lead ∧ l.warned = false ∧
    l.warningPutOff = false)

/-- A host's part of the event unit after a lease tick has acted on one channel's lease, the time count raised to `time`:
LEASE_WARNING (R40), or LEASE_EXPIRED and the grant to the head waiter (R36, R42). -/
def seenTick (s : State) (q : Port) (time : Word) (c : Channel) (u : EventUnit) : EventUnit :=
  match (s.lease c).held with
  | none => u
  | some l =>
    if l.remaining = 1 then
      seenGrant q time c (s.lease c).waiters
        (if l.holder = q then
          u.take { kind := .leaseExpired, channel := channelByte c, reason := 0, tag := 0, time := time }
         else u)
    else if l.holder = q ∧ warnedAtTick (s.lead q) l = true then
      u.take { kind := .leaseWarning, channel := channelByte c, reason := 0, tag := BitVec.ofNat 16 (l.remaining - 1),
               time := time }
    else u

/-- A host's part of the event unit after a lease tick has acted on its arm window (R74). -/
def seenWindow (s : State) (q : Port) (time : Word) (u : EventUnit) : EventUnit :=
  match (s.commit q).armed with
  | none => u
  | some a =>
    if a.window = 1 then
      u.take { kind := .armExpired, channel := 0xFF, reason := 0, tag := a.number, time := time }
    else u

/-- Present after a ramp tick on a channel (R86 to R88): one step nearer the target on a moving channel, the target itself
where the step reaches it or is 0. -/
def presentAfterTick (r : ChannelRecord) : Code :=
  if (r.state = .safe ∨ r.state = .live) ∧ r.present ≠ r.target then
    if r.rampStep = 0 then r.target
    else if r.present < r.target then
      if r.target - r.present ≤ r.rampStep then r.target else r.present + r.rampStep
    else
      if r.present - r.target ≤ r.rampStep then r.target else r.present - r.rampStep
  else r.present

/-- A host's part of the event unit after a ramp tick has acted on one channel (R92). -/
def seenRamp (s : State) (q : Port) (c : Channel) (u : EventUnit) : EventUnit :=
  let r := s.chan c
  if (r.state = .safe ∨ r.state = .live) ∧ r.present ≠ r.target ∧ r.rampStep ≠ 0 ∧ presentAfterTick r = r.target ∧
      r.rampDoneReport = true ∧ s.holder c = some q then
    u.take { kind := .rampDone, channel := channelByte c, reason := 0, tag := r.target, time := s.timeCount }
  else u

/-- The code table (R154): each command with its Code and with the values its LEN may have. -/
def commandTable : List (CommandName × Byte × List Nat) :=
  [(.nop, 0x10, [0]), (.readStatus, 0x11, [0]), (.readIdent, 0x12, [0]), (.repeatReply, 0x13, [0]),
   (.portClear, 0x14, [0]),
   (.claim, 0x20, [5]), (.renew, 0x21, [2]), (.release, 0x22, [3]), (.readLease, 0x23, [1]), (.setWarning, 0x24, [2]),
   (.stage, 0x30, [4, 8, 12, 16, 20, 24, 28, 32, 36, 40, 44, 48]), (.unstage, 0x31, [2]), (.readStage, 0x32, [0]),
   (.commit, 0x33, [0]), (.arm, 0x34, [2]), (.disarm, 0x35, [0]), (.sync, 0x36, [0]), (.readArmed, 0x37, [0]),
   (.setLimits, 0x40, [5]), (.setFallback, 0x41, [3]), (.setRamp, 0x42, [4]), (.readChannel, 0x43, [1]),
   (.forceSafe, 0x44, [2]), (.clearFault, 0x45, [1]),
   (.readEvents, 0x50, [1]), (.setEventMask, 0x51, [2]), (.eventTest, 0x52, [0])]

/-- The status table (R156): each status with its code. -/
def statusTable : List (Status × Byte) :=
  [(.ok, 0x00), (.checkError, 0x01), (.badCommand, 0x02), (.badLength, 0x03), (.badArgument, 0x04), (.notReady, 0x05),
   (.faultActive, 0x06), (.notHolder, 0x07), (.unavailable, 0x08), (.faulted, 0x09), (.armed, 0x0A), (.notArmed, 0x0B),
   (.nothingStaged, 0x0C), (.outOfWindow, 0x0D), (.noReply, 0x0E), (.held, 0x0F)]

/-- The table of kinds (R164): each kind with its code and with the mask bit of its class, none for OVERFLOW. -/
def kindTable : List (EventKind × Byte × Option (Fin 6)) :=
  [(.startupDone, 0x01, some 0), (.faultAsserted, 0x02, some 0), (.faultReleased, 0x03, some 0),
   (.leaseGranted, 0x10, some 1), (.leaseLost, 0x11, some 1), (.leaseExpired, 0x12, some 1),
   (.leaseWarning, 0x13, some 1),
   (.commitApplied, 0x20, some 2), (.commitFailed, 0x21, some 2), (.armExpired, 0x22, some 2),
   (.channelFault, 0x30, some 3), (.rampDone, 0x31, some 3),
   (.frameCut, 0x40, some 4), (.test, 0x50, some 5), (.overflow, 0x7F, none)]

/-- The slot presence mask of the slot table (R100). -/
def ShowsPresence (s : State) (mask : Byte) : Prop :=
  (∀ k : Slot, mask.getLsbD k.val = true ↔ (s.slot k).state = .present) ∧ ∀ i, 4 ≤ i → mask.getLsbD i = false

/-- The command repeated: the state after n of it, none where one of them does not complete. -/
def repeated (i : Instr) : Nat → State → Option State
  | 0, s => some s
  | n + 1, s =>
    match exec i s with
    | .next t => repeated i n t
    | _ => none

end Sys2Proof.Safety
end

