-- ==== Sys2Proof/WellFormed.lean ====
section
/-! DEFINITION. Which terms of Instr are commands the part can meet. The types bound ports, channels and levels; what
remains is that a request's LEN is one byte (R137), that a BAD_COMMAND request fails check 1 or 2 of R140, and that a cut
frame's bytes stop before CHECK (R143). -/

namespace Sys2Proof

/-- A request has at most 255 argument bytes, since LEN is one byte (R137). -/
def argumentsFit (args : List Byte) : Bool :=
  decide (args.length ≤ 255)

/-- The request fails check 1 (CHECK) or check 2 (CODE) of R140. -/
def failsCheckOrCode (code : Byte) (args : List Byte) (check : Byte) : Bool :=
  check != Machine.crc (Machine.requestBody code args) || (Machine.CommandName.ofCode code).isNone

/-- The bytes stop before CHECK is complete (R143). -/
def stopsBeforeCheck (bytes : List Byte) : Bool :=
  (Machine.Request.empty.receiveAll bytes).check.isNone

/-- The command is one the part can meet. -/
def Instr.wellFormed : Instr → Bool
  | .nop _ args | .readStatus _ args | .readIdent _ args | .repeatReply _ args | .portClear _ args
  | .claim _ args | .renew _ args | .release _ args | .readLease _ args | .setWarning _ args
  | .stage _ args | .unstage _ args | .readStage _ args | .commit _ args | .arm _ args
  | .disarm _ args | .sync _ args | .readArmed _ args | .setLimits _ args | .setFallback _ args
  | .setRamp _ args | .readChannel _ args | .forceSafe _ args | .clearFault _ args
  | .readEvents _ args | .setEventMask _ args | .eventTest _ args => argumentsFit args
  | .badCommand _ code args check => argumentsFit args && failsCheckOrCode code args check
  | .frameCut _ bytes => stopsBeforeCheck bytes
  | .frameOpen _ | .frameEnd _ | .leaseTick | .leaseExpiry _ | .armWindowExpiry _ | .rampTick
  | .syncEdge | .syncQualifierArm | .faultAssertion | .faultRelease | .deviceReset
  | .deviceResetEnd _ _ _ | .probeSlot _ _ | .linkTakeEntry | .writeCodeDone | .verifyResult _
  | .rcheckShiftedOut _ => true

end Sys2Proof
end

