-- ==== Sys2Proof/Certificates/Slice0/Obligations.lean ====
section
/-! DEFINITION. The statements for the provers, in the order of the manual's blocks. Those about a host command say that
the command, sent on a port whose frame is open, completes, and what it leaves: the reply, the state it writes, and that
every other field of State stands as it was. -/

section

open Sys2Proof Sys2Proof.Machine Sys2Proof.Safety

/-! The queue of commands and the whole part -/

/-- The step takes the command at the front of the queue and runs it with the queue's rest. The queue is the model's own
(log 6). -/
def Obligations.StepTakesFrontCommand : Prop :=
  ∀ (c : Instr) (rest : List Instr) (s : State),
    step { s with pending := c :: rest } = exec c { s with pending := rest }

/-- Every command completes, in every state, and leaves the queue of waiting commands alone. The queue is the model's own
(log 6); that a command completes where its occasion does not stand, and in states that break the laws of the part, is the
model's choice (log 7, log 16). -/
def Obligations.EveryCommandCompletes : Prop :=
  ∀ (i : Instr) (s : State), ∃ t, exec i s = .next t ∧ t.pending = s.pending

/-- The laws of every block hold at reset. -/
def Obligations.LawsHoldAtReset : Prop :=
  Safety.Inv State.reset

/-- The laws of every block are kept by every step, from any state that has them (R3, R22, R51, R68, R108, R116, R123,
R168), and so is the law that every block stands at its reset values while device reset lasts (R177). -/
def Obligations.LawsKeptByEveryStep : Prop :=
  ∀ s t : State, Safety.Inv s → step s = .next t → Safety.Inv t

/-- Whatever the command the part can meet, a channel becomes LIVE only by a Commit, a Sync or a SYNC edge (R60), its
confirmed code changes only at a verify result or a device reset (R113), and the phase returns to STARTING only by a device
reset (R101). -/
def Obligations.OnlyTheirCausesWrite : Prop :=
  ∀ (i : Instr) (s t : State), Safety.Inv s → i.wellFormed = true → exec i s = .next t →
    (∀ c, (t.chan c).state = .live → (s.chan c).state ≠ .live →
      (∃ p args, i = .commit p args ∨ i = .sync p args) ∨ i = .syncEdge) ∧
    (∀ c, (t.chan c).confirmed ≠ (s.chan c).confirmed → i = .deviceReset ∨ ∃ v, i = .verifyResult v) ∧
    (t.devicePhase = .starting → s.devicePhase = .running → i = .deviceReset)

/-! Frames and requests -/

/-- The check value (R138): its start, one more byte, its place in a request and a reply, the worked values, and the zero
it leaves over a whole sequence. -/
def Obligations.CheckValueRule : Prop :=
  crc [] = 0xFF ∧
  (∀ (bytes : List Byte) (b : Byte),
    crc (bytes ++ [b]) =
      Nat.iterate (fun r : Byte => if r.getLsbD 7 = true then (r <<< 1) ^^^ 0x07 else r <<< 1) 8 (crc bytes ^^^ b)) ∧
  (∀ bytes : List Byte, crc (bytes ++ [crc bytes]) = 0) ∧
  (∀ (name : CommandName) (args : List Byte),
    requestBytes name args =
      (name.code :: BitVec.ofNat 8 args.length :: args) ++ [crc (name.code :: BitVec.ofNat 8 args.length :: args)]) ∧
  (∀ r : Reply,
    r.bytes =
      (r.status.code :: BitVec.ofNat 8 r.data.length :: r.data)
        ++ [crc (r.status.code :: BitVec.ofNat 8 r.data.length :: r.data)]) ∧
  requestBytes .nop [] = [0x10, 0x00, 0x80] ∧
  requestBytes .readStatus [] = [0x11, 0x00, 0x95] ∧
  Reply.bytes { status := .ok, data := [] } = [0x00, 0x00, 0xD7]

/-- The port finds CODE, LEN, the arguments and CHECK by the LEN byte alone, keeps the first 48 arguments, and a LEN above
48 ends in a refusal (R137). -/
def Obligations.RequestReceivedAsSent : Prop :=
  ∀ (code : Byte) (args : List Byte) (check : Byte), args.length ≤ 255 →
    ∃ r : Request,
      Request.empty.receiveAll (code :: BitVec.ofNat 8 args.length :: (args ++ [check])) = r ∧
      r.code = code ∧ r.len = args.length ∧ r.args = args.take 48 ∧ r.count = args.length + 3 ∧
      r.running = crc (code :: BitVec.ofNat 8 args.length :: args) ∧ r.check = some check ∧
      (48 < args.length → ∀ phase : DevicePhase,
        framing phase r = .error .checkError ∨ framing phase r = .error .badCommand ∨
          framing phase r = .error .badLength)

/-- Every command has the Code and the LEN of the code table, and every command is in it; sent with a length it allows, it
is received as that command with those arguments; and the four-byte entry form of Stage, Read Stage and Read Armed is read
back as it is written, both ways (R137, R154, R155). -/
def Obligations.CommandsDecodeAsEncoded : Prop :=
  (∀ row ∈ commandTable, row.1.code = row.2.1 ∧ ∀ len, row.1.lenAllowed len = true ↔ len ∈ row.2.2) ∧
  (∀ name : CommandName, name ∈ commandTable.map Prod.fst) ∧
  (∀ (name : CommandName) (args : List Byte), name.lenAllowed args.length = true →
    framing .running (Request.empty.receiveAll (requestBytes name args)) = .ok name ∧
    (Request.empty.receiveAll (requestBytes name args)).args = args) ∧
  (∀ es : List StageEntry, stageEntriesOf (entryBytes es) = some es) ∧
  (∀ (bytes : List Byte) (es : List StageEntry), stageEntriesOf bytes = some es → entryBytes es = bytes)

/-- The four framing checks in their order, each refusal taking nothing and leaving the last-reply store (R140). -/
def Obligations.FramingChecksRefuse : Prop :=
  ∀ (s : State) (p : Port), Listening s p →
    (∀ (code : Byte) (args : List Byte) (check : Byte), args.length ≤ 255 →
      check ≠ crc (code :: BitVec.ofNat 8 args.length :: args) →
      ∃ t, exec (.badCommand p code args check) s = .next t ∧ Refuses s t p .checkError ∧
        t = { s with ports := t.ports }) ∧
    (∀ (code : Byte) (args : List Byte), args.length ≤ 255 → (∀ name : CommandName, name.code ≠ code) →
      ∃ t, exec (.badCommand p code args (crc (code :: BitVec.ofNat 8 args.length :: args))) s = .next t ∧
        Refuses s t p .badCommand ∧ t = { s with ports := t.ports }) ∧
    (∀ (name : CommandName) (args : List Byte), args.length ≤ 255 → name.lenAllowed args.length = false →
      ∃ t, exec (commandOf name p args) s = .next t ∧ Refuses s t p .badLength ∧ t = { s with ports := t.ports }) ∧
    (∀ (name : CommandName) (args : List Byte), name.lenAllowed args.length = true → s.devicePhase = .starting →
      name ∉ [CommandName.nop, .readStatus, .readIdent, .repeatReply, .readChannel, .readEvents, .setEventMask,
        .eventTest] →
      ∃ t, exec (commandOf name p args) s = .next t ∧ Refuses s t p .notReady ∧ t = { s with ports := t.ports })

/-- A request that passes the framing checks is taken at once: the owning block's outcome is the reply, with the status code
of the status table, and the reply is stored but for Repeat Reply and Port Clear (R141, R142, R156). -/
def Obligations.PassedRequestIsTaken : Prop :=
  (∀ row ∈ statusTable, row.1.code = row.2) ∧ (∀ st : Status, st ∈ statusTable.map Prod.fst) ∧
  ∀ (s : State) (p : Port) (name : CommandName) (args : List Byte), Listening s p →
    name.lenAllowed args.length = true →
    (s.devicePhase = .running ∨
      name ∈ [CommandName.nop, .readStatus, .readIdent, .repeatReply, .readChannel, .readEvents, .setEventMask,
        .eventTest]) →
    ∃ t, exec (commandOf name p args) s = .next t ∧
      Replies s t p (takeCommand name p args s).2
        (if name = .repeatReply then (s.port p).store
         else if name = .portClear then none
         else some (takeCommand name p args s).2) ∧
      t = { (takeCommand name p args s).1 with ports := t.ports }

/-- The edges of the chip select and the end of a reply (R135, R144): a frame opens, a decided frame ends in silence with
the store as it stands, and the port leaves REPLY; a chip select that is low already, or that falls while device reset
lasts, opens no frame (R177); a request outside REQUEST is ignored. What a command does where its occasion does not stand is
the model's choice (log 7, log 17), and so is that the request bytes stand after CHECK until the frame is over (log 18). -/
def Obligations.FramesOpenAndEnd : Prop :=
  ∀ (s : State) (p : Port),
    ((s.port p).csLow = true → exec (.frameOpen p) s = .next s) ∧
    ((s.port p).csLow = false → s.inReset = true →
      ∃ t, exec (.frameOpen p) s = .next t ∧ t.port p = { s.port p with csLow := true } ∧
        (∀ q, q ≠ p → t.port q = s.port q) ∧ t = { s with ports := t.ports }) ∧
    ((s.port p).phase ≠ .reply → exec (.rcheckShiftedOut p) s = .next s) ∧
    ((s.port p).csLow = false → s.inReset = false → (s.port p).phase = .deselected →
      ∃ t, exec (.frameOpen p) s = .next t ∧ Listening t p ∧ (t.port p).csLow = true ∧ t.sdo p = .ones ∧
        (t.port p).store = (s.port p).store ∧ t.rank p = s.rank p ∧ (∀ q, q ≠ p → t.port q = s.port q) ∧
        t = { s with ports := t.ports }) ∧
    ((s.port p).phase ≠ .request →
      ∃ t, exec (.frameEnd p) s = .next t ∧ (t.port p).phase = .deselected ∧ (t.port p).request = Request.empty ∧
        t.sdo p = .highImpedance ∧ (t.port p).csLow = false ∧ (t.port p).store = (s.port p).store ∧
        t.rank p = s.rank p ∧ (∀ q, q ≠ p → t.port q = s.port q) ∧ t = { s with ports := t.ports }) ∧
    ((s.port p).phase = .reply →
      ∃ t, exec (.rcheckShiftedOut p) s = .next t ∧ (t.port p).phase = .trailer ∧ t.sdo p = .ones ∧
        (t.port p).store = (s.port p).store ∧ (t.port p).request = (s.port p).request ∧ t.rank p = s.rank p ∧
        (t.port p).csLow = (s.port p).csLow ∧ (∀ q, q ≠ p → t.port q = s.port q) ∧ t = { s with ports := t.ports }) ∧
    ((s.port p).phase ≠ .request →
      (∀ (name : CommandName) (args : List Byte), exec (commandOf name p args) s = .next s) ∧
      (∀ (code : Byte) (args : List Byte) (check : Byte), exec (.badCommand p code args check) s = .next s))

/-- A frame cut before the last bit of CHECK takes nothing; FRAME_CUT counts its complete bytes, and no byte is silent
(R143). -/
def Obligations.CutFrameTakesNothing : Prop :=
  ∀ (s : State) (p : Port) (bytes : List Byte), Listening s p → (Request.empty.receiveAll bytes).check = none →
    ∃ t, exec (.frameCut p bytes) s = .next t ∧
      (t.port p).phase = .deselected ∧ (t.port p).request = Request.empty ∧ (t.port p).csLow = false ∧
      (t.port p).store = (s.port p).store ∧ t.rank p = s.rank p ∧ (∀ q, q ≠ p → t.port q = s.port q) ∧
      t.event p =
        (if bytes = [] then s.event p
         else (s.event p).take
           { kind := .frameCut, channel := 0xFF, reason := 0, tag := BitVec.ofNat 16 bytes.length,
             time := s.timeCount }) ∧
      (∀ q, q ≠ p → t.event q = s.event q) ∧
      t = { s with ports := t.ports, events := t.events }

/-! The commands of the port -/

/-- Nop is answered OK with no data in either device phase and changes nothing but the store (R146). -/
def Obligations.NopAnswersOk : Prop :=
  (∀ (s : State) (p : Port), Listening s p →
    ∃ t, exec (.nop p []) s = .next t ∧ Answers s t p { status := .ok, data := [] } ∧ t = { s with ports := t.ports }) ∧
  requestBytes .nop [] = [0x10, 0x00, 0x80] ∧ Reply.bytes { status := .ok, data := [] } = [0x00, 0x00, 0xD7]

/-- Read Status returns the thirteen bytes of the sender's status record and changes nothing but the store (R43, R147). -/
def Obligations.ReadStatusReportsTheSender : Prop :=
  ∀ (s : State) (p : Port), Listening s p →
    ∃ (t : State) (held waiting : Mask), exec (.readStatus p []) s = .next t ∧
      Answers s t p
        { status := .ok
          data :=
            [BitVec.ofNat 8 ((if s.devicePhase = .running then 1 else 0) + (if s.faultAsserted = true then 2 else 0)),
              BitVec.ofNat 8 (s.rank p).toNat]
              ++ wordBytes held ++ wordBytes waiting
              ++ [BitVec.ofNat 8 (s.commit p).staging.length]
              ++ (match (s.commit p).armed with
                  | none => [0, 0, 0, 0]
                  | some a => [1, BitVec.ofNat 8 a.entries.length] ++ wordBytes a.number)
              ++ [BitVec.ofNat 8 (s.event p).queue.length, if (s.event p).enable = true then 1 else 0] } ∧
      (∀ c, inMask held c = true ↔ s.holder c = some p) ∧
      (∀ c, inMask waiting c = true ↔ ∃ w ∈ (s.lease c).waiters, w.port = p) ∧
      (Safety.Inv s → s.devicePhase = .starting →
        held = 0 ∧ waiting = 0 ∧ (s.commit p).staging = [] ∧ (s.commit p).armed = none) ∧
      t = { s with ports := t.ports }

/-- Read Ident returns the nine bytes of the ident record, which nothing but a device reset changes after the probe
(R150). -/
def Obligations.ReadIdentReportsTheSlots : Prop :=
  (∀ (s : State) (p : Port), Listening s p →
    ∃ (t : State) (mask : Byte) (rev : Slot → Byte), exec (.readIdent p []) s = .next t ∧
      Answers s t p
        { status := .ok, data := [0x44, 0x31, 0x60, 0x01, mask, rev 0, rev 1, rev 2, rev 3] } ∧
      ShowsPresence s mask ∧
      (∀ k v, (s.slot k).state = .present → (s.slot k).revision = some v → rev k = v) ∧
      (∀ k, (s.slot k).state ≠ .present → rev k = 0xFF) ∧
      t = { s with ports := t.ports }) ∧
  (∀ (i : Instr) (s t : State), exec i s = .next t → s.linkPhase ≠ .probing → i ≠ .deviceReset → t.slots = s.slots)

/-- Repeat Reply returns the stored reply, or NO_REPLY, in either device phase, and leaves the store (R145). -/
def Obligations.RepeatReplyReturnsTheStore : Prop :=
  ∀ (s : State) (p : Port), Listening s p →
    ∃ t, exec (.repeatReply p []) s = .next t ∧
      Replies s t p ((s.port p).store.getD { status := .noReply, data := [] }) (s.port p).store ∧
      t = { s with ports := t.ports }

/-- Port Clear tears down what the sender holds in every block, grants its channels onward, and keeps the rest (R148). That
the request bytes leave the port with it is the model's reading (log 18), and that a waiting jump entry of a
channel that ramps to its fallback stays is so too (log 20). -/
def Obligations.PortClearTearsDownTheSender : Prop :=
  ∀ (s : State) (p : Port), Listening s p → s.devicePhase = .running →
    ∃ t, exec (.portClear p []) s = .next t ∧
      Replies s t p { status := .ok, data := [] } none ∧ (t.port p).request = Request.empty ∧
      t.commit p = { s.commit p with staging := [], armed := none } ∧ (∀ q, q ≠ p → t.commit q = s.commit q) ∧
      t.lead p = 0 ∧ (∀ q, q ≠ p → t.lead q = s.lead q) ∧
      (∀ c, t.lease c =
        if s.holder c = some p then afterLoss ((s.lease c).waiters.filter (fun w => w.port ≠ p))
        else { s.lease c with waiters := (s.lease c).waiters.filter (fun w => w.port ≠ p) }) ∧
      (∀ c, t.chan c = if s.holder c = some p then safeRecord (s.chan c) else s.chan c) ∧
      t.queue = safeQueues s (fun c => decide (s.holder c = some p)) s.queue ∧
      t.event p = { queue := [], mask := 0x3F, enable := false } ∧ t.interruptDriven p = false ∧
      (∀ q, q ≠ p → t.event q =
        (ascending 16).foldl (fun u c =>
          if s.holder c = some p then
            seenGrant q s.timeCount c ((s.lease c).waiters.filter (fun w => w.port ≠ p)) u
          else u) (s.event q)) ∧
      t = { s with
            channels := t.channels, leases := t.leases, leads := t.leads, commits := t.commits, ports := t.ports,
            queue := t.queue, events := t.events }

/-! Leases -/

/-- A Claim whose arguments fail a check of R26 is refused BAD_ARGUMENT with no data and changes nothing. -/
def Obligations.ClaimChecksItsArguments : Prop :=
  ∀ (s : State) (p : Port) (m : Mask) (d : Word) (o : Byte), Listening s p → s.devicePhase = .running →
    (m = 0 ∨ d.toNat < 1 ∨ 60000 < d.toNat ∨ o &&& 0xF8 ≠ 0 ∨ (o.getLsbD 2 = true ∧ o.getLsbD 0 = true)) →
    ∃ t, exec (.claim p (wordBytes m ++ wordBytes d ++ [o])) s = .next t ∧
      Answers s t p { status := .badArgument, data := [] } ∧ t = { s with ports := t.ports }

/-- A Claim without ATOMIC is decided for each channel of its mask by the first row of R27 that fits, reported in three
masks, and a preempted holder receives LEASE_LOST (R25, R27, R29, R30). -/
def Obligations.ClaimDecidesEachChannel : Prop :=
  ∀ (s : State) (p : Port) (m : Mask) (d : Word) (o : Byte), Safety.Inv s → Listening s p → s.devicePhase = .running →
    m ≠ 0 → 1 ≤ d.toNat → d.toNat ≤ 60000 → o &&& 0xF8 = 0 → o.getLsbD 2 = false →
    ∃ (t : State) (granted waiting refused : Mask),
      exec (.claim p (wordBytes m ++ wordBytes d ++ [o])) s = .next t ∧
      Answers s t p { status := .ok, data := wordBytes granted ++ wordBytes waiting ++ wordBytes refused } ∧
      (∀ c, inMask m c = false → t.lease c = s.lease c ∧
        inMask granted c = false ∧ inMask waiting c = false ∧ inMask refused c = false) ∧
      (∀ c, inMask m c = true → ∃ x,
        ClaimRow s p d.toNat (o.getLsbD 0) (o.getLsbD 1) c (t.lease c) x ∧
        inMask granted c = (x == .granted) ∧ inMask waiting c = (x == .waiting) ∧ inMask refused c = (x == .refused)) ∧
      (∀ q, t.event q =
        (ascending 16).foldl (fun u c => if inMask m c = true then seenPreemption s p (o.getLsbD 1) q c u else u)
          (s.event q)) ∧
      t = { s with leases := t.leases, events := t.events, ports := t.ports }

/-- A Claim with ATOMIC takes every channel of its mask, or changes nothing and names the lowest that failed (R28). -/
def Obligations.AtomicClaimTakesAllOrNone : Prop :=
  ∀ (s : State) (p : Port) (m : Mask) (d : Word) (o : Byte), Listening s p → s.devicePhase = .running →
    m ≠ 0 → 1 ≤ d.toNat → d.toNat ≤ 60000 → o &&& 0xF8 = 0 → o.getLsbD 2 = true → o.getLsbD 0 = false →
    ((∀ c, inMask m c = true → AtomicPasses s p (o.getLsbD 1) c) →
      ∃ t, exec (.claim p (wordBytes m ++ wordBytes d ++ [o])) s = .next t ∧
        Answers s t p { status := .ok, data := wordBytes m ++ [0, 0, 0, 0] } ∧
        (∀ c, inMask m c = false → t.lease c = s.lease c) ∧
        (∀ c, inMask m c = true →
          ClaimRow s p d.toNat false (o.getLsbD 1) c (t.lease c) .granted) ∧
        (∀ q, t.event q =
          (ascending 16).foldl (fun u c => if inMask m c = true then seenPreemption s p (o.getLsbD 1) q c u else u)
            (s.event q)) ∧
        t = { s with leases := t.leases, events := t.events, ports := t.ports }) ∧
    (∀ c, inMask m c = true → ¬AtomicPasses s p (o.getLsbD 1) c →
      (∀ b, b < c → inMask m b = true → AtomicPasses s p (o.getLsbD 1) b) →
      ∃ t, exec (.claim p (wordBytes m ++ wordBytes d ++ [o])) s = .next t ∧
        Answers s t p { status := .held, data := [channelByte c] } ∧ t = { s with ports := t.ports })

/-- Renew restarts the leases of its mask that the sender holds, reports the two masks, and changes nothing else (R31). -/
def Obligations.RenewRestartsHeldLeases : Prop :=
  ∀ (s : State) (p : Port) (m : Mask), Listening s p → s.devicePhase = .running →
    (m = 0 →
      ∃ t, exec (.renew p (wordBytes m)) s = .next t ∧
        Answers s t p { status := .badArgument, data := [] } ∧ t = { s with ports := t.ports }) ∧
    (m ≠ 0 →
      ∃ (t : State) (done notHeld : Mask), exec (.renew p (wordBytes m)) s = .next t ∧
        Answers s t p
          { status := if notHeld = 0 then .ok else .notHolder, data := wordBytes done ++ wordBytes notHeld } ∧
        (∀ c, inMask done c = true ↔ inMask m c = true ∧ s.holder c = some p) ∧
        (∀ c, inMask notHeld c = true ↔ inMask m c = true ∧ s.holder c ≠ some p) ∧
        (∀ c, t.lease c = if inMask m c = true ∧ s.holder c = some p then renewed (s.lease c) else s.lease c) ∧
        t = { s with leases := t.leases, ports := t.ports })

/-- Release ends the sender's leases of its mask by the policy and grants each channel to its head waiter, withdraws the
sender's waits, and reports the three masks (R33, R34, R42). That a waiting jump entry of a channel that
ramps to its fallback stays is the model's reading (log 20). -/
def Obligations.ReleaseEndsOrWithdraws : Prop :=
  ∀ (s : State) (p : Port) (m : Mask) (y : Byte), Listening s p → s.devicePhase = .running →
    (m = 0 ∨ (y ≠ 0 ∧ y ≠ 1) →
      ∃ t, exec (.release p (wordBytes m ++ [y])) s = .next t ∧
        Answers s t p { status := .badArgument, data := [] } ∧ t = { s with ports := t.ports }) ∧
    (m ≠ 0 → y = 0 ∨ y = 1 →
      ∃ (t : State) (released withdrawn notHeld : Mask), exec (.release p (wordBytes m ++ [y])) s = .next t ∧
        Answers s t p
          { status := if notHeld = 0 then .ok else .notHolder
            data := wordBytes released ++ wordBytes withdrawn ++ wordBytes notHeld } ∧
        (∀ c, inMask released c = true ↔ inMask m c = true ∧ s.holder c = some p) ∧
        (∀ c, inMask withdrawn c = true ↔
          inMask m c = true ∧ s.holder c ≠ some p ∧ ∃ w ∈ (s.lease c).waiters, w.port = p) ∧
        (∀ c, inMask notHeld c = true ↔
          inMask m c = true ∧ s.holder c ≠ some p ∧ ∀ w ∈ (s.lease c).waiters, w.port ≠ p) ∧
        (∀ c, t.lease c =
          if inMask released c = true then afterLoss (s.lease c).waiters
          else if inMask withdrawn c = true then
            { s.lease c with waiters := (s.lease c).waiters.filter (fun w => w.port ≠ p) }
          else s.lease c) ∧
        (∀ c, t.chan c = if inMask released c = true ∧ y = 1 then safeRecord (s.chan c) else s.chan c) ∧
        t.queue = safeQueues s (fun c => inMask released c && decide (y = 1)) s.queue ∧
        (∀ q, t.event q =
          (ascending 16).foldl (fun u c =>
            if inMask released c = true then seenGrant q s.timeCount c (s.lease c).waiters u else u) (s.event q)) ∧
        t = { s with channels := t.channels, leases := t.leases, queue := t.queue, events := t.events,
                     ports := t.ports })

/-- Read Lease returns a snapshot of the channel's lease record to any host and changes nothing but the store (R44). -/
def Obligations.ReadLeaseReportsTheRecord : Prop :=
  ∀ (s : State) (p : Port), Listening s p → s.devicePhase = .running →
    (∀ b : Byte, 16 ≤ b.toNat →
      ∃ t, exec (.readLease p [b]) s = .next t ∧ Answers s t p { status := .badArgument, data := [] } ∧
        t = { s with ports := t.ports }) ∧
    (∀ c : Channel, (s.lease c).held = none →
      ∃ t, exec (.readLease p [channelByte c]) s = .next t ∧
        Answers s t p { status := .ok, data := [0xFF, 0, 0, 0, 0, 0, 0] } ∧ t = { s with ports := t.ports }) ∧
    (∀ (c : Channel) (l : Lease), (s.lease c).held = some l →
      ∃ t, exec (.readLease p [channelByte c]) s = .next t ∧
        Answers s t p
          { status := .ok
            data :=
              [portByte l.holder, BitVec.ofNat 8 (s.rank l.holder).toNat]
                ++ wordBytes (BitVec.ofNat 16 l.duration) ++ wordBytes (BitVec.ofNat 16 l.remaining)
                ++ [BitVec.ofNat 8 (s.lease c).waiters.length]
                ++ (s.lease c).waiters.flatMap
                    (fun w => portByte w.port :: wordBytes (BitVec.ofNat 16 w.duration)) } ∧
        t = { s with ports := t.ports })

/-- Set Warning writes the sender's lead, refuses a value above 1000, and changes nothing else (R41). -/
def Obligations.SetWarningWritesTheLead : Prop :=
  ∀ (s : State) (p : Port) (n : Word), Listening s p →
    (s.devicePhase = .starting →
      ∃ t, exec (.setWarning p (wordBytes n)) s = .next t ∧ Refuses s t p .notReady ∧ t = { s with ports := t.ports }) ∧
    (s.devicePhase = .running → 1000 < n.toNat →
      ∃ t, exec (.setWarning p (wordBytes n)) s = .next t ∧ Answers s t p { status := .badArgument, data := [] } ∧
        t = { s with ports := t.ports }) ∧
    (s.devicePhase = .running → n.toNat ≤ 1000 →
      ∃ t, exec (.setWarning p (wordBytes n)) s = .next t ∧ Answers s t p { status := .ok, data := [] } ∧
        t.lead p = n.toNat ∧ (∀ q, q ≠ p → t.lead q = s.lead q) ∧ t = { s with leads := t.leads, ports := t.ports })

/-- A lease tick raises the time count and acts on every held lease: above 1 it is reduced and perhaps warned, at 1 it
ends, with safe entry and the grant to the head waiter (R35 to R37, R39, R40, R167). That a warning due when a
lease is renewed is not sent by the next tick is the model's reading (log 19), and so is that a waiting jump entry of a
channel that ramps to its fallback stays (log 20). -/
def Obligations.LeaseTickActsOnEveryLease : Prop :=
  ∀ s : State, Safety.Inv s → s.inReset = false →
    ∃ t, exec .leaseTick s = .next t ∧ t.timeCount = s.timeCount + 1 ∧
      (∀ c, (s.lease c).held = none → t.lease c = s.lease c ∧ t.chan c = s.chan c) ∧
      (∀ c l, (s.lease c).held = some l → 1 < l.remaining →
        t.chan c = s.chan c ∧
        t.lease c =
          { s.lease c with
            held := some { l with
              remaining := l.remaining - 1
              warned := l.warned || warnedAtTick (s.lead l.holder) l
              warningPutOff := false } }) ∧
      (∀ c l, (s.lease c).held = some l → l.remaining = 1 →
        t.chan c = safeRecord (s.chan c) ∧ t.lease c = afterLoss (s.lease c).waiters) ∧
      t.queue = safeQueues s (fun c => (s.lease c).held.any (fun l => l.remaining = 1)) s.queue ∧
      t = { s with timeCount := t.timeCount, channels := t.channels, leases := t.leases, queue := t.queue,
                   commits := t.commits, events := t.events }

/-- The records of a lease tick, all at the raised time count: channel by channel in ascending order, the arm window's
last (R36, R40, R42, R74, R166, R167). That a warning due when a lease is renewed is not sent by the
next tick is the model's reading (log 19). -/
def Obligations.LeaseTickSendsItsRecords : Prop :=
  ∀ s : State, Safety.Inv s → s.inReset = false →
    ∃ t, exec .leaseTick s = .next t ∧
      ∀ q, t.event q =
        seenWindow s q (s.timeCount + 1)
          ((ascending 16).foldl (fun u c => seenTick s q (s.timeCount + 1) c u) (s.event q))

/-- The arm windows on a lease tick (R74): no limit stands, above 1 is reduced, at 1 the set is dropped with ARM_EXPIRED;
staging list and number stand. ARM_WINDOW_EXPIRY is that tick, taken whole (log 8). -/
def Obligations.ArmWindowsCountDown : Prop :=
  ∀ (s : State) (p : Port), s.inReset = false →
    (∃ t, exec .leaseTick s = .next t ∧
      ((s.commit p).armed = none → t.commit p = s.commit p) ∧
      (∀ a, (s.commit p).armed = some a → a.window = 0 → t.commit p = s.commit p) ∧
      (∀ a, (s.commit p).armed = some a → 1 < a.window →
        t.commit p = { s.commit p with armed := some { a with window := a.window - 1 } }) ∧
      (∀ a, (s.commit p).armed = some a → a.window = 1 → t.commit p = { s.commit p with armed := none })) ∧
    (∀ a, (s.commit p).armed = some a → a.window = 1 →
      ∃ t, exec (.armWindowExpiry p) s = .next t ∧ exec .leaseTick s = .next t ∧
        t.commit p = { s.commit p with armed := none } ∧
        ∃ u : EventUnit, t.event p = u.take
          { kind := .armExpired, channel := 0xFF, reason := 0, tag := a.number, time := s.timeCount + 1 }) ∧
    ((∀ a, (s.commit p).armed = some a → a.window ≠ 1) → exec (.armWindowExpiry p) s = .next s)

/-- LEASE_EXPIRY is the lease tick that finds the lease at 1, taken whole: the lease ends, the channel takes safe entry and
the head waiter is granted (R36); its holder's staging list stands. Where no lease stands at 1 nothing happens (log 7,
log 8). -/
def Obligations.LeaseExpiryEndsTheLease : Prop :=
  ∀ (s : State) (c : Channel), s.inReset = false →
    (∀ l, (s.lease c).held = some l → l.remaining = 1 →
      ∃ t, exec (.leaseExpiry c) s = .next t ∧ exec .leaseTick s = .next t ∧
        t.lease c = afterLoss (s.lease c).waiters ∧ t.chan c = safeRecord (s.chan c) ∧
        (t.commit l.holder).staging = (s.commit l.holder).staging) ∧
    ((∀ l, (s.lease c).held = some l → l.remaining ≠ 1) → exec (.leaseExpiry c) s = .next s)

/-- A lease that nothing renews stands through remaining - 1 lease ticks and ends at the next (R35). -/
def Obligations.LeaseLastsItsRemaining : Prop :=
  ∀ (s : State) (c : Channel) (l : Lease), Safety.Inv s → s.inReset = false → (s.lease c).held = some l →
    (∀ n, n < l.remaining →
      ∃ (t : State) (k : Lease), repeated .leaseTick n s = some t ∧ (t.lease c).held = some k ∧ k.holder = l.holder ∧
        k.duration = l.duration ∧ k.remaining = l.remaining - n ∧ (t.lease c).waiters = (s.lease c).waiters) ∧
    ∃ t, repeated .leaseTick l.remaining s = some t ∧ t.lease c = afterLoss (s.lease c).waiters

/-! Staging, commit and armed sets -/

/-- Stage checks every entry before it changes anything, then applies them in frame order: a new channel at the tail, a
staged channel in place (R52, R53). -/
def Obligations.StageReplacesInPlace : Prop :=
  ∀ (s : State) (p : Port), Listening s p → s.devicePhase = .running →
    (∀ args : List Byte, CommandName.lenAllowed .stage args.length = true →
      (∃ k, 4 * k + 3 < args.length ∧ (16 ≤ (args.getD (4 * k) 0).toNat ∨ 2 ≤ (args.getD (4 * k + 3) 0).toNat)) →
      ∃ t, exec (.stage p args) s = .next t ∧ Answers s t p { status := .badArgument, data := [] } ∧
        t = { s with ports := t.ports }) ∧
    (∀ es : List StageEntry, es ≠ [] → es.length ≤ 12 →
      ∃ (t : State) (list : List StageEntry), exec (.stage p (entryBytes es)) s = .next t ∧
        Answers s t p { status := .ok, data := [BitVec.ofNat 8 list.length] } ∧
        list = es.foldl (fun l e =>
          if l.any (fun x => x.channel = e.channel) then l.map (fun x => if x.channel = e.channel then e else x)
          else l ++ [e]) (s.commit p).staging ∧
        (Safety.Inv s → 1 ≤ list.length ∧ list.length ≤ 16) ∧
        t.commit p = { s.commit p with staging := list } ∧ (∀ q, q ≠ p → t.commit q = s.commit q) ∧
        t = { s with commits := t.commits, ports := t.ports })

/-- Unstage removes the entries of its mask and reports them (R55); Read Stage returns the list as staged (R56). -/
def Obligations.UnstageAndReadStage : Prop :=
  ∀ (s : State) (p : Port), Listening s p → s.devicePhase = .running →
    (∃ t, exec (.unstage p [0, 0]) s = .next t ∧ Answers s t p { status := .badArgument, data := [] } ∧
      t = { s with ports := t.ports }) ∧
    (∀ m : Mask, m ≠ 0 →
      ∃ (t : State) (removed : Mask), exec (.unstage p (wordBytes m)) s = .next t ∧
        Answers s t p { status := .ok, data := wordBytes removed } ∧
        (∀ c, inMask removed c = true ↔ inMask m c = true ∧ ∃ e ∈ (s.commit p).staging, e.channel = c) ∧
        t.commit p =
          { s.commit p with staging := (s.commit p).staging.filter (fun e => inMask m e.channel = false) } ∧
        (∀ q, q ≠ p → t.commit q = s.commit q) ∧ t = { s with commits := t.commits, ports := t.ports }) ∧
    (∃ t, exec (.readStage p []) s = .next t ∧
      Answers s t p
        { status := .ok
          data := (s.commit p).staging.flatMap
            (fun e => channelByte e.channel :: (wordBytes e.code ++ [if e.jump = true then 1 else 0])) } ∧
      t = { s with ports := t.ports })

/-- Commit and Arm are refused by the first of their checks that fails, and a refusal changes nothing; with no failing
check both pass (R57, R58, R59, R69). -/
def Obligations.CommitAndArmRefusals : Prop :=
  ∀ (s : State) (p : Port), Listening s p →
    (s.devicePhase = .starting →
      (∃ t, exec (.commit p []) s = .next t ∧ Refuses s t p .notReady ∧ t = { s with ports := t.ports }) ∧
      (∀ w : Word, ∃ t, exec (.arm p (wordBytes w)) s = .next t ∧ Refuses s t p .notReady ∧
        t = { s with ports := t.ports })) ∧
    (s.devicePhase = .running →
      (∀ w : Word, 60000 < w.toNat →
        ∃ t, exec (.arm p (wordBytes w)) s = .next t ∧ Answers s t p { status := .badArgument, data := [] } ∧
          t = { s with ports := t.ports }) ∧
      (∀ r : Reply, CommitRefusal s p r →
        (∃ t, exec (.commit p []) s = .next t ∧ Answers s t p r ∧ t = { s with ports := t.ports }) ∧
        (∀ w : Word, w.toNat ≤ 60000 →
          ∃ t, exec (.arm p (wordBytes w)) s = .next t ∧ Answers s t p r ∧ t = { s with ports := t.ports })) ∧
      (CommitPasses s p ∨ ∃ r, CommitRefusal s p r))

/-- A Commit that passes its checks applies every entry: clamped targets, LIVE states, renewed leases, jumps placed in list
order; the list empties and the number advances (R60 to R65). -/
def Obligations.CommitAppliesTheList : Prop :=
  ∀ (s : State) (p : Port), Safety.Inv s → Listening s p → s.devicePhase = .running → CommitPasses s p →
    ∃ (t : State) (clamped : Mask), exec (.commit p []) s = .next t ∧
      Answers s t p { status := .ok, data := wordBytes (s.commit p).nextNumber ++ wordBytes clamped } ∧
      NamesClamped s (s.commit p).staging clamped ∧
      (∀ e ∈ (s.commit p).staging,
        t.chan e.channel = applied (s.chan e.channel) e ∧ t.lease e.channel = renewed (s.lease e.channel)) ∧
      (∀ c, (∀ e ∈ (s.commit p).staging, e.channel ≠ c) → t.chan c = s.chan c ∧ t.lease c = s.lease c) ∧
      t.queue = queueAfter s (s.commit p).staging s.queue ∧
      t.commit p = { staging := [], armed := none, nextNumber := numberAfter (s.commit p).nextNumber } ∧
      (∀ q, q ≠ p → t.commit q = s.commit q) ∧
      t = { s with channels := t.channels, leases := t.leases, commits := t.commits, queue := t.queue,
                   ports := t.ports }

/-- An Arm that passes its checks moves the staging list into the armed set and changes no channel and no lease (R70). -/
def Obligations.ArmMovesTheList : Prop :=
  ∀ (s : State) (p : Port) (w : Word), Listening s p → s.devicePhase = .running → CommitPasses s p →
    w.toNat ≤ 60000 →
    ∃ t, exec (.arm p (wordBytes w)) s = .next t ∧
      Answers s t p { status := .ok, data := wordBytes (s.commit p).nextNumber } ∧
      t.commit p =
        { staging := []
          armed := some { entries := (s.commit p).staging, number := (s.commit p).nextNumber, window := w.toNat }
          nextNumber := numberAfter (s.commit p).nextNumber } ∧
      (∀ q, q ≠ p → t.commit q = s.commit q) ∧ t = { s with commits := t.commits, ports := t.ports }

/-- Disarm discards the sender's set alone (R73); Read Armed returns it unchanged (R72); both are refused NOT_ARMED without
one. -/
def Obligations.DisarmAndReadArmed : Prop :=
  ∀ (s : State) (p : Port), Listening s p →
    (s.devicePhase = .starting →
      (∃ t, exec (.disarm p []) s = .next t ∧ Refuses s t p .notReady ∧ t = { s with ports := t.ports }) ∧
      (∃ t, exec (.readArmed p []) s = .next t ∧ Refuses s t p .notReady ∧ t = { s with ports := t.ports })) ∧
    (s.devicePhase = .running → (s.commit p).armed = none →
      (∃ t, exec (.disarm p []) s = .next t ∧ Answers s t p { status := .notArmed, data := [] } ∧
        t = { s with ports := t.ports }) ∧
      (∃ t, exec (.readArmed p []) s = .next t ∧ Answers s t p { status := .notArmed, data := [] } ∧
        t = { s with ports := t.ports })) ∧
    (s.devicePhase = .running → ∀ a, (s.commit p).armed = some a →
      (∃ t, exec (.disarm p []) s = .next t ∧ Answers s t p { status := .ok, data := [] } ∧
        t.commit p = { s.commit p with armed := none } ∧ (∀ q, q ≠ p → t.commit q = s.commit q) ∧
        t = { s with commits := t.commits, ports := t.ports }) ∧
      (∃ t, exec (.readArmed p []) s = .next t ∧
        Answers s t p
          { status := .ok
            data :=
              wordBytes a.number ++ wordBytes (BitVec.ofNat 16 a.window)
                ++ a.entries.flatMap
                    (fun e => channelByte e.channel :: (wordBytes e.code ++ [if e.jump = true then 1 else 0])) } ∧
        t = { s with ports := t.ports }))

/-- A Sync command is one sync event, and its reply names the ports whose sets were applied and those whose sets failed
(R76, R78 to R80). -/
def Obligations.SyncCommandFiresEverySet : Prop :=
  ∀ (s : State) (p : Port), Safety.Inv s → Listening s p →
    (s.devicePhase = .starting →
      ∃ t, exec (.sync p []) s = .next t ∧ Refuses s t p .notReady ∧ t = { s with ports := t.ports }) ∧
    (s.devicePhase = .running →
      ∃ (t : State) (fired failed : Byte), exec (.sync p []) s = .next t ∧ SyncEventDone s t ∧
        Answers s t p { status := .ok, data := [fired, failed] } ∧
        (∀ q : Port, fired.getLsbD q.val = true ↔
          ∃ a, (s.commit q).armed = some a ∧ EntriesPass s q a.entries) ∧
        (∀ q : Port, failed.getLsbD q.val = true ↔
          ∃ a, (s.commit q).armed = some a ∧ ¬EntriesPass s q a.entries) ∧
        (∀ i, 3 ≤ i → fired.getLsbD i = false ∧ failed.getLsbD i = false) ∧
        t.syncArmed = s.syncArmed)

/-- A qualified SYNC edge on an armed qualifier is one sync event and disarms it; SYNC low for 100 ns arms it (R75, R178). An
edge on a disarmed qualifier and either event during device reset change nothing (log 7). -/
def Obligations.SyncEdgeFiresEverySet : Prop :=
  ∀ s : State, Safety.Inv s →
    (s.inReset = false → s.syncArmed = true →
      ∃ t, exec .syncEdge s = .next t ∧ SyncEventDone s t ∧ t.syncArmed = false ∧ t.ports = s.ports) ∧
    (s.inReset = false → s.syncArmed = false → exec .syncEdge s = .next s) ∧
    (s.inReset = false → exec .syncQualifierArm s = .next { s with syncArmed := true }) ∧
    (s.inReset = true → exec .syncEdge s = .next s ∧ exec .syncQualifierArm s = .next s)

/-! The channel table -/

/-- Set Limits, Set Fallback, Set Ramp and Clear Fault share their first three checks, in order: the channel byte, the
UNAVAILABLE state, the holder; a refusal changes nothing (R15). -/
def Obligations.SettingCommandsShareChecks : Prop :=
  ∀ (s : State) (p : Port) (name : CommandName) (args : List Byte), Listening s p →
    name ∈ [CommandName.setLimits, .setFallback, .setRamp, .clearFault] → name.lenAllowed args.length = true →
    (s.devicePhase = .starting →
      ∃ t, exec (commandOf name p args) s = .next t ∧ Refuses s t p .notReady ∧ t = { s with ports := t.ports }) ∧
    (s.devicePhase = .running → 16 ≤ (args.getD 0 0).toNat →
      ∃ t, exec (commandOf name p args) s = .next t ∧ Answers s t p { status := .badArgument, data := [] } ∧
        t = { s with ports := t.ports }) ∧
    (∀ c : Channel, s.devicePhase = .running → args.getD 0 0 = channelByte c → (s.chan c).state = .unavailable →
      ∃ t, exec (commandOf name p args) s = .next t ∧
        Answers s t p { status := .unavailable, data := [channelByte c] } ∧ t = { s with ports := t.ports }) ∧
    (∀ c : Channel, s.devicePhase = .running → args.getD 0 0 = channelByte c → (s.chan c).state ≠ .unavailable →
      s.holder c ≠ some p →
      ∃ t, exec (commandOf name p args) s = .next t ∧
        Answers s t p { status := .notHolder, data := [channelByte c] } ∧ t = { s with ports := t.ports })

/-- Set Limits (R16): its two refusals, the new window with the target clamped into it, and the jump of a LIVE channel
whose target the clamp changed and whose step is 0. -/
def Obligations.SetLimitsClampsTheTarget : Prop :=
  ∀ (s : State) (p : Port) (c : Channel) (low high : Code), Listening s p → s.devicePhase = .running →
    (s.chan c).state ≠ .unavailable → s.holder c = some p →
    (high < low →
      ∃ t, exec (.setLimits p ([channelByte c] ++ wordBytes low ++ wordBytes high)) s = .next t ∧
        Answers s t p { status := .badArgument, data := [channelByte c] } ∧ t = { s with ports := t.ports }) ∧
    (low ≤ high → (s.chan c).fallback < low ∨ high < (s.chan c).fallback →
      ∃ t, exec (.setLimits p ([channelByte c] ++ wordBytes low ++ wordBytes high)) s = .next t ∧
        Answers s t p { status := .outOfWindow, data := [channelByte c] } ∧ t = { s with ports := t.ports }) ∧
    (low ≤ (s.chan c).fallback → (s.chan c).fallback ≤ high →
      ∃ (t : State) (target : Code),
        exec (.setLimits p ([channelByte c] ++ wordBytes low ++ wordBytes high)) s = .next t ∧
        Answers s t p { status := .ok, data := [] } ∧
        target = (if (s.chan c).target < low then low else if high < (s.chan c).target then high
          else (s.chan c).target) ∧
        t.chan c =
          { s.chan c with
            limitLow := low
            limitHigh := high
            target := target
            present :=
              if (s.chan c).state = .live ∧ target ≠ (s.chan c).target ∧ (s.chan c).rampStep = 0 then target
              else (s.chan c).present } ∧
        t.queue =
          (if (s.chan c).state = .live ∧ target ≠ (s.chan c).target ∧ (s.chan c).rampStep = 0 then
            place s.queue c target .commit
           else s.queue) ∧
        (∀ d, d ≠ c → t.chan d = s.chan d) ∧
        t = { s with channels := t.channels, queue := t.queue, ports := t.ports })

/-- Set Fallback (R17): its refusal, the new fallback, and the motion of a SAFE channel whose target it changes. -/
def Obligations.SetFallbackMovesASafeChannel : Prop :=
  ∀ (s : State) (p : Port) (c : Channel) (code : Code), Listening s p → s.devicePhase = .running →
    (s.chan c).state ≠ .unavailable → s.holder c = some p →
    (code < (s.chan c).limitLow ∨ (s.chan c).limitHigh < code →
      ∃ t, exec (.setFallback p ([channelByte c] ++ wordBytes code)) s = .next t ∧
        Answers s t p { status := .outOfWindow, data := [channelByte c] } ∧ t = { s with ports := t.ports }) ∧
    ((s.chan c).limitLow ≤ code → code ≤ (s.chan c).limitHigh →
      ∃ t, exec (.setFallback p ([channelByte c] ++ wordBytes code)) s = .next t ∧
        Answers s t p { status := .ok, data := [] } ∧
        t.chan c =
          (if (s.chan c).state = .safe ∧ (s.chan c).target ≠ code then
            movedToFallback { s.chan c with fallback := code }
           else { s.chan c with fallback := code }) ∧
        t.queue =
          (if (s.chan c).state = .safe ∧ (s.chan c).target ≠ code ∧
              ¬((s.chan c).rampToFallback = true ∧ (s.chan c).rampStep ≠ 0) then
            place s.queue c code .safe
           else s.queue) ∧
        (∀ d, d ≠ c → t.chan d = s.chan d) ∧
        t = { s with channels := t.channels, queue := t.queue, ports := t.ports })

/-- Set Ramp writes the step and both options together, or refuses an options byte that sets anything else (R93). -/
def Obligations.SetRampWritesStepAndOptions : Prop :=
  ∀ (s : State) (p : Port) (c : Channel) (step : Code) (o : Byte), Listening s p →
    (s.devicePhase = .starting →
      ∃ t, exec (.setRamp p ([channelByte c] ++ wordBytes step ++ [o])) s = .next t ∧ Refuses s t p .notReady ∧
        t = { s with ports := t.ports }) ∧
    (s.devicePhase = .running → (s.chan c).state ≠ .unavailable → s.holder c = some p → o &&& 0xFC ≠ 0 →
      ∃ t, exec (.setRamp p ([channelByte c] ++ wordBytes step ++ [o])) s = .next t ∧
        Answers s t p { status := .badArgument, data := [channelByte c] } ∧ t = { s with ports := t.ports }) ∧
    (s.devicePhase = .running → (s.chan c).state ≠ .unavailable → s.holder c = some p → o &&& 0xFC = 0 →
      ∃ t, exec (.setRamp p ([channelByte c] ++ wordBytes step ++ [o])) s = .next t ∧
        Answers s t p { status := .ok, data := [] } ∧
        t.chan c =
          { s.chan c with rampStep := step, rampToFallback := o.getLsbD 0, rampDoneReport := o.getLsbD 1 } ∧
        (∀ d, d ≠ c → t.chan d = s.chan d) ∧ t = { s with channels := t.channels, ports := t.ports })

/-- Read Channel returns the twenty-two bytes of the channel record to any host, in either device phase, and changes nothing
but the store (R18, R159). -/
def Obligations.ReadChannelReportsTheRecord : Prop :=
  ∀ (s : State) (p : Port), Listening s p →
    (∀ b : Byte, 16 ≤ b.toNat →
      ∃ t, exec (.readChannel p [b]) s = .next t ∧ Answers s t p { status := .badArgument, data := [] } ∧
        t = { s with ports := t.ports }) ∧
    (∀ (c : Channel) (originCode : Option UpdateEntry → Byte),
      originCode none = 0 →
      (∀ e, originCode (some e) =
        match e.origin with
        | .start => 1
        | .commit => 2
        | .ramp => 3
        | .safe => 4
        | .recovery => 5) →
      ∃ t, exec (.readChannel p [channelByte c]) s = .next t ∧
        Answers s t p
          { status := .ok
            data :=
              [channelByte c,
                match (s.chan c).state with
                | .starting => 0
                | .unavailable => 1
                | .safe => 2
                | .live => 3
                | .faulted => 4]
                ++ wordBytes (s.chan c).target ++ wordBytes (s.chan c).present
                ++ (match (s.chan c).confirmed with
                    | none => [0, 0, 0]
                    | some v => [1] ++ wordBytes v)
                ++ wordBytes (s.chan c).fallback ++ wordBytes (s.chan c).limitLow ++ wordBytes (s.chan c).limitHigh
                ++ wordBytes (s.chan c).rampStep
                ++ [BitVec.ofNat 8 ((if (s.chan c).rampToFallback = true then 1 else 0)
                      + (if (s.chan c).rampDoneReport = true then 2 else 0)),
                    BitVec.ofNat 8 (s.chan c).failures,
                    match s.holder c with
                    | none => 0xFF
                    | some q => portByte q,
                    originCode (s.queue.find? (fun e => e.channel = c)),
                    originCode (s.inFlight.filter (fun e => e.channel = c))] } ∧
        t = { s with ports := t.ports })

/-- Force Safe takes the held SAFE and LIVE channels of its mask through safe entry and reports the two masks with the
status they call for (R127).
That a waiting jump entry of a channel that ramps to its fallback stays is the model's reading (log 20). -/
def Obligations.ForceSafeTakesHeldChannels : Prop :=
  ∀ (s : State) (p : Port) (m : Mask), Listening s p →
    (s.devicePhase = .starting →
      ∃ t, exec (.forceSafe p (wordBytes m)) s = .next t ∧ Refuses s t p .notReady ∧ t = { s with ports := t.ports }) ∧
    (s.devicePhase = .running → m = 0 →
      ∃ t, exec (.forceSafe p (wordBytes m)) s = .next t ∧ Answers s t p { status := .badArgument, data := [] } ∧
        t = { s with ports := t.ports }) ∧
    (s.devicePhase = .running → m ≠ 0 →
      ∃ (t : State) (done refused : Mask), exec (.forceSafe p (wordBytes m)) s = .next t ∧
        Answers s t p
          { status :=
              if refused = 0 then .ok
              else if (ascending 16).any (fun c => inMask refused c && decide (s.holder c ≠ some p)) then .notHolder
              else .faulted
            data := wordBytes done ++ wordBytes refused } ∧
        (∀ c, inMask done c = true ↔
          inMask m c = true ∧ s.holder c = some p ∧ ((s.chan c).state = .safe ∨ (s.chan c).state = .live)) ∧
        (∀ c, inMask refused c = true ↔
          inMask m c = true ∧ ¬(s.holder c = some p ∧ ((s.chan c).state = .safe ∨ (s.chan c).state = .live))) ∧
        (∀ c, t.chan c = if inMask done c = true then safeRecord (s.chan c) else s.chan c) ∧
        t.queue = safeQueues s (fun c => inMask done c) s.queue ∧
        t = { s with channels := t.channels, queue := t.queue, ports := t.ports })

/-- Clear Fault returns a held FAULTED channel to SAFE at its fallback with a RECOVERY entry, and refuses any other state
(R130). -/
def Obligations.ClearFaultRecovers : Prop :=
  ∀ (s : State) (p : Port) (c : Channel), Listening s p →
    (s.devicePhase = .starting →
      ∃ t, exec (.clearFault p [channelByte c]) s = .next t ∧ Refuses s t p .notReady ∧ t = { s with ports := t.ports }) ∧
    (s.devicePhase = .running → (s.chan c).state ≠ .unavailable → s.holder c = some p → (s.chan c).state ≠ .faulted →
      ∃ t, exec (.clearFault p [channelByte c]) s = .next t ∧
        Answers s t p { status := .badArgument, data := [channelByte c] } ∧ t = { s with ports := t.ports }) ∧
    (s.devicePhase = .running → s.holder c = some p → (s.chan c).state = .faulted →
      ∃ t, exec (.clearFault p [channelByte c]) s = .next t ∧ Answers s t p { status := .ok, data := [] } ∧
        t.chan c =
          { s.chan c with
            state := .safe, failures := 0, target := (s.chan c).fallback, present := (s.chan c).fallback } ∧
        t.queue = place s.queue c (s.chan c).fallback .recovery ∧
        (Safety.Inv s →
          t.queue = s.queue ++ [{ channel := c, code := (s.chan c).fallback, origin := .recovery }]) ∧
        (∀ d, d ≠ c → t.chan d = s.chan d) ∧
        t = { s with channels := t.channels, queue := t.queue, ports := t.ports })

/-! The ramp engine -/

/-- A ramp tick moves every moving channel by its step, or to its target, places each new present in ascending channel
order, and reports the arrivals asked for (R86 to R88, R92). -/
def Obligations.RampTickMovesEachChannel : Prop :=
  ∀ s : State, s.inReset = false →
    ∃ t, exec .rampTick s = .next t ∧
      (∀ c, t.chan c = { s.chan c with present := presentAfterTick (s.chan c) }) ∧
      t.queue =
        (ascending 16).foldl (fun q c =>
          if ((s.chan c).state = .safe ∨ (s.chan c).state = .live) ∧ (s.chan c).present ≠ (s.chan c).target then
            place q c (presentAfterTick (s.chan c)) .ramp
          else q) s.queue ∧
      (∀ q, t.event q = (ascending 16).foldl (fun u c => seenRamp s q c u) (s.event q)) ∧
      t = { s with channels := t.channels, queue := t.queue, events := t.events }

/-- With nothing else acting, n ramp ticks bring present n steps toward target and never past it, so a ramp of distance d
and step s arrives at tick number d divided by s, rounded up (R87, R89). -/
def Obligations.RampArrivesInItsTicks : Prop :=
  ∀ (s : State) (c : Channel) (n : Nat), s.inReset = false →
    ((s.chan c).state = .safe ∨ (s.chan c).state = .live) → (s.chan c).rampStep ≠ 0 →
    ∃ t, repeated .rampTick n s = some t ∧
      ((s.chan c).present ≤ (s.chan c).target →
        (t.chan c).present.toNat =
          min (s.chan c).target.toNat ((s.chan c).present.toNat + n * (s.chan c).rampStep.toNat)) ∧
      ((s.chan c).target ≤ (s.chan c).present →
        (t.chan c).present.toNat =
          max (s.chan c).target.toNat ((s.chan c).present.toNat - n * (s.chan c).rampStep.toNat))

/-! The converter link -/

/-- The end of a Read Ident frame decides the slot being probed; after the fourth the probe ends, the start-up writes are
placed in channel order, and with no PRESENT slot start-up ends (R102 to R104, R106). -/
def Obligations.ProbeDecidesEachSlot : Prop :=
  ∀ (s : State) (k : Slot) (mark revision : Byte), Safety.Inv s → s.inReset = false → s.linkPhase = .probing →
    (s.slot k).state = .probing → (∀ j, j < k → (s.slot j).state ≠ .probing) →
    s.linkFrame = some { slot := k, bytes := [0xE0, 0, 0] } ∧
    ∃ t, exec (.probeSlot mark revision) s = .next t ∧
      (mark = 0x5A → t.slot k = { state := .present, revision := some revision } ∧ ∀ c, t.chan c = s.chan c) ∧
      (mark ≠ 0x5A → t.slot k = { state := .absent, revision := none } ∧
        ∀ c, t.chan c =
          if c.val / 4 = k.val then { s.chan c with state := .unavailable } else s.chan c) ∧
      (∀ j, j ≠ k → t.slot j = s.slot j) ∧
      ((∃ j, j ≠ k ∧ (s.slot j).state = .probing) →
        t = { s with slots := t.slots, channels := t.channels }) ∧
      ((∀ j, j ≠ k → (s.slot j).state ≠ .probing) →
        t.linkPhase = .idle ∧
        t.queue =
          ((ascending 16).filter (fun c => decide ((t.slot (slotOf c)).state = .present))).map
            (fun c => { channel := c, code := 0, origin := .start }) ∧
        ((∃ j, (t.slot j).state = .present) → t.devicePhase = .starting ∧ ∀ p, t.event p = s.event p) ∧
        ((∀ j, (t.slot j).state ≠ .present) → t.devicePhase = .running ∧ ∀ p, t.event p = (s.event p).take
          { kind := .startupDone, channel := 0xFF, reason := 0, tag := 0, time := s.timeCount }) ∧
        t = { s with devicePhase := t.devicePhase, channels := t.channels, slots := t.slots, queue := t.queue,
                     linkPhase := t.linkPhase, events := t.events })

/-- The IDLE link takes the head entry and writes it, then reads the same converter channel back (R111, R112, R161); the
converter then answers the code written (R99). Taking is a step of its own in the model (log 9), and either command in
another link phase changes nothing (log 7). -/
def Obligations.LinkWritesThenReadsBack : Prop :=
  (∀ (s : State) (e : UpdateEntry) (rest : List UpdateEntry), s.linkPhase = .idle → s.queue = e :: rest →
    ∃ t, exec .linkTakeEntry s = .next t ∧
      t = { s with queue := rest, inFlight := some e, linkPhase := .writing } ∧
      (s.inReset = false → ∃ f : LinkFrame, t.linkFrame = some f ∧ f.slot.val = e.channel.val / 4 ∧
        f.bytes = BitVec.ofNat 8 (0x20 + e.channel.val % 4) :: wordBytes e.code)) ∧
  (∀ s : State, s.linkPhase ≠ .idle ∨ s.queue = [] → exec .linkTakeEntry s = .next s) ∧
  (∀ (s : State) (e : UpdateEntry), s.linkPhase = .writing → s.inFlight = some e →
    ∃ t, exec .writeCodeDone s = .next t ∧ t = { s with linkPhase := .verifying } ∧
      (s.inReset = false → ∃ f : LinkFrame, t.linkFrame = some f ∧ f.slot.val = e.channel.val / 4 ∧
        f.bytes = [BitVec.ofNat 8 (0x60 + e.channel.val % 4), 0, 0])) ∧
  (∀ s : State, s.linkPhase ≠ .writing → exec .writeCodeDone s = .next s) ∧
  (∀ (v : Converter) (e : UpdateEntry),
    (v.after 24 (writeCodeFrame e).bytes).answer (readCodeFrame e).bytes = some (hiByte e.code, loByte e.code) ∧
    ∀ edges bytes, edges ≠ 24 → v.after edges bytes = v)

/-- A verify result that matches confirms the code, clears the failure count and makes a STARTING channel SAFE; the
transaction ends (R113, R117). -/
def Obligations.VerifyMatchConfirms : Prop :=
  ∀ (s : State) (e : UpdateEntry), s.linkPhase = .verifying → s.inFlight = some e →
    ∃ t, exec (.verifyResult e.code) s = .next t ∧
      t.chan e.channel =
        { s.chan e.channel with
          confirmed := some e.code
          failures := 0
          state := if (s.chan e.channel).state = .starting then .safe else (s.chan e.channel).state } ∧
      (∀ c, c ≠ e.channel → t.chan c = s.chan c) ∧ t.inFlight = none ∧ t.linkPhase = .idle ∧
      (s.devicePhase = .running → t.devicePhase = .running ∧ t.events = s.events) ∧
      t = { s with devicePhase := t.devicePhase, channels := t.channels, inFlight := t.inFlight,
                   linkPhase := t.linkPhase, events := t.events }

/-- A first or second verify failure raises the count and places the failed code again at the tail with its origin, unless a
newer code waits (R114). -/
def Obligations.VerifyFailureIsTriedAgain : Prop :=
  ∀ (s : State) (e : UpdateEntry) (read : Code), Safety.Inv s → s.linkPhase = .verifying → s.inFlight = some e →
    read ≠ e.code → (s.chan e.channel).failures < 2 →
    ∃ t, exec (.verifyResult read) s = .next t ∧
      t.chan e.channel = { s.chan e.channel with failures := (s.chan e.channel).failures + 1 } ∧
      (∀ c, c ≠ e.channel → t.chan c = s.chan c) ∧
      ((∀ x ∈ s.queue, x.channel ≠ e.channel) → t.queue = s.queue ++ [e]) ∧
      ((∃ x ∈ s.queue, x.channel = e.channel) → t.queue = s.queue) ∧
      t = { s with channels := t.channels, queue := t.queue, inFlight := none, linkPhase := .idle }

/-- The third verify failure makes the channel FAULTED, removes its waiting entry and sends CHANNEL_FAULT to its holder, or
to every host without one (R115). -/
def Obligations.ThirdFailureFaultsTheChannel : Prop :=
  ∀ (s : State) (e : UpdateEntry) (read : Code), s.linkPhase = .verifying → s.inFlight = some e → read ≠ e.code →
    (s.chan e.channel).failures = 2 →
    ∃ t, exec (.verifyResult read) s = .next t ∧
      t.chan e.channel = { s.chan e.channel with failures := 3, state := .faulted } ∧
      (∀ c, c ≠ e.channel → t.chan c = s.chan c) ∧
      t.queue = s.queue.filter (fun x => decide (x.channel ≠ e.channel)) ∧
      t.inFlight = none ∧ t.linkPhase = .idle ∧
      (s.devicePhase = .running → ∀ q, t.event q =
        if s.holder e.channel = some q ∨ s.holder e.channel = none then
          (s.event q).take { kind := .channelFault, channel := channelByte e.channel, reason := loByte read,
                             tag := e.code, time := s.timeCount }
        else s.event q) ∧
      (s.devicePhase = .running → t.devicePhase = .running) ∧
      t = { s with devicePhase := t.devicePhase, channels := t.channels, queue := t.queue, inFlight := t.inFlight,
                   linkPhase := t.linkPhase, events := t.events }

/-- The verify result that leaves no channel STARTING ends start-up: the phase becomes RUNNING and every host receives
STARTUP_DONE, behind the CHANNEL_FAULT of a third failure (R106). -/
def Obligations.StartupEndsWithItsLastChannel : Prop :=
  ∀ (s : State) (e : UpdateEntry) (read : Code), Safety.Inv s → s.devicePhase = .starting →
    s.linkPhase = .verifying → s.inFlight = some e →
    ∃ (t : State) (before : Port → EventUnit) (mask : Byte), exec (.verifyResult read) s = .next t ∧
      (∀ q, before q =
        if read ≠ e.code ∧ (s.chan e.channel).failures = 2 then
          (s.event q).take { kind := .channelFault, channel := channelByte e.channel, reason := loByte read,
                             tag := e.code, time := s.timeCount }
        else s.event q) ∧
      ShowsPresence s mask ∧
      ((∀ c, (t.chan c).state ≠ .starting) →
        t.devicePhase = .running ∧
        ∀ q, t.event q = (before q).take
          { kind := .startupDone, channel := 0xFF, reason := 0, tag := mask.setWidth 16, time := s.timeCount }) ∧
      ((∃ c, (t.chan c).state = .starting) → t.devicePhase = .starting ∧ ∀ q, t.event q = before q)

/-! The FAULT input -/

/-- An assertion takes every channel through safe entry, drops every armed set with COMMIT_FAILED, and tells every host
(R122). An assertion that finds the input asserted, or device reset, changes nothing (log 7). That a waiting jump entry
of a channel that ramps to its fallback stays is the model's reading (log 20). -/
def Obligations.FaultAssertionMakesEverythingSafe : Prop :=
  ∀ s : State,
    (s.inReset = false → s.faultAsserted = false →
      ∃ t, exec .faultAssertion s = .next t ∧ t.faultAsserted = true ∧
        (∀ c, t.chan c = safeRecord (s.chan c)) ∧ t.queue = safeQueues s (fun _ => true) s.queue ∧
        (∀ p, t.commit p = { s.commit p with armed := none }) ∧
        (∀ p, t.event p =
          EventUnit.take
            (match (s.commit p).armed with
             | none => s.event p
             | some a => (s.event p).take
                { kind := .commitFailed, channel := 0xFF, reason := 0x06, tag := a.number, time := s.timeCount })
            { kind := .faultAsserted, channel := 0xFF, reason := 0, tag := 0, time := s.timeCount }) ∧
        t = { s with faultAsserted := t.faultAsserted, channels := t.channels, queue := t.queue, commits := t.commits,
                     events := t.events }) ∧
    (s.inReset = true ∨ s.faultAsserted = true → exec .faultAssertion s = .next s)

/-- A release tells every host and writes nothing else (R125). -/
def Obligations.FaultReleaseTellsEveryHost : Prop :=
  ∀ s : State, s.inReset = false → s.faultAsserted = true →
    ∃ t, exec .faultRelease s = .next t ∧
      (∀ p, t.event p = (s.event p).take
        { kind := .faultReleased, channel := 0xFF, reason := 0, tag := 0, time := s.timeCount }) ∧
      t = { s with faultAsserted := false, events := t.events }

/-! Events and interrupt lines -/

/-- A record arrives at a host's queue by its class mask, each kind in the class of the table of kinds, and by the room in
the queue (R164, R165, R168). -/
def Obligations.RecordsArriveByMaskAndRoom : Prop :=
  (∀ row ∈ kindTable, row.1.classBit = row.2.2) ∧ (∀ kind : EventKind, kind ∈ kindTable.map Prod.fst) ∧
  ∀ (u : EventUnit) (r : EventRecord),
    (∀ b : Fin 6, r.kind.classBit = some b → u.mask.getLsbD b.val = false → u.take r = u) ∧
    ((∀ b : Fin 6, r.kind.classBit = some b → u.mask.getLsbD b.val = true) →
      (u.take r).mask = u.mask ∧ (u.take r).enable = u.enable ∧
      (u.queue.length < 16 → (∀ x ∈ u.queue, x.kind ≠ .overflow) → (u.take r).queue = u.queue ++ [r]) ∧
      (∀ front last, u.queue = front ++ [last] → 16 ≤ u.queue.length → last.kind ≠ .overflow →
        (u.take r).queue =
          front ++ [{ kind := .overflow, channel := 0xFF, reason := 0, tag := 2, time := r.time }]) ∧
      (∀ front last, u.queue = front ++ [last] → last.kind = .overflow →
        (u.take r).queue = front ++ [{ last with tag := if last.tag < 255 then last.tag + 1 else last.tag }]))

/-- Read Events removes up to the count asked from the head of the sender's queue and returns them oldest first, each kind
as its code of the table of kinds; a count of 0 or above 4 is refused (R164, R169). -/
def Obligations.ReadEventsDrainsTheHead : Prop :=
  (∀ row ∈ kindTable, row.1.code = row.2.1) ∧ (∀ kind : EventKind, kind ∈ kindTable.map Prod.fst) ∧
  ∀ (s : State) (p : Port) (n : Byte), Listening s p →
    (n = 0 ∨ 4 < n.toNat →
      ∃ t, exec (.readEvents p [n]) s = .next t ∧ Answers s t p { status := .badArgument, data := [] } ∧
        t = { s with ports := t.ports }) ∧
    (1 ≤ n.toNat → n.toNat ≤ 4 →
      ∃ (t : State) (taken left : List EventRecord), exec (.readEvents p [n]) s = .next t ∧
        (s.event p).queue = taken ++ left ∧ taken.length = min n.toNat (s.event p).queue.length ∧
        Answers s t p
          { status := .ok
            data :=
              BitVec.ofNat 8 taken.length ::
                taken.flatMap (fun r => [r.kind.code, r.channel, r.reason] ++ wordBytes r.tag ++ wordBytes r.time) } ∧
        t.event p = { s.event p with queue := left } ∧ (∀ q, q ≠ p → t.event q = s.event q) ∧
        t = { s with events := t.events, ports := t.ports })

/-- Set Event Mask writes mask and enable together and acts on the line at once (R170); Event Test hands the sender a TEST
record (R171). -/
def Obligations.SetEventMaskAndEventTest : Prop :=
  ∀ (s : State) (p : Port), Listening s p →
    (∀ m y : Byte, m &&& 0xC0 ≠ 0 ∨ (y ≠ 0 ∧ y ≠ 1) →
      ∃ t, exec (.setEventMask p [m, y]) s = .next t ∧ Answers s t p { status := .badArgument, data := [] } ∧
        t = { s with ports := t.ports }) ∧
    (∀ m y : Byte, m &&& 0xC0 = 0 → y = 0 ∨ y = 1 →
      ∃ t, exec (.setEventMask p [m, y]) s = .next t ∧ Answers s t p { status := .ok, data := [] } ∧
        t.event p = { s.event p with mask := m.setWidth 6, enable := decide (y = 1) } ∧
        (t.interruptDriven p = true ↔ y = 1 ∧ (s.event p).queue ≠ []) ∧
        (∀ q, q ≠ p → t.event q = s.event q) ∧ t = { s with events := t.events, ports := t.ports }) ∧
    (∃ t, exec (.eventTest p []) s = .next t ∧ Answers s t p { status := .ok, data := [] } ∧
      t.event p = (s.event p).take
        { kind := .test, channel := 0xFF, reason := 0, tag := 0, time := s.timeCount } ∧
      (∀ q, q ≠ p → t.event q = s.event q) ∧ t = { s with events := t.events, ports := t.ports })

/-! Reset -/

/-- Device reset returns every block to the values the manual gives, and every output to rest (R177); the levels of the chip
selects stay (log 15), and so do the waiting commands, the model's own queue (log 6, log 15). The state the model starts
from has those values too; that it is the part held in device reset is the model's choice (log 1). -/
def Obligations.DeviceResetReturnsEveryBlock : Prop :=
  ResetValues State.reset ∧ State.reset.inReset = true ∧
  ∀ s : State, ∃ t, exec .deviceReset s = .next t ∧ ResetValues t ∧ t.inReset = true ∧
    (∀ p, t.sdo p = .highImpedance ∧ t.interruptDriven p = false ∧ (t.port p).csLow = (s.port p).csLow) ∧
    t.linkFrame = none ∧ (∀ k, t.chipSelectHigh k = true) ∧ t.dsck = .low ∧ t.dsdo = .low ∧ t.pending = s.pending

/-- The end of device reset samples the ranks, sets the time count to 0, releases the FAULT filter, sets the SYNC qualifier
by the level of SYNC, and begins the probe with SLOT0 (R151, R177, R178). -/
def Obligations.ResetEndSamplesTheStraps : Prop :=
  ∀ (s : State) (rankA rankB : BitVec 3) (syncHigh : Bool), Safety.Inv s → s.inReset = true →
    ∃ t, exec (.deviceResetEnd rankA rankB syncHigh) s = .next t ∧ t.inReset = false ∧ t.timeCount = 0 ∧
      t.faultAsserted = false ∧ t.syncArmed = !syncHigh ∧
      (∀ p, (t.rank p).toNat = 2 * (rankB.getLsbD p.val).toNat + (rankA.getLsbD p.val).toNat) ∧
      (∀ p, t.port p = { s.port p with rank := t.rank p }) ∧
      t.linkFrame = some { slot := 0, bytes := [0xE0, 0, 0] } ∧
      t = { s with inReset := t.inReset, timeCount := t.timeCount, faultAsserted := t.faultAsserted,
                   syncArmed := t.syncArmed, ports := t.ports }

/-- While device reset lasts every output rests (R177); between frames the clock of the link rests low with every chip select
high, and within a frame one chip select is low, the clock runs for its 24 periods and DSDO sends the frame's three bytes
(R97). -/
def Obligations.OutputsRestInReset : Prop :=
  ∀ s : State,
    (Safety.Inv s → s.inReset = true →
      (∀ p, s.sdo p = .highImpedance ∧ s.interruptDriven p = false) ∧ (∀ k, s.chipSelectHigh k = true) ∧
        s.dsck = .low ∧ s.dsdo = .low) ∧
    (s.linkFrame = none → (∀ k, s.chipSelectHigh k = true) ∧ s.dsck = .low) ∧
    (∀ f : LinkFrame, s.linkFrame = some f →
      (∀ k, s.chipSelectHigh k = false ↔ k = f.slot) ∧ s.dsck = .clocking 24 ∧ s.dsdo = .sending f.bytes ∧
        f.bytes.length = 3) ∧
    (s.linkPhase = .idle → s.linkFrame = none)

end
end

