-- ==== Sys2Proof/Laws/Table.lean ====
section
/-! SUPPORT. The laws of a table: reading back what was written, and equality record by record. -/

namespace Sys2Proof.Machine

variable {n : Nat} {α : Type}

@[simp] theorem Table.get_set_self (t : Table n α) (i : Fin n) (x : α) : (t.set i x).get i = x := by
  simp [Table.get, Table.set]

theorem Table.get_set (t : Table n α) (i j : Fin n) (x : α) :
    (t.set i x).get j = if i = j then x else t.get j := by
  simp [Table.get, Table.set, List.getElem_set, Fin.ext_iff]

@[simp] theorem Table.get_set_of_ne (t : Table n α) {i j : Fin n} (x : α) (h : i ≠ j) :
    (t.set i x).get j = t.get j := by
  rw [Table.get_set, if_neg h]

@[simp] theorem Table.get_fill (i : Fin n) (x : α) : (Table.fill n x).get i = x := by
  simp [Table.get, Table.fill]

@[simp] theorem Table.get_ofFn (f : Fin n → α) (i : Fin n) : (Table.ofFn f).get i = f i := by
  simp [Table.get, Table.ofFn]

/-- Two tables with the same record of every number are the same. -/
theorem Table.ext_get {t u : Table n α} (h : ∀ i, t.get i = u.get i) : t = u := by
  obtain ⟨l, hl⟩ := t
  obtain ⟨m, hm⟩ := u
  have : l = m := by
    refine List.ext_getElem (by omega) ?_
    intro k hk _
    simpa [Table.get] using h ⟨k, by omega⟩
  subst this
  rfl

/-- Writing back what a table holds changes nothing. -/
@[simp] theorem Table.set_get (t : Table n α) (i : Fin n) : t.set i (t.get i) = t := by
  apply Table.ext_get
  intro j
  by_cases h : i = j
  · subst h; simp
  · simp [h]

@[simp] theorem Table.set_set (t : Table n α) (i : Fin n) (x y : α) : (t.set i x).set i y = t.set i y := by
  apply Table.ext_get
  intro j
  by_cases h : i = j
  · subst h; simp
  · simp [h]

end Sys2Proof.Machine
end

