-- ==== Sys2Proof/Laws/State.lean ====
section
/-! SUPPORT. What each update of State does to each field and each reading of it, so that no proof unfolds an update. -/

namespace Sys2Proof.Machine

variable (s : State)

section
variable (c : Channel) (r : ChannelRecord)
@[simp] theorem State.setChan_inReset : (s.setChan c r).inReset = s.inReset := rfl
@[simp] theorem State.setChan_devicePhase : (s.setChan c r).devicePhase = s.devicePhase := rfl
@[simp] theorem State.setChan_timeCount : (s.setChan c r).timeCount = s.timeCount := rfl
@[simp] theorem State.setChan_faultAsserted : (s.setChan c r).faultAsserted = s.faultAsserted := rfl
@[simp] theorem State.setChan_syncArmed : (s.setChan c r).syncArmed = s.syncArmed := rfl
@[simp] theorem State.setChan_leases : (s.setChan c r).leases = s.leases := rfl
@[simp] theorem State.setChan_leads : (s.setChan c r).leads = s.leads := rfl
@[simp] theorem State.setChan_commits : (s.setChan c r).commits = s.commits := rfl
@[simp] theorem State.setChan_ports : (s.setChan c r).ports = s.ports := rfl
@[simp] theorem State.setChan_slots : (s.setChan c r).slots = s.slots := rfl
@[simp] theorem State.setChan_queue : (s.setChan c r).queue = s.queue := rfl
@[simp] theorem State.setChan_inFlight : (s.setChan c r).inFlight = s.inFlight := rfl
@[simp] theorem State.setChan_linkPhase : (s.setChan c r).linkPhase = s.linkPhase := rfl
@[simp] theorem State.setChan_events : (s.setChan c r).events = s.events := rfl
@[simp] theorem State.setChan_pending : (s.setChan c r).pending = s.pending := rfl
@[simp] theorem State.setChan_lease (d : Channel): (s.setChan c r).lease d = s.lease d := rfl
@[simp] theorem State.setChan_holder (d : Channel): (s.setChan c r).holder d = s.holder d := rfl
@[simp] theorem State.setChan_holds (q : Port) (d : Channel): (s.setChan c r).holds q d = s.holds q d := rfl
@[simp] theorem State.setChan_waits (q : Port) (d : Channel): (s.setChan c r).waits q d = s.waits q d := rfl
@[simp] theorem State.setChan_lead (q : Port): (s.setChan c r).lead q = s.lead q := rfl
@[simp] theorem State.setChan_commit (q : Port): (s.setChan c r).commit q = s.commit q := rfl
@[simp] theorem State.setChan_port (q : Port): (s.setChan c r).port q = s.port q := rfl
@[simp] theorem State.setChan_rank (q : Port): (s.setChan c r).rank q = s.rank q := rfl
@[simp] theorem State.setChan_slot (j : Slot): (s.setChan c r).slot j = s.slot j := rfl
@[simp] theorem State.setChan_event (q : Port): (s.setChan c r).event q = s.event q := rfl
@[simp] theorem State.setChan_waiting (d : Channel): (s.setChan c r).waiting d = s.waiting d := rfl
@[simp] theorem State.setChan_flying (d : Channel): (s.setChan c r).flying d = s.flying d := rfl
@[simp] theorem State.setChan_probed : (s.setChan c r).probed = s.probed := rfl
end

section
variable (c : Channel) (r : LeaseRecord)
@[simp] theorem State.setLease_inReset : (s.setLease c r).inReset = s.inReset := rfl
@[simp] theorem State.setLease_devicePhase : (s.setLease c r).devicePhase = s.devicePhase := rfl
@[simp] theorem State.setLease_timeCount : (s.setLease c r).timeCount = s.timeCount := rfl
@[simp] theorem State.setLease_faultAsserted : (s.setLease c r).faultAsserted = s.faultAsserted := rfl
@[simp] theorem State.setLease_syncArmed : (s.setLease c r).syncArmed = s.syncArmed := rfl
@[simp] theorem State.setLease_channels : (s.setLease c r).channels = s.channels := rfl
@[simp] theorem State.setLease_leads : (s.setLease c r).leads = s.leads := rfl
@[simp] theorem State.setLease_commits : (s.setLease c r).commits = s.commits := rfl
@[simp] theorem State.setLease_ports : (s.setLease c r).ports = s.ports := rfl
@[simp] theorem State.setLease_slots : (s.setLease c r).slots = s.slots := rfl
@[simp] theorem State.setLease_queue : (s.setLease c r).queue = s.queue := rfl
@[simp] theorem State.setLease_inFlight : (s.setLease c r).inFlight = s.inFlight := rfl
@[simp] theorem State.setLease_linkPhase : (s.setLease c r).linkPhase = s.linkPhase := rfl
@[simp] theorem State.setLease_events : (s.setLease c r).events = s.events := rfl
@[simp] theorem State.setLease_pending : (s.setLease c r).pending = s.pending := rfl
@[simp] theorem State.setLease_chan (d : Channel): (s.setLease c r).chan d = s.chan d := rfl
@[simp] theorem State.setLease_lead (q : Port): (s.setLease c r).lead q = s.lead q := rfl
@[simp] theorem State.setLease_commit (q : Port): (s.setLease c r).commit q = s.commit q := rfl
@[simp] theorem State.setLease_port (q : Port): (s.setLease c r).port q = s.port q := rfl
@[simp] theorem State.setLease_rank (q : Port): (s.setLease c r).rank q = s.rank q := rfl
@[simp] theorem State.setLease_slot (j : Slot): (s.setLease c r).slot j = s.slot j := rfl
@[simp] theorem State.setLease_event (q : Port): (s.setLease c r).event q = s.event q := rfl
@[simp] theorem State.setLease_waiting (d : Channel): (s.setLease c r).waiting d = s.waiting d := rfl
@[simp] theorem State.setLease_flying (d : Channel): (s.setLease c r).flying d = s.flying d := rfl
@[simp] theorem State.setLease_probed : (s.setLease c r).probed = s.probed := rfl
@[simp] theorem State.setLease_anyStarting : (s.setLease c r).anyStarting = s.anyStarting := rfl
end

section
variable (p : Port) (n : Nat)
@[simp] theorem State.setLead_inReset : (s.setLead p n).inReset = s.inReset := rfl
@[simp] theorem State.setLead_devicePhase : (s.setLead p n).devicePhase = s.devicePhase := rfl
@[simp] theorem State.setLead_timeCount : (s.setLead p n).timeCount = s.timeCount := rfl
@[simp] theorem State.setLead_faultAsserted : (s.setLead p n).faultAsserted = s.faultAsserted := rfl
@[simp] theorem State.setLead_syncArmed : (s.setLead p n).syncArmed = s.syncArmed := rfl
@[simp] theorem State.setLead_channels : (s.setLead p n).channels = s.channels := rfl
@[simp] theorem State.setLead_leases : (s.setLead p n).leases = s.leases := rfl
@[simp] theorem State.setLead_commits : (s.setLead p n).commits = s.commits := rfl
@[simp] theorem State.setLead_ports : (s.setLead p n).ports = s.ports := rfl
@[simp] theorem State.setLead_slots : (s.setLead p n).slots = s.slots := rfl
@[simp] theorem State.setLead_queue : (s.setLead p n).queue = s.queue := rfl
@[simp] theorem State.setLead_inFlight : (s.setLead p n).inFlight = s.inFlight := rfl
@[simp] theorem State.setLead_linkPhase : (s.setLead p n).linkPhase = s.linkPhase := rfl
@[simp] theorem State.setLead_events : (s.setLead p n).events = s.events := rfl
@[simp] theorem State.setLead_pending : (s.setLead p n).pending = s.pending := rfl
@[simp] theorem State.setLead_chan (d : Channel): (s.setLead p n).chan d = s.chan d := rfl
@[simp] theorem State.setLead_lease (d : Channel): (s.setLead p n).lease d = s.lease d := rfl
@[simp] theorem State.setLead_holder (d : Channel): (s.setLead p n).holder d = s.holder d := rfl
@[simp] theorem State.setLead_holds (q : Port) (d : Channel): (s.setLead p n).holds q d = s.holds q d := rfl
@[simp] theorem State.setLead_waits (q : Port) (d : Channel): (s.setLead p n).waits q d = s.waits q d := rfl
@[simp] theorem State.setLead_commit (q : Port): (s.setLead p n).commit q = s.commit q := rfl
@[simp] theorem State.setLead_port (q : Port): (s.setLead p n).port q = s.port q := rfl
@[simp] theorem State.setLead_rank (q : Port): (s.setLead p n).rank q = s.rank q := rfl
@[simp] theorem State.setLead_slot (j : Slot): (s.setLead p n).slot j = s.slot j := rfl
@[simp] theorem State.setLead_event (q : Port): (s.setLead p n).event q = s.event q := rfl
@[simp] theorem State.setLead_waiting (d : Channel): (s.setLead p n).waiting d = s.waiting d := rfl
@[simp] theorem State.setLead_flying (d : Channel): (s.setLead p n).flying d = s.flying d := rfl
@[simp] theorem State.setLead_probed : (s.setLead p n).probed = s.probed := rfl
@[simp] theorem State.setLead_anyStarting : (s.setLead p n).anyStarting = s.anyStarting := rfl
end

section
variable (p : Port) (r : CommitRecord)
@[simp] theorem State.setCommit_inReset : (s.setCommit p r).inReset = s.inReset := rfl
@[simp] theorem State.setCommit_devicePhase : (s.setCommit p r).devicePhase = s.devicePhase := rfl
@[simp] theorem State.setCommit_timeCount : (s.setCommit p r).timeCount = s.timeCount := rfl
@[simp] theorem State.setCommit_faultAsserted : (s.setCommit p r).faultAsserted = s.faultAsserted := rfl
@[simp] theorem State.setCommit_syncArmed : (s.setCommit p r).syncArmed = s.syncArmed := rfl
@[simp] theorem State.setCommit_channels : (s.setCommit p r).channels = s.channels := rfl
@[simp] theorem State.setCommit_leases : (s.setCommit p r).leases = s.leases := rfl
@[simp] theorem State.setCommit_leads : (s.setCommit p r).leads = s.leads := rfl
@[simp] theorem State.setCommit_ports : (s.setCommit p r).ports = s.ports := rfl
@[simp] theorem State.setCommit_slots : (s.setCommit p r).slots = s.slots := rfl
@[simp] theorem State.setCommit_queue : (s.setCommit p r).queue = s.queue := rfl
@[simp] theorem State.setCommit_inFlight : (s.setCommit p r).inFlight = s.inFlight := rfl
@[simp] theorem State.setCommit_linkPhase : (s.setCommit p r).linkPhase = s.linkPhase := rfl
@[simp] theorem State.setCommit_events : (s.setCommit p r).events = s.events := rfl
@[simp] theorem State.setCommit_pending : (s.setCommit p r).pending = s.pending := rfl
@[simp] theorem State.setCommit_chan (d : Channel): (s.setCommit p r).chan d = s.chan d := rfl
@[simp] theorem State.setCommit_lease (d : Channel): (s.setCommit p r).lease d = s.lease d := rfl
@[simp] theorem State.setCommit_holder (d : Channel): (s.setCommit p r).holder d = s.holder d := rfl
@[simp] theorem State.setCommit_holds (q : Port) (d : Channel): (s.setCommit p r).holds q d = s.holds q d := rfl
@[simp] theorem State.setCommit_waits (q : Port) (d : Channel): (s.setCommit p r).waits q d = s.waits q d := rfl
@[simp] theorem State.setCommit_lead (q : Port): (s.setCommit p r).lead q = s.lead q := rfl
@[simp] theorem State.setCommit_port (q : Port): (s.setCommit p r).port q = s.port q := rfl
@[simp] theorem State.setCommit_rank (q : Port): (s.setCommit p r).rank q = s.rank q := rfl
@[simp] theorem State.setCommit_slot (j : Slot): (s.setCommit p r).slot j = s.slot j := rfl
@[simp] theorem State.setCommit_event (q : Port): (s.setCommit p r).event q = s.event q := rfl
@[simp] theorem State.setCommit_waiting (d : Channel): (s.setCommit p r).waiting d = s.waiting d := rfl
@[simp] theorem State.setCommit_flying (d : Channel): (s.setCommit p r).flying d = s.flying d := rfl
@[simp] theorem State.setCommit_probed : (s.setCommit p r).probed = s.probed := rfl
@[simp] theorem State.setCommit_anyStarting : (s.setCommit p r).anyStarting = s.anyStarting := rfl
end

section
variable (p : Port) (r : PortRecord)
@[simp] theorem State.setPort_inReset : (s.setPort p r).inReset = s.inReset := rfl
@[simp] theorem State.setPort_devicePhase : (s.setPort p r).devicePhase = s.devicePhase := rfl
@[simp] theorem State.setPort_timeCount : (s.setPort p r).timeCount = s.timeCount := rfl
@[simp] theorem State.setPort_faultAsserted : (s.setPort p r).faultAsserted = s.faultAsserted := rfl
@[simp] theorem State.setPort_syncArmed : (s.setPort p r).syncArmed = s.syncArmed := rfl
@[simp] theorem State.setPort_channels : (s.setPort p r).channels = s.channels := rfl
@[simp] theorem State.setPort_leases : (s.setPort p r).leases = s.leases := rfl
@[simp] theorem State.setPort_leads : (s.setPort p r).leads = s.leads := rfl
@[simp] theorem State.setPort_commits : (s.setPort p r).commits = s.commits := rfl
@[simp] theorem State.setPort_slots : (s.setPort p r).slots = s.slots := rfl
@[simp] theorem State.setPort_queue : (s.setPort p r).queue = s.queue := rfl
@[simp] theorem State.setPort_inFlight : (s.setPort p r).inFlight = s.inFlight := rfl
@[simp] theorem State.setPort_linkPhase : (s.setPort p r).linkPhase = s.linkPhase := rfl
@[simp] theorem State.setPort_events : (s.setPort p r).events = s.events := rfl
@[simp] theorem State.setPort_pending : (s.setPort p r).pending = s.pending := rfl
@[simp] theorem State.setPort_chan (d : Channel): (s.setPort p r).chan d = s.chan d := rfl
@[simp] theorem State.setPort_lease (d : Channel): (s.setPort p r).lease d = s.lease d := rfl
@[simp] theorem State.setPort_holder (d : Channel): (s.setPort p r).holder d = s.holder d := rfl
@[simp] theorem State.setPort_holds (q : Port) (d : Channel): (s.setPort p r).holds q d = s.holds q d := rfl
@[simp] theorem State.setPort_waits (q : Port) (d : Channel): (s.setPort p r).waits q d = s.waits q d := rfl
@[simp] theorem State.setPort_lead (q : Port): (s.setPort p r).lead q = s.lead q := rfl
@[simp] theorem State.setPort_commit (q : Port): (s.setPort p r).commit q = s.commit q := rfl
@[simp] theorem State.setPort_slot (j : Slot): (s.setPort p r).slot j = s.slot j := rfl
@[simp] theorem State.setPort_event (q : Port): (s.setPort p r).event q = s.event q := rfl
@[simp] theorem State.setPort_waiting (d : Channel): (s.setPort p r).waiting d = s.waiting d := rfl
@[simp] theorem State.setPort_flying (d : Channel): (s.setPort p r).flying d = s.flying d := rfl
@[simp] theorem State.setPort_probed : (s.setPort p r).probed = s.probed := rfl
@[simp] theorem State.setPort_anyStarting : (s.setPort p r).anyStarting = s.anyStarting := rfl
end

section
variable (k : Slot) (r : SlotRecord)
@[simp] theorem State.setSlot_inReset : (s.setSlot k r).inReset = s.inReset := rfl
@[simp] theorem State.setSlot_devicePhase : (s.setSlot k r).devicePhase = s.devicePhase := rfl
@[simp] theorem State.setSlot_timeCount : (s.setSlot k r).timeCount = s.timeCount := rfl
@[simp] theorem State.setSlot_faultAsserted : (s.setSlot k r).faultAsserted = s.faultAsserted := rfl
@[simp] theorem State.setSlot_syncArmed : (s.setSlot k r).syncArmed = s.syncArmed := rfl
@[simp] theorem State.setSlot_channels : (s.setSlot k r).channels = s.channels := rfl
@[simp] theorem State.setSlot_leases : (s.setSlot k r).leases = s.leases := rfl
@[simp] theorem State.setSlot_leads : (s.setSlot k r).leads = s.leads := rfl
@[simp] theorem State.setSlot_commits : (s.setSlot k r).commits = s.commits := rfl
@[simp] theorem State.setSlot_ports : (s.setSlot k r).ports = s.ports := rfl
@[simp] theorem State.setSlot_queue : (s.setSlot k r).queue = s.queue := rfl
@[simp] theorem State.setSlot_inFlight : (s.setSlot k r).inFlight = s.inFlight := rfl
@[simp] theorem State.setSlot_linkPhase : (s.setSlot k r).linkPhase = s.linkPhase := rfl
@[simp] theorem State.setSlot_events : (s.setSlot k r).events = s.events := rfl
@[simp] theorem State.setSlot_pending : (s.setSlot k r).pending = s.pending := rfl
@[simp] theorem State.setSlot_chan (d : Channel): (s.setSlot k r).chan d = s.chan d := rfl
@[simp] theorem State.setSlot_lease (d : Channel): (s.setSlot k r).lease d = s.lease d := rfl
@[simp] theorem State.setSlot_holder (d : Channel): (s.setSlot k r).holder d = s.holder d := rfl
@[simp] theorem State.setSlot_holds (q : Port) (d : Channel): (s.setSlot k r).holds q d = s.holds q d := rfl
@[simp] theorem State.setSlot_waits (q : Port) (d : Channel): (s.setSlot k r).waits q d = s.waits q d := rfl
@[simp] theorem State.setSlot_lead (q : Port): (s.setSlot k r).lead q = s.lead q := rfl
@[simp] theorem State.setSlot_commit (q : Port): (s.setSlot k r).commit q = s.commit q := rfl
@[simp] theorem State.setSlot_port (q : Port): (s.setSlot k r).port q = s.port q := rfl
@[simp] theorem State.setSlot_rank (q : Port): (s.setSlot k r).rank q = s.rank q := rfl
@[simp] theorem State.setSlot_event (q : Port): (s.setSlot k r).event q = s.event q := rfl
@[simp] theorem State.setSlot_waiting (d : Channel): (s.setSlot k r).waiting d = s.waiting d := rfl
@[simp] theorem State.setSlot_flying (d : Channel): (s.setSlot k r).flying d = s.flying d := rfl
@[simp] theorem State.setSlot_anyStarting : (s.setSlot k r).anyStarting = s.anyStarting := rfl
end

section
variable (p : Port) (r : EventUnit)
@[simp] theorem State.setEvent_inReset : (s.setEvent p r).inReset = s.inReset := rfl
@[simp] theorem State.setEvent_devicePhase : (s.setEvent p r).devicePhase = s.devicePhase := rfl
@[simp] theorem State.setEvent_timeCount : (s.setEvent p r).timeCount = s.timeCount := rfl
@[simp] theorem State.setEvent_faultAsserted : (s.setEvent p r).faultAsserted = s.faultAsserted := rfl
@[simp] theorem State.setEvent_syncArmed : (s.setEvent p r).syncArmed = s.syncArmed := rfl
@[simp] theorem State.setEvent_channels : (s.setEvent p r).channels = s.channels := rfl
@[simp] theorem State.setEvent_leases : (s.setEvent p r).leases = s.leases := rfl
@[simp] theorem State.setEvent_leads : (s.setEvent p r).leads = s.leads := rfl
@[simp] theorem State.setEvent_commits : (s.setEvent p r).commits = s.commits := rfl
@[simp] theorem State.setEvent_ports : (s.setEvent p r).ports = s.ports := rfl
@[simp] theorem State.setEvent_slots : (s.setEvent p r).slots = s.slots := rfl
@[simp] theorem State.setEvent_queue : (s.setEvent p r).queue = s.queue := rfl
@[simp] theorem State.setEvent_inFlight : (s.setEvent p r).inFlight = s.inFlight := rfl
@[simp] theorem State.setEvent_linkPhase : (s.setEvent p r).linkPhase = s.linkPhase := rfl
@[simp] theorem State.setEvent_pending : (s.setEvent p r).pending = s.pending := rfl
@[simp] theorem State.setEvent_chan (d : Channel): (s.setEvent p r).chan d = s.chan d := rfl
@[simp] theorem State.setEvent_lease (d : Channel): (s.setEvent p r).lease d = s.lease d := rfl
@[simp] theorem State.setEvent_holder (d : Channel): (s.setEvent p r).holder d = s.holder d := rfl
@[simp] theorem State.setEvent_holds (q : Port) (d : Channel): (s.setEvent p r).holds q d = s.holds q d := rfl
@[simp] theorem State.setEvent_waits (q : Port) (d : Channel): (s.setEvent p r).waits q d = s.waits q d := rfl
@[simp] theorem State.setEvent_lead (q : Port): (s.setEvent p r).lead q = s.lead q := rfl
@[simp] theorem State.setEvent_commit (q : Port): (s.setEvent p r).commit q = s.commit q := rfl
@[simp] theorem State.setEvent_port (q : Port): (s.setEvent p r).port q = s.port q := rfl
@[simp] theorem State.setEvent_rank (q : Port): (s.setEvent p r).rank q = s.rank q := rfl
@[simp] theorem State.setEvent_slot (j : Slot): (s.setEvent p r).slot j = s.slot j := rfl
@[simp] theorem State.setEvent_waiting (d : Channel): (s.setEvent p r).waiting d = s.waiting d := rfl
@[simp] theorem State.setEvent_flying (d : Channel): (s.setEvent p r).flying d = s.flying d := rfl
@[simp] theorem State.setEvent_probed : (s.setEvent p r).probed = s.probed := rfl
@[simp] theorem State.setEvent_anyStarting : (s.setEvent p r).anyStarting = s.anyStarting := rfl
end

section
variable (c : Channel) (code : Code) (origin : Origin)
@[simp] theorem State.place_inReset : (s.place c code origin).inReset = s.inReset := rfl
@[simp] theorem State.place_devicePhase : (s.place c code origin).devicePhase = s.devicePhase := rfl
@[simp] theorem State.place_timeCount : (s.place c code origin).timeCount = s.timeCount := rfl
@[simp] theorem State.place_faultAsserted : (s.place c code origin).faultAsserted = s.faultAsserted := rfl
@[simp] theorem State.place_syncArmed : (s.place c code origin).syncArmed = s.syncArmed := rfl
@[simp] theorem State.place_channels : (s.place c code origin).channels = s.channels := rfl
@[simp] theorem State.place_leases : (s.place c code origin).leases = s.leases := rfl
@[simp] theorem State.place_leads : (s.place c code origin).leads = s.leads := rfl
@[simp] theorem State.place_commits : (s.place c code origin).commits = s.commits := rfl
@[simp] theorem State.place_ports : (s.place c code origin).ports = s.ports := rfl
@[simp] theorem State.place_slots : (s.place c code origin).slots = s.slots := rfl
@[simp] theorem State.place_inFlight : (s.place c code origin).inFlight = s.inFlight := rfl
@[simp] theorem State.place_linkPhase : (s.place c code origin).linkPhase = s.linkPhase := rfl
@[simp] theorem State.place_events : (s.place c code origin).events = s.events := rfl
@[simp] theorem State.place_pending : (s.place c code origin).pending = s.pending := rfl
@[simp] theorem State.place_chan (d : Channel): (s.place c code origin).chan d = s.chan d := rfl
@[simp] theorem State.place_lease (d : Channel): (s.place c code origin).lease d = s.lease d := rfl
@[simp] theorem State.place_holder (d : Channel): (s.place c code origin).holder d = s.holder d := rfl
@[simp] theorem State.place_holds (q : Port) (d : Channel): (s.place c code origin).holds q d = s.holds q d := rfl
@[simp] theorem State.place_waits (q : Port) (d : Channel): (s.place c code origin).waits q d = s.waits q d := rfl
@[simp] theorem State.place_lead (q : Port): (s.place c code origin).lead q = s.lead q := rfl
@[simp] theorem State.place_commit (q : Port): (s.place c code origin).commit q = s.commit q := rfl
@[simp] theorem State.place_port (q : Port): (s.place c code origin).port q = s.port q := rfl
@[simp] theorem State.place_rank (q : Port): (s.place c code origin).rank q = s.rank q := rfl
@[simp] theorem State.place_slot (j : Slot): (s.place c code origin).slot j = s.slot j := rfl
@[simp] theorem State.place_event (q : Port): (s.place c code origin).event q = s.event q := rfl
@[simp] theorem State.place_flying (d : Channel): (s.place c code origin).flying d = s.flying d := rfl
@[simp] theorem State.place_probed : (s.place c code origin).probed = s.probed := rfl
@[simp] theorem State.place_anyStarting : (s.place c code origin).anyStarting = s.anyStarting := rfl
end

section
variable (cs : List Instr)
@[simp] theorem State.withPending_inReset : (s.withPending cs).inReset = s.inReset := rfl
@[simp] theorem State.withPending_devicePhase : (s.withPending cs).devicePhase = s.devicePhase := rfl
@[simp] theorem State.withPending_timeCount : (s.withPending cs).timeCount = s.timeCount := rfl
@[simp] theorem State.withPending_faultAsserted : (s.withPending cs).faultAsserted = s.faultAsserted := rfl
@[simp] theorem State.withPending_syncArmed : (s.withPending cs).syncArmed = s.syncArmed := rfl
@[simp] theorem State.withPending_channels : (s.withPending cs).channels = s.channels := rfl
@[simp] theorem State.withPending_leases : (s.withPending cs).leases = s.leases := rfl
@[simp] theorem State.withPending_leads : (s.withPending cs).leads = s.leads := rfl
@[simp] theorem State.withPending_commits : (s.withPending cs).commits = s.commits := rfl
@[simp] theorem State.withPending_ports : (s.withPending cs).ports = s.ports := rfl
@[simp] theorem State.withPending_slots : (s.withPending cs).slots = s.slots := rfl
@[simp] theorem State.withPending_queue : (s.withPending cs).queue = s.queue := rfl
@[simp] theorem State.withPending_inFlight : (s.withPending cs).inFlight = s.inFlight := rfl
@[simp] theorem State.withPending_linkPhase : (s.withPending cs).linkPhase = s.linkPhase := rfl
@[simp] theorem State.withPending_events : (s.withPending cs).events = s.events := rfl
@[simp] theorem State.withPending_chan (d : Channel): (s.withPending cs).chan d = s.chan d := rfl
@[simp] theorem State.withPending_lease (d : Channel): (s.withPending cs).lease d = s.lease d := rfl
@[simp] theorem State.withPending_holder (d : Channel): (s.withPending cs).holder d = s.holder d := rfl
@[simp] theorem State.withPending_holds (q : Port) (d : Channel): (s.withPending cs).holds q d = s.holds q d := rfl
@[simp] theorem State.withPending_waits (q : Port) (d : Channel): (s.withPending cs).waits q d = s.waits q d := rfl
@[simp] theorem State.withPending_lead (q : Port): (s.withPending cs).lead q = s.lead q := rfl
@[simp] theorem State.withPending_commit (q : Port): (s.withPending cs).commit q = s.commit q := rfl
@[simp] theorem State.withPending_port (q : Port): (s.withPending cs).port q = s.port q := rfl
@[simp] theorem State.withPending_rank (q : Port): (s.withPending cs).rank q = s.rank q := rfl
@[simp] theorem State.withPending_slot (j : Slot): (s.withPending cs).slot j = s.slot j := rfl
@[simp] theorem State.withPending_event (q : Port): (s.withPending cs).event q = s.event q := rfl
@[simp] theorem State.withPending_waiting (d : Channel): (s.withPending cs).waiting d = s.waiting d := rfl
@[simp] theorem State.withPending_flying (d : Channel): (s.withPending cs).flying d = s.flying d := rfl
@[simp] theorem State.withPending_probed : (s.withPending cs).probed = s.probed := rfl
@[simp] theorem State.withPending_anyStarting : (s.withPending cs).anyStarting = s.anyStarting := rfl
end

@[simp] theorem State.setChan_chan_self (c : Channel) (r : ChannelRecord) : (s.setChan c r).chan c = r := by simp [State.setChan, State.chan]
theorem State.setChan_chan_get (c : Channel) (r : ChannelRecord) (d : Channel) : (s.setChan c r).chan d = if c = d then r else s.chan d := by simp [State.setChan, State.chan, Table.get_set]
@[simp] theorem State.setChan_chan_ne (c : Channel) (r : ChannelRecord) (d : Channel) (h : c ≠ d) : (s.setChan c r).chan d = s.chan d := by simp [State.setChan, State.chan, h]
@[simp] theorem State.setChan_chan_eq (c : Channel) : s.setChan c (s.chan c) = s := by simp [State.setChan, State.chan]
@[simp] theorem State.setChan_setChan (c : Channel) (r : ChannelRecord) (r' : ChannelRecord) : (s.setChan c r).setChan c r' = s.setChan c r' := by simp [State.setChan]

@[simp] theorem State.setLease_lease_self (c : Channel) (r : LeaseRecord) : (s.setLease c r).lease c = r := by simp [State.setLease, State.lease]
theorem State.setLease_lease_get (c : Channel) (r : LeaseRecord) (d : Channel) : (s.setLease c r).lease d = if c = d then r else s.lease d := by simp [State.setLease, State.lease, Table.get_set]
@[simp] theorem State.setLease_lease_ne (c : Channel) (r : LeaseRecord) (d : Channel) (h : c ≠ d) : (s.setLease c r).lease d = s.lease d := by simp [State.setLease, State.lease, h]
@[simp] theorem State.setLease_lease_eq (c : Channel) : s.setLease c (s.lease c) = s := by simp [State.setLease, State.lease]
@[simp] theorem State.setLease_setLease (c : Channel) (r : LeaseRecord) (r' : LeaseRecord) : (s.setLease c r).setLease c r' = s.setLease c r' := by simp [State.setLease]

@[simp] theorem State.setLead_lead_self (p : Port) (n : Nat) : (s.setLead p n).lead p = n := by simp [State.setLead, State.lead]
theorem State.setLead_lead_get (p : Port) (n : Nat) (q : Port) : (s.setLead p n).lead q = if p = q then n else s.lead q := by simp [State.setLead, State.lead, Table.get_set]
@[simp] theorem State.setLead_lead_ne (p : Port) (n : Nat) (q : Port) (h : p ≠ q) : (s.setLead p n).lead q = s.lead q := by simp [State.setLead, State.lead, h]
@[simp] theorem State.setLead_lead_eq (p : Port) : s.setLead p (s.lead p) = s := by simp [State.setLead, State.lead]
@[simp] theorem State.setLead_setLead (p : Port) (n : Nat) (r' : Nat) : (s.setLead p n).setLead p r' = s.setLead p r' := by simp [State.setLead]

@[simp] theorem State.setCommit_commit_self (p : Port) (r : CommitRecord) : (s.setCommit p r).commit p = r := by simp [State.setCommit, State.commit]
theorem State.setCommit_commit_get (p : Port) (r : CommitRecord) (q : Port) : (s.setCommit p r).commit q = if p = q then r else s.commit q := by simp [State.setCommit, State.commit, Table.get_set]
@[simp] theorem State.setCommit_commit_ne (p : Port) (r : CommitRecord) (q : Port) (h : p ≠ q) : (s.setCommit p r).commit q = s.commit q := by simp [State.setCommit, State.commit, h]
@[simp] theorem State.setCommit_commit_eq (p : Port) : s.setCommit p (s.commit p) = s := by simp [State.setCommit, State.commit]
@[simp] theorem State.setCommit_setCommit (p : Port) (r : CommitRecord) (r' : CommitRecord) : (s.setCommit p r).setCommit p r' = s.setCommit p r' := by simp [State.setCommit]

@[simp] theorem State.setPort_port_self (p : Port) (r : PortRecord) : (s.setPort p r).port p = r := by simp [State.setPort, State.port]
theorem State.setPort_port_get (p : Port) (r : PortRecord) (q : Port) : (s.setPort p r).port q = if p = q then r else s.port q := by simp [State.setPort, State.port, Table.get_set]
@[simp] theorem State.setPort_port_ne (p : Port) (r : PortRecord) (q : Port) (h : p ≠ q) : (s.setPort p r).port q = s.port q := by simp [State.setPort, State.port, h]
@[simp] theorem State.setPort_port_eq (p : Port) : s.setPort p (s.port p) = s := by simp [State.setPort, State.port]
@[simp] theorem State.setPort_setPort (p : Port) (r : PortRecord) (r' : PortRecord) : (s.setPort p r).setPort p r' = s.setPort p r' := by simp [State.setPort]

@[simp] theorem State.setSlot_slot_self (k : Slot) (r : SlotRecord) : (s.setSlot k r).slot k = r := by simp [State.setSlot, State.slot]
theorem State.setSlot_slot_get (k : Slot) (r : SlotRecord) (j : Slot) : (s.setSlot k r).slot j = if k = j then r else s.slot j := by simp [State.setSlot, State.slot, Table.get_set]
@[simp] theorem State.setSlot_slot_ne (k : Slot) (r : SlotRecord) (j : Slot) (h : k ≠ j) : (s.setSlot k r).slot j = s.slot j := by simp [State.setSlot, State.slot, h]
@[simp] theorem State.setSlot_slot_eq (k : Slot) : s.setSlot k (s.slot k) = s := by simp [State.setSlot, State.slot]
@[simp] theorem State.setSlot_setSlot (k : Slot) (r : SlotRecord) (r' : SlotRecord) : (s.setSlot k r).setSlot k r' = s.setSlot k r' := by simp [State.setSlot]

@[simp] theorem State.setEvent_event_self (p : Port) (r : EventUnit) : (s.setEvent p r).event p = r := by simp [State.setEvent, State.event]
theorem State.setEvent_event_get (p : Port) (r : EventUnit) (q : Port) : (s.setEvent p r).event q = if p = q then r else s.event q := by simp [State.setEvent, State.event, Table.get_set]
@[simp] theorem State.setEvent_event_ne (p : Port) (r : EventUnit) (q : Port) (h : p ≠ q) : (s.setEvent p r).event q = s.event q := by simp [State.setEvent, State.event, h]
@[simp] theorem State.setEvent_event_eq (p : Port) : s.setEvent p (s.event p) = s := by simp [State.setEvent, State.event]
@[simp] theorem State.setEvent_setEvent (p : Port) (r : EventUnit) (r' : EventUnit) : (s.setEvent p r).setEvent p r' = s.setEvent p r' := by simp [State.setEvent]

@[simp] theorem State.place_queue (c : Channel) (code : Code) (origin : Origin) : (s.place c code origin).queue = Machine.place s.queue c code origin := rfl
@[simp] theorem State.withPending_pending (cs : List Instr) : (s.withPending cs).pending = cs := rfl

end Sys2Proof.Machine
end

