-- ==== Sys2Proof/Laws/Fold.lean ====
section
/-! SUPPORT. One act over all numbers (overAll): what no part of the act changes stays, what every part keeps is kept, and
what only one part touches is that part's doing. -/

namespace Sys2Proof.Machine

variable {n : Nat} {act : Fin n → State → State}

theorem foldl_keeps {β : Type} (f : State → β) (h : ∀ i s, f (act i s) = f s) (l : List (Fin n)) (s : State) :
    f (l.foldl (fun s i => act i s) s) = f s := by
  induction l generalizing s with
  | nil => rfl
  | cons i l ih => rw [List.foldl_cons, ih, h]

/-- What no part of the act changes, the act does not change. -/
theorem overAll_keeps {β : Type} (f : State → β) (h : ∀ i s, f (act i s) = f s) (s : State) :
    f (overAll n act s) = f s :=
  foldl_keeps f h _ s

/-- What every part of the act keeps, the act keeps. -/
theorem overAll_induct (P : State → Prop) (h : ∀ i s, P s → P (act i s)) (s : State) (hs : P s) :
    P (overAll n act s) := by
  unfold overAll
  generalize ascending n = l
  induction l generalizing s with
  | nil => exact hs
  | cons i l ih => exact ih _ (h i s hs)

theorem foldl_view {β : Type} (i : Fin n) (view : State → β) (g : β → β)
    (other : ∀ j s, j ≠ i → view (act j s) = view s) (own : ∀ s, view (act i s) = g (view s))
    (l : List (Fin n)) (hl : l.Nodup) (s : State) :
    view (l.foldl (fun s i => act i s) s) = if i ∈ l then g (view s) else view s := by
  induction l generalizing s with
  | nil => simp
  | cons j l ih =>
    obtain ⟨hj, hl⟩ := List.nodup_cons.mp hl
    rw [List.foldl_cons, ih hl]
    by_cases h : j = i
    · subst h; simp [hj, own]
    · simp [Ne.symm h, other j s h]

/-- What only part i of the act touches, and only by what it sees there, the act changes as part i does. -/
theorem overAll_view {β : Type} (i : Fin n) (view : State → β) (g : β → β)
    (other : ∀ j s, j ≠ i → view (act j s) = view s) (own : ∀ s, view (act i s) = g (view s)) (s : State) :
    view (overAll n act s) = g (view s) := by
  unfold overAll ascending
  rw [foldl_view i view g other own _ (List.nodup_finRange n)]
  simp

/-- What each part of the act does to a view, by a key that no other part touches, the act does in ascending order, by the
keys that stood before it. -/
theorem overAll_fold {β γ : Type} (view : State → β) (key : Fin n → State → γ) (g : Fin n → γ → β → β)
    (hview : ∀ i s, view (act i s) = g i (key i s) (view s)) (hkey : ∀ i j s, i ≠ j → key j (act i s) = key j s)
    (s : State) : view (overAll n act s) = (ascending n).foldl (fun b i => g i (key i s) b) (view s) := by
  have main : ∀ (l : List (Fin n)), l.Nodup → ∀ s,
      view (l.foldl (fun s i => act i s) s) = l.foldl (fun b i => g i (key i s) b) (view s) := by
    intro l
    induction l with
    | nil => intro _ s; rfl
    | cons i l ih =>
      intro hl s
      obtain ⟨hi, hl⟩ := List.nodup_cons.mp hl
      rw [List.foldl_cons, ih hl, List.foldl_cons, hview]
      have : ∀ b, l.foldl (fun b j => g j (key j (act i s)) b) b = l.foldl (fun b j => g j (key j s) b) b := by
        intro b
        apply List.foldl_ext
        intro b j hj
        rw [hkey i j s (fun h => hi (h ▸ hj))]
      rw [this]
  exact main _ (List.nodup_finRange n) s

/-- An act with only one part that changes the state is that part. -/
theorem overAll_single (i : Fin n) (h : ∀ j s, j ≠ i → act j s = s) (s : State) : overAll n act s = act i s := by
  have key : ∀ (l : List (Fin n)), l.Nodup → ∀ s,
      l.foldl (fun s i => act i s) s = if i ∈ l then act i s else s := by
    intro l
    induction l with
    | nil => simp
    | cons j l ih =>
      intro hl s
      obtain ⟨hj, hl⟩ := List.nodup_cons.mp hl
      rw [List.foldl_cons, ih hl]
      by_cases hji : j = i
      · subst hji; simp [hj]
      · simp [Ne.symm hji, h j s hji]
  unfold overAll ascending
  rw [key _ (List.nodup_finRange n)]
  simp

/-- An act none of whose parts changes the state changes nothing. -/
theorem overAll_id (h : ∀ j s, act j s = s) (s : State) : overAll n act s = s :=
  overAll_keeps id h s

end Sys2Proof.Machine
end

