-- ==== Sys2Proof/Laws/Frames.lean ====
section
/-! SUPPORT. The frame of every shared operation: the fields it leaves as they are, and the readings of those fields. -/

namespace Sys2Proof.Machine

variable (s : State)

section
variable (p : Port) (kind : EventKind) (channel reason : Byte) (tag : Word)
@[simp] theorem State.sendTo_inReset : (s.sendTo p kind channel reason tag).inReset = s.inReset := rfl
@[simp] theorem State.sendTo_devicePhase : (s.sendTo p kind channel reason tag).devicePhase = s.devicePhase := rfl
@[simp] theorem State.sendTo_timeCount : (s.sendTo p kind channel reason tag).timeCount = s.timeCount := rfl
@[simp] theorem State.sendTo_faultAsserted : (s.sendTo p kind channel reason tag).faultAsserted = s.faultAsserted := rfl
@[simp] theorem State.sendTo_syncArmed : (s.sendTo p kind channel reason tag).syncArmed = s.syncArmed := rfl
@[simp] theorem State.sendTo_channels : (s.sendTo p kind channel reason tag).channels = s.channels := rfl
@[simp] theorem State.sendTo_leases : (s.sendTo p kind channel reason tag).leases = s.leases := rfl
@[simp] theorem State.sendTo_leads : (s.sendTo p kind channel reason tag).leads = s.leads := rfl
@[simp] theorem State.sendTo_commits : (s.sendTo p kind channel reason tag).commits = s.commits := rfl
@[simp] theorem State.sendTo_ports : (s.sendTo p kind channel reason tag).ports = s.ports := rfl
@[simp] theorem State.sendTo_slots : (s.sendTo p kind channel reason tag).slots = s.slots := rfl
@[simp] theorem State.sendTo_queue : (s.sendTo p kind channel reason tag).queue = s.queue := rfl
@[simp] theorem State.sendTo_inFlight : (s.sendTo p kind channel reason tag).inFlight = s.inFlight := rfl
@[simp] theorem State.sendTo_linkPhase : (s.sendTo p kind channel reason tag).linkPhase = s.linkPhase := rfl
@[simp] theorem State.sendTo_pending : (s.sendTo p kind channel reason tag).pending = s.pending := rfl
@[simp] theorem State.sendTo_chan (d : Channel) : (s.sendTo p kind channel reason tag).chan d = s.chan d := by simp only [State.chan, State.sendTo_channels]
@[simp] theorem State.sendTo_lease (d : Channel) : (s.sendTo p kind channel reason tag).lease d = s.lease d := by simp only [State.lease, State.sendTo_leases]
@[simp] theorem State.sendTo_holder (d : Channel) : (s.sendTo p kind channel reason tag).holder d = s.holder d := by simp only [State.holder, State.lease, State.sendTo_leases]
@[simp] theorem State.sendTo_holds (q : Port) (d : Channel) : (s.sendTo p kind channel reason tag).holds q d = s.holds q d := by simp only [State.holds, State.holder, State.lease, State.sendTo_leases]
@[simp] theorem State.sendTo_waits (q : Port) (d : Channel) : (s.sendTo p kind channel reason tag).waits q d = s.waits q d := by simp only [State.waits, State.lease, State.sendTo_leases]
@[simp] theorem State.sendTo_lead (q : Port) : (s.sendTo p kind channel reason tag).lead q = s.lead q := by simp only [State.lead, State.sendTo_leads]
@[simp] theorem State.sendTo_commit (q : Port) : (s.sendTo p kind channel reason tag).commit q = s.commit q := by simp only [State.commit, State.sendTo_commits]
@[simp] theorem State.sendTo_port (q : Port) : (s.sendTo p kind channel reason tag).port q = s.port q := by simp only [State.port, State.sendTo_ports]
@[simp] theorem State.sendTo_rank (q : Port) : (s.sendTo p kind channel reason tag).rank q = s.rank q := by simp only [State.rank, State.port, State.sendTo_ports]
@[simp] theorem State.sendTo_slot (j : Slot) : (s.sendTo p kind channel reason tag).slot j = s.slot j := by simp only [State.slot, State.sendTo_slots]
@[simp] theorem State.sendTo_waiting (d : Channel) : (s.sendTo p kind channel reason tag).waiting d = s.waiting d := by simp only [State.waiting, State.sendTo_queue]
end

section
variable (kind : EventKind) (channel reason : Byte) (tag : Word)
@[simp] theorem State.sendAll_inReset : (s.sendAll kind channel reason tag).inReset = s.inReset := overAll_keeps State.inReset (fun _ _ => by simp) s
@[simp] theorem State.sendAll_devicePhase : (s.sendAll kind channel reason tag).devicePhase = s.devicePhase := overAll_keeps State.devicePhase (fun _ _ => by simp) s
@[simp] theorem State.sendAll_timeCount : (s.sendAll kind channel reason tag).timeCount = s.timeCount := overAll_keeps State.timeCount (fun _ _ => by simp) s
@[simp] theorem State.sendAll_faultAsserted : (s.sendAll kind channel reason tag).faultAsserted = s.faultAsserted := overAll_keeps State.faultAsserted (fun _ _ => by simp) s
@[simp] theorem State.sendAll_syncArmed : (s.sendAll kind channel reason tag).syncArmed = s.syncArmed := overAll_keeps State.syncArmed (fun _ _ => by simp) s
@[simp] theorem State.sendAll_channels : (s.sendAll kind channel reason tag).channels = s.channels := overAll_keeps State.channels (fun _ _ => by simp) s
@[simp] theorem State.sendAll_leases : (s.sendAll kind channel reason tag).leases = s.leases := overAll_keeps State.leases (fun _ _ => by simp) s
@[simp] theorem State.sendAll_leads : (s.sendAll kind channel reason tag).leads = s.leads := overAll_keeps State.leads (fun _ _ => by simp) s
@[simp] theorem State.sendAll_commits : (s.sendAll kind channel reason tag).commits = s.commits := overAll_keeps State.commits (fun _ _ => by simp) s
@[simp] theorem State.sendAll_ports : (s.sendAll kind channel reason tag).ports = s.ports := overAll_keeps State.ports (fun _ _ => by simp) s
@[simp] theorem State.sendAll_slots : (s.sendAll kind channel reason tag).slots = s.slots := overAll_keeps State.slots (fun _ _ => by simp) s
@[simp] theorem State.sendAll_queue : (s.sendAll kind channel reason tag).queue = s.queue := overAll_keeps State.queue (fun _ _ => by simp) s
@[simp] theorem State.sendAll_inFlight : (s.sendAll kind channel reason tag).inFlight = s.inFlight := overAll_keeps State.inFlight (fun _ _ => by simp) s
@[simp] theorem State.sendAll_linkPhase : (s.sendAll kind channel reason tag).linkPhase = s.linkPhase := overAll_keeps State.linkPhase (fun _ _ => by simp) s
@[simp] theorem State.sendAll_pending : (s.sendAll kind channel reason tag).pending = s.pending := overAll_keeps State.pending (fun _ _ => by simp) s
@[simp] theorem State.sendAll_chan (d : Channel) : (s.sendAll kind channel reason tag).chan d = s.chan d := by simp only [State.chan, State.sendAll_channels]
@[simp] theorem State.sendAll_lease (d : Channel) : (s.sendAll kind channel reason tag).lease d = s.lease d := by simp only [State.lease, State.sendAll_leases]
@[simp] theorem State.sendAll_holder (d : Channel) : (s.sendAll kind channel reason tag).holder d = s.holder d := by simp only [State.holder, State.lease, State.sendAll_leases]
@[simp] theorem State.sendAll_holds (q : Port) (d : Channel) : (s.sendAll kind channel reason tag).holds q d = s.holds q d := by simp only [State.holds, State.holder, State.lease, State.sendAll_leases]
@[simp] theorem State.sendAll_waits (q : Port) (d : Channel) : (s.sendAll kind channel reason tag).waits q d = s.waits q d := by simp only [State.waits, State.lease, State.sendAll_leases]
@[simp] theorem State.sendAll_lead (q : Port) : (s.sendAll kind channel reason tag).lead q = s.lead q := by simp only [State.lead, State.sendAll_leads]
@[simp] theorem State.sendAll_commit (q : Port) : (s.sendAll kind channel reason tag).commit q = s.commit q := by simp only [State.commit, State.sendAll_commits]
@[simp] theorem State.sendAll_port (q : Port) : (s.sendAll kind channel reason tag).port q = s.port q := by simp only [State.port, State.sendAll_ports]
@[simp] theorem State.sendAll_rank (q : Port) : (s.sendAll kind channel reason tag).rank q = s.rank q := by simp only [State.rank, State.port, State.sendAll_ports]
@[simp] theorem State.sendAll_slot (j : Slot) : (s.sendAll kind channel reason tag).slot j = s.slot j := by simp only [State.slot, State.sendAll_slots]
@[simp] theorem State.sendAll_waiting (d : Channel) : (s.sendAll kind channel reason tag).waiting d = s.waiting d := by simp only [State.waiting, State.sendAll_queue]
end

section
variable (h : Option Port) (kind : EventKind) (channel reason : Byte) (tag : Word)
@[simp] theorem State.sendHolderOrAll_inReset : (s.sendHolderOrAll h kind channel reason tag).inReset = s.inReset := by unfold State.sendHolderOrAll; split <;> simp
@[simp] theorem State.sendHolderOrAll_devicePhase : (s.sendHolderOrAll h kind channel reason tag).devicePhase = s.devicePhase := by unfold State.sendHolderOrAll; split <;> simp
@[simp] theorem State.sendHolderOrAll_timeCount : (s.sendHolderOrAll h kind channel reason tag).timeCount = s.timeCount := by unfold State.sendHolderOrAll; split <;> simp
@[simp] theorem State.sendHolderOrAll_faultAsserted : (s.sendHolderOrAll h kind channel reason tag).faultAsserted = s.faultAsserted := by unfold State.sendHolderOrAll; split <;> simp
@[simp] theorem State.sendHolderOrAll_syncArmed : (s.sendHolderOrAll h kind channel reason tag).syncArmed = s.syncArmed := by unfold State.sendHolderOrAll; split <;> simp
@[simp] theorem State.sendHolderOrAll_channels : (s.sendHolderOrAll h kind channel reason tag).channels = s.channels := by unfold State.sendHolderOrAll; split <;> simp
@[simp] theorem State.sendHolderOrAll_leases : (s.sendHolderOrAll h kind channel reason tag).leases = s.leases := by unfold State.sendHolderOrAll; split <;> simp
@[simp] theorem State.sendHolderOrAll_leads : (s.sendHolderOrAll h kind channel reason tag).leads = s.leads := by unfold State.sendHolderOrAll; split <;> simp
@[simp] theorem State.sendHolderOrAll_commits : (s.sendHolderOrAll h kind channel reason tag).commits = s.commits := by unfold State.sendHolderOrAll; split <;> simp
@[simp] theorem State.sendHolderOrAll_ports : (s.sendHolderOrAll h kind channel reason tag).ports = s.ports := by unfold State.sendHolderOrAll; split <;> simp
@[simp] theorem State.sendHolderOrAll_slots : (s.sendHolderOrAll h kind channel reason tag).slots = s.slots := by unfold State.sendHolderOrAll; split <;> simp
@[simp] theorem State.sendHolderOrAll_queue : (s.sendHolderOrAll h kind channel reason tag).queue = s.queue := by unfold State.sendHolderOrAll; split <;> simp
@[simp] theorem State.sendHolderOrAll_inFlight : (s.sendHolderOrAll h kind channel reason tag).inFlight = s.inFlight := by unfold State.sendHolderOrAll; split <;> simp
@[simp] theorem State.sendHolderOrAll_linkPhase : (s.sendHolderOrAll h kind channel reason tag).linkPhase = s.linkPhase := by unfold State.sendHolderOrAll; split <;> simp
@[simp] theorem State.sendHolderOrAll_pending : (s.sendHolderOrAll h kind channel reason tag).pending = s.pending := by unfold State.sendHolderOrAll; split <;> simp
@[simp] theorem State.sendHolderOrAll_chan (d : Channel) : (s.sendHolderOrAll h kind channel reason tag).chan d = s.chan d := by simp only [State.chan, State.sendHolderOrAll_channels]
@[simp] theorem State.sendHolderOrAll_lease (d : Channel) : (s.sendHolderOrAll h kind channel reason tag).lease d = s.lease d := by simp only [State.lease, State.sendHolderOrAll_leases]
@[simp] theorem State.sendHolderOrAll_holder (d : Channel) : (s.sendHolderOrAll h kind channel reason tag).holder d = s.holder d := by simp only [State.holder, State.lease, State.sendHolderOrAll_leases]
@[simp] theorem State.sendHolderOrAll_holds (q : Port) (d : Channel) : (s.sendHolderOrAll h kind channel reason tag).holds q d = s.holds q d := by simp only [State.holds, State.holder, State.lease, State.sendHolderOrAll_leases]
@[simp] theorem State.sendHolderOrAll_waits (q : Port) (d : Channel) : (s.sendHolderOrAll h kind channel reason tag).waits q d = s.waits q d := by simp only [State.waits, State.lease, State.sendHolderOrAll_leases]
@[simp] theorem State.sendHolderOrAll_lead (q : Port) : (s.sendHolderOrAll h kind channel reason tag).lead q = s.lead q := by simp only [State.lead, State.sendHolderOrAll_leads]
@[simp] theorem State.sendHolderOrAll_commit (q : Port) : (s.sendHolderOrAll h kind channel reason tag).commit q = s.commit q := by simp only [State.commit, State.sendHolderOrAll_commits]
@[simp] theorem State.sendHolderOrAll_port (q : Port) : (s.sendHolderOrAll h kind channel reason tag).port q = s.port q := by simp only [State.port, State.sendHolderOrAll_ports]
@[simp] theorem State.sendHolderOrAll_rank (q : Port) : (s.sendHolderOrAll h kind channel reason tag).rank q = s.rank q := by simp only [State.rank, State.port, State.sendHolderOrAll_ports]
@[simp] theorem State.sendHolderOrAll_slot (j : Slot) : (s.sendHolderOrAll h kind channel reason tag).slot j = s.slot j := by simp only [State.slot, State.sendHolderOrAll_slots]
@[simp] theorem State.sendHolderOrAll_waiting (d : Channel) : (s.sendHolderOrAll h kind channel reason tag).waiting d = s.waiting d := by simp only [State.waiting, State.sendHolderOrAll_queue]
end

section
variable (c : Channel) (code : Code) (origin : Origin)
@[simp] theorem State.jumpTo_inReset : (s.jumpTo c code origin).inReset = s.inReset := rfl
@[simp] theorem State.jumpTo_devicePhase : (s.jumpTo c code origin).devicePhase = s.devicePhase := rfl
@[simp] theorem State.jumpTo_timeCount : (s.jumpTo c code origin).timeCount = s.timeCount := rfl
@[simp] theorem State.jumpTo_faultAsserted : (s.jumpTo c code origin).faultAsserted = s.faultAsserted := rfl
@[simp] theorem State.jumpTo_syncArmed : (s.jumpTo c code origin).syncArmed = s.syncArmed := rfl
@[simp] theorem State.jumpTo_leases : (s.jumpTo c code origin).leases = s.leases := rfl
@[simp] theorem State.jumpTo_leads : (s.jumpTo c code origin).leads = s.leads := rfl
@[simp] theorem State.jumpTo_commits : (s.jumpTo c code origin).commits = s.commits := rfl
@[simp] theorem State.jumpTo_ports : (s.jumpTo c code origin).ports = s.ports := rfl
@[simp] theorem State.jumpTo_slots : (s.jumpTo c code origin).slots = s.slots := rfl
@[simp] theorem State.jumpTo_inFlight : (s.jumpTo c code origin).inFlight = s.inFlight := rfl
@[simp] theorem State.jumpTo_linkPhase : (s.jumpTo c code origin).linkPhase = s.linkPhase := rfl
@[simp] theorem State.jumpTo_events : (s.jumpTo c code origin).events = s.events := rfl
@[simp] theorem State.jumpTo_pending : (s.jumpTo c code origin).pending = s.pending := rfl
@[simp] theorem State.jumpTo_lease (d : Channel) : (s.jumpTo c code origin).lease d = s.lease d := by simp only [State.lease, State.jumpTo_leases]
@[simp] theorem State.jumpTo_holder (d : Channel) : (s.jumpTo c code origin).holder d = s.holder d := by simp only [State.holder, State.lease, State.jumpTo_leases]
@[simp] theorem State.jumpTo_holds (q : Port) (d : Channel) : (s.jumpTo c code origin).holds q d = s.holds q d := by simp only [State.holds, State.holder, State.lease, State.jumpTo_leases]
@[simp] theorem State.jumpTo_waits (q : Port) (d : Channel) : (s.jumpTo c code origin).waits q d = s.waits q d := by simp only [State.waits, State.lease, State.jumpTo_leases]
@[simp] theorem State.jumpTo_lead (q : Port) : (s.jumpTo c code origin).lead q = s.lead q := by simp only [State.lead, State.jumpTo_leads]
@[simp] theorem State.jumpTo_commit (q : Port) : (s.jumpTo c code origin).commit q = s.commit q := by simp only [State.commit, State.jumpTo_commits]
@[simp] theorem State.jumpTo_port (q : Port) : (s.jumpTo c code origin).port q = s.port q := by simp only [State.port, State.jumpTo_ports]
@[simp] theorem State.jumpTo_rank (q : Port) : (s.jumpTo c code origin).rank q = s.rank q := by simp only [State.rank, State.port, State.jumpTo_ports]
@[simp] theorem State.jumpTo_slot (j : Slot) : (s.jumpTo c code origin).slot j = s.slot j := by simp only [State.slot, State.jumpTo_slots]
@[simp] theorem State.jumpTo_event (q : Port) : (s.jumpTo c code origin).event q = s.event q := by simp only [State.event, State.jumpTo_events]
end

section
variable (c : Channel)
@[simp] theorem State.toFallback_inReset : (s.toFallback c).inReset = s.inReset := by unfold State.toFallback; dsimp only; split <;> simp
@[simp] theorem State.toFallback_devicePhase : (s.toFallback c).devicePhase = s.devicePhase := by unfold State.toFallback; dsimp only; split <;> simp
@[simp] theorem State.toFallback_timeCount : (s.toFallback c).timeCount = s.timeCount := by unfold State.toFallback; dsimp only; split <;> simp
@[simp] theorem State.toFallback_faultAsserted : (s.toFallback c).faultAsserted = s.faultAsserted := by unfold State.toFallback; dsimp only; split <;> simp
@[simp] theorem State.toFallback_syncArmed : (s.toFallback c).syncArmed = s.syncArmed := by unfold State.toFallback; dsimp only; split <;> simp
@[simp] theorem State.toFallback_leases : (s.toFallback c).leases = s.leases := by unfold State.toFallback; dsimp only; split <;> simp
@[simp] theorem State.toFallback_leads : (s.toFallback c).leads = s.leads := by unfold State.toFallback; dsimp only; split <;> simp
@[simp] theorem State.toFallback_commits : (s.toFallback c).commits = s.commits := by unfold State.toFallback; dsimp only; split <;> simp
@[simp] theorem State.toFallback_ports : (s.toFallback c).ports = s.ports := by unfold State.toFallback; dsimp only; split <;> simp
@[simp] theorem State.toFallback_slots : (s.toFallback c).slots = s.slots := by unfold State.toFallback; dsimp only; split <;> simp
@[simp] theorem State.toFallback_inFlight : (s.toFallback c).inFlight = s.inFlight := by unfold State.toFallback; dsimp only; split <;> simp
@[simp] theorem State.toFallback_linkPhase : (s.toFallback c).linkPhase = s.linkPhase := by unfold State.toFallback; dsimp only; split <;> simp
@[simp] theorem State.toFallback_events : (s.toFallback c).events = s.events := by unfold State.toFallback; dsimp only; split <;> simp
@[simp] theorem State.toFallback_pending : (s.toFallback c).pending = s.pending := by unfold State.toFallback; dsimp only; split <;> simp
@[simp] theorem State.toFallback_lease (d : Channel) : (s.toFallback c).lease d = s.lease d := by simp only [State.lease, State.toFallback_leases]
@[simp] theorem State.toFallback_holder (d : Channel) : (s.toFallback c).holder d = s.holder d := by simp only [State.holder, State.lease, State.toFallback_leases]
@[simp] theorem State.toFallback_holds (q : Port) (d : Channel) : (s.toFallback c).holds q d = s.holds q d := by simp only [State.holds, State.holder, State.lease, State.toFallback_leases]
@[simp] theorem State.toFallback_waits (q : Port) (d : Channel) : (s.toFallback c).waits q d = s.waits q d := by simp only [State.waits, State.lease, State.toFallback_leases]
@[simp] theorem State.toFallback_lead (q : Port) : (s.toFallback c).lead q = s.lead q := by simp only [State.lead, State.toFallback_leads]
@[simp] theorem State.toFallback_commit (q : Port) : (s.toFallback c).commit q = s.commit q := by simp only [State.commit, State.toFallback_commits]
@[simp] theorem State.toFallback_port (q : Port) : (s.toFallback c).port q = s.port q := by simp only [State.port, State.toFallback_ports]
@[simp] theorem State.toFallback_rank (q : Port) : (s.toFallback c).rank q = s.rank q := by simp only [State.rank, State.port, State.toFallback_ports]
@[simp] theorem State.toFallback_slot (j : Slot) : (s.toFallback c).slot j = s.slot j := by simp only [State.slot, State.toFallback_slots]
@[simp] theorem State.toFallback_event (q : Port) : (s.toFallback c).event q = s.event q := by simp only [State.event, State.toFallback_events]
end

section
variable (c : Channel)
@[simp] theorem State.safeEntry_inReset : (s.safeEntry c).inReset = s.inReset := by unfold State.safeEntry; dsimp only; split <;> simp
@[simp] theorem State.safeEntry_devicePhase : (s.safeEntry c).devicePhase = s.devicePhase := by unfold State.safeEntry; dsimp only; split <;> simp
@[simp] theorem State.safeEntry_timeCount : (s.safeEntry c).timeCount = s.timeCount := by unfold State.safeEntry; dsimp only; split <;> simp
@[simp] theorem State.safeEntry_faultAsserted : (s.safeEntry c).faultAsserted = s.faultAsserted := by unfold State.safeEntry; dsimp only; split <;> simp
@[simp] theorem State.safeEntry_syncArmed : (s.safeEntry c).syncArmed = s.syncArmed := by unfold State.safeEntry; dsimp only; split <;> simp
@[simp] theorem State.safeEntry_leases : (s.safeEntry c).leases = s.leases := by unfold State.safeEntry; dsimp only; split <;> simp
@[simp] theorem State.safeEntry_leads : (s.safeEntry c).leads = s.leads := by unfold State.safeEntry; dsimp only; split <;> simp
@[simp] theorem State.safeEntry_commits : (s.safeEntry c).commits = s.commits := by unfold State.safeEntry; dsimp only; split <;> simp
@[simp] theorem State.safeEntry_ports : (s.safeEntry c).ports = s.ports := by unfold State.safeEntry; dsimp only; split <;> simp
@[simp] theorem State.safeEntry_slots : (s.safeEntry c).slots = s.slots := by unfold State.safeEntry; dsimp only; split <;> simp
@[simp] theorem State.safeEntry_inFlight : (s.safeEntry c).inFlight = s.inFlight := by unfold State.safeEntry; dsimp only; split <;> simp
@[simp] theorem State.safeEntry_linkPhase : (s.safeEntry c).linkPhase = s.linkPhase := by unfold State.safeEntry; dsimp only; split <;> simp
@[simp] theorem State.safeEntry_events : (s.safeEntry c).events = s.events := by unfold State.safeEntry; dsimp only; split <;> simp
@[simp] theorem State.safeEntry_pending : (s.safeEntry c).pending = s.pending := by unfold State.safeEntry; dsimp only; split <;> simp
@[simp] theorem State.safeEntry_lease (d : Channel) : (s.safeEntry c).lease d = s.lease d := by simp only [State.lease, State.safeEntry_leases]
@[simp] theorem State.safeEntry_holder (d : Channel) : (s.safeEntry c).holder d = s.holder d := by simp only [State.holder, State.lease, State.safeEntry_leases]
@[simp] theorem State.safeEntry_holds (q : Port) (d : Channel) : (s.safeEntry c).holds q d = s.holds q d := by simp only [State.holds, State.holder, State.lease, State.safeEntry_leases]
@[simp] theorem State.safeEntry_waits (q : Port) (d : Channel) : (s.safeEntry c).waits q d = s.waits q d := by simp only [State.waits, State.lease, State.safeEntry_leases]
@[simp] theorem State.safeEntry_lead (q : Port) : (s.safeEntry c).lead q = s.lead q := by simp only [State.lead, State.safeEntry_leads]
@[simp] theorem State.safeEntry_commit (q : Port) : (s.safeEntry c).commit q = s.commit q := by simp only [State.commit, State.safeEntry_commits]
@[simp] theorem State.safeEntry_port (q : Port) : (s.safeEntry c).port q = s.port q := by simp only [State.port, State.safeEntry_ports]
@[simp] theorem State.safeEntry_rank (q : Port) : (s.safeEntry c).rank q = s.rank q := by simp only [State.rank, State.port, State.safeEntry_ports]
@[simp] theorem State.safeEntry_slot (j : Slot) : (s.safeEntry c).slot j = s.slot j := by simp only [State.slot, State.safeEntry_slots]
@[simp] theorem State.safeEntry_event (q : Port) : (s.safeEntry c).event q = s.event q := by simp only [State.event, State.safeEntry_events]
end

section
variable (c : Channel) (low high : Code)
@[simp] theorem State.applyLimits_inReset : (s.applyLimits c low high).inReset = s.inReset := by unfold State.applyLimits; dsimp only; split <;> simp
@[simp] theorem State.applyLimits_devicePhase : (s.applyLimits c low high).devicePhase = s.devicePhase := by unfold State.applyLimits; dsimp only; split <;> simp
@[simp] theorem State.applyLimits_timeCount : (s.applyLimits c low high).timeCount = s.timeCount := by unfold State.applyLimits; dsimp only; split <;> simp
@[simp] theorem State.applyLimits_faultAsserted : (s.applyLimits c low high).faultAsserted = s.faultAsserted := by unfold State.applyLimits; dsimp only; split <;> simp
@[simp] theorem State.applyLimits_syncArmed : (s.applyLimits c low high).syncArmed = s.syncArmed := by unfold State.applyLimits; dsimp only; split <;> simp
@[simp] theorem State.applyLimits_leases : (s.applyLimits c low high).leases = s.leases := by unfold State.applyLimits; dsimp only; split <;> simp
@[simp] theorem State.applyLimits_leads : (s.applyLimits c low high).leads = s.leads := by unfold State.applyLimits; dsimp only; split <;> simp
@[simp] theorem State.applyLimits_commits : (s.applyLimits c low high).commits = s.commits := by unfold State.applyLimits; dsimp only; split <;> simp
@[simp] theorem State.applyLimits_ports : (s.applyLimits c low high).ports = s.ports := by unfold State.applyLimits; dsimp only; split <;> simp
@[simp] theorem State.applyLimits_slots : (s.applyLimits c low high).slots = s.slots := by unfold State.applyLimits; dsimp only; split <;> simp
@[simp] theorem State.applyLimits_inFlight : (s.applyLimits c low high).inFlight = s.inFlight := by unfold State.applyLimits; dsimp only; split <;> simp
@[simp] theorem State.applyLimits_linkPhase : (s.applyLimits c low high).linkPhase = s.linkPhase := by unfold State.applyLimits; dsimp only; split <;> simp
@[simp] theorem State.applyLimits_events : (s.applyLimits c low high).events = s.events := by unfold State.applyLimits; dsimp only; split <;> simp
@[simp] theorem State.applyLimits_pending : (s.applyLimits c low high).pending = s.pending := by unfold State.applyLimits; dsimp only; split <;> simp
@[simp] theorem State.applyLimits_lease (d : Channel) : (s.applyLimits c low high).lease d = s.lease d := by simp only [State.lease, State.applyLimits_leases]
@[simp] theorem State.applyLimits_holder (d : Channel) : (s.applyLimits c low high).holder d = s.holder d := by simp only [State.holder, State.lease, State.applyLimits_leases]
@[simp] theorem State.applyLimits_holds (q : Port) (d : Channel) : (s.applyLimits c low high).holds q d = s.holds q d := by simp only [State.holds, State.holder, State.lease, State.applyLimits_leases]
@[simp] theorem State.applyLimits_waits (q : Port) (d : Channel) : (s.applyLimits c low high).waits q d = s.waits q d := by simp only [State.waits, State.lease, State.applyLimits_leases]
@[simp] theorem State.applyLimits_lead (q : Port) : (s.applyLimits c low high).lead q = s.lead q := by simp only [State.lead, State.applyLimits_leads]
@[simp] theorem State.applyLimits_commit (q : Port) : (s.applyLimits c low high).commit q = s.commit q := by simp only [State.commit, State.applyLimits_commits]
@[simp] theorem State.applyLimits_port (q : Port) : (s.applyLimits c low high).port q = s.port q := by simp only [State.port, State.applyLimits_ports]
@[simp] theorem State.applyLimits_rank (q : Port) : (s.applyLimits c low high).rank q = s.rank q := by simp only [State.rank, State.port, State.applyLimits_ports]
@[simp] theorem State.applyLimits_slot (j : Slot) : (s.applyLimits c low high).slot j = s.slot j := by simp only [State.slot, State.applyLimits_slots]
@[simp] theorem State.applyLimits_event (q : Port) : (s.applyLimits c low high).event q = s.event q := by simp only [State.event, State.applyLimits_events]
end

section
variable (c : Channel) (code : Code)
@[simp] theorem State.applyFallback_inReset : (s.applyFallback c code).inReset = s.inReset := by unfold State.applyFallback; dsimp only; split <;> simp
@[simp] theorem State.applyFallback_devicePhase : (s.applyFallback c code).devicePhase = s.devicePhase := by unfold State.applyFallback; dsimp only; split <;> simp
@[simp] theorem State.applyFallback_timeCount : (s.applyFallback c code).timeCount = s.timeCount := by unfold State.applyFallback; dsimp only; split <;> simp
@[simp] theorem State.applyFallback_faultAsserted : (s.applyFallback c code).faultAsserted = s.faultAsserted := by unfold State.applyFallback; dsimp only; split <;> simp
@[simp] theorem State.applyFallback_syncArmed : (s.applyFallback c code).syncArmed = s.syncArmed := by unfold State.applyFallback; dsimp only; split <;> simp
@[simp] theorem State.applyFallback_leases : (s.applyFallback c code).leases = s.leases := by unfold State.applyFallback; dsimp only; split <;> simp
@[simp] theorem State.applyFallback_leads : (s.applyFallback c code).leads = s.leads := by unfold State.applyFallback; dsimp only; split <;> simp
@[simp] theorem State.applyFallback_commits : (s.applyFallback c code).commits = s.commits := by unfold State.applyFallback; dsimp only; split <;> simp
@[simp] theorem State.applyFallback_ports : (s.applyFallback c code).ports = s.ports := by unfold State.applyFallback; dsimp only; split <;> simp
@[simp] theorem State.applyFallback_slots : (s.applyFallback c code).slots = s.slots := by unfold State.applyFallback; dsimp only; split <;> simp
@[simp] theorem State.applyFallback_inFlight : (s.applyFallback c code).inFlight = s.inFlight := by unfold State.applyFallback; dsimp only; split <;> simp
@[simp] theorem State.applyFallback_linkPhase : (s.applyFallback c code).linkPhase = s.linkPhase := by unfold State.applyFallback; dsimp only; split <;> simp
@[simp] theorem State.applyFallback_events : (s.applyFallback c code).events = s.events := by unfold State.applyFallback; dsimp only; split <;> simp
@[simp] theorem State.applyFallback_pending : (s.applyFallback c code).pending = s.pending := by unfold State.applyFallback; dsimp only; split <;> simp
@[simp] theorem State.applyFallback_lease (d : Channel) : (s.applyFallback c code).lease d = s.lease d := by simp only [State.lease, State.applyFallback_leases]
@[simp] theorem State.applyFallback_holder (d : Channel) : (s.applyFallback c code).holder d = s.holder d := by simp only [State.holder, State.lease, State.applyFallback_leases]
@[simp] theorem State.applyFallback_holds (q : Port) (d : Channel) : (s.applyFallback c code).holds q d = s.holds q d := by simp only [State.holds, State.holder, State.lease, State.applyFallback_leases]
@[simp] theorem State.applyFallback_waits (q : Port) (d : Channel) : (s.applyFallback c code).waits q d = s.waits q d := by simp only [State.waits, State.lease, State.applyFallback_leases]
@[simp] theorem State.applyFallback_lead (q : Port) : (s.applyFallback c code).lead q = s.lead q := by simp only [State.lead, State.applyFallback_leads]
@[simp] theorem State.applyFallback_commit (q : Port) : (s.applyFallback c code).commit q = s.commit q := by simp only [State.commit, State.applyFallback_commits]
@[simp] theorem State.applyFallback_port (q : Port) : (s.applyFallback c code).port q = s.port q := by simp only [State.port, State.applyFallback_ports]
@[simp] theorem State.applyFallback_rank (q : Port) : (s.applyFallback c code).rank q = s.rank q := by simp only [State.rank, State.port, State.applyFallback_ports]
@[simp] theorem State.applyFallback_slot (j : Slot) : (s.applyFallback c code).slot j = s.slot j := by simp only [State.slot, State.applyFallback_slots]
@[simp] theorem State.applyFallback_event (q : Port) : (s.applyFallback c code).event q = s.event q := by simp only [State.event, State.applyFallback_events]
end

section
variable (c : Channel)
@[simp] theorem State.recover_inReset : (s.recover c).inReset = s.inReset := rfl
@[simp] theorem State.recover_devicePhase : (s.recover c).devicePhase = s.devicePhase := rfl
@[simp] theorem State.recover_timeCount : (s.recover c).timeCount = s.timeCount := rfl
@[simp] theorem State.recover_faultAsserted : (s.recover c).faultAsserted = s.faultAsserted := rfl
@[simp] theorem State.recover_syncArmed : (s.recover c).syncArmed = s.syncArmed := rfl
@[simp] theorem State.recover_leases : (s.recover c).leases = s.leases := rfl
@[simp] theorem State.recover_leads : (s.recover c).leads = s.leads := rfl
@[simp] theorem State.recover_commits : (s.recover c).commits = s.commits := rfl
@[simp] theorem State.recover_ports : (s.recover c).ports = s.ports := rfl
@[simp] theorem State.recover_slots : (s.recover c).slots = s.slots := rfl
@[simp] theorem State.recover_inFlight : (s.recover c).inFlight = s.inFlight := rfl
@[simp] theorem State.recover_linkPhase : (s.recover c).linkPhase = s.linkPhase := rfl
@[simp] theorem State.recover_events : (s.recover c).events = s.events := rfl
@[simp] theorem State.recover_pending : (s.recover c).pending = s.pending := rfl
@[simp] theorem State.recover_lease (d : Channel) : (s.recover c).lease d = s.lease d := by simp only [State.lease, State.recover_leases]
@[simp] theorem State.recover_holder (d : Channel) : (s.recover c).holder d = s.holder d := by simp only [State.holder, State.lease, State.recover_leases]
@[simp] theorem State.recover_holds (q : Port) (d : Channel) : (s.recover c).holds q d = s.holds q d := by simp only [State.holds, State.holder, State.lease, State.recover_leases]
@[simp] theorem State.recover_waits (q : Port) (d : Channel) : (s.recover c).waits q d = s.waits q d := by simp only [State.waits, State.lease, State.recover_leases]
@[simp] theorem State.recover_lead (q : Port) : (s.recover c).lead q = s.lead q := by simp only [State.lead, State.recover_leads]
@[simp] theorem State.recover_commit (q : Port) : (s.recover c).commit q = s.commit q := by simp only [State.commit, State.recover_commits]
@[simp] theorem State.recover_port (q : Port) : (s.recover c).port q = s.port q := by simp only [State.port, State.recover_ports]
@[simp] theorem State.recover_rank (q : Port) : (s.recover c).rank q = s.rank q := by simp only [State.rank, State.port, State.recover_ports]
@[simp] theorem State.recover_slot (j : Slot) : (s.recover c).slot j = s.slot j := by simp only [State.slot, State.recover_slots]
@[simp] theorem State.recover_event (q : Port) : (s.recover c).event q = s.event q := by simp only [State.event, State.recover_events]
end

section
variable (c : Channel)
@[simp] theorem State.renewLease_inReset : (s.renewLease c).inReset = s.inReset := by unfold State.renewLease; split <;> simp
@[simp] theorem State.renewLease_devicePhase : (s.renewLease c).devicePhase = s.devicePhase := by unfold State.renewLease; split <;> simp
@[simp] theorem State.renewLease_timeCount : (s.renewLease c).timeCount = s.timeCount := by unfold State.renewLease; split <;> simp
@[simp] theorem State.renewLease_faultAsserted : (s.renewLease c).faultAsserted = s.faultAsserted := by unfold State.renewLease; split <;> simp
@[simp] theorem State.renewLease_syncArmed : (s.renewLease c).syncArmed = s.syncArmed := by unfold State.renewLease; split <;> simp
@[simp] theorem State.renewLease_channels : (s.renewLease c).channels = s.channels := by unfold State.renewLease; split <;> simp
@[simp] theorem State.renewLease_leads : (s.renewLease c).leads = s.leads := by unfold State.renewLease; split <;> simp
@[simp] theorem State.renewLease_commits : (s.renewLease c).commits = s.commits := by unfold State.renewLease; split <;> simp
@[simp] theorem State.renewLease_ports : (s.renewLease c).ports = s.ports := by unfold State.renewLease; split <;> simp
@[simp] theorem State.renewLease_slots : (s.renewLease c).slots = s.slots := by unfold State.renewLease; split <;> simp
@[simp] theorem State.renewLease_queue : (s.renewLease c).queue = s.queue := by unfold State.renewLease; split <;> simp
@[simp] theorem State.renewLease_inFlight : (s.renewLease c).inFlight = s.inFlight := by unfold State.renewLease; split <;> simp
@[simp] theorem State.renewLease_linkPhase : (s.renewLease c).linkPhase = s.linkPhase := by unfold State.renewLease; split <;> simp
@[simp] theorem State.renewLease_events : (s.renewLease c).events = s.events := by unfold State.renewLease; split <;> simp
@[simp] theorem State.renewLease_pending : (s.renewLease c).pending = s.pending := by unfold State.renewLease; split <;> simp
@[simp] theorem State.renewLease_chan (d : Channel) : (s.renewLease c).chan d = s.chan d := by simp only [State.chan, State.renewLease_channels]
@[simp] theorem State.renewLease_lead (q : Port) : (s.renewLease c).lead q = s.lead q := by simp only [State.lead, State.renewLease_leads]
@[simp] theorem State.renewLease_commit (q : Port) : (s.renewLease c).commit q = s.commit q := by simp only [State.commit, State.renewLease_commits]
@[simp] theorem State.renewLease_port (q : Port) : (s.renewLease c).port q = s.port q := by simp only [State.port, State.renewLease_ports]
@[simp] theorem State.renewLease_rank (q : Port) : (s.renewLease c).rank q = s.rank q := by simp only [State.rank, State.port, State.renewLease_ports]
@[simp] theorem State.renewLease_slot (j : Slot) : (s.renewLease c).slot j = s.slot j := by simp only [State.slot, State.renewLease_slots]
@[simp] theorem State.renewLease_event (q : Port) : (s.renewLease c).event q = s.event q := by simp only [State.event, State.renewLease_events]
@[simp] theorem State.renewLease_waiting (d : Channel) : (s.renewLease c).waiting d = s.waiting d := by simp only [State.waiting, State.renewLease_queue]
end

section
variable (c : Channel)
@[simp] theorem State.dropHolder_inReset : (s.dropHolder c).inReset = s.inReset := rfl
@[simp] theorem State.dropHolder_devicePhase : (s.dropHolder c).devicePhase = s.devicePhase := rfl
@[simp] theorem State.dropHolder_timeCount : (s.dropHolder c).timeCount = s.timeCount := rfl
@[simp] theorem State.dropHolder_faultAsserted : (s.dropHolder c).faultAsserted = s.faultAsserted := rfl
@[simp] theorem State.dropHolder_syncArmed : (s.dropHolder c).syncArmed = s.syncArmed := rfl
@[simp] theorem State.dropHolder_channels : (s.dropHolder c).channels = s.channels := rfl
@[simp] theorem State.dropHolder_leads : (s.dropHolder c).leads = s.leads := rfl
@[simp] theorem State.dropHolder_commits : (s.dropHolder c).commits = s.commits := rfl
@[simp] theorem State.dropHolder_ports : (s.dropHolder c).ports = s.ports := rfl
@[simp] theorem State.dropHolder_slots : (s.dropHolder c).slots = s.slots := rfl
@[simp] theorem State.dropHolder_queue : (s.dropHolder c).queue = s.queue := rfl
@[simp] theorem State.dropHolder_inFlight : (s.dropHolder c).inFlight = s.inFlight := rfl
@[simp] theorem State.dropHolder_linkPhase : (s.dropHolder c).linkPhase = s.linkPhase := rfl
@[simp] theorem State.dropHolder_events : (s.dropHolder c).events = s.events := rfl
@[simp] theorem State.dropHolder_pending : (s.dropHolder c).pending = s.pending := rfl
@[simp] theorem State.dropHolder_chan (d : Channel) : (s.dropHolder c).chan d = s.chan d := by simp only [State.chan, State.dropHolder_channels]
@[simp] theorem State.dropHolder_lead (q : Port) : (s.dropHolder c).lead q = s.lead q := by simp only [State.lead, State.dropHolder_leads]
@[simp] theorem State.dropHolder_commit (q : Port) : (s.dropHolder c).commit q = s.commit q := by simp only [State.commit, State.dropHolder_commits]
@[simp] theorem State.dropHolder_port (q : Port) : (s.dropHolder c).port q = s.port q := by simp only [State.port, State.dropHolder_ports]
@[simp] theorem State.dropHolder_rank (q : Port) : (s.dropHolder c).rank q = s.rank q := by simp only [State.rank, State.port, State.dropHolder_ports]
@[simp] theorem State.dropHolder_slot (j : Slot) : (s.dropHolder c).slot j = s.slot j := by simp only [State.slot, State.dropHolder_slots]
@[simp] theorem State.dropHolder_event (q : Port) : (s.dropHolder c).event q = s.event q := by simp only [State.event, State.dropHolder_events]
@[simp] theorem State.dropHolder_waiting (d : Channel) : (s.dropHolder c).waiting d = s.waiting d := by simp only [State.waiting, State.dropHolder_queue]
end

section
variable (c : Channel)
@[simp] theorem State.grantHead_inReset : (s.grantHead c).inReset = s.inReset := by unfold State.grantHead; split <;> simp
@[simp] theorem State.grantHead_devicePhase : (s.grantHead c).devicePhase = s.devicePhase := by unfold State.grantHead; split <;> simp
@[simp] theorem State.grantHead_timeCount : (s.grantHead c).timeCount = s.timeCount := by unfold State.grantHead; split <;> simp
@[simp] theorem State.grantHead_faultAsserted : (s.grantHead c).faultAsserted = s.faultAsserted := by unfold State.grantHead; split <;> simp
@[simp] theorem State.grantHead_syncArmed : (s.grantHead c).syncArmed = s.syncArmed := by unfold State.grantHead; split <;> simp
@[simp] theorem State.grantHead_channels : (s.grantHead c).channels = s.channels := by unfold State.grantHead; split <;> simp
@[simp] theorem State.grantHead_leads : (s.grantHead c).leads = s.leads := by unfold State.grantHead; split <;> simp
@[simp] theorem State.grantHead_commits : (s.grantHead c).commits = s.commits := by unfold State.grantHead; split <;> simp
@[simp] theorem State.grantHead_ports : (s.grantHead c).ports = s.ports := by unfold State.grantHead; split <;> simp
@[simp] theorem State.grantHead_slots : (s.grantHead c).slots = s.slots := by unfold State.grantHead; split <;> simp
@[simp] theorem State.grantHead_queue : (s.grantHead c).queue = s.queue := by unfold State.grantHead; split <;> simp
@[simp] theorem State.grantHead_inFlight : (s.grantHead c).inFlight = s.inFlight := by unfold State.grantHead; split <;> simp
@[simp] theorem State.grantHead_linkPhase : (s.grantHead c).linkPhase = s.linkPhase := by unfold State.grantHead; split <;> simp
@[simp] theorem State.grantHead_pending : (s.grantHead c).pending = s.pending := by unfold State.grantHead; split <;> simp
@[simp] theorem State.grantHead_chan (d : Channel) : (s.grantHead c).chan d = s.chan d := by simp only [State.chan, State.grantHead_channels]
@[simp] theorem State.grantHead_lead (q : Port) : (s.grantHead c).lead q = s.lead q := by simp only [State.lead, State.grantHead_leads]
@[simp] theorem State.grantHead_commit (q : Port) : (s.grantHead c).commit q = s.commit q := by simp only [State.commit, State.grantHead_commits]
@[simp] theorem State.grantHead_port (q : Port) : (s.grantHead c).port q = s.port q := by simp only [State.port, State.grantHead_ports]
@[simp] theorem State.grantHead_rank (q : Port) : (s.grantHead c).rank q = s.rank q := by simp only [State.rank, State.port, State.grantHead_ports]
@[simp] theorem State.grantHead_slot (j : Slot) : (s.grantHead c).slot j = s.slot j := by simp only [State.slot, State.grantHead_slots]
@[simp] theorem State.grantHead_waiting (d : Channel) : (s.grantHead c).waiting d = s.waiting d := by simp only [State.waiting, State.grantHead_queue]
end

section
variable (p : Port) (n : Nat) (c : Channel) (old : Port)
@[simp] theorem State.preempt_inReset : (s.preempt p n c old).inReset = s.inReset := rfl
@[simp] theorem State.preempt_devicePhase : (s.preempt p n c old).devicePhase = s.devicePhase := rfl
@[simp] theorem State.preempt_timeCount : (s.preempt p n c old).timeCount = s.timeCount := rfl
@[simp] theorem State.preempt_faultAsserted : (s.preempt p n c old).faultAsserted = s.faultAsserted := rfl
@[simp] theorem State.preempt_syncArmed : (s.preempt p n c old).syncArmed = s.syncArmed := rfl
@[simp] theorem State.preempt_channels : (s.preempt p n c old).channels = s.channels := rfl
@[simp] theorem State.preempt_leads : (s.preempt p n c old).leads = s.leads := rfl
@[simp] theorem State.preempt_commits : (s.preempt p n c old).commits = s.commits := rfl
@[simp] theorem State.preempt_ports : (s.preempt p n c old).ports = s.ports := rfl
@[simp] theorem State.preempt_slots : (s.preempt p n c old).slots = s.slots := rfl
@[simp] theorem State.preempt_queue : (s.preempt p n c old).queue = s.queue := rfl
@[simp] theorem State.preempt_inFlight : (s.preempt p n c old).inFlight = s.inFlight := rfl
@[simp] theorem State.preempt_linkPhase : (s.preempt p n c old).linkPhase = s.linkPhase := rfl
@[simp] theorem State.preempt_pending : (s.preempt p n c old).pending = s.pending := rfl
@[simp] theorem State.preempt_chan (d : Channel) : (s.preempt p n c old).chan d = s.chan d := by simp only [State.chan, State.preempt_channels]
@[simp] theorem State.preempt_lead (q : Port) : (s.preempt p n c old).lead q = s.lead q := by simp only [State.lead, State.preempt_leads]
@[simp] theorem State.preempt_commit (q : Port) : (s.preempt p n c old).commit q = s.commit q := by simp only [State.commit, State.preempt_commits]
@[simp] theorem State.preempt_port (q : Port) : (s.preempt p n c old).port q = s.port q := by simp only [State.port, State.preempt_ports]
@[simp] theorem State.preempt_rank (q : Port) : (s.preempt p n c old).rank q = s.rank q := by simp only [State.rank, State.port, State.preempt_ports]
@[simp] theorem State.preempt_slot (j : Slot) : (s.preempt p n c old).slot j = s.slot j := by simp only [State.slot, State.preempt_slots]
@[simp] theorem State.preempt_waiting (d : Channel) : (s.preempt p n c old).waiting d = s.waiting d := by simp only [State.waiting, State.preempt_queue]
end

section
variable (p : Port) (n : Nat) (c : Channel)
@[simp] theorem State.claimGrant_inReset : (s.claimGrant p n c).inReset = s.inReset := by unfold State.claimGrant; (repeat' split) <;> simp
@[simp] theorem State.claimGrant_devicePhase : (s.claimGrant p n c).devicePhase = s.devicePhase := by unfold State.claimGrant; (repeat' split) <;> simp
@[simp] theorem State.claimGrant_timeCount : (s.claimGrant p n c).timeCount = s.timeCount := by unfold State.claimGrant; (repeat' split) <;> simp
@[simp] theorem State.claimGrant_faultAsserted : (s.claimGrant p n c).faultAsserted = s.faultAsserted := by unfold State.claimGrant; (repeat' split) <;> simp
@[simp] theorem State.claimGrant_syncArmed : (s.claimGrant p n c).syncArmed = s.syncArmed := by unfold State.claimGrant; (repeat' split) <;> simp
@[simp] theorem State.claimGrant_channels : (s.claimGrant p n c).channels = s.channels := by unfold State.claimGrant; (repeat' split) <;> simp
@[simp] theorem State.claimGrant_leads : (s.claimGrant p n c).leads = s.leads := by unfold State.claimGrant; (repeat' split) <;> simp
@[simp] theorem State.claimGrant_commits : (s.claimGrant p n c).commits = s.commits := by unfold State.claimGrant; (repeat' split) <;> simp
@[simp] theorem State.claimGrant_ports : (s.claimGrant p n c).ports = s.ports := by unfold State.claimGrant; (repeat' split) <;> simp
@[simp] theorem State.claimGrant_slots : (s.claimGrant p n c).slots = s.slots := by unfold State.claimGrant; (repeat' split) <;> simp
@[simp] theorem State.claimGrant_queue : (s.claimGrant p n c).queue = s.queue := by unfold State.claimGrant; (repeat' split) <;> simp
@[simp] theorem State.claimGrant_inFlight : (s.claimGrant p n c).inFlight = s.inFlight := by unfold State.claimGrant; (repeat' split) <;> simp
@[simp] theorem State.claimGrant_linkPhase : (s.claimGrant p n c).linkPhase = s.linkPhase := by unfold State.claimGrant; (repeat' split) <;> simp
@[simp] theorem State.claimGrant_pending : (s.claimGrant p n c).pending = s.pending := by unfold State.claimGrant; (repeat' split) <;> simp
@[simp] theorem State.claimGrant_chan (d : Channel) : (s.claimGrant p n c).chan d = s.chan d := by simp only [State.chan, State.claimGrant_channels]
@[simp] theorem State.claimGrant_lead (q : Port) : (s.claimGrant p n c).lead q = s.lead q := by simp only [State.lead, State.claimGrant_leads]
@[simp] theorem State.claimGrant_commit (q : Port) : (s.claimGrant p n c).commit q = s.commit q := by simp only [State.commit, State.claimGrant_commits]
@[simp] theorem State.claimGrant_port (q : Port) : (s.claimGrant p n c).port q = s.port q := by simp only [State.port, State.claimGrant_ports]
@[simp] theorem State.claimGrant_rank (q : Port) : (s.claimGrant p n c).rank q = s.rank q := by simp only [State.rank, State.port, State.claimGrant_ports]
@[simp] theorem State.claimGrant_slot (j : Slot) : (s.claimGrant p n c).slot j = s.slot j := by simp only [State.slot, State.claimGrant_slots]
@[simp] theorem State.claimGrant_waiting (d : Channel) : (s.claimGrant p n c).waiting d = s.waiting d := by simp only [State.waiting, State.claimGrant_queue]
end

section
variable (p : Port) (n : Nat) (c : Channel)
@[simp] theorem State.claimWait_inReset : (s.claimWait p n c).inReset = s.inReset := rfl
@[simp] theorem State.claimWait_devicePhase : (s.claimWait p n c).devicePhase = s.devicePhase := rfl
@[simp] theorem State.claimWait_timeCount : (s.claimWait p n c).timeCount = s.timeCount := rfl
@[simp] theorem State.claimWait_faultAsserted : (s.claimWait p n c).faultAsserted = s.faultAsserted := rfl
@[simp] theorem State.claimWait_syncArmed : (s.claimWait p n c).syncArmed = s.syncArmed := rfl
@[simp] theorem State.claimWait_channels : (s.claimWait p n c).channels = s.channels := rfl
@[simp] theorem State.claimWait_leads : (s.claimWait p n c).leads = s.leads := rfl
@[simp] theorem State.claimWait_commits : (s.claimWait p n c).commits = s.commits := rfl
@[simp] theorem State.claimWait_ports : (s.claimWait p n c).ports = s.ports := rfl
@[simp] theorem State.claimWait_slots : (s.claimWait p n c).slots = s.slots := rfl
@[simp] theorem State.claimWait_queue : (s.claimWait p n c).queue = s.queue := rfl
@[simp] theorem State.claimWait_inFlight : (s.claimWait p n c).inFlight = s.inFlight := rfl
@[simp] theorem State.claimWait_linkPhase : (s.claimWait p n c).linkPhase = s.linkPhase := rfl
@[simp] theorem State.claimWait_events : (s.claimWait p n c).events = s.events := rfl
@[simp] theorem State.claimWait_pending : (s.claimWait p n c).pending = s.pending := rfl
@[simp] theorem State.claimWait_chan (d : Channel) : (s.claimWait p n c).chan d = s.chan d := by simp only [State.chan, State.claimWait_channels]
@[simp] theorem State.claimWait_lead (q : Port) : (s.claimWait p n c).lead q = s.lead q := by simp only [State.lead, State.claimWait_leads]
@[simp] theorem State.claimWait_commit (q : Port) : (s.claimWait p n c).commit q = s.commit q := by simp only [State.commit, State.claimWait_commits]
@[simp] theorem State.claimWait_port (q : Port) : (s.claimWait p n c).port q = s.port q := by simp only [State.port, State.claimWait_ports]
@[simp] theorem State.claimWait_rank (q : Port) : (s.claimWait p n c).rank q = s.rank q := by simp only [State.rank, State.port, State.claimWait_ports]
@[simp] theorem State.claimWait_slot (j : Slot) : (s.claimWait p n c).slot j = s.slot j := by simp only [State.slot, State.claimWait_slots]
@[simp] theorem State.claimWait_event (q : Port) : (s.claimWait p n c).event q = s.event q := by simp only [State.event, State.claimWait_events]
@[simp] theorem State.claimWait_waiting (d : Channel) : (s.claimWait p n c).waiting d = s.waiting d := by simp only [State.waiting, State.claimWait_queue]
end

section
variable (p : Port) (o : ClaimOptions) (n : Nat) (c : Channel)
@[simp] theorem State.claimChannel_inReset : (s.claimChannel p o n c).inReset = s.inReset := by unfold State.claimChannel; split <;> simp
@[simp] theorem State.claimChannel_devicePhase : (s.claimChannel p o n c).devicePhase = s.devicePhase := by unfold State.claimChannel; split <;> simp
@[simp] theorem State.claimChannel_timeCount : (s.claimChannel p o n c).timeCount = s.timeCount := by unfold State.claimChannel; split <;> simp
@[simp] theorem State.claimChannel_faultAsserted : (s.claimChannel p o n c).faultAsserted = s.faultAsserted := by unfold State.claimChannel; split <;> simp
@[simp] theorem State.claimChannel_syncArmed : (s.claimChannel p o n c).syncArmed = s.syncArmed := by unfold State.claimChannel; split <;> simp
@[simp] theorem State.claimChannel_channels : (s.claimChannel p o n c).channels = s.channels := by unfold State.claimChannel; split <;> simp
@[simp] theorem State.claimChannel_leads : (s.claimChannel p o n c).leads = s.leads := by unfold State.claimChannel; split <;> simp
@[simp] theorem State.claimChannel_commits : (s.claimChannel p o n c).commits = s.commits := by unfold State.claimChannel; split <;> simp
@[simp] theorem State.claimChannel_ports : (s.claimChannel p o n c).ports = s.ports := by unfold State.claimChannel; split <;> simp
@[simp] theorem State.claimChannel_slots : (s.claimChannel p o n c).slots = s.slots := by unfold State.claimChannel; split <;> simp
@[simp] theorem State.claimChannel_queue : (s.claimChannel p o n c).queue = s.queue := by unfold State.claimChannel; split <;> simp
@[simp] theorem State.claimChannel_inFlight : (s.claimChannel p o n c).inFlight = s.inFlight := by unfold State.claimChannel; split <;> simp
@[simp] theorem State.claimChannel_linkPhase : (s.claimChannel p o n c).linkPhase = s.linkPhase := by unfold State.claimChannel; split <;> simp
@[simp] theorem State.claimChannel_pending : (s.claimChannel p o n c).pending = s.pending := by unfold State.claimChannel; split <;> simp
@[simp] theorem State.claimChannel_chan (d : Channel) : (s.claimChannel p o n c).chan d = s.chan d := by simp only [State.chan, State.claimChannel_channels]
@[simp] theorem State.claimChannel_lead (q : Port) : (s.claimChannel p o n c).lead q = s.lead q := by simp only [State.lead, State.claimChannel_leads]
@[simp] theorem State.claimChannel_commit (q : Port) : (s.claimChannel p o n c).commit q = s.commit q := by simp only [State.commit, State.claimChannel_commits]
@[simp] theorem State.claimChannel_port (q : Port) : (s.claimChannel p o n c).port q = s.port q := by simp only [State.port, State.claimChannel_ports]
@[simp] theorem State.claimChannel_rank (q : Port) : (s.claimChannel p o n c).rank q = s.rank q := by simp only [State.rank, State.port, State.claimChannel_ports]
@[simp] theorem State.claimChannel_slot (j : Slot) : (s.claimChannel p o n c).slot j = s.slot j := by simp only [State.slot, State.claimChannel_slots]
@[simp] theorem State.claimChannel_waiting (d : Channel) : (s.claimChannel p o n c).waiting d = s.waiting d := by simp only [State.waiting, State.claimChannel_queue]
end

section
variable (p : Port) (o : ClaimOptions) (n : Nat) (m : Mask)
@[simp] theorem State.claimAll_inReset : (s.claimAll p o n m).inReset = s.inReset := overAll_keeps State.inReset (fun _ _ => by split <;> simp) s
@[simp] theorem State.claimAll_devicePhase : (s.claimAll p o n m).devicePhase = s.devicePhase := overAll_keeps State.devicePhase (fun _ _ => by split <;> simp) s
@[simp] theorem State.claimAll_timeCount : (s.claimAll p o n m).timeCount = s.timeCount := overAll_keeps State.timeCount (fun _ _ => by split <;> simp) s
@[simp] theorem State.claimAll_faultAsserted : (s.claimAll p o n m).faultAsserted = s.faultAsserted := overAll_keeps State.faultAsserted (fun _ _ => by split <;> simp) s
@[simp] theorem State.claimAll_syncArmed : (s.claimAll p o n m).syncArmed = s.syncArmed := overAll_keeps State.syncArmed (fun _ _ => by split <;> simp) s
@[simp] theorem State.claimAll_channels : (s.claimAll p o n m).channels = s.channels := overAll_keeps State.channels (fun _ _ => by split <;> simp) s
@[simp] theorem State.claimAll_leads : (s.claimAll p o n m).leads = s.leads := overAll_keeps State.leads (fun _ _ => by split <;> simp) s
@[simp] theorem State.claimAll_commits : (s.claimAll p o n m).commits = s.commits := overAll_keeps State.commits (fun _ _ => by split <;> simp) s
@[simp] theorem State.claimAll_ports : (s.claimAll p o n m).ports = s.ports := overAll_keeps State.ports (fun _ _ => by split <;> simp) s
@[simp] theorem State.claimAll_slots : (s.claimAll p o n m).slots = s.slots := overAll_keeps State.slots (fun _ _ => by split <;> simp) s
@[simp] theorem State.claimAll_queue : (s.claimAll p o n m).queue = s.queue := overAll_keeps State.queue (fun _ _ => by split <;> simp) s
@[simp] theorem State.claimAll_inFlight : (s.claimAll p o n m).inFlight = s.inFlight := overAll_keeps State.inFlight (fun _ _ => by split <;> simp) s
@[simp] theorem State.claimAll_linkPhase : (s.claimAll p o n m).linkPhase = s.linkPhase := overAll_keeps State.linkPhase (fun _ _ => by split <;> simp) s
@[simp] theorem State.claimAll_pending : (s.claimAll p o n m).pending = s.pending := overAll_keeps State.pending (fun _ _ => by split <;> simp) s
@[simp] theorem State.claimAll_chan (d : Channel) : (s.claimAll p o n m).chan d = s.chan d := by simp only [State.chan, State.claimAll_channels]
@[simp] theorem State.claimAll_lead (q : Port) : (s.claimAll p o n m).lead q = s.lead q := by simp only [State.lead, State.claimAll_leads]
@[simp] theorem State.claimAll_commit (q : Port) : (s.claimAll p o n m).commit q = s.commit q := by simp only [State.commit, State.claimAll_commits]
@[simp] theorem State.claimAll_port (q : Port) : (s.claimAll p o n m).port q = s.port q := by simp only [State.port, State.claimAll_ports]
@[simp] theorem State.claimAll_rank (q : Port) : (s.claimAll p o n m).rank q = s.rank q := by simp only [State.rank, State.port, State.claimAll_ports]
@[simp] theorem State.claimAll_slot (j : Slot) : (s.claimAll p o n m).slot j = s.slot j := by simp only [State.slot, State.claimAll_slots]
@[simp] theorem State.claimAll_waiting (d : Channel) : (s.claimAll p o n m).waiting d = s.waiting d := by simp only [State.waiting, State.claimAll_queue]
end

section
variable (policy : Policy) (c : Channel)
@[simp] theorem State.releaseChannel_inReset : (s.releaseChannel policy c).inReset = s.inReset := by unfold State.releaseChannel; split <;> simp
@[simp] theorem State.releaseChannel_devicePhase : (s.releaseChannel policy c).devicePhase = s.devicePhase := by unfold State.releaseChannel; split <;> simp
@[simp] theorem State.releaseChannel_timeCount : (s.releaseChannel policy c).timeCount = s.timeCount := by unfold State.releaseChannel; split <;> simp
@[simp] theorem State.releaseChannel_faultAsserted : (s.releaseChannel policy c).faultAsserted = s.faultAsserted := by unfold State.releaseChannel; split <;> simp
@[simp] theorem State.releaseChannel_syncArmed : (s.releaseChannel policy c).syncArmed = s.syncArmed := by unfold State.releaseChannel; split <;> simp
@[simp] theorem State.releaseChannel_leads : (s.releaseChannel policy c).leads = s.leads := by unfold State.releaseChannel; split <;> simp
@[simp] theorem State.releaseChannel_commits : (s.releaseChannel policy c).commits = s.commits := by unfold State.releaseChannel; split <;> simp
@[simp] theorem State.releaseChannel_ports : (s.releaseChannel policy c).ports = s.ports := by unfold State.releaseChannel; split <;> simp
@[simp] theorem State.releaseChannel_slots : (s.releaseChannel policy c).slots = s.slots := by unfold State.releaseChannel; split <;> simp
@[simp] theorem State.releaseChannel_inFlight : (s.releaseChannel policy c).inFlight = s.inFlight := by unfold State.releaseChannel; split <;> simp
@[simp] theorem State.releaseChannel_linkPhase : (s.releaseChannel policy c).linkPhase = s.linkPhase := by unfold State.releaseChannel; split <;> simp
@[simp] theorem State.releaseChannel_pending : (s.releaseChannel policy c).pending = s.pending := by unfold State.releaseChannel; split <;> simp
@[simp] theorem State.releaseChannel_lead (q : Port) : (s.releaseChannel policy c).lead q = s.lead q := by simp only [State.lead, State.releaseChannel_leads]
@[simp] theorem State.releaseChannel_commit (q : Port) : (s.releaseChannel policy c).commit q = s.commit q := by simp only [State.commit, State.releaseChannel_commits]
@[simp] theorem State.releaseChannel_port (q : Port) : (s.releaseChannel policy c).port q = s.port q := by simp only [State.port, State.releaseChannel_ports]
@[simp] theorem State.releaseChannel_rank (q : Port) : (s.releaseChannel policy c).rank q = s.rank q := by simp only [State.rank, State.port, State.releaseChannel_ports]
@[simp] theorem State.releaseChannel_slot (j : Slot) : (s.releaseChannel policy c).slot j = s.slot j := by simp only [State.slot, State.releaseChannel_slots]
end

section
variable (p : Port) (c : Channel)
@[simp] theorem State.withdraw_inReset : (s.withdraw p c).inReset = s.inReset := rfl
@[simp] theorem State.withdraw_devicePhase : (s.withdraw p c).devicePhase = s.devicePhase := rfl
@[simp] theorem State.withdraw_timeCount : (s.withdraw p c).timeCount = s.timeCount := rfl
@[simp] theorem State.withdraw_faultAsserted : (s.withdraw p c).faultAsserted = s.faultAsserted := rfl
@[simp] theorem State.withdraw_syncArmed : (s.withdraw p c).syncArmed = s.syncArmed := rfl
@[simp] theorem State.withdraw_channels : (s.withdraw p c).channels = s.channels := rfl
@[simp] theorem State.withdraw_leads : (s.withdraw p c).leads = s.leads := rfl
@[simp] theorem State.withdraw_commits : (s.withdraw p c).commits = s.commits := rfl
@[simp] theorem State.withdraw_ports : (s.withdraw p c).ports = s.ports := rfl
@[simp] theorem State.withdraw_slots : (s.withdraw p c).slots = s.slots := rfl
@[simp] theorem State.withdraw_queue : (s.withdraw p c).queue = s.queue := rfl
@[simp] theorem State.withdraw_inFlight : (s.withdraw p c).inFlight = s.inFlight := rfl
@[simp] theorem State.withdraw_linkPhase : (s.withdraw p c).linkPhase = s.linkPhase := rfl
@[simp] theorem State.withdraw_events : (s.withdraw p c).events = s.events := rfl
@[simp] theorem State.withdraw_pending : (s.withdraw p c).pending = s.pending := rfl
@[simp] theorem State.withdraw_chan (d : Channel) : (s.withdraw p c).chan d = s.chan d := by simp only [State.chan, State.withdraw_channels]
@[simp] theorem State.withdraw_lead (q : Port) : (s.withdraw p c).lead q = s.lead q := by simp only [State.lead, State.withdraw_leads]
@[simp] theorem State.withdraw_commit (q : Port) : (s.withdraw p c).commit q = s.commit q := by simp only [State.commit, State.withdraw_commits]
@[simp] theorem State.withdraw_port (q : Port) : (s.withdraw p c).port q = s.port q := by simp only [State.port, State.withdraw_ports]
@[simp] theorem State.withdraw_rank (q : Port) : (s.withdraw p c).rank q = s.rank q := by simp only [State.rank, State.port, State.withdraw_ports]
@[simp] theorem State.withdraw_slot (j : Slot) : (s.withdraw p c).slot j = s.slot j := by simp only [State.slot, State.withdraw_slots]
@[simp] theorem State.withdraw_event (q : Port) : (s.withdraw p c).event q = s.event q := by simp only [State.event, State.withdraw_events]
@[simp] theorem State.withdraw_waiting (d : Channel) : (s.withdraw p c).waiting d = s.waiting d := by simp only [State.waiting, State.withdraw_queue]
end

section
variable (c : Channel) (h : Port)
@[simp] theorem State.expire_inReset : (s.expire c h).inReset = s.inReset := by unfold State.expire; simp
@[simp] theorem State.expire_devicePhase : (s.expire c h).devicePhase = s.devicePhase := by unfold State.expire; simp
@[simp] theorem State.expire_timeCount : (s.expire c h).timeCount = s.timeCount := by unfold State.expire; simp
@[simp] theorem State.expire_faultAsserted : (s.expire c h).faultAsserted = s.faultAsserted := by unfold State.expire; simp
@[simp] theorem State.expire_syncArmed : (s.expire c h).syncArmed = s.syncArmed := by unfold State.expire; simp
@[simp] theorem State.expire_leads : (s.expire c h).leads = s.leads := by unfold State.expire; simp
@[simp] theorem State.expire_commits : (s.expire c h).commits = s.commits := by unfold State.expire; simp
@[simp] theorem State.expire_ports : (s.expire c h).ports = s.ports := by unfold State.expire; simp
@[simp] theorem State.expire_slots : (s.expire c h).slots = s.slots := by unfold State.expire; simp
@[simp] theorem State.expire_inFlight : (s.expire c h).inFlight = s.inFlight := by unfold State.expire; simp
@[simp] theorem State.expire_linkPhase : (s.expire c h).linkPhase = s.linkPhase := by unfold State.expire; simp
@[simp] theorem State.expire_pending : (s.expire c h).pending = s.pending := by unfold State.expire; simp
@[simp] theorem State.expire_lead (q : Port) : (s.expire c h).lead q = s.lead q := by simp only [State.lead, State.expire_leads]
@[simp] theorem State.expire_commit (q : Port) : (s.expire c h).commit q = s.commit q := by simp only [State.commit, State.expire_commits]
@[simp] theorem State.expire_port (q : Port) : (s.expire c h).port q = s.port q := by simp only [State.port, State.expire_ports]
@[simp] theorem State.expire_rank (q : Port) : (s.expire c h).rank q = s.rank q := by simp only [State.rank, State.port, State.expire_ports]
@[simp] theorem State.expire_slot (j : Slot) : (s.expire c h).slot j = s.slot j := by simp only [State.slot, State.expire_slots]
end

section
variable (c : Channel) (l : Lease)
@[simp] theorem State.reduceLease_inReset : (s.reduceLease c l).inReset = s.inReset := by unfold State.reduceLease; dsimp only; split <;> simp
@[simp] theorem State.reduceLease_devicePhase : (s.reduceLease c l).devicePhase = s.devicePhase := by unfold State.reduceLease; dsimp only; split <;> simp
@[simp] theorem State.reduceLease_timeCount : (s.reduceLease c l).timeCount = s.timeCount := by unfold State.reduceLease; dsimp only; split <;> simp
@[simp] theorem State.reduceLease_faultAsserted : (s.reduceLease c l).faultAsserted = s.faultAsserted := by unfold State.reduceLease; dsimp only; split <;> simp
@[simp] theorem State.reduceLease_syncArmed : (s.reduceLease c l).syncArmed = s.syncArmed := by unfold State.reduceLease; dsimp only; split <;> simp
@[simp] theorem State.reduceLease_channels : (s.reduceLease c l).channels = s.channels := by unfold State.reduceLease; dsimp only; split <;> simp
@[simp] theorem State.reduceLease_leads : (s.reduceLease c l).leads = s.leads := by unfold State.reduceLease; dsimp only; split <;> simp
@[simp] theorem State.reduceLease_commits : (s.reduceLease c l).commits = s.commits := by unfold State.reduceLease; dsimp only; split <;> simp
@[simp] theorem State.reduceLease_ports : (s.reduceLease c l).ports = s.ports := by unfold State.reduceLease; dsimp only; split <;> simp
@[simp] theorem State.reduceLease_slots : (s.reduceLease c l).slots = s.slots := by unfold State.reduceLease; dsimp only; split <;> simp
@[simp] theorem State.reduceLease_queue : (s.reduceLease c l).queue = s.queue := by unfold State.reduceLease; dsimp only; split <;> simp
@[simp] theorem State.reduceLease_inFlight : (s.reduceLease c l).inFlight = s.inFlight := by unfold State.reduceLease; dsimp only; split <;> simp
@[simp] theorem State.reduceLease_linkPhase : (s.reduceLease c l).linkPhase = s.linkPhase := by unfold State.reduceLease; dsimp only; split <;> simp
@[simp] theorem State.reduceLease_pending : (s.reduceLease c l).pending = s.pending := by unfold State.reduceLease; dsimp only; split <;> simp
@[simp] theorem State.reduceLease_chan (d : Channel) : (s.reduceLease c l).chan d = s.chan d := by simp only [State.chan, State.reduceLease_channels]
@[simp] theorem State.reduceLease_lead (q : Port) : (s.reduceLease c l).lead q = s.lead q := by simp only [State.lead, State.reduceLease_leads]
@[simp] theorem State.reduceLease_commit (q : Port) : (s.reduceLease c l).commit q = s.commit q := by simp only [State.commit, State.reduceLease_commits]
@[simp] theorem State.reduceLease_port (q : Port) : (s.reduceLease c l).port q = s.port q := by simp only [State.port, State.reduceLease_ports]
@[simp] theorem State.reduceLease_rank (q : Port) : (s.reduceLease c l).rank q = s.rank q := by simp only [State.rank, State.port, State.reduceLease_ports]
@[simp] theorem State.reduceLease_slot (j : Slot) : (s.reduceLease c l).slot j = s.slot j := by simp only [State.slot, State.reduceLease_slots]
@[simp] theorem State.reduceLease_waiting (d : Channel) : (s.reduceLease c l).waiting d = s.waiting d := by simp only [State.waiting, State.reduceLease_queue]
end

section
variable (c : Channel)
@[simp] theorem State.tickLease_inReset : (s.tickLease c).inReset = s.inReset := by unfold State.tickLease; (repeat' split) <;> simp
@[simp] theorem State.tickLease_devicePhase : (s.tickLease c).devicePhase = s.devicePhase := by unfold State.tickLease; (repeat' split) <;> simp
@[simp] theorem State.tickLease_timeCount : (s.tickLease c).timeCount = s.timeCount := by unfold State.tickLease; (repeat' split) <;> simp
@[simp] theorem State.tickLease_faultAsserted : (s.tickLease c).faultAsserted = s.faultAsserted := by unfold State.tickLease; (repeat' split) <;> simp
@[simp] theorem State.tickLease_syncArmed : (s.tickLease c).syncArmed = s.syncArmed := by unfold State.tickLease; (repeat' split) <;> simp
@[simp] theorem State.tickLease_leads : (s.tickLease c).leads = s.leads := by unfold State.tickLease; (repeat' split) <;> simp
@[simp] theorem State.tickLease_commits : (s.tickLease c).commits = s.commits := by unfold State.tickLease; (repeat' split) <;> simp
@[simp] theorem State.tickLease_ports : (s.tickLease c).ports = s.ports := by unfold State.tickLease; (repeat' split) <;> simp
@[simp] theorem State.tickLease_slots : (s.tickLease c).slots = s.slots := by unfold State.tickLease; (repeat' split) <;> simp
@[simp] theorem State.tickLease_inFlight : (s.tickLease c).inFlight = s.inFlight := by unfold State.tickLease; (repeat' split) <;> simp
@[simp] theorem State.tickLease_linkPhase : (s.tickLease c).linkPhase = s.linkPhase := by unfold State.tickLease; (repeat' split) <;> simp
@[simp] theorem State.tickLease_pending : (s.tickLease c).pending = s.pending := by unfold State.tickLease; (repeat' split) <;> simp
@[simp] theorem State.tickLease_lead (q : Port) : (s.tickLease c).lead q = s.lead q := by simp only [State.lead, State.tickLease_leads]
@[simp] theorem State.tickLease_commit (q : Port) : (s.tickLease c).commit q = s.commit q := by simp only [State.commit, State.tickLease_commits]
@[simp] theorem State.tickLease_port (q : Port) : (s.tickLease c).port q = s.port q := by simp only [State.port, State.tickLease_ports]
@[simp] theorem State.tickLease_rank (q : Port) : (s.tickLease c).rank q = s.rank q := by simp only [State.rank, State.port, State.tickLease_ports]
@[simp] theorem State.tickLease_slot (j : Slot) : (s.tickLease c).slot j = s.slot j := by simp only [State.slot, State.tickLease_slots]
end

section
variable (e : StageEntry)
@[simp] theorem State.applyEntry_inReset : (s.applyEntry e).inReset = s.inReset := by unfold State.applyEntry; dsimp only; split <;> simp
@[simp] theorem State.applyEntry_devicePhase : (s.applyEntry e).devicePhase = s.devicePhase := by unfold State.applyEntry; dsimp only; split <;> simp
@[simp] theorem State.applyEntry_timeCount : (s.applyEntry e).timeCount = s.timeCount := by unfold State.applyEntry; dsimp only; split <;> simp
@[simp] theorem State.applyEntry_faultAsserted : (s.applyEntry e).faultAsserted = s.faultAsserted := by unfold State.applyEntry; dsimp only; split <;> simp
@[simp] theorem State.applyEntry_syncArmed : (s.applyEntry e).syncArmed = s.syncArmed := by unfold State.applyEntry; dsimp only; split <;> simp
@[simp] theorem State.applyEntry_leads : (s.applyEntry e).leads = s.leads := by unfold State.applyEntry; dsimp only; split <;> simp
@[simp] theorem State.applyEntry_commits : (s.applyEntry e).commits = s.commits := by unfold State.applyEntry; dsimp only; split <;> simp
@[simp] theorem State.applyEntry_ports : (s.applyEntry e).ports = s.ports := by unfold State.applyEntry; dsimp only; split <;> simp
@[simp] theorem State.applyEntry_slots : (s.applyEntry e).slots = s.slots := by unfold State.applyEntry; dsimp only; split <;> simp
@[simp] theorem State.applyEntry_inFlight : (s.applyEntry e).inFlight = s.inFlight := by unfold State.applyEntry; dsimp only; split <;> simp
@[simp] theorem State.applyEntry_linkPhase : (s.applyEntry e).linkPhase = s.linkPhase := by unfold State.applyEntry; dsimp only; split <;> simp
@[simp] theorem State.applyEntry_events : (s.applyEntry e).events = s.events := by unfold State.applyEntry; dsimp only; split <;> simp
@[simp] theorem State.applyEntry_pending : (s.applyEntry e).pending = s.pending := by unfold State.applyEntry; dsimp only; split <;> simp
@[simp] theorem State.applyEntry_lead (q : Port) : (s.applyEntry e).lead q = s.lead q := by simp only [State.lead, State.applyEntry_leads]
@[simp] theorem State.applyEntry_commit (q : Port) : (s.applyEntry e).commit q = s.commit q := by simp only [State.commit, State.applyEntry_commits]
@[simp] theorem State.applyEntry_port (q : Port) : (s.applyEntry e).port q = s.port q := by simp only [State.port, State.applyEntry_ports]
@[simp] theorem State.applyEntry_rank (q : Port) : (s.applyEntry e).rank q = s.rank q := by simp only [State.rank, State.port, State.applyEntry_ports]
@[simp] theorem State.applyEntry_slot (j : Slot) : (s.applyEntry e).slot j = s.slot j := by simp only [State.slot, State.applyEntry_slots]
@[simp] theorem State.applyEntry_event (q : Port) : (s.applyEntry e).event q = s.event q := by simp only [State.event, State.applyEntry_events]
end

section
variable (es : List StageEntry)
@[simp] theorem State.applyEntries_inReset : (s.applyEntries es).inReset = s.inReset := by unfold State.applyEntries; induction es generalizing s with
  | nil => rfl
  | cons e es ih => rw [List.foldl_cons, ih]; simp
@[simp] theorem State.applyEntries_devicePhase : (s.applyEntries es).devicePhase = s.devicePhase := by unfold State.applyEntries; induction es generalizing s with
  | nil => rfl
  | cons e es ih => rw [List.foldl_cons, ih]; simp
@[simp] theorem State.applyEntries_timeCount : (s.applyEntries es).timeCount = s.timeCount := by unfold State.applyEntries; induction es generalizing s with
  | nil => rfl
  | cons e es ih => rw [List.foldl_cons, ih]; simp
@[simp] theorem State.applyEntries_faultAsserted : (s.applyEntries es).faultAsserted = s.faultAsserted := by unfold State.applyEntries; induction es generalizing s with
  | nil => rfl
  | cons e es ih => rw [List.foldl_cons, ih]; simp
@[simp] theorem State.applyEntries_syncArmed : (s.applyEntries es).syncArmed = s.syncArmed := by unfold State.applyEntries; induction es generalizing s with
  | nil => rfl
  | cons e es ih => rw [List.foldl_cons, ih]; simp
@[simp] theorem State.applyEntries_leads : (s.applyEntries es).leads = s.leads := by unfold State.applyEntries; induction es generalizing s with
  | nil => rfl
  | cons e es ih => rw [List.foldl_cons, ih]; simp
@[simp] theorem State.applyEntries_commits : (s.applyEntries es).commits = s.commits := by unfold State.applyEntries; induction es generalizing s with
  | nil => rfl
  | cons e es ih => rw [List.foldl_cons, ih]; simp
@[simp] theorem State.applyEntries_ports : (s.applyEntries es).ports = s.ports := by unfold State.applyEntries; induction es generalizing s with
  | nil => rfl
  | cons e es ih => rw [List.foldl_cons, ih]; simp
@[simp] theorem State.applyEntries_slots : (s.applyEntries es).slots = s.slots := by unfold State.applyEntries; induction es generalizing s with
  | nil => rfl
  | cons e es ih => rw [List.foldl_cons, ih]; simp
@[simp] theorem State.applyEntries_inFlight : (s.applyEntries es).inFlight = s.inFlight := by unfold State.applyEntries; induction es generalizing s with
  | nil => rfl
  | cons e es ih => rw [List.foldl_cons, ih]; simp
@[simp] theorem State.applyEntries_linkPhase : (s.applyEntries es).linkPhase = s.linkPhase := by unfold State.applyEntries; induction es generalizing s with
  | nil => rfl
  | cons e es ih => rw [List.foldl_cons, ih]; simp
@[simp] theorem State.applyEntries_events : (s.applyEntries es).events = s.events := by unfold State.applyEntries; induction es generalizing s with
  | nil => rfl
  | cons e es ih => rw [List.foldl_cons, ih]; simp
@[simp] theorem State.applyEntries_pending : (s.applyEntries es).pending = s.pending := by unfold State.applyEntries; induction es generalizing s with
  | nil => rfl
  | cons e es ih => rw [List.foldl_cons, ih]; simp
@[simp] theorem State.applyEntries_lead (q : Port) : (s.applyEntries es).lead q = s.lead q := by simp only [State.lead, State.applyEntries_leads]
@[simp] theorem State.applyEntries_commit (q : Port) : (s.applyEntries es).commit q = s.commit q := by simp only [State.commit, State.applyEntries_commits]
@[simp] theorem State.applyEntries_port (q : Port) : (s.applyEntries es).port q = s.port q := by simp only [State.port, State.applyEntries_ports]
@[simp] theorem State.applyEntries_rank (q : Port) : (s.applyEntries es).rank q = s.rank q := by simp only [State.rank, State.port, State.applyEntries_ports]
@[simp] theorem State.applyEntries_slot (j : Slot) : (s.applyEntries es).slot j = s.slot j := by simp only [State.slot, State.applyEntries_slots]
@[simp] theorem State.applyEntries_event (q : Port) : (s.applyEntries es).event q = s.event q := by simp only [State.event, State.applyEntries_events]
end

section
variable (p : Port)
@[simp] theorem State.disarm_inReset : (s.disarm p).inReset = s.inReset := rfl
@[simp] theorem State.disarm_devicePhase : (s.disarm p).devicePhase = s.devicePhase := rfl
@[simp] theorem State.disarm_timeCount : (s.disarm p).timeCount = s.timeCount := rfl
@[simp] theorem State.disarm_faultAsserted : (s.disarm p).faultAsserted = s.faultAsserted := rfl
@[simp] theorem State.disarm_syncArmed : (s.disarm p).syncArmed = s.syncArmed := rfl
@[simp] theorem State.disarm_channels : (s.disarm p).channels = s.channels := rfl
@[simp] theorem State.disarm_leases : (s.disarm p).leases = s.leases := rfl
@[simp] theorem State.disarm_leads : (s.disarm p).leads = s.leads := rfl
@[simp] theorem State.disarm_ports : (s.disarm p).ports = s.ports := rfl
@[simp] theorem State.disarm_slots : (s.disarm p).slots = s.slots := rfl
@[simp] theorem State.disarm_queue : (s.disarm p).queue = s.queue := rfl
@[simp] theorem State.disarm_inFlight : (s.disarm p).inFlight = s.inFlight := rfl
@[simp] theorem State.disarm_linkPhase : (s.disarm p).linkPhase = s.linkPhase := rfl
@[simp] theorem State.disarm_events : (s.disarm p).events = s.events := rfl
@[simp] theorem State.disarm_pending : (s.disarm p).pending = s.pending := rfl
@[simp] theorem State.disarm_chan (d : Channel) : (s.disarm p).chan d = s.chan d := by simp only [State.chan, State.disarm_channels]
@[simp] theorem State.disarm_lease (d : Channel) : (s.disarm p).lease d = s.lease d := by simp only [State.lease, State.disarm_leases]
@[simp] theorem State.disarm_holder (d : Channel) : (s.disarm p).holder d = s.holder d := by simp only [State.holder, State.lease, State.disarm_leases]
@[simp] theorem State.disarm_holds (q : Port) (d : Channel) : (s.disarm p).holds q d = s.holds q d := by simp only [State.holds, State.holder, State.lease, State.disarm_leases]
@[simp] theorem State.disarm_waits (q : Port) (d : Channel) : (s.disarm p).waits q d = s.waits q d := by simp only [State.waits, State.lease, State.disarm_leases]
@[simp] theorem State.disarm_lead (q : Port) : (s.disarm p).lead q = s.lead q := by simp only [State.lead, State.disarm_leads]
@[simp] theorem State.disarm_port (q : Port) : (s.disarm p).port q = s.port q := by simp only [State.port, State.disarm_ports]
@[simp] theorem State.disarm_rank (q : Port) : (s.disarm p).rank q = s.rank q := by simp only [State.rank, State.port, State.disarm_ports]
@[simp] theorem State.disarm_slot (j : Slot) : (s.disarm p).slot j = s.slot j := by simp only [State.slot, State.disarm_slots]
@[simp] theorem State.disarm_event (q : Port) : (s.disarm p).event q = s.event q := by simp only [State.event, State.disarm_events]
@[simp] theorem State.disarm_waiting (d : Channel) : (s.disarm p).waiting d = s.waiting d := by simp only [State.waiting, State.disarm_queue]
end

section
variable (p : Port) (a : ArmedSet)
@[simp] theorem State.fireSet_inReset : (s.fireSet p a).inReset = s.inReset := by unfold State.fireSet; split <;> simp
@[simp] theorem State.fireSet_devicePhase : (s.fireSet p a).devicePhase = s.devicePhase := by unfold State.fireSet; split <;> simp
@[simp] theorem State.fireSet_timeCount : (s.fireSet p a).timeCount = s.timeCount := by unfold State.fireSet; split <;> simp
@[simp] theorem State.fireSet_faultAsserted : (s.fireSet p a).faultAsserted = s.faultAsserted := by unfold State.fireSet; split <;> simp
@[simp] theorem State.fireSet_syncArmed : (s.fireSet p a).syncArmed = s.syncArmed := by unfold State.fireSet; split <;> simp
@[simp] theorem State.fireSet_leads : (s.fireSet p a).leads = s.leads := by unfold State.fireSet; split <;> simp
@[simp] theorem State.fireSet_ports : (s.fireSet p a).ports = s.ports := by unfold State.fireSet; split <;> simp
@[simp] theorem State.fireSet_slots : (s.fireSet p a).slots = s.slots := by unfold State.fireSet; split <;> simp
@[simp] theorem State.fireSet_inFlight : (s.fireSet p a).inFlight = s.inFlight := by unfold State.fireSet; split <;> simp
@[simp] theorem State.fireSet_linkPhase : (s.fireSet p a).linkPhase = s.linkPhase := by unfold State.fireSet; split <;> simp
@[simp] theorem State.fireSet_pending : (s.fireSet p a).pending = s.pending := by unfold State.fireSet; split <;> simp
@[simp] theorem State.fireSet_lead (q : Port) : (s.fireSet p a).lead q = s.lead q := by simp only [State.lead, State.fireSet_leads]
@[simp] theorem State.fireSet_port (q : Port) : (s.fireSet p a).port q = s.port q := by simp only [State.port, State.fireSet_ports]
@[simp] theorem State.fireSet_rank (q : Port) : (s.fireSet p a).rank q = s.rank q := by simp only [State.rank, State.port, State.fireSet_ports]
@[simp] theorem State.fireSet_slot (j : Slot) : (s.fireSet p a).slot j = s.slot j := by simp only [State.slot, State.fireSet_slots]
end

section
variable (p : Port)
@[simp] theorem State.firePort_inReset : (s.firePort p).inReset = s.inReset := by unfold State.firePort; split <;> simp
@[simp] theorem State.firePort_devicePhase : (s.firePort p).devicePhase = s.devicePhase := by unfold State.firePort; split <;> simp
@[simp] theorem State.firePort_timeCount : (s.firePort p).timeCount = s.timeCount := by unfold State.firePort; split <;> simp
@[simp] theorem State.firePort_faultAsserted : (s.firePort p).faultAsserted = s.faultAsserted := by unfold State.firePort; split <;> simp
@[simp] theorem State.firePort_syncArmed : (s.firePort p).syncArmed = s.syncArmed := by unfold State.firePort; split <;> simp
@[simp] theorem State.firePort_leads : (s.firePort p).leads = s.leads := by unfold State.firePort; split <;> simp
@[simp] theorem State.firePort_ports : (s.firePort p).ports = s.ports := by unfold State.firePort; split <;> simp
@[simp] theorem State.firePort_slots : (s.firePort p).slots = s.slots := by unfold State.firePort; split <;> simp
@[simp] theorem State.firePort_inFlight : (s.firePort p).inFlight = s.inFlight := by unfold State.firePort; split <;> simp
@[simp] theorem State.firePort_linkPhase : (s.firePort p).linkPhase = s.linkPhase := by unfold State.firePort; split <;> simp
@[simp] theorem State.firePort_pending : (s.firePort p).pending = s.pending := by unfold State.firePort; split <;> simp
@[simp] theorem State.firePort_lead (q : Port) : (s.firePort p).lead q = s.lead q := by simp only [State.lead, State.firePort_leads]
@[simp] theorem State.firePort_port (q : Port) : (s.firePort p).port q = s.port q := by simp only [State.port, State.firePort_ports]
@[simp] theorem State.firePort_rank (q : Port) : (s.firePort p).rank q = s.rank q := by simp only [State.rank, State.port, State.firePort_ports]
@[simp] theorem State.firePort_slot (j : Slot) : (s.firePort p).slot j = s.slot j := by simp only [State.slot, State.firePort_slots]
end

section
@[simp] theorem State.syncEvent_inReset : (s.syncEvent).inReset = s.inReset := overAll_keeps State.inReset (fun _ _ => by simp) s
@[simp] theorem State.syncEvent_devicePhase : (s.syncEvent).devicePhase = s.devicePhase := overAll_keeps State.devicePhase (fun _ _ => by simp) s
@[simp] theorem State.syncEvent_timeCount : (s.syncEvent).timeCount = s.timeCount := overAll_keeps State.timeCount (fun _ _ => by simp) s
@[simp] theorem State.syncEvent_faultAsserted : (s.syncEvent).faultAsserted = s.faultAsserted := overAll_keeps State.faultAsserted (fun _ _ => by simp) s
@[simp] theorem State.syncEvent_syncArmed : (s.syncEvent).syncArmed = s.syncArmed := overAll_keeps State.syncArmed (fun _ _ => by simp) s
@[simp] theorem State.syncEvent_leads : (s.syncEvent).leads = s.leads := overAll_keeps State.leads (fun _ _ => by simp) s
@[simp] theorem State.syncEvent_ports : (s.syncEvent).ports = s.ports := overAll_keeps State.ports (fun _ _ => by simp) s
@[simp] theorem State.syncEvent_slots : (s.syncEvent).slots = s.slots := overAll_keeps State.slots (fun _ _ => by simp) s
@[simp] theorem State.syncEvent_inFlight : (s.syncEvent).inFlight = s.inFlight := overAll_keeps State.inFlight (fun _ _ => by simp) s
@[simp] theorem State.syncEvent_linkPhase : (s.syncEvent).linkPhase = s.linkPhase := overAll_keeps State.linkPhase (fun _ _ => by simp) s
@[simp] theorem State.syncEvent_pending : (s.syncEvent).pending = s.pending := overAll_keeps State.pending (fun _ _ => by simp) s
@[simp] theorem State.syncEvent_lead (q : Port) : (s.syncEvent).lead q = s.lead q := by simp only [State.lead, State.syncEvent_leads]
@[simp] theorem State.syncEvent_port (q : Port) : (s.syncEvent).port q = s.port q := by simp only [State.port, State.syncEvent_ports]
@[simp] theorem State.syncEvent_rank (q : Port) : (s.syncEvent).rank q = s.rank q := by simp only [State.rank, State.port, State.syncEvent_ports]
@[simp] theorem State.syncEvent_slot (j : Slot) : (s.syncEvent).slot j = s.slot j := by simp only [State.slot, State.syncEvent_slots]
end

section
variable (p : Port)
@[simp] theorem State.tickArm_inReset : (s.tickArm p).inReset = s.inReset := by unfold State.tickArm; (repeat' split) <;> simp
@[simp] theorem State.tickArm_devicePhase : (s.tickArm p).devicePhase = s.devicePhase := by unfold State.tickArm; (repeat' split) <;> simp
@[simp] theorem State.tickArm_timeCount : (s.tickArm p).timeCount = s.timeCount := by unfold State.tickArm; (repeat' split) <;> simp
@[simp] theorem State.tickArm_faultAsserted : (s.tickArm p).faultAsserted = s.faultAsserted := by unfold State.tickArm; (repeat' split) <;> simp
@[simp] theorem State.tickArm_syncArmed : (s.tickArm p).syncArmed = s.syncArmed := by unfold State.tickArm; (repeat' split) <;> simp
@[simp] theorem State.tickArm_channels : (s.tickArm p).channels = s.channels := by unfold State.tickArm; (repeat' split) <;> simp
@[simp] theorem State.tickArm_leases : (s.tickArm p).leases = s.leases := by unfold State.tickArm; (repeat' split) <;> simp
@[simp] theorem State.tickArm_leads : (s.tickArm p).leads = s.leads := by unfold State.tickArm; (repeat' split) <;> simp
@[simp] theorem State.tickArm_ports : (s.tickArm p).ports = s.ports := by unfold State.tickArm; (repeat' split) <;> simp
@[simp] theorem State.tickArm_slots : (s.tickArm p).slots = s.slots := by unfold State.tickArm; (repeat' split) <;> simp
@[simp] theorem State.tickArm_queue : (s.tickArm p).queue = s.queue := by unfold State.tickArm; (repeat' split) <;> simp
@[simp] theorem State.tickArm_inFlight : (s.tickArm p).inFlight = s.inFlight := by unfold State.tickArm; (repeat' split) <;> simp
@[simp] theorem State.tickArm_linkPhase : (s.tickArm p).linkPhase = s.linkPhase := by unfold State.tickArm; (repeat' split) <;> simp
@[simp] theorem State.tickArm_pending : (s.tickArm p).pending = s.pending := by unfold State.tickArm; (repeat' split) <;> simp
@[simp] theorem State.tickArm_chan (d : Channel) : (s.tickArm p).chan d = s.chan d := by simp only [State.chan, State.tickArm_channels]
@[simp] theorem State.tickArm_lease (d : Channel) : (s.tickArm p).lease d = s.lease d := by simp only [State.lease, State.tickArm_leases]
@[simp] theorem State.tickArm_holder (d : Channel) : (s.tickArm p).holder d = s.holder d := by simp only [State.holder, State.lease, State.tickArm_leases]
@[simp] theorem State.tickArm_holds (q : Port) (d : Channel) : (s.tickArm p).holds q d = s.holds q d := by simp only [State.holds, State.holder, State.lease, State.tickArm_leases]
@[simp] theorem State.tickArm_waits (q : Port) (d : Channel) : (s.tickArm p).waits q d = s.waits q d := by simp only [State.waits, State.lease, State.tickArm_leases]
@[simp] theorem State.tickArm_lead (q : Port) : (s.tickArm p).lead q = s.lead q := by simp only [State.lead, State.tickArm_leads]
@[simp] theorem State.tickArm_port (q : Port) : (s.tickArm p).port q = s.port q := by simp only [State.port, State.tickArm_ports]
@[simp] theorem State.tickArm_rank (q : Port) : (s.tickArm p).rank q = s.rank q := by simp only [State.rank, State.port, State.tickArm_ports]
@[simp] theorem State.tickArm_slot (j : Slot) : (s.tickArm p).slot j = s.slot j := by simp only [State.slot, State.tickArm_slots]
@[simp] theorem State.tickArm_waiting (d : Channel) : (s.tickArm p).waiting d = s.waiting d := by simp only [State.waiting, State.tickArm_queue]
end

section
@[simp] theorem State.tick_inReset : (s.tick).inReset = s.inReset := (overAll_keeps State.inReset (fun _ _ => by simp) _).trans (overAll_keeps State.inReset (fun _ _ => by simp) _)
@[simp] theorem State.tick_devicePhase : (s.tick).devicePhase = s.devicePhase := (overAll_keeps State.devicePhase (fun _ _ => by simp) _).trans (overAll_keeps State.devicePhase (fun _ _ => by simp) _)
@[simp] theorem State.tick_faultAsserted : (s.tick).faultAsserted = s.faultAsserted := (overAll_keeps State.faultAsserted (fun _ _ => by simp) _).trans (overAll_keeps State.faultAsserted (fun _ _ => by simp) _)
@[simp] theorem State.tick_syncArmed : (s.tick).syncArmed = s.syncArmed := (overAll_keeps State.syncArmed (fun _ _ => by simp) _).trans (overAll_keeps State.syncArmed (fun _ _ => by simp) _)
@[simp] theorem State.tick_leads : (s.tick).leads = s.leads := (overAll_keeps State.leads (fun _ _ => by simp) _).trans (overAll_keeps State.leads (fun _ _ => by simp) _)
@[simp] theorem State.tick_ports : (s.tick).ports = s.ports := (overAll_keeps State.ports (fun _ _ => by simp) _).trans (overAll_keeps State.ports (fun _ _ => by simp) _)
@[simp] theorem State.tick_slots : (s.tick).slots = s.slots := (overAll_keeps State.slots (fun _ _ => by simp) _).trans (overAll_keeps State.slots (fun _ _ => by simp) _)
@[simp] theorem State.tick_inFlight : (s.tick).inFlight = s.inFlight := (overAll_keeps State.inFlight (fun _ _ => by simp) _).trans (overAll_keeps State.inFlight (fun _ _ => by simp) _)
@[simp] theorem State.tick_linkPhase : (s.tick).linkPhase = s.linkPhase := (overAll_keeps State.linkPhase (fun _ _ => by simp) _).trans (overAll_keeps State.linkPhase (fun _ _ => by simp) _)
@[simp] theorem State.tick_pending : (s.tick).pending = s.pending := (overAll_keeps State.pending (fun _ _ => by simp) _).trans (overAll_keeps State.pending (fun _ _ => by simp) _)
@[simp] theorem State.tick_lead (q : Port) : (s.tick).lead q = s.lead q := by simp only [State.lead, State.tick_leads]
@[simp] theorem State.tick_port (q : Port) : (s.tick).port q = s.port q := by simp only [State.port, State.tick_ports]
@[simp] theorem State.tick_rank (q : Port) : (s.tick).rank q = s.rank q := by simp only [State.rank, State.port, State.tick_ports]
@[simp] theorem State.tick_slot (j : Slot) : (s.tick).slot j = s.slot j := by simp only [State.slot, State.tick_slots]
end

section
variable (c : Channel) (reached : Code)
@[simp] theorem State.reportRamp_inReset : (s.reportRamp c reached).inReset = s.inReset := by unfold State.reportRamp; split <;> simp
@[simp] theorem State.reportRamp_devicePhase : (s.reportRamp c reached).devicePhase = s.devicePhase := by unfold State.reportRamp; split <;> simp
@[simp] theorem State.reportRamp_timeCount : (s.reportRamp c reached).timeCount = s.timeCount := by unfold State.reportRamp; split <;> simp
@[simp] theorem State.reportRamp_faultAsserted : (s.reportRamp c reached).faultAsserted = s.faultAsserted := by unfold State.reportRamp; split <;> simp
@[simp] theorem State.reportRamp_syncArmed : (s.reportRamp c reached).syncArmed = s.syncArmed := by unfold State.reportRamp; split <;> simp
@[simp] theorem State.reportRamp_channels : (s.reportRamp c reached).channels = s.channels := by unfold State.reportRamp; split <;> simp
@[simp] theorem State.reportRamp_leases : (s.reportRamp c reached).leases = s.leases := by unfold State.reportRamp; split <;> simp
@[simp] theorem State.reportRamp_leads : (s.reportRamp c reached).leads = s.leads := by unfold State.reportRamp; split <;> simp
@[simp] theorem State.reportRamp_commits : (s.reportRamp c reached).commits = s.commits := by unfold State.reportRamp; split <;> simp
@[simp] theorem State.reportRamp_ports : (s.reportRamp c reached).ports = s.ports := by unfold State.reportRamp; split <;> simp
@[simp] theorem State.reportRamp_slots : (s.reportRamp c reached).slots = s.slots := by unfold State.reportRamp; split <;> simp
@[simp] theorem State.reportRamp_queue : (s.reportRamp c reached).queue = s.queue := by unfold State.reportRamp; split <;> simp
@[simp] theorem State.reportRamp_inFlight : (s.reportRamp c reached).inFlight = s.inFlight := by unfold State.reportRamp; split <;> simp
@[simp] theorem State.reportRamp_linkPhase : (s.reportRamp c reached).linkPhase = s.linkPhase := by unfold State.reportRamp; split <;> simp
@[simp] theorem State.reportRamp_pending : (s.reportRamp c reached).pending = s.pending := by unfold State.reportRamp; split <;> simp
@[simp] theorem State.reportRamp_chan (d : Channel) : (s.reportRamp c reached).chan d = s.chan d := by simp only [State.chan, State.reportRamp_channels]
@[simp] theorem State.reportRamp_lease (d : Channel) : (s.reportRamp c reached).lease d = s.lease d := by simp only [State.lease, State.reportRamp_leases]
@[simp] theorem State.reportRamp_holder (d : Channel) : (s.reportRamp c reached).holder d = s.holder d := by simp only [State.holder, State.lease, State.reportRamp_leases]
@[simp] theorem State.reportRamp_holds (q : Port) (d : Channel) : (s.reportRamp c reached).holds q d = s.holds q d := by simp only [State.holds, State.holder, State.lease, State.reportRamp_leases]
@[simp] theorem State.reportRamp_waits (q : Port) (d : Channel) : (s.reportRamp c reached).waits q d = s.waits q d := by simp only [State.waits, State.lease, State.reportRamp_leases]
@[simp] theorem State.reportRamp_lead (q : Port) : (s.reportRamp c reached).lead q = s.lead q := by simp only [State.lead, State.reportRamp_leads]
@[simp] theorem State.reportRamp_commit (q : Port) : (s.reportRamp c reached).commit q = s.commit q := by simp only [State.commit, State.reportRamp_commits]
@[simp] theorem State.reportRamp_port (q : Port) : (s.reportRamp c reached).port q = s.port q := by simp only [State.port, State.reportRamp_ports]
@[simp] theorem State.reportRamp_rank (q : Port) : (s.reportRamp c reached).rank q = s.rank q := by simp only [State.rank, State.port, State.reportRamp_ports]
@[simp] theorem State.reportRamp_slot (j : Slot) : (s.reportRamp c reached).slot j = s.slot j := by simp only [State.slot, State.reportRamp_slots]
@[simp] theorem State.reportRamp_waiting (d : Channel) : (s.reportRamp c reached).waiting d = s.waiting d := by simp only [State.waiting, State.reportRamp_queue]
end

section
variable (c : Channel)
@[simp] theorem State.rampChannel_inReset : (s.rampChannel c).inReset = s.inReset := by unfold State.rampChannel; dsimp only; (repeat' split) <;> simp
@[simp] theorem State.rampChannel_devicePhase : (s.rampChannel c).devicePhase = s.devicePhase := by unfold State.rampChannel; dsimp only; (repeat' split) <;> simp
@[simp] theorem State.rampChannel_timeCount : (s.rampChannel c).timeCount = s.timeCount := by unfold State.rampChannel; dsimp only; (repeat' split) <;> simp
@[simp] theorem State.rampChannel_faultAsserted : (s.rampChannel c).faultAsserted = s.faultAsserted := by unfold State.rampChannel; dsimp only; (repeat' split) <;> simp
@[simp] theorem State.rampChannel_syncArmed : (s.rampChannel c).syncArmed = s.syncArmed := by unfold State.rampChannel; dsimp only; (repeat' split) <;> simp
@[simp] theorem State.rampChannel_leases : (s.rampChannel c).leases = s.leases := by unfold State.rampChannel; dsimp only; (repeat' split) <;> simp
@[simp] theorem State.rampChannel_leads : (s.rampChannel c).leads = s.leads := by unfold State.rampChannel; dsimp only; (repeat' split) <;> simp
@[simp] theorem State.rampChannel_commits : (s.rampChannel c).commits = s.commits := by unfold State.rampChannel; dsimp only; (repeat' split) <;> simp
@[simp] theorem State.rampChannel_ports : (s.rampChannel c).ports = s.ports := by unfold State.rampChannel; dsimp only; (repeat' split) <;> simp
@[simp] theorem State.rampChannel_slots : (s.rampChannel c).slots = s.slots := by unfold State.rampChannel; dsimp only; (repeat' split) <;> simp
@[simp] theorem State.rampChannel_inFlight : (s.rampChannel c).inFlight = s.inFlight := by unfold State.rampChannel; dsimp only; (repeat' split) <;> simp
@[simp] theorem State.rampChannel_linkPhase : (s.rampChannel c).linkPhase = s.linkPhase := by unfold State.rampChannel; dsimp only; (repeat' split) <;> simp
@[simp] theorem State.rampChannel_pending : (s.rampChannel c).pending = s.pending := by unfold State.rampChannel; dsimp only; (repeat' split) <;> simp
@[simp] theorem State.rampChannel_lease (d : Channel) : (s.rampChannel c).lease d = s.lease d := by simp only [State.lease, State.rampChannel_leases]
@[simp] theorem State.rampChannel_holder (d : Channel) : (s.rampChannel c).holder d = s.holder d := by simp only [State.holder, State.lease, State.rampChannel_leases]
@[simp] theorem State.rampChannel_holds (q : Port) (d : Channel) : (s.rampChannel c).holds q d = s.holds q d := by simp only [State.holds, State.holder, State.lease, State.rampChannel_leases]
@[simp] theorem State.rampChannel_waits (q : Port) (d : Channel) : (s.rampChannel c).waits q d = s.waits q d := by simp only [State.waits, State.lease, State.rampChannel_leases]
@[simp] theorem State.rampChannel_lead (q : Port) : (s.rampChannel c).lead q = s.lead q := by simp only [State.lead, State.rampChannel_leads]
@[simp] theorem State.rampChannel_commit (q : Port) : (s.rampChannel c).commit q = s.commit q := by simp only [State.commit, State.rampChannel_commits]
@[simp] theorem State.rampChannel_port (q : Port) : (s.rampChannel c).port q = s.port q := by simp only [State.port, State.rampChannel_ports]
@[simp] theorem State.rampChannel_rank (q : Port) : (s.rampChannel c).rank q = s.rank q := by simp only [State.rank, State.port, State.rampChannel_ports]
@[simp] theorem State.rampChannel_slot (j : Slot) : (s.rampChannel c).slot j = s.slot j := by simp only [State.slot, State.rampChannel_slots]
end

section
@[simp] theorem State.rampTick_inReset : (s.rampTick).inReset = s.inReset := overAll_keeps State.inReset (fun _ _ => by simp) s
@[simp] theorem State.rampTick_devicePhase : (s.rampTick).devicePhase = s.devicePhase := overAll_keeps State.devicePhase (fun _ _ => by simp) s
@[simp] theorem State.rampTick_timeCount : (s.rampTick).timeCount = s.timeCount := overAll_keeps State.timeCount (fun _ _ => by simp) s
@[simp] theorem State.rampTick_faultAsserted : (s.rampTick).faultAsserted = s.faultAsserted := overAll_keeps State.faultAsserted (fun _ _ => by simp) s
@[simp] theorem State.rampTick_syncArmed : (s.rampTick).syncArmed = s.syncArmed := overAll_keeps State.syncArmed (fun _ _ => by simp) s
@[simp] theorem State.rampTick_leases : (s.rampTick).leases = s.leases := overAll_keeps State.leases (fun _ _ => by simp) s
@[simp] theorem State.rampTick_leads : (s.rampTick).leads = s.leads := overAll_keeps State.leads (fun _ _ => by simp) s
@[simp] theorem State.rampTick_commits : (s.rampTick).commits = s.commits := overAll_keeps State.commits (fun _ _ => by simp) s
@[simp] theorem State.rampTick_ports : (s.rampTick).ports = s.ports := overAll_keeps State.ports (fun _ _ => by simp) s
@[simp] theorem State.rampTick_slots : (s.rampTick).slots = s.slots := overAll_keeps State.slots (fun _ _ => by simp) s
@[simp] theorem State.rampTick_inFlight : (s.rampTick).inFlight = s.inFlight := overAll_keeps State.inFlight (fun _ _ => by simp) s
@[simp] theorem State.rampTick_linkPhase : (s.rampTick).linkPhase = s.linkPhase := overAll_keeps State.linkPhase (fun _ _ => by simp) s
@[simp] theorem State.rampTick_pending : (s.rampTick).pending = s.pending := overAll_keeps State.pending (fun _ _ => by simp) s
@[simp] theorem State.rampTick_lease (d : Channel) : (s.rampTick).lease d = s.lease d := by simp only [State.lease, State.rampTick_leases]
@[simp] theorem State.rampTick_holder (d : Channel) : (s.rampTick).holder d = s.holder d := by simp only [State.holder, State.lease, State.rampTick_leases]
@[simp] theorem State.rampTick_holds (q : Port) (d : Channel) : (s.rampTick).holds q d = s.holds q d := by simp only [State.holds, State.holder, State.lease, State.rampTick_leases]
@[simp] theorem State.rampTick_waits (q : Port) (d : Channel) : (s.rampTick).waits q d = s.waits q d := by simp only [State.waits, State.lease, State.rampTick_leases]
@[simp] theorem State.rampTick_lead (q : Port) : (s.rampTick).lead q = s.lead q := by simp only [State.lead, State.rampTick_leads]
@[simp] theorem State.rampTick_commit (q : Port) : (s.rampTick).commit q = s.commit q := by simp only [State.commit, State.rampTick_commits]
@[simp] theorem State.rampTick_port (q : Port) : (s.rampTick).port q = s.port q := by simp only [State.port, State.rampTick_ports]
@[simp] theorem State.rampTick_rank (q : Port) : (s.rampTick).rank q = s.rank q := by simp only [State.rank, State.port, State.rampTick_ports]
@[simp] theorem State.rampTick_slot (j : Slot) : (s.rampTick).slot j = s.slot j := by simp only [State.slot, State.rampTick_slots]
end

section
@[simp] theorem State.endStartup_inReset : (s.endStartup).inReset = s.inReset := by unfold State.endStartup; split <;> simp
@[simp] theorem State.endStartup_timeCount : (s.endStartup).timeCount = s.timeCount := by unfold State.endStartup; split <;> simp
@[simp] theorem State.endStartup_faultAsserted : (s.endStartup).faultAsserted = s.faultAsserted := by unfold State.endStartup; split <;> simp
@[simp] theorem State.endStartup_syncArmed : (s.endStartup).syncArmed = s.syncArmed := by unfold State.endStartup; split <;> simp
@[simp] theorem State.endStartup_channels : (s.endStartup).channels = s.channels := by unfold State.endStartup; split <;> simp
@[simp] theorem State.endStartup_leases : (s.endStartup).leases = s.leases := by unfold State.endStartup; split <;> simp
@[simp] theorem State.endStartup_leads : (s.endStartup).leads = s.leads := by unfold State.endStartup; split <;> simp
@[simp] theorem State.endStartup_commits : (s.endStartup).commits = s.commits := by unfold State.endStartup; split <;> simp
@[simp] theorem State.endStartup_ports : (s.endStartup).ports = s.ports := by unfold State.endStartup; split <;> simp
@[simp] theorem State.endStartup_slots : (s.endStartup).slots = s.slots := by unfold State.endStartup; split <;> simp
@[simp] theorem State.endStartup_queue : (s.endStartup).queue = s.queue := by unfold State.endStartup; split <;> simp
@[simp] theorem State.endStartup_inFlight : (s.endStartup).inFlight = s.inFlight := by unfold State.endStartup; split <;> simp
@[simp] theorem State.endStartup_linkPhase : (s.endStartup).linkPhase = s.linkPhase := by unfold State.endStartup; split <;> simp
@[simp] theorem State.endStartup_pending : (s.endStartup).pending = s.pending := by unfold State.endStartup; split <;> simp
@[simp] theorem State.endStartup_chan (d : Channel) : (s.endStartup).chan d = s.chan d := by simp only [State.chan, State.endStartup_channels]
@[simp] theorem State.endStartup_lease (d : Channel) : (s.endStartup).lease d = s.lease d := by simp only [State.lease, State.endStartup_leases]
@[simp] theorem State.endStartup_holder (d : Channel) : (s.endStartup).holder d = s.holder d := by simp only [State.holder, State.lease, State.endStartup_leases]
@[simp] theorem State.endStartup_holds (q : Port) (d : Channel) : (s.endStartup).holds q d = s.holds q d := by simp only [State.holds, State.holder, State.lease, State.endStartup_leases]
@[simp] theorem State.endStartup_waits (q : Port) (d : Channel) : (s.endStartup).waits q d = s.waits q d := by simp only [State.waits, State.lease, State.endStartup_leases]
@[simp] theorem State.endStartup_lead (q : Port) : (s.endStartup).lead q = s.lead q := by simp only [State.lead, State.endStartup_leads]
@[simp] theorem State.endStartup_commit (q : Port) : (s.endStartup).commit q = s.commit q := by simp only [State.commit, State.endStartup_commits]
@[simp] theorem State.endStartup_port (q : Port) : (s.endStartup).port q = s.port q := by simp only [State.port, State.endStartup_ports]
@[simp] theorem State.endStartup_rank (q : Port) : (s.endStartup).rank q = s.rank q := by simp only [State.rank, State.port, State.endStartup_ports]
@[simp] theorem State.endStartup_slot (j : Slot) : (s.endStartup).slot j = s.slot j := by simp only [State.slot, State.endStartup_slots]
@[simp] theorem State.endStartup_waiting (d : Channel) : (s.endStartup).waiting d = s.waiting d := by simp only [State.waiting, State.endStartup_queue]
end

section
variable (k : Slot) (mark revision : Byte)
@[simp] theorem State.decideSlot_inReset : (s.decideSlot k mark revision).inReset = s.inReset := by unfold State.decideSlot; split <;> first | rfl | exact overAll_keeps State.inReset (fun _ _ => by split <;> simp) _
@[simp] theorem State.decideSlot_devicePhase : (s.decideSlot k mark revision).devicePhase = s.devicePhase := by unfold State.decideSlot; split <;> first | rfl | exact overAll_keeps State.devicePhase (fun _ _ => by split <;> simp) _
@[simp] theorem State.decideSlot_timeCount : (s.decideSlot k mark revision).timeCount = s.timeCount := by unfold State.decideSlot; split <;> first | rfl | exact overAll_keeps State.timeCount (fun _ _ => by split <;> simp) _
@[simp] theorem State.decideSlot_faultAsserted : (s.decideSlot k mark revision).faultAsserted = s.faultAsserted := by unfold State.decideSlot; split <;> first | rfl | exact overAll_keeps State.faultAsserted (fun _ _ => by split <;> simp) _
@[simp] theorem State.decideSlot_syncArmed : (s.decideSlot k mark revision).syncArmed = s.syncArmed := by unfold State.decideSlot; split <;> first | rfl | exact overAll_keeps State.syncArmed (fun _ _ => by split <;> simp) _
@[simp] theorem State.decideSlot_leases : (s.decideSlot k mark revision).leases = s.leases := by unfold State.decideSlot; split <;> first | rfl | exact overAll_keeps State.leases (fun _ _ => by split <;> simp) _
@[simp] theorem State.decideSlot_leads : (s.decideSlot k mark revision).leads = s.leads := by unfold State.decideSlot; split <;> first | rfl | exact overAll_keeps State.leads (fun _ _ => by split <;> simp) _
@[simp] theorem State.decideSlot_commits : (s.decideSlot k mark revision).commits = s.commits := by unfold State.decideSlot; split <;> first | rfl | exact overAll_keeps State.commits (fun _ _ => by split <;> simp) _
@[simp] theorem State.decideSlot_ports : (s.decideSlot k mark revision).ports = s.ports := by unfold State.decideSlot; split <;> first | rfl | exact overAll_keeps State.ports (fun _ _ => by split <;> simp) _
@[simp] theorem State.decideSlot_queue : (s.decideSlot k mark revision).queue = s.queue := by unfold State.decideSlot; split <;> first | rfl | exact overAll_keeps State.queue (fun _ _ => by split <;> simp) _
@[simp] theorem State.decideSlot_inFlight : (s.decideSlot k mark revision).inFlight = s.inFlight := by unfold State.decideSlot; split <;> first | rfl | exact overAll_keeps State.inFlight (fun _ _ => by split <;> simp) _
@[simp] theorem State.decideSlot_linkPhase : (s.decideSlot k mark revision).linkPhase = s.linkPhase := by unfold State.decideSlot; split <;> first | rfl | exact overAll_keeps State.linkPhase (fun _ _ => by split <;> simp) _
@[simp] theorem State.decideSlot_events : (s.decideSlot k mark revision).events = s.events := by unfold State.decideSlot; split <;> first | rfl | exact overAll_keeps State.events (fun _ _ => by split <;> simp) _
@[simp] theorem State.decideSlot_pending : (s.decideSlot k mark revision).pending = s.pending := by unfold State.decideSlot; split <;> first | rfl | exact overAll_keeps State.pending (fun _ _ => by split <;> simp) _
@[simp] theorem State.decideSlot_lease (d : Channel) : (s.decideSlot k mark revision).lease d = s.lease d := by simp only [State.lease, State.decideSlot_leases]
@[simp] theorem State.decideSlot_holder (d : Channel) : (s.decideSlot k mark revision).holder d = s.holder d := by simp only [State.holder, State.lease, State.decideSlot_leases]
@[simp] theorem State.decideSlot_holds (q : Port) (d : Channel) : (s.decideSlot k mark revision).holds q d = s.holds q d := by simp only [State.holds, State.holder, State.lease, State.decideSlot_leases]
@[simp] theorem State.decideSlot_waits (q : Port) (d : Channel) : (s.decideSlot k mark revision).waits q d = s.waits q d := by simp only [State.waits, State.lease, State.decideSlot_leases]
@[simp] theorem State.decideSlot_lead (q : Port) : (s.decideSlot k mark revision).lead q = s.lead q := by simp only [State.lead, State.decideSlot_leads]
@[simp] theorem State.decideSlot_commit (q : Port) : (s.decideSlot k mark revision).commit q = s.commit q := by simp only [State.commit, State.decideSlot_commits]
@[simp] theorem State.decideSlot_port (q : Port) : (s.decideSlot k mark revision).port q = s.port q := by simp only [State.port, State.decideSlot_ports]
@[simp] theorem State.decideSlot_rank (q : Port) : (s.decideSlot k mark revision).rank q = s.rank q := by simp only [State.rank, State.port, State.decideSlot_ports]
@[simp] theorem State.decideSlot_event (q : Port) : (s.decideSlot k mark revision).event q = s.event q := by simp only [State.event, State.decideSlot_events]
@[simp] theorem State.decideSlot_waiting (d : Channel) : (s.decideSlot k mark revision).waiting d = s.waiting d := by simp only [State.waiting, State.decideSlot_queue]
end

section
@[simp] theorem State.placeStarts_inReset : (s.placeStarts).inReset = s.inReset := overAll_keeps State.inReset (fun _ _ => by split <;> simp) s
@[simp] theorem State.placeStarts_devicePhase : (s.placeStarts).devicePhase = s.devicePhase := overAll_keeps State.devicePhase (fun _ _ => by split <;> simp) s
@[simp] theorem State.placeStarts_timeCount : (s.placeStarts).timeCount = s.timeCount := overAll_keeps State.timeCount (fun _ _ => by split <;> simp) s
@[simp] theorem State.placeStarts_faultAsserted : (s.placeStarts).faultAsserted = s.faultAsserted := overAll_keeps State.faultAsserted (fun _ _ => by split <;> simp) s
@[simp] theorem State.placeStarts_syncArmed : (s.placeStarts).syncArmed = s.syncArmed := overAll_keeps State.syncArmed (fun _ _ => by split <;> simp) s
@[simp] theorem State.placeStarts_channels : (s.placeStarts).channels = s.channels := overAll_keeps State.channels (fun _ _ => by split <;> simp) s
@[simp] theorem State.placeStarts_leases : (s.placeStarts).leases = s.leases := overAll_keeps State.leases (fun _ _ => by split <;> simp) s
@[simp] theorem State.placeStarts_leads : (s.placeStarts).leads = s.leads := overAll_keeps State.leads (fun _ _ => by split <;> simp) s
@[simp] theorem State.placeStarts_commits : (s.placeStarts).commits = s.commits := overAll_keeps State.commits (fun _ _ => by split <;> simp) s
@[simp] theorem State.placeStarts_ports : (s.placeStarts).ports = s.ports := overAll_keeps State.ports (fun _ _ => by split <;> simp) s
@[simp] theorem State.placeStarts_slots : (s.placeStarts).slots = s.slots := overAll_keeps State.slots (fun _ _ => by split <;> simp) s
@[simp] theorem State.placeStarts_inFlight : (s.placeStarts).inFlight = s.inFlight := overAll_keeps State.inFlight (fun _ _ => by split <;> simp) s
@[simp] theorem State.placeStarts_linkPhase : (s.placeStarts).linkPhase = s.linkPhase := overAll_keeps State.linkPhase (fun _ _ => by split <;> simp) s
@[simp] theorem State.placeStarts_events : (s.placeStarts).events = s.events := overAll_keeps State.events (fun _ _ => by split <;> simp) s
@[simp] theorem State.placeStarts_pending : (s.placeStarts).pending = s.pending := overAll_keeps State.pending (fun _ _ => by split <;> simp) s
@[simp] theorem State.placeStarts_chan (d : Channel) : (s.placeStarts).chan d = s.chan d := by simp only [State.chan, State.placeStarts_channels]
@[simp] theorem State.placeStarts_lease (d : Channel) : (s.placeStarts).lease d = s.lease d := by simp only [State.lease, State.placeStarts_leases]
@[simp] theorem State.placeStarts_holder (d : Channel) : (s.placeStarts).holder d = s.holder d := by simp only [State.holder, State.lease, State.placeStarts_leases]
@[simp] theorem State.placeStarts_holds (q : Port) (d : Channel) : (s.placeStarts).holds q d = s.holds q d := by simp only [State.holds, State.holder, State.lease, State.placeStarts_leases]
@[simp] theorem State.placeStarts_waits (q : Port) (d : Channel) : (s.placeStarts).waits q d = s.waits q d := by simp only [State.waits, State.lease, State.placeStarts_leases]
@[simp] theorem State.placeStarts_lead (q : Port) : (s.placeStarts).lead q = s.lead q := by simp only [State.lead, State.placeStarts_leads]
@[simp] theorem State.placeStarts_commit (q : Port) : (s.placeStarts).commit q = s.commit q := by simp only [State.commit, State.placeStarts_commits]
@[simp] theorem State.placeStarts_port (q : Port) : (s.placeStarts).port q = s.port q := by simp only [State.port, State.placeStarts_ports]
@[simp] theorem State.placeStarts_rank (q : Port) : (s.placeStarts).rank q = s.rank q := by simp only [State.rank, State.port, State.placeStarts_ports]
@[simp] theorem State.placeStarts_slot (j : Slot) : (s.placeStarts).slot j = s.slot j := by simp only [State.slot, State.placeStarts_slots]
@[simp] theorem State.placeStarts_event (q : Port) : (s.placeStarts).event q = s.event q := by simp only [State.event, State.placeStarts_events]
end

section
@[simp] theorem State.endProbe_inReset : (s.endProbe).inReset = s.inReset := by unfold State.endProbe; split <;> simp
@[simp] theorem State.endProbe_timeCount : (s.endProbe).timeCount = s.timeCount := by unfold State.endProbe; split <;> simp
@[simp] theorem State.endProbe_faultAsserted : (s.endProbe).faultAsserted = s.faultAsserted := by unfold State.endProbe; split <;> simp
@[simp] theorem State.endProbe_syncArmed : (s.endProbe).syncArmed = s.syncArmed := by unfold State.endProbe; split <;> simp
@[simp] theorem State.endProbe_channels : (s.endProbe).channels = s.channels := by unfold State.endProbe; split <;> simp
@[simp] theorem State.endProbe_leases : (s.endProbe).leases = s.leases := by unfold State.endProbe; split <;> simp
@[simp] theorem State.endProbe_leads : (s.endProbe).leads = s.leads := by unfold State.endProbe; split <;> simp
@[simp] theorem State.endProbe_commits : (s.endProbe).commits = s.commits := by unfold State.endProbe; split <;> simp
@[simp] theorem State.endProbe_ports : (s.endProbe).ports = s.ports := by unfold State.endProbe; split <;> simp
@[simp] theorem State.endProbe_slots : (s.endProbe).slots = s.slots := by unfold State.endProbe; split <;> simp
@[simp] theorem State.endProbe_inFlight : (s.endProbe).inFlight = s.inFlight := by unfold State.endProbe; split <;> simp
@[simp] theorem State.endProbe_pending : (s.endProbe).pending = s.pending := by unfold State.endProbe; split <;> simp
@[simp] theorem State.endProbe_chan (d : Channel) : (s.endProbe).chan d = s.chan d := by simp only [State.chan, State.endProbe_channels]
@[simp] theorem State.endProbe_lease (d : Channel) : (s.endProbe).lease d = s.lease d := by simp only [State.lease, State.endProbe_leases]
@[simp] theorem State.endProbe_holder (d : Channel) : (s.endProbe).holder d = s.holder d := by simp only [State.holder, State.lease, State.endProbe_leases]
@[simp] theorem State.endProbe_holds (q : Port) (d : Channel) : (s.endProbe).holds q d = s.holds q d := by simp only [State.holds, State.holder, State.lease, State.endProbe_leases]
@[simp] theorem State.endProbe_waits (q : Port) (d : Channel) : (s.endProbe).waits q d = s.waits q d := by simp only [State.waits, State.lease, State.endProbe_leases]
@[simp] theorem State.endProbe_lead (q : Port) : (s.endProbe).lead q = s.lead q := by simp only [State.lead, State.endProbe_leads]
@[simp] theorem State.endProbe_commit (q : Port) : (s.endProbe).commit q = s.commit q := by simp only [State.commit, State.endProbe_commits]
@[simp] theorem State.endProbe_port (q : Port) : (s.endProbe).port q = s.port q := by simp only [State.port, State.endProbe_ports]
@[simp] theorem State.endProbe_rank (q : Port) : (s.endProbe).rank q = s.rank q := by simp only [State.rank, State.port, State.endProbe_ports]
@[simp] theorem State.endProbe_slot (j : Slot) : (s.endProbe).slot j = s.slot j := by simp only [State.slot, State.endProbe_slots]
end

section
variable (e : UpdateEntry)
@[simp] theorem State.verifyMatch_inReset : (s.verifyMatch e).inReset = s.inReset := rfl
@[simp] theorem State.verifyMatch_devicePhase : (s.verifyMatch e).devicePhase = s.devicePhase := rfl
@[simp] theorem State.verifyMatch_timeCount : (s.verifyMatch e).timeCount = s.timeCount := rfl
@[simp] theorem State.verifyMatch_faultAsserted : (s.verifyMatch e).faultAsserted = s.faultAsserted := rfl
@[simp] theorem State.verifyMatch_syncArmed : (s.verifyMatch e).syncArmed = s.syncArmed := rfl
@[simp] theorem State.verifyMatch_leases : (s.verifyMatch e).leases = s.leases := rfl
@[simp] theorem State.verifyMatch_leads : (s.verifyMatch e).leads = s.leads := rfl
@[simp] theorem State.verifyMatch_commits : (s.verifyMatch e).commits = s.commits := rfl
@[simp] theorem State.verifyMatch_ports : (s.verifyMatch e).ports = s.ports := rfl
@[simp] theorem State.verifyMatch_slots : (s.verifyMatch e).slots = s.slots := rfl
@[simp] theorem State.verifyMatch_queue : (s.verifyMatch e).queue = s.queue := rfl
@[simp] theorem State.verifyMatch_inFlight : (s.verifyMatch e).inFlight = s.inFlight := rfl
@[simp] theorem State.verifyMatch_linkPhase : (s.verifyMatch e).linkPhase = s.linkPhase := rfl
@[simp] theorem State.verifyMatch_events : (s.verifyMatch e).events = s.events := rfl
@[simp] theorem State.verifyMatch_pending : (s.verifyMatch e).pending = s.pending := rfl
@[simp] theorem State.verifyMatch_lease (d : Channel) : (s.verifyMatch e).lease d = s.lease d := by simp only [State.lease, State.verifyMatch_leases]
@[simp] theorem State.verifyMatch_holder (d : Channel) : (s.verifyMatch e).holder d = s.holder d := by simp only [State.holder, State.lease, State.verifyMatch_leases]
@[simp] theorem State.verifyMatch_holds (q : Port) (d : Channel) : (s.verifyMatch e).holds q d = s.holds q d := by simp only [State.holds, State.holder, State.lease, State.verifyMatch_leases]
@[simp] theorem State.verifyMatch_waits (q : Port) (d : Channel) : (s.verifyMatch e).waits q d = s.waits q d := by simp only [State.waits, State.lease, State.verifyMatch_leases]
@[simp] theorem State.verifyMatch_lead (q : Port) : (s.verifyMatch e).lead q = s.lead q := by simp only [State.lead, State.verifyMatch_leads]
@[simp] theorem State.verifyMatch_commit (q : Port) : (s.verifyMatch e).commit q = s.commit q := by simp only [State.commit, State.verifyMatch_commits]
@[simp] theorem State.verifyMatch_port (q : Port) : (s.verifyMatch e).port q = s.port q := by simp only [State.port, State.verifyMatch_ports]
@[simp] theorem State.verifyMatch_rank (q : Port) : (s.verifyMatch e).rank q = s.rank q := by simp only [State.rank, State.port, State.verifyMatch_ports]
@[simp] theorem State.verifyMatch_slot (j : Slot) : (s.verifyMatch e).slot j = s.slot j := by simp only [State.slot, State.verifyMatch_slots]
@[simp] theorem State.verifyMatch_event (q : Port) : (s.verifyMatch e).event q = s.event q := by simp only [State.event, State.verifyMatch_events]
@[simp] theorem State.verifyMatch_waiting (d : Channel) : (s.verifyMatch e).waiting d = s.waiting d := by simp only [State.waiting, State.verifyMatch_queue]
end

section
variable (e : UpdateEntry)
@[simp] theorem State.verifyRetry_inReset : (s.verifyRetry e).inReset = s.inReset := by unfold State.verifyRetry; dsimp only; split <;> simp
@[simp] theorem State.verifyRetry_devicePhase : (s.verifyRetry e).devicePhase = s.devicePhase := by unfold State.verifyRetry; dsimp only; split <;> simp
@[simp] theorem State.verifyRetry_timeCount : (s.verifyRetry e).timeCount = s.timeCount := by unfold State.verifyRetry; dsimp only; split <;> simp
@[simp] theorem State.verifyRetry_faultAsserted : (s.verifyRetry e).faultAsserted = s.faultAsserted := by unfold State.verifyRetry; dsimp only; split <;> simp
@[simp] theorem State.verifyRetry_syncArmed : (s.verifyRetry e).syncArmed = s.syncArmed := by unfold State.verifyRetry; dsimp only; split <;> simp
@[simp] theorem State.verifyRetry_leases : (s.verifyRetry e).leases = s.leases := by unfold State.verifyRetry; dsimp only; split <;> simp
@[simp] theorem State.verifyRetry_leads : (s.verifyRetry e).leads = s.leads := by unfold State.verifyRetry; dsimp only; split <;> simp
@[simp] theorem State.verifyRetry_commits : (s.verifyRetry e).commits = s.commits := by unfold State.verifyRetry; dsimp only; split <;> simp
@[simp] theorem State.verifyRetry_ports : (s.verifyRetry e).ports = s.ports := by unfold State.verifyRetry; dsimp only; split <;> simp
@[simp] theorem State.verifyRetry_slots : (s.verifyRetry e).slots = s.slots := by unfold State.verifyRetry; dsimp only; split <;> simp
@[simp] theorem State.verifyRetry_inFlight : (s.verifyRetry e).inFlight = s.inFlight := by unfold State.verifyRetry; dsimp only; split <;> simp
@[simp] theorem State.verifyRetry_linkPhase : (s.verifyRetry e).linkPhase = s.linkPhase := by unfold State.verifyRetry; dsimp only; split <;> simp
@[simp] theorem State.verifyRetry_events : (s.verifyRetry e).events = s.events := by unfold State.verifyRetry; dsimp only; split <;> simp
@[simp] theorem State.verifyRetry_pending : (s.verifyRetry e).pending = s.pending := by unfold State.verifyRetry; dsimp only; split <;> simp
@[simp] theorem State.verifyRetry_lease (d : Channel) : (s.verifyRetry e).lease d = s.lease d := by simp only [State.lease, State.verifyRetry_leases]
@[simp] theorem State.verifyRetry_holder (d : Channel) : (s.verifyRetry e).holder d = s.holder d := by simp only [State.holder, State.lease, State.verifyRetry_leases]
@[simp] theorem State.verifyRetry_holds (q : Port) (d : Channel) : (s.verifyRetry e).holds q d = s.holds q d := by simp only [State.holds, State.holder, State.lease, State.verifyRetry_leases]
@[simp] theorem State.verifyRetry_waits (q : Port) (d : Channel) : (s.verifyRetry e).waits q d = s.waits q d := by simp only [State.waits, State.lease, State.verifyRetry_leases]
@[simp] theorem State.verifyRetry_lead (q : Port) : (s.verifyRetry e).lead q = s.lead q := by simp only [State.lead, State.verifyRetry_leads]
@[simp] theorem State.verifyRetry_commit (q : Port) : (s.verifyRetry e).commit q = s.commit q := by simp only [State.commit, State.verifyRetry_commits]
@[simp] theorem State.verifyRetry_port (q : Port) : (s.verifyRetry e).port q = s.port q := by simp only [State.port, State.verifyRetry_ports]
@[simp] theorem State.verifyRetry_rank (q : Port) : (s.verifyRetry e).rank q = s.rank q := by simp only [State.rank, State.port, State.verifyRetry_ports]
@[simp] theorem State.verifyRetry_slot (j : Slot) : (s.verifyRetry e).slot j = s.slot j := by simp only [State.slot, State.verifyRetry_slots]
@[simp] theorem State.verifyRetry_event (q : Port) : (s.verifyRetry e).event q = s.event q := by simp only [State.event, State.verifyRetry_events]
end

section
variable (c : Channel)
@[simp] theorem State.unplace_inReset : (s.unplace c).inReset = s.inReset := rfl
@[simp] theorem State.unplace_devicePhase : (s.unplace c).devicePhase = s.devicePhase := rfl
@[simp] theorem State.unplace_timeCount : (s.unplace c).timeCount = s.timeCount := rfl
@[simp] theorem State.unplace_faultAsserted : (s.unplace c).faultAsserted = s.faultAsserted := rfl
@[simp] theorem State.unplace_syncArmed : (s.unplace c).syncArmed = s.syncArmed := rfl
@[simp] theorem State.unplace_channels : (s.unplace c).channels = s.channels := rfl
@[simp] theorem State.unplace_leases : (s.unplace c).leases = s.leases := rfl
@[simp] theorem State.unplace_leads : (s.unplace c).leads = s.leads := rfl
@[simp] theorem State.unplace_commits : (s.unplace c).commits = s.commits := rfl
@[simp] theorem State.unplace_ports : (s.unplace c).ports = s.ports := rfl
@[simp] theorem State.unplace_slots : (s.unplace c).slots = s.slots := rfl
@[simp] theorem State.unplace_inFlight : (s.unplace c).inFlight = s.inFlight := rfl
@[simp] theorem State.unplace_linkPhase : (s.unplace c).linkPhase = s.linkPhase := rfl
@[simp] theorem State.unplace_events : (s.unplace c).events = s.events := rfl
@[simp] theorem State.unplace_pending : (s.unplace c).pending = s.pending := rfl
@[simp] theorem State.unplace_chan (d : Channel) : (s.unplace c).chan d = s.chan d := by simp only [State.chan, State.unplace_channels]
@[simp] theorem State.unplace_lease (d : Channel) : (s.unplace c).lease d = s.lease d := by simp only [State.lease, State.unplace_leases]
@[simp] theorem State.unplace_holder (d : Channel) : (s.unplace c).holder d = s.holder d := by simp only [State.holder, State.lease, State.unplace_leases]
@[simp] theorem State.unplace_holds (q : Port) (d : Channel) : (s.unplace c).holds q d = s.holds q d := by simp only [State.holds, State.holder, State.lease, State.unplace_leases]
@[simp] theorem State.unplace_waits (q : Port) (d : Channel) : (s.unplace c).waits q d = s.waits q d := by simp only [State.waits, State.lease, State.unplace_leases]
@[simp] theorem State.unplace_lead (q : Port) : (s.unplace c).lead q = s.lead q := by simp only [State.lead, State.unplace_leads]
@[simp] theorem State.unplace_commit (q : Port) : (s.unplace c).commit q = s.commit q := by simp only [State.commit, State.unplace_commits]
@[simp] theorem State.unplace_port (q : Port) : (s.unplace c).port q = s.port q := by simp only [State.port, State.unplace_ports]
@[simp] theorem State.unplace_rank (q : Port) : (s.unplace c).rank q = s.rank q := by simp only [State.rank, State.port, State.unplace_ports]
@[simp] theorem State.unplace_slot (j : Slot) : (s.unplace c).slot j = s.slot j := by simp only [State.slot, State.unplace_slots]
@[simp] theorem State.unplace_event (q : Port) : (s.unplace c).event q = s.event q := by simp only [State.event, State.unplace_events]
end

section
variable (e : UpdateEntry) (read : Code)
@[simp] theorem State.verifyFault_inReset : (s.verifyFault e read).inReset = s.inReset := by unfold State.verifyFault; simp
@[simp] theorem State.verifyFault_devicePhase : (s.verifyFault e read).devicePhase = s.devicePhase := by unfold State.verifyFault; simp
@[simp] theorem State.verifyFault_timeCount : (s.verifyFault e read).timeCount = s.timeCount := by unfold State.verifyFault; simp
@[simp] theorem State.verifyFault_faultAsserted : (s.verifyFault e read).faultAsserted = s.faultAsserted := by unfold State.verifyFault; simp
@[simp] theorem State.verifyFault_syncArmed : (s.verifyFault e read).syncArmed = s.syncArmed := by unfold State.verifyFault; simp
@[simp] theorem State.verifyFault_leases : (s.verifyFault e read).leases = s.leases := by unfold State.verifyFault; simp
@[simp] theorem State.verifyFault_leads : (s.verifyFault e read).leads = s.leads := by unfold State.verifyFault; simp
@[simp] theorem State.verifyFault_commits : (s.verifyFault e read).commits = s.commits := by unfold State.verifyFault; simp
@[simp] theorem State.verifyFault_ports : (s.verifyFault e read).ports = s.ports := by unfold State.verifyFault; simp
@[simp] theorem State.verifyFault_slots : (s.verifyFault e read).slots = s.slots := by unfold State.verifyFault; simp
@[simp] theorem State.verifyFault_inFlight : (s.verifyFault e read).inFlight = s.inFlight := by unfold State.verifyFault; simp
@[simp] theorem State.verifyFault_linkPhase : (s.verifyFault e read).linkPhase = s.linkPhase := by unfold State.verifyFault; simp
@[simp] theorem State.verifyFault_pending : (s.verifyFault e read).pending = s.pending := by unfold State.verifyFault; simp
@[simp] theorem State.verifyFault_lease (d : Channel) : (s.verifyFault e read).lease d = s.lease d := by simp only [State.lease, State.verifyFault_leases]
@[simp] theorem State.verifyFault_holder (d : Channel) : (s.verifyFault e read).holder d = s.holder d := by simp only [State.holder, State.lease, State.verifyFault_leases]
@[simp] theorem State.verifyFault_holds (q : Port) (d : Channel) : (s.verifyFault e read).holds q d = s.holds q d := by simp only [State.holds, State.holder, State.lease, State.verifyFault_leases]
@[simp] theorem State.verifyFault_waits (q : Port) (d : Channel) : (s.verifyFault e read).waits q d = s.waits q d := by simp only [State.waits, State.lease, State.verifyFault_leases]
@[simp] theorem State.verifyFault_lead (q : Port) : (s.verifyFault e read).lead q = s.lead q := by simp only [State.lead, State.verifyFault_leads]
@[simp] theorem State.verifyFault_commit (q : Port) : (s.verifyFault e read).commit q = s.commit q := by simp only [State.commit, State.verifyFault_commits]
@[simp] theorem State.verifyFault_port (q : Port) : (s.verifyFault e read).port q = s.port q := by simp only [State.port, State.verifyFault_ports]
@[simp] theorem State.verifyFault_rank (q : Port) : (s.verifyFault e read).rank q = s.rank q := by simp only [State.rank, State.port, State.verifyFault_ports]
@[simp] theorem State.verifyFault_slot (j : Slot) : (s.verifyFault e read).slot j = s.slot j := by simp only [State.slot, State.verifyFault_slots]
end

section
variable (e : UpdateEntry) (read : Code)
@[simp] theorem State.verify_inReset : (s.verify e read).inReset = s.inReset := by unfold State.verify; (repeat' split) <;> simp
@[simp] theorem State.verify_devicePhase : (s.verify e read).devicePhase = s.devicePhase := by unfold State.verify; (repeat' split) <;> simp
@[simp] theorem State.verify_timeCount : (s.verify e read).timeCount = s.timeCount := by unfold State.verify; (repeat' split) <;> simp
@[simp] theorem State.verify_faultAsserted : (s.verify e read).faultAsserted = s.faultAsserted := by unfold State.verify; (repeat' split) <;> simp
@[simp] theorem State.verify_syncArmed : (s.verify e read).syncArmed = s.syncArmed := by unfold State.verify; (repeat' split) <;> simp
@[simp] theorem State.verify_leases : (s.verify e read).leases = s.leases := by unfold State.verify; (repeat' split) <;> simp
@[simp] theorem State.verify_leads : (s.verify e read).leads = s.leads := by unfold State.verify; (repeat' split) <;> simp
@[simp] theorem State.verify_commits : (s.verify e read).commits = s.commits := by unfold State.verify; (repeat' split) <;> simp
@[simp] theorem State.verify_ports : (s.verify e read).ports = s.ports := by unfold State.verify; (repeat' split) <;> simp
@[simp] theorem State.verify_slots : (s.verify e read).slots = s.slots := by unfold State.verify; (repeat' split) <;> simp
@[simp] theorem State.verify_inFlight : (s.verify e read).inFlight = s.inFlight := by unfold State.verify; (repeat' split) <;> simp
@[simp] theorem State.verify_linkPhase : (s.verify e read).linkPhase = s.linkPhase := by unfold State.verify; (repeat' split) <;> simp
@[simp] theorem State.verify_pending : (s.verify e read).pending = s.pending := by unfold State.verify; (repeat' split) <;> simp
@[simp] theorem State.verify_lease (d : Channel) : (s.verify e read).lease d = s.lease d := by simp only [State.lease, State.verify_leases]
@[simp] theorem State.verify_holder (d : Channel) : (s.verify e read).holder d = s.holder d := by simp only [State.holder, State.lease, State.verify_leases]
@[simp] theorem State.verify_holds (q : Port) (d : Channel) : (s.verify e read).holds q d = s.holds q d := by simp only [State.holds, State.holder, State.lease, State.verify_leases]
@[simp] theorem State.verify_waits (q : Port) (d : Channel) : (s.verify e read).waits q d = s.waits q d := by simp only [State.waits, State.lease, State.verify_leases]
@[simp] theorem State.verify_lead (q : Port) : (s.verify e read).lead q = s.lead q := by simp only [State.lead, State.verify_leads]
@[simp] theorem State.verify_commit (q : Port) : (s.verify e read).commit q = s.commit q := by simp only [State.commit, State.verify_commits]
@[simp] theorem State.verify_port (q : Port) : (s.verify e read).port q = s.port q := by simp only [State.port, State.verify_ports]
@[simp] theorem State.verify_rank (q : Port) : (s.verify e read).rank q = s.rank q := by simp only [State.rank, State.port, State.verify_ports]
@[simp] theorem State.verify_slot (j : Slot) : (s.verify e read).slot j = s.slot j := by simp only [State.slot, State.verify_slots]
end

section
variable (p : Port)
@[simp] theorem State.dropArmed_inReset : (s.dropArmed p).inReset = s.inReset := by unfold State.dropArmed; split <;> simp
@[simp] theorem State.dropArmed_devicePhase : (s.dropArmed p).devicePhase = s.devicePhase := by unfold State.dropArmed; split <;> simp
@[simp] theorem State.dropArmed_timeCount : (s.dropArmed p).timeCount = s.timeCount := by unfold State.dropArmed; split <;> simp
@[simp] theorem State.dropArmed_faultAsserted : (s.dropArmed p).faultAsserted = s.faultAsserted := by unfold State.dropArmed; split <;> simp
@[simp] theorem State.dropArmed_syncArmed : (s.dropArmed p).syncArmed = s.syncArmed := by unfold State.dropArmed; split <;> simp
@[simp] theorem State.dropArmed_channels : (s.dropArmed p).channels = s.channels := by unfold State.dropArmed; split <;> simp
@[simp] theorem State.dropArmed_leases : (s.dropArmed p).leases = s.leases := by unfold State.dropArmed; split <;> simp
@[simp] theorem State.dropArmed_leads : (s.dropArmed p).leads = s.leads := by unfold State.dropArmed; split <;> simp
@[simp] theorem State.dropArmed_ports : (s.dropArmed p).ports = s.ports := by unfold State.dropArmed; split <;> simp
@[simp] theorem State.dropArmed_slots : (s.dropArmed p).slots = s.slots := by unfold State.dropArmed; split <;> simp
@[simp] theorem State.dropArmed_queue : (s.dropArmed p).queue = s.queue := by unfold State.dropArmed; split <;> simp
@[simp] theorem State.dropArmed_inFlight : (s.dropArmed p).inFlight = s.inFlight := by unfold State.dropArmed; split <;> simp
@[simp] theorem State.dropArmed_linkPhase : (s.dropArmed p).linkPhase = s.linkPhase := by unfold State.dropArmed; split <;> simp
@[simp] theorem State.dropArmed_pending : (s.dropArmed p).pending = s.pending := by unfold State.dropArmed; split <;> simp
@[simp] theorem State.dropArmed_chan (d : Channel) : (s.dropArmed p).chan d = s.chan d := by simp only [State.chan, State.dropArmed_channels]
@[simp] theorem State.dropArmed_lease (d : Channel) : (s.dropArmed p).lease d = s.lease d := by simp only [State.lease, State.dropArmed_leases]
@[simp] theorem State.dropArmed_holder (d : Channel) : (s.dropArmed p).holder d = s.holder d := by simp only [State.holder, State.lease, State.dropArmed_leases]
@[simp] theorem State.dropArmed_holds (q : Port) (d : Channel) : (s.dropArmed p).holds q d = s.holds q d := by simp only [State.holds, State.holder, State.lease, State.dropArmed_leases]
@[simp] theorem State.dropArmed_waits (q : Port) (d : Channel) : (s.dropArmed p).waits q d = s.waits q d := by simp only [State.waits, State.lease, State.dropArmed_leases]
@[simp] theorem State.dropArmed_lead (q : Port) : (s.dropArmed p).lead q = s.lead q := by simp only [State.lead, State.dropArmed_leads]
@[simp] theorem State.dropArmed_port (q : Port) : (s.dropArmed p).port q = s.port q := by simp only [State.port, State.dropArmed_ports]
@[simp] theorem State.dropArmed_rank (q : Port) : (s.dropArmed p).rank q = s.rank q := by simp only [State.rank, State.port, State.dropArmed_ports]
@[simp] theorem State.dropArmed_slot (j : Slot) : (s.dropArmed p).slot j = s.slot j := by simp only [State.slot, State.dropArmed_slots]
@[simp] theorem State.dropArmed_waiting (d : Channel) : (s.dropArmed p).waiting d = s.waiting d := by simp only [State.waiting, State.dropArmed_queue]
end

section
@[simp] theorem State.assertFault_inReset : (s.assertFault).inReset = s.inReset := by unfold State.assertFault; rw [State.sendAll_inReset]; exact (overAll_keeps State.inReset (fun _ _ => by simp) _).trans (overAll_keeps State.inReset (fun _ _ => by simp) _)
@[simp] theorem State.assertFault_devicePhase : (s.assertFault).devicePhase = s.devicePhase := by unfold State.assertFault; rw [State.sendAll_devicePhase]; exact (overAll_keeps State.devicePhase (fun _ _ => by simp) _).trans (overAll_keeps State.devicePhase (fun _ _ => by simp) _)
@[simp] theorem State.assertFault_timeCount : (s.assertFault).timeCount = s.timeCount := by unfold State.assertFault; rw [State.sendAll_timeCount]; exact (overAll_keeps State.timeCount (fun _ _ => by simp) _).trans (overAll_keeps State.timeCount (fun _ _ => by simp) _)
@[simp] theorem State.assertFault_syncArmed : (s.assertFault).syncArmed = s.syncArmed := by unfold State.assertFault; rw [State.sendAll_syncArmed]; exact (overAll_keeps State.syncArmed (fun _ _ => by simp) _).trans (overAll_keeps State.syncArmed (fun _ _ => by simp) _)
@[simp] theorem State.assertFault_leases : (s.assertFault).leases = s.leases := by unfold State.assertFault; rw [State.sendAll_leases]; exact (overAll_keeps State.leases (fun _ _ => by simp) _).trans (overAll_keeps State.leases (fun _ _ => by simp) _)
@[simp] theorem State.assertFault_leads : (s.assertFault).leads = s.leads := by unfold State.assertFault; rw [State.sendAll_leads]; exact (overAll_keeps State.leads (fun _ _ => by simp) _).trans (overAll_keeps State.leads (fun _ _ => by simp) _)
@[simp] theorem State.assertFault_ports : (s.assertFault).ports = s.ports := by unfold State.assertFault; rw [State.sendAll_ports]; exact (overAll_keeps State.ports (fun _ _ => by simp) _).trans (overAll_keeps State.ports (fun _ _ => by simp) _)
@[simp] theorem State.assertFault_slots : (s.assertFault).slots = s.slots := by unfold State.assertFault; rw [State.sendAll_slots]; exact (overAll_keeps State.slots (fun _ _ => by simp) _).trans (overAll_keeps State.slots (fun _ _ => by simp) _)
@[simp] theorem State.assertFault_inFlight : (s.assertFault).inFlight = s.inFlight := by unfold State.assertFault; rw [State.sendAll_inFlight]; exact (overAll_keeps State.inFlight (fun _ _ => by simp) _).trans (overAll_keeps State.inFlight (fun _ _ => by simp) _)
@[simp] theorem State.assertFault_linkPhase : (s.assertFault).linkPhase = s.linkPhase := by unfold State.assertFault; rw [State.sendAll_linkPhase]; exact (overAll_keeps State.linkPhase (fun _ _ => by simp) _).trans (overAll_keeps State.linkPhase (fun _ _ => by simp) _)
@[simp] theorem State.assertFault_pending : (s.assertFault).pending = s.pending := by unfold State.assertFault; rw [State.sendAll_pending]; exact (overAll_keeps State.pending (fun _ _ => by simp) _).trans (overAll_keeps State.pending (fun _ _ => by simp) _)
@[simp] theorem State.assertFault_lease (d : Channel) : (s.assertFault).lease d = s.lease d := by simp only [State.lease, State.assertFault_leases]
@[simp] theorem State.assertFault_holder (d : Channel) : (s.assertFault).holder d = s.holder d := by simp only [State.holder, State.lease, State.assertFault_leases]
@[simp] theorem State.assertFault_holds (q : Port) (d : Channel) : (s.assertFault).holds q d = s.holds q d := by simp only [State.holds, State.holder, State.lease, State.assertFault_leases]
@[simp] theorem State.assertFault_waits (q : Port) (d : Channel) : (s.assertFault).waits q d = s.waits q d := by simp only [State.waits, State.lease, State.assertFault_leases]
@[simp] theorem State.assertFault_lead (q : Port) : (s.assertFault).lead q = s.lead q := by simp only [State.lead, State.assertFault_leads]
@[simp] theorem State.assertFault_port (q : Port) : (s.assertFault).port q = s.port q := by simp only [State.port, State.assertFault_ports]
@[simp] theorem State.assertFault_rank (q : Port) : (s.assertFault).rank q = s.rank q := by simp only [State.rank, State.port, State.assertFault_ports]
@[simp] theorem State.assertFault_slot (j : Slot) : (s.assertFault).slot j = s.slot j := by simp only [State.slot, State.assertFault_slots]
end

section
variable (p : Port)
@[simp] theorem State.clearCommit_inReset : (s.clearCommit p).inReset = s.inReset := rfl
@[simp] theorem State.clearCommit_devicePhase : (s.clearCommit p).devicePhase = s.devicePhase := rfl
@[simp] theorem State.clearCommit_timeCount : (s.clearCommit p).timeCount = s.timeCount := rfl
@[simp] theorem State.clearCommit_faultAsserted : (s.clearCommit p).faultAsserted = s.faultAsserted := rfl
@[simp] theorem State.clearCommit_syncArmed : (s.clearCommit p).syncArmed = s.syncArmed := rfl
@[simp] theorem State.clearCommit_channels : (s.clearCommit p).channels = s.channels := rfl
@[simp] theorem State.clearCommit_leases : (s.clearCommit p).leases = s.leases := rfl
@[simp] theorem State.clearCommit_leads : (s.clearCommit p).leads = s.leads := rfl
@[simp] theorem State.clearCommit_ports : (s.clearCommit p).ports = s.ports := rfl
@[simp] theorem State.clearCommit_slots : (s.clearCommit p).slots = s.slots := rfl
@[simp] theorem State.clearCommit_queue : (s.clearCommit p).queue = s.queue := rfl
@[simp] theorem State.clearCommit_inFlight : (s.clearCommit p).inFlight = s.inFlight := rfl
@[simp] theorem State.clearCommit_linkPhase : (s.clearCommit p).linkPhase = s.linkPhase := rfl
@[simp] theorem State.clearCommit_events : (s.clearCommit p).events = s.events := rfl
@[simp] theorem State.clearCommit_pending : (s.clearCommit p).pending = s.pending := rfl
@[simp] theorem State.clearCommit_chan (d : Channel) : (s.clearCommit p).chan d = s.chan d := by simp only [State.chan, State.clearCommit_channels]
@[simp] theorem State.clearCommit_lease (d : Channel) : (s.clearCommit p).lease d = s.lease d := by simp only [State.lease, State.clearCommit_leases]
@[simp] theorem State.clearCommit_holder (d : Channel) : (s.clearCommit p).holder d = s.holder d := by simp only [State.holder, State.lease, State.clearCommit_leases]
@[simp] theorem State.clearCommit_holds (q : Port) (d : Channel) : (s.clearCommit p).holds q d = s.holds q d := by simp only [State.holds, State.holder, State.lease, State.clearCommit_leases]
@[simp] theorem State.clearCommit_waits (q : Port) (d : Channel) : (s.clearCommit p).waits q d = s.waits q d := by simp only [State.waits, State.lease, State.clearCommit_leases]
@[simp] theorem State.clearCommit_lead (q : Port) : (s.clearCommit p).lead q = s.lead q := by simp only [State.lead, State.clearCommit_leads]
@[simp] theorem State.clearCommit_port (q : Port) : (s.clearCommit p).port q = s.port q := by simp only [State.port, State.clearCommit_ports]
@[simp] theorem State.clearCommit_rank (q : Port) : (s.clearCommit p).rank q = s.rank q := by simp only [State.rank, State.port, State.clearCommit_ports]
@[simp] theorem State.clearCommit_slot (j : Slot) : (s.clearCommit p).slot j = s.slot j := by simp only [State.slot, State.clearCommit_slots]
@[simp] theorem State.clearCommit_event (q : Port) : (s.clearCommit p).event q = s.event q := by simp only [State.event, State.clearCommit_events]
@[simp] theorem State.clearCommit_waiting (d : Channel) : (s.clearCommit p).waiting d = s.waiting d := by simp only [State.waiting, State.clearCommit_queue]
end

section
variable (p : Port) (c : Channel)
@[simp] theorem State.clearLease_inReset : (s.clearLease p c).inReset = s.inReset := by unfold State.clearLease; dsimp only; (repeat' split) <;> simp
@[simp] theorem State.clearLease_devicePhase : (s.clearLease p c).devicePhase = s.devicePhase := by unfold State.clearLease; dsimp only; (repeat' split) <;> simp
@[simp] theorem State.clearLease_timeCount : (s.clearLease p c).timeCount = s.timeCount := by unfold State.clearLease; dsimp only; (repeat' split) <;> simp
@[simp] theorem State.clearLease_faultAsserted : (s.clearLease p c).faultAsserted = s.faultAsserted := by unfold State.clearLease; dsimp only; (repeat' split) <;> simp
@[simp] theorem State.clearLease_syncArmed : (s.clearLease p c).syncArmed = s.syncArmed := by unfold State.clearLease; dsimp only; (repeat' split) <;> simp
@[simp] theorem State.clearLease_leads : (s.clearLease p c).leads = s.leads := by unfold State.clearLease; dsimp only; (repeat' split) <;> simp
@[simp] theorem State.clearLease_commits : (s.clearLease p c).commits = s.commits := by unfold State.clearLease; dsimp only; (repeat' split) <;> simp
@[simp] theorem State.clearLease_ports : (s.clearLease p c).ports = s.ports := by unfold State.clearLease; dsimp only; (repeat' split) <;> simp
@[simp] theorem State.clearLease_slots : (s.clearLease p c).slots = s.slots := by unfold State.clearLease; dsimp only; (repeat' split) <;> simp
@[simp] theorem State.clearLease_inFlight : (s.clearLease p c).inFlight = s.inFlight := by unfold State.clearLease; dsimp only; (repeat' split) <;> simp
@[simp] theorem State.clearLease_linkPhase : (s.clearLease p c).linkPhase = s.linkPhase := by unfold State.clearLease; dsimp only; (repeat' split) <;> simp
@[simp] theorem State.clearLease_pending : (s.clearLease p c).pending = s.pending := by unfold State.clearLease; dsimp only; (repeat' split) <;> simp
@[simp] theorem State.clearLease_lead (q : Port) : (s.clearLease p c).lead q = s.lead q := by simp only [State.lead, State.clearLease_leads]
@[simp] theorem State.clearLease_commit (q : Port) : (s.clearLease p c).commit q = s.commit q := by simp only [State.commit, State.clearLease_commits]
@[simp] theorem State.clearLease_port (q : Port) : (s.clearLease p c).port q = s.port q := by simp only [State.port, State.clearLease_ports]
@[simp] theorem State.clearLease_rank (q : Port) : (s.clearLease p c).rank q = s.rank q := by simp only [State.rank, State.port, State.clearLease_ports]
@[simp] theorem State.clearLease_slot (j : Slot) : (s.clearLease p c).slot j = s.slot j := by simp only [State.slot, State.clearLease_slots]
end

section
variable (p : Port)
@[simp] theorem State.clearEvents_inReset : (s.clearEvents p).inReset = s.inReset := rfl
@[simp] theorem State.clearEvents_devicePhase : (s.clearEvents p).devicePhase = s.devicePhase := rfl
@[simp] theorem State.clearEvents_timeCount : (s.clearEvents p).timeCount = s.timeCount := rfl
@[simp] theorem State.clearEvents_faultAsserted : (s.clearEvents p).faultAsserted = s.faultAsserted := rfl
@[simp] theorem State.clearEvents_syncArmed : (s.clearEvents p).syncArmed = s.syncArmed := rfl
@[simp] theorem State.clearEvents_channels : (s.clearEvents p).channels = s.channels := rfl
@[simp] theorem State.clearEvents_leases : (s.clearEvents p).leases = s.leases := rfl
@[simp] theorem State.clearEvents_leads : (s.clearEvents p).leads = s.leads := rfl
@[simp] theorem State.clearEvents_commits : (s.clearEvents p).commits = s.commits := rfl
@[simp] theorem State.clearEvents_ports : (s.clearEvents p).ports = s.ports := rfl
@[simp] theorem State.clearEvents_slots : (s.clearEvents p).slots = s.slots := rfl
@[simp] theorem State.clearEvents_queue : (s.clearEvents p).queue = s.queue := rfl
@[simp] theorem State.clearEvents_inFlight : (s.clearEvents p).inFlight = s.inFlight := rfl
@[simp] theorem State.clearEvents_linkPhase : (s.clearEvents p).linkPhase = s.linkPhase := rfl
@[simp] theorem State.clearEvents_pending : (s.clearEvents p).pending = s.pending := rfl
@[simp] theorem State.clearEvents_chan (d : Channel) : (s.clearEvents p).chan d = s.chan d := by simp only [State.chan, State.clearEvents_channels]
@[simp] theorem State.clearEvents_lease (d : Channel) : (s.clearEvents p).lease d = s.lease d := by simp only [State.lease, State.clearEvents_leases]
@[simp] theorem State.clearEvents_holder (d : Channel) : (s.clearEvents p).holder d = s.holder d := by simp only [State.holder, State.lease, State.clearEvents_leases]
@[simp] theorem State.clearEvents_holds (q : Port) (d : Channel) : (s.clearEvents p).holds q d = s.holds q d := by simp only [State.holds, State.holder, State.lease, State.clearEvents_leases]
@[simp] theorem State.clearEvents_waits (q : Port) (d : Channel) : (s.clearEvents p).waits q d = s.waits q d := by simp only [State.waits, State.lease, State.clearEvents_leases]
@[simp] theorem State.clearEvents_lead (q : Port) : (s.clearEvents p).lead q = s.lead q := by simp only [State.lead, State.clearEvents_leads]
@[simp] theorem State.clearEvents_commit (q : Port) : (s.clearEvents p).commit q = s.commit q := by simp only [State.commit, State.clearEvents_commits]
@[simp] theorem State.clearEvents_port (q : Port) : (s.clearEvents p).port q = s.port q := by simp only [State.port, State.clearEvents_ports]
@[simp] theorem State.clearEvents_rank (q : Port) : (s.clearEvents p).rank q = s.rank q := by simp only [State.rank, State.port, State.clearEvents_ports]
@[simp] theorem State.clearEvents_slot (j : Slot) : (s.clearEvents p).slot j = s.slot j := by simp only [State.slot, State.clearEvents_slots]
@[simp] theorem State.clearEvents_waiting (d : Channel) : (s.clearEvents p).waiting d = s.waiting d := by simp only [State.waiting, State.clearEvents_queue]
end

end Sys2Proof.Machine
end

