-- ==== Sys2Proof/Laws/Effects.lean ====
section
/-! SUPPORT. What each shared operation does to the records it touches: masks, event queues, the update queue, channel
records and lease records. -/

namespace Sys2Proof.Machine

variable (s : State)

/-! Masks -/

@[simp] theorem inMask_maskOf (f : Channel → Bool) (c : Channel) : inMask (maskOf f) c = f c := by
  simp [inMask, maskOf]

theorem maskOf_eq_zero (f : Channel → Bool) : maskOf f = 0 ↔ ∀ c, f c = false := by
  constructor
  · intro h c
    rw [← inMask_maskOf f c, h]
    simp [inMask]
  · intro h
    apply BitVec.eq_of_getLsbD_eq
    intro i hi
    rw [show (maskOf f).getLsbD i = f ⟨i, hi⟩ from inMask_maskOf f ⟨i, hi⟩, h]
    simp

theorem maskOf_inMask (m : Mask) : maskOf (fun c => inMask m c) = m := by
  apply BitVec.eq_of_getLsbD_eq
  intro i hi
  exact inMask_maskOf (fun c => inMask m c) ⟨i, hi⟩

/-! Bytes -/

@[simp] theorem wordOf_hi_lo (w : Word) : wordOf (hiByte w) (loByte w) = w := by
  unfold wordOf hiByte loByte
  apply BitVec.eq_of_getLsbD_eq
  intro i hi
  rw [BitVec.getLsbD_append]
  by_cases h : i < 8
  · simp [h]
  · simp [h, show i - 8 < 8 by omega, show 8 + (i - 8) = i by omega]

@[simp] theorem channelOf_channelByte (c : Channel) : channelOf (channelByte c) = some c := by
  have h : (channelByte c).toNat = c.val := by
    simp only [channelByte, BitVec.toNat_ofNat]
    exact Nat.mod_eq_of_lt (by omega)
  simp [channelOf, h]

/-! Event records -/

theorem State.sendTo_event (p q : Port) (kind : EventKind) (channel reason : Byte) (tag : Word) :
    (s.sendTo p kind channel reason tag).event q =
      if p = q then
        (s.event q).take { kind := kind, channel := channel, reason := reason, tag := tag, time := s.timeCount }
      else s.event q := by
  unfold State.sendTo
  by_cases h : p = q
  · subst h; simp
  · simp [h]

/-- A record to every host is decided for each on its own mask and queue (R165). -/
theorem State.sendAll_event (q : Port) (kind : EventKind) (channel reason : Byte) (tag : Word) :
    (s.sendAll kind channel reason tag).event q =
      (s.event q).take { kind := kind, channel := channel, reason := reason, tag := tag, time := s.timeCount } := by
  have h := overAll_view (n := 3) (act := fun p s => s.sendTo p kind channel reason tag) q
    (fun t => (t.event q, t.timeCount))
    (fun v => (v.1.take { kind := kind, channel := channel, reason := reason, tag := tag, time := v.2 }, v.2))
    (fun j t hj => by simp [State.sendTo_event, hj]) (fun t => by simp [State.sendTo_event]) s
  exact congrArg Prod.fst h

/-- An event unit never changes its mask or its enable on an arrival (R165). -/
@[simp] theorem EventUnit.take_mask (u : EventUnit) (r : EventRecord) : (u.take r).mask = u.mask := by
  unfold EventUnit.take; split <;> rfl

@[simp] theorem EventUnit.take_enable (u : EventUnit) (r : EventRecord) : (u.take r).enable = u.enable := by
  unfold EventUnit.take; split <;> rfl

/-! The update queue -/

/-- Placing a code keeps the order of the channels and adds at most one at the tail (R108). -/
theorem place_channels (q : List UpdateEntry) (c : Channel) (code : Code) (origin : Origin) :
    (place q c code origin).map UpdateEntry.channel =
      if q.any (fun e => e.channel == c) then q.map UpdateEntry.channel else q.map UpdateEntry.channel ++ [c] := by
  unfold place
  split
  · rw [List.map_map]
    apply List.map_congr_left
    intro e _
    simp only [Function.comp_apply]
    split <;> rfl
  · simp

/-- The queue keeps at most one waiting entry per channel (R108). -/
theorem place_nodup {q : List UpdateEntry} (h : (q.map UpdateEntry.channel).Nodup) (c : Channel) (code : Code)
    (origin : Origin) : ((place q c code origin).map UpdateEntry.channel).Nodup := by
  rw [place_channels]
  split
  · exact h
  · rename_i hc
    rw [List.nodup_append]
    refine ⟨h, by simp, ?_⟩
    intro a ha b hb
    simp only [List.mem_singleton] at hb
    subst hb
    intro hab
    subst hab
    apply hc
    obtain ⟨e, he, rfl⟩ := List.mem_map.mp ha
    exact List.any_eq_true.mpr ⟨e, he, by simp⟩

/-- Every entry after a placing is of the channel placed, or stood there before. -/
theorem mem_place {q : List UpdateEntry} {c : Channel} {code : Code} {origin : Origin} {e : UpdateEntry}
    (h : e ∈ place q c code origin) : e = { channel := c, code := code, origin := origin } ∨ (e ∈ q ∧ e.channel ≠ c) := by
  unfold place at h
  split at h
  · obtain ⟨x, hx, rfl⟩ := List.mem_map.mp h
    by_cases hc : x.channel = c
    · left; simp [hc]
    · right; simp [hc, hx]
  · rename_i hc
    rcases List.mem_append.mp h with h | h
    · right
      refine ⟨h, ?_⟩
      intro he
      exact hc (List.any_eq_true.mpr ⟨e, h, by simp [he]⟩)
    · left; simpa using h

/-- After a placing the channel's waiting entry is the one placed (R108). -/
theorem find_place_self (q : List UpdateEntry) (c : Channel) (code : Code) (origin : Origin) :
    (place q c code origin).find? (fun e => e.channel == c) = some { channel := c, code := code, origin := origin } := by
  unfold place
  split
  · rename_i h
    induction q with
    | nil => simp at h
    | cons x q ih =>
      by_cases hx : x.channel = c
      · simp [hx]
      · have : (q.any fun e => e.channel == c) = true := by simpa [hx] using h
        rw [List.map_cons, if_neg hx, List.find?_cons, ih this, beq_false_of_ne hx]
  · rename_i h
    rw [List.find?_append]
    have : q.find? (fun e => e.channel == c) = none := by
      simpa [List.find?_eq_none] using h
    simp [this]

/-- A placing leaves the waiting entry of every other channel as it stands (R108). -/
theorem find_place_ne (q : List UpdateEntry) {c d : Channel} (h : d ≠ c) (code : Code) (origin : Origin) :
    (place q c code origin).find? (fun e => e.channel == d) = q.find? (fun e => e.channel == d) := by
  unfold place
  split
  · clear * - h
    induction q with
    | nil => rfl
    | cons x q ih =>
      rw [List.map_cons, List.find?_cons, List.find?_cons, ih]
      by_cases hx : x.channel = c
      · simp [hx, beq_false_of_ne (Ne.symm h)]
      · simp [hx]
  · rw [List.find?_append]
    simp [Ne.symm h]

/-! Channel records -/

theorem State.jumpTo_chan (c d : Channel) (code : Code) (origin : Origin) :
    (s.jumpTo c code origin).chan d = if c = d then { s.chan d with present := code } else s.chan d := by
  unfold State.jumpTo
  by_cases h : c = d
  · subst h; simp
  · simp [h]

@[simp] theorem State.jumpTo_queue (c : Channel) (code : Code) (origin : Origin) :
    (s.jumpTo c code origin).queue = Machine.place s.queue c code origin := rfl

theorem State.toFallback_chan (c d : Channel) :
    (s.toFallback c).chan d = if c = d then (s.chan d).toFallback else s.chan d := by
  unfold State.toFallback
  by_cases h : c = d
  · subst h; dsimp only; split <;> simp
  · dsimp only; split <;> simp [h]

/-- Safe entry changes the one record, by its own state (R10). -/
theorem State.safeEntry_chan (c d : Channel) :
    (s.safeEntry c).chan d = if c = d then (s.chan d).safed else s.chan d := by
  unfold State.safeEntry
  by_cases h : c = d
  · subst h; dsimp only; split <;> simp
  · dsimp only; split <;> simp [h]

/-- Safe entry places the fallback with origin SAFE where R11 step 3 calls for it, and nothing else. -/
theorem State.safeEntry_queue (c : Channel) :
    (s.safeEntry c).queue = if (s.chan c).safeJumps then Machine.place s.queue c (s.chan c).fallback .safe else s.queue := by
  unfold State.safeEntry
  dsimp only
  split <;> simp

theorem State.applyEntry_chan (e : StageEntry) (d : Channel) :
    (s.applyEntry e).chan d = if e.channel = d then (s.chan d).committed e else s.chan d := by
  unfold State.applyEntry
  by_cases h : e.channel = d
  · subst h; dsimp only; split <;> simp
  · dsimp only; split <;> simp [h]

theorem State.applyEntry_queue (e : StageEntry) :
    (s.applyEntry e).queue =
      if (s.chan e.channel).jumpsFor e then
        Machine.place s.queue e.channel ((s.chan e.channel).clamp e.code) .commit
      else s.queue := by
  unfold State.applyEntry
  dsimp only
  split <;> simp

theorem State.rampChannel_chan (c d : Channel) :
    (s.rampChannel c).chan d =
      if c = d then { s.chan d with present := (s.chan d).rampedPresent } else s.chan d := by
  unfold State.rampChannel
  dsimp only
  by_cases h : c = d
  · subst h
    split
    · split <;> simp [State.jumpTo_chan]
    · rename_i hm; simp [ChannelRecord.rampedPresent, hm]
  · split
    · split <;> simp [State.jumpTo_chan, h]
    · simp

theorem State.rampChannel_queue (c : Channel) :
    (s.rampChannel c).queue =
      if (s.chan c).moving then Machine.place s.queue c (s.chan c).rampedPresent .ramp else s.queue := by
  unfold State.rampChannel
  dsimp only
  split
  · split <;> simp
  · rfl

/-! Lease records -/

theorem State.renewLease_lease (c d : Channel) :
    (s.renewLease c).lease d =
      if c = d then { s.lease d with held := (s.lease d).held.map (fun l => l.renewed l.duration) } else s.lease d := by
  unfold State.renewLease
  by_cases h : c = d
  · subst h
    rcases hl : (s.lease c).held with _ | l
    · simp; rw [← hl]
    · simp
  · split <;> simp [h]

theorem State.dropHolder_lease (c d : Channel) :
    (s.dropHolder c).lease d = if c = d then { s.lease d with held := none } else s.lease d := by
  unfold State.dropHolder
  by_cases h : c = d
  · subst h; simp
  · simp [h]

/-- A lease record after a grant to its head waiter (R42). -/
def LeaseRecord.granted (r : LeaseRecord) : LeaseRecord :=
  match r.waiters with
  | [] => r
  | w :: ws => { held := some (Lease.fresh w.port w.duration), waiters := ws }

theorem State.grantHead_lease (c d : Channel) :
    (s.grantHead c).lease d = if c = d then (s.lease d).granted else s.lease d := by
  unfold State.grantHead LeaseRecord.granted
  by_cases h : c = d
  · subst h; split <;> simp_all
  · split <;> simp [h]

/-- The grant to the head waiter sends it LEASE_GRANTED, and sends nothing with an empty wait list (R42). -/
theorem State.grantHead_event (c : Channel) (q : Port) :
    (s.grantHead c).event q =
      match (s.lease c).waiters with
      | [] => s.event q
      | w :: _ =>
        if w.port = q then
          (s.event q).take
            { kind := .leaseGranted, channel := channelByte c, reason := noReason, tag := BitVec.ofNat 16 w.duration,
              time := s.timeCount }
        else s.event q := by
  unfold State.grantHead
  split
  · simp_all
  · simp_all [State.sendTo_event]

theorem State.withdraw_lease (p : Port) (c d : Channel) :
    (s.withdraw p c).lease d =
      if c = d then { s.lease d with waiters := withoutWaiter p (s.lease d).waiters } else s.lease d := by
  unfold State.withdraw
  by_cases h : c = d
  · subst h; simp
  · simp [h]

theorem State.releaseChannel_lease (policy : Policy) (c d : Channel) :
    (s.releaseChannel policy c).lease d =
      if c = d then ({ s.lease d with held := none } : LeaseRecord).granted else s.lease d := by
  cases policy <;> simp only [State.releaseChannel, State.grantHead_lease, State.dropHolder_lease,
    State.safeEntry_lease] <;> split <;> simp_all

theorem State.releaseChannel_chan (policy : Policy) (c d : Channel) :
    (s.releaseChannel policy c).chan d =
      if c = d ∧ policy = .safe then (s.chan d).safed else s.chan d := by
  cases policy
  · simp [State.releaseChannel]
  · simp [State.releaseChannel, State.safeEntry_chan]

theorem State.expire_lease (c d : Channel) (h : Port) :
    (s.expire c h).lease d =
      if c = d then ({ s.lease d with held := none } : LeaseRecord).granted else s.lease d := by
  simp only [State.expire, State.grantHead_lease, State.dropHolder_lease, State.safeEntry_lease, State.sendTo_lease]
  split <;> simp_all

theorem State.expire_chan (c d : Channel) (h : Port) :
    (s.expire c h).chan d = if c = d then (s.chan d).safed else s.chan d := by
  simp [State.expire, State.safeEntry_chan]

theorem State.reduceLease_lease (c d : Channel) (l : Lease) :
    (s.reduceLease c l).lease d =
      if c = d then
        { s.lease d with
          held := some { l with
            remaining := l.remaining - 1
            warned := l.warned || warnDue (s.lead l.holder) (l.remaining - 1) l
            warningPutOff := false } }
      else s.lease d := by
  unfold State.reduceLease
  dsimp only
  by_cases h : c = d
  · subst h
    split
    · rename_i hw; simp [hw]
    · rename_i hw; simp only [Bool.not_eq_true] at hw; simp [hw]
  · split <;> simp [h]

/-- A lease record after a lease tick, given its holder's warning lead (R36, R37, R40). -/
def LeaseRecord.ticked (lead : Port → Nat) (r : LeaseRecord) : LeaseRecord :=
  match r.held with
  | none => r
  | some l =>
    if 1 < l.remaining then
      { r with
        held := some { l with
          remaining := l.remaining - 1
          warned := l.warned || warnDue (lead l.holder) (l.remaining - 1) l
          warningPutOff := false } }
    else ({ r with held := none } : LeaseRecord).granted

theorem State.tickLease_lease (c d : Channel) :
    (s.tickLease c).lease d = if c = d then (s.lease d).ticked s.lead else s.lease d := by
  unfold State.tickLease LeaseRecord.ticked
  by_cases h : c = d
  · subst h
    split
    · simp_all
    · rename_i l hl
      simp only [hl, if_true]
      split
      · simp [State.reduceLease_lease]
      · simp [State.expire_lease]
  · split
    · simp [h]
    · split <;> simp [State.reduceLease_lease, State.expire_lease, h]

/-- Does a lease tick end this lease (R36)? -/
def LeaseRecord.ends (r : LeaseRecord) : Bool :=
  match r.held with
  | none => false
  | some l => decide (l.remaining ≤ 1)

theorem State.tickLease_chan (c d : Channel) :
    (s.tickLease c).chan d = if c = d ∧ (s.lease d).ends = true then (s.chan d).safed else s.chan d := by
  unfold State.tickLease LeaseRecord.ends
  by_cases h : c = d
  · subst h
    split
    · simp_all
    · rename_i l hl
      simp only [hl]
      split
      · rename_i h1; simp [show ¬ l.remaining ≤ 1 by omega]
      · rename_i h1; simp [State.expire_chan, show l.remaining ≤ 1 by omega]
  · split
    · simp [h]
    · split <;> simp [State.expire_chan, h]

/-- The record a granting Claim leaves (R27, R30). -/
def LeaseRecord.claimed (r : LeaseRecord) (p : Port) (duration : Nat) : LeaseRecord :=
  match r.held with
  | none => { r with held := some (Lease.fresh p duration) }
  | some l =>
    if l.holder = p then { r with held := some (l.renewed duration) }
    else { held := some (Lease.fresh p duration), waiters := withoutWaiter p r.waiters }

theorem State.claimGrant_lease (p : Port) (n : Nat) (c d : Channel) :
    (s.claimGrant p n c).lease d = if c = d then (s.lease d).claimed p n else s.lease d := by
  unfold State.claimGrant LeaseRecord.claimed
  by_cases h : c = d
  · subst h
    rcases hl : (s.lease c).held with _ | l
    · simp
    · by_cases hp : l.holder = p <;> simp [hp, State.preempt]
  · rcases hl : (s.lease c).held with _ | l
    · simp [h]
    · by_cases hp : l.holder = p <;> simp [hp, State.preempt, h]

end Sys2Proof.Machine
end

