-- ==== Sys2Proof/Laws/Requests.lean ====
section
/-! SUPPORT. A request on a port: what the port has received when its CHECK arrives, what the framing checks say of it, and
what the whole command does. -/

namespace Sys2Proof.Machine

/-! Receiving a request (R137) -/

theorem Request.receiveAll_append (r : Request) (l m : List Byte) :
    r.receiveAll (l ++ m) = (r.receiveAll l).receiveAll m := by
  simp [Request.receiveAll]

/-- A byte before CHECK runs into the check value, and is kept among the first 48 arguments (R137). -/
theorem Request.receive_body (r : Request) (b : Byte) (full : List Byte) (hc : r.check = none)
    (hk : r.kept = full.take 50) (hn : r.count = full.length) (h : r.count < 2 ∨ r.count ≠ r.len + 2) :
    r.receive b = { kept := (full ++ [b]).take 50, count := full.length + 1, running := crcByte r.running b,
                    check := none } := by
  unfold Request.receive
  rw [hc]
  dsimp only
  rw [if_neg (by omega), hk, hn]
  have key : (if full.length < 2 + Config.keptArguments then full.take 50 ++ [b] else full.take 50)
      = (full ++ [b]).take 50 := by
    have h48 : Config.keptArguments = 48 := rfl
    by_cases h50 : full.length < 50
    · rw [if_pos (by omega), List.take_of_length_le (by omega), List.take_of_length_le (by simp; omega)]
    · rw [if_neg (by omega), List.take_append_of_le_length (by omega)]
  rw [key]

/-- Argument bytes up to LEN are received one after another. -/
theorem Request.receive_arguments (code len : Byte) (l full : List Byte) (run : Byte)
    (h : full.length + l.length ≤ len.toNat) :
    Request.receiveAll { kept := (code :: len :: full).take 50, count := full.length + 2, running := run,
                         check := none } l
      = { kept := (code :: len :: (full ++ l)).take 50, count := (full ++ l).length + 2,
          running := l.foldl crcByte run, check := none } := by
  induction l generalizing full run with
  | nil => simp [Request.receiveAll]
  | cons b l ih =>
    simp only [List.length_cons] at h
    have hlen : ∀ m : List Byte, (List.getD (List.take 50 (code :: len :: m)) 1 0) = len := by
      intro m; simp
    have step : Request.receive { kept := (code :: len :: full).take 50, count := full.length + 2, running := run,
                                  check := none } b
        = { kept := (code :: len :: (full ++ [b])).take 50, count := (full ++ [b]).length + 2,
            running := crcByte run b, check := none } := by
      rw [Request.receive_body _ b (code :: len :: full) rfl rfl (by simp)
        (by right; show full.length + 2 ≠ _; unfold Request.len; rw [hlen]; omega)]
      simp
    rw [Request.receiveAll, List.foldl_cons, step]
    have := ih (full ++ [b]) (crcByte run b) (by simp; omega)
    rw [Request.receiveAll] at this
    rw [this]
    simp

/-- What the port has received when CHECK arrives: the code, LEN, the first 48 arguments, the check value of all the bytes
before CHECK, and CHECK (R137, R138). -/
theorem receiveAll_request (code : Byte) (args : List Byte) (check : Byte) (h : args.length ≤ 255) :
    Request.empty.receiveAll (requestBody code args ++ [check]) =
      { kept := (requestBody code args).take 50, count := args.length + 3, running := crc (requestBody code args),
        check := some check } := by
  have hl : (BitVec.ofNat 8 args.length).toNat = args.length := by
    simp only [BitVec.toNat_ofNat]; exact Nat.mod_eq_of_lt (by omega)
  have two : Request.empty.receiveAll [code, BitVec.ofNat 8 args.length] =
      { kept := (code :: BitVec.ofNat 8 args.length :: ([] : List Byte)).take 50, count := ([] : List Byte).length + 2,
        running := crcByte (crcByte Config.crcInitial code) (BitVec.ofNat 8 args.length), check := none } := by
    simp [Request.receiveAll, Request.receive, Request.empty, Config.keptArguments]
  rw [show requestBody code args ++ [check] = [code, BitVec.ofNat 8 args.length] ++ (args ++ [check]) from rfl,
    Request.receiveAll_append, two, Request.receiveAll_append,
    Request.receive_arguments code _ args [] _ (by simp [hl])]
  simp only [List.nil_append, Request.receiveAll, List.foldl_cons, List.foldl_nil, Request.receive]
  rw [if_pos]
  · rfl
  · refine ⟨by omega, ?_⟩
    simp only [Request.len, List.take_succ_cons, List.getD_cons_succ, List.getD_cons_zero]
    rw [hl]

/-- A whole request always brings a CHECK, whatever the number of bytes sent. -/
theorem Request.receive_check_of_some {r : Request} {b : Byte} (h : r.check.isSome) : (r.receive b).check.isSome := by
  unfold Request.receive
  split
  · exact h
  · rename_i hc; rw [hc] at h; simp at h

theorem Request.receiveAll_of_check {r : Request} (h : r.check.isSome) (l : List Byte) : r.receiveAll l = r := by
  induction l with
  | nil => rfl
  | cons b l ih =>
    have : r.receive b = r := by
      unfold Request.receive
      rcases hc : r.check with _ | c
      · rw [hc] at h; simp at h
      · rfl
    rw [Request.receiveAll, List.foldl_cons, this]; exact ih

/-! The code table (R154) -/

@[simp] theorem CommandName.ofCode_code (name : CommandName) : CommandName.ofCode name.code = some name := by
  cases name <;> decide

theorem CommandName.lenAllowed_le {name : CommandName} {n : Nat} (h : name.lenAllowed n = true) : n ≤ 48 := by
  cases name <;> simp [CommandName.lenAllowed] at h <;> omega

/-- The request of a named command, as the port holds it when CHECK arrives. -/
def received (name : CommandName) (args : List Byte) : Request :=
  { kept := (requestBody name.code args).take 50, count := args.length + 3, running := crc (requestBody name.code args),
    check := some (crc (requestBody name.code args)) }

theorem received_code (name : CommandName) (args : List Byte) : (received name args).code = name.code := by
  simp [received, Request.code, requestBody]

theorem received_len (name : CommandName) {args : List Byte} (h : args.length ≤ 255) :
    (received name args).len = args.length := by
  simp only [received, Request.len, requestBody, List.take_succ_cons, List.getD_cons_succ, List.getD_cons_zero,
    BitVec.toNat_ofNat]
  exact Nat.mod_eq_of_lt (by omega)

theorem received_args (name : CommandName) (args : List Byte) : (received name args).args = args.take 48 := by
  simp [received, Request.args, requestBody]

/-- The framing checks on a named command whose CHECK is right: only LEN and the device phase can refuse it (R140). -/
theorem framing_received (phase : DevicePhase) (name : CommandName) {args : List Byte} (h : args.length ≤ 255) :
    framing phase (received name args) =
      if name.lenAllowed args.length = false then .error .badLength
      else if phase = .starting ∧ name.takenInStarting = false then .error .notReady
      else .ok name := by
  unfold framing
  rw [received_code, received_len name h, CommandName.ofCode_code]
  simp [received]

/-! A whole command -/

variable (s : State)

theorem State.receiveBytes_request {p : Port} (h1 : (s.port p).phase = .request)
    (h2 : (s.port p).request = Request.empty) (code : Byte) {args : List Byte} (h : args.length ≤ 255) (check : Byte) :
    s.receiveBytes p (requestBody code args ++ [check]) =
      s.decideRequest p { kept := (requestBody code args).take 50, count := args.length + 3,
                          running := crc (requestBody code args), check := some check } := by
  unfold State.receiveBytes
  simp only [h1, h2, if_true, receiveAll_request code args check h]
  simp

/-- A named command is refused for its length or the device phase, or taken (R140, R141). -/
theorem State.request_eq {p : Port} (h1 : (s.port p).phase = .request) (h2 : (s.port p).request = Request.empty)
    (name : CommandName) {args : List Byte} (h : args.length ≤ 255) :
    s.request p name args =
      if name.lenAllowed args.length = false then
        s.setPort p ((s.port p).answered (received name args) (Reply.bare .badLength))
      else if s.devicePhase = .starting ∧ name.takenInStarting = false then
        s.setPort p ((s.port p).answered (received name args) (Reply.bare .notReady))
      else s.takeAndAnswer p name (received name args) := by
  unfold State.request requestBytes
  rw [State.receiveBytes_request s h1 h2 _ h]
  show s.decideRequest p (received name args) = _
  unfold State.decideRequest
  rw [framing_received _ _ h]
  split
  · rename_i heq
    split at heq
    · cases heq; simp [*]
    · split at heq
      · cases heq; simp [*]
      · cases heq
  · rename_i heq
    split at heq
    · cases heq
    · split at heq
      · cases heq
      · cases heq; simp [*]

/-- A request on a port that is not in REQUEST is ignored (R135). -/
theorem State.request_ignored {p : Port} (h : (s.port p).phase ≠ .request) (name : CommandName) (args : List Byte) :
    s.request p name args = s := by
  unfold State.request State.receiveBytes
  simp [h]

/-- What no host command reaches, apart from the reply in the port: from s to t these fields are the same. -/
structure HostKept (s t : State) : Prop where
  inReset : t.inReset = s.inReset
  devicePhase : t.devicePhase = s.devicePhase
  timeCount : t.timeCount = s.timeCount
  faultAsserted : t.faultAsserted = s.faultAsserted
  syncArmed : t.syncArmed = s.syncArmed
  ports : t.ports = s.ports
  slots : t.slots = s.slots
  inFlight : t.inFlight = s.inFlight
  linkPhase : t.linkPhase = s.linkPhase
  pending : t.pending = s.pending

theorem HostKept.refl : HostKept s s := by constructor <;> rfl

theorem HostKept.trans {s t u : State} (h : HostKept s t) (k : HostKept t u) : HostKept s u := by
  constructor
  exacts [k.1.trans h.1, k.2.trans h.2, k.3.trans h.3, k.4.trans h.4, k.5.trans h.5, k.6.trans h.6, k.7.trans h.7,
    k.8.trans h.8, k.9.trans h.9, k.10.trans h.10]

theorem HostKept.overAll {n : Nat} {act : Fin n → State → State} (h : ∀ i t, HostKept t (act i t)) (s : State) :
    HostKept s (overAll n act s) :=
  overAll_induct (P := HostKept s) (fun i t ht => ht.trans (h i t)) s (HostKept.refl s)

theorem HostKept.clearLease (p : Port) (c : Channel) : HostKept s (s.clearLease p c) := by
  constructor <;> simp

/-- What taking a command leaves as it is: the ports themselves and all that no host command reaches. -/
theorem takeCommand_keeps (name : CommandName) (p : Port) (args : List Byte) :
    HostKept s (takeCommand name p args s).1 := by
  cases name <;> unfold takeCommand <;> dsimp only
  case nop => exact HostKept.refl s
  case readStatus => exact HostKept.refl s
  case readIdent => exact HostKept.refl s
  case repeatReply => exact HostKept.refl s
  case readStage => exact HostKept.refl s
  case portClear =>
    have h := HostKept.overAll (fun c t => HostKept.clearLease t p c) (s.clearCommit p)
    refine HostKept.trans (t := s.clearCommit p) (by constructor <;> simp) (h.trans ?_)
    unfold takePortClear
    constructor <;> simp
  case claim => unfold takeClaim; dsimp only; (repeat' split) <;> constructor <;> simp
  case renew =>
    unfold takeRenew; dsimp only
    split
    · exact HostKept.refl s
    · exact HostKept.overAll (fun c t => by split <;> constructor <;> simp) s
  case release =>
    unfold takeRelease; dsimp only
    split
    · exact HostKept.refl s
    · split
      · exact HostKept.refl s
      · exact HostKept.overAll (fun c t => by (repeat' split) <;> constructor <;> simp) s
  case readLease => unfold takeReadLease; split <;> exact HostKept.refl s
  case setWarning => unfold takeSetWarning; dsimp only; split <;> constructor <;> simp
  case stage => unfold takeStage; split <;> constructor <;> simp
  case unstage => unfold takeUnstage; dsimp only; split <;> constructor <;> simp
  case commit => unfold takeCommit; split <;> constructor <;> simp
  case arm => unfold takeArm; dsimp only; (repeat' split) <;> constructor <;> simp
  case disarm => unfold takeDisarm; split <;> constructor <;> simp
  case sync => unfold takeSync; constructor <;> simp
  case readArmed => unfold takeReadArmed; split <;> exact HostKept.refl s
  case setLimits =>
    unfold takeSetLimits
    split
    · exact HostKept.refl s
    · dsimp only; (repeat' split) <;> constructor <;> simp
  case setFallback =>
    unfold takeSetFallback
    split
    · exact HostKept.refl s
    · dsimp only; (repeat' split) <;> constructor <;> simp
  case setRamp =>
    unfold takeSetRamp
    split
    · exact HostKept.refl s
    · dsimp only; (repeat' split) <;> constructor <;> simp
  case readChannel => unfold takeReadChannel; split <;> exact HostKept.refl s
  case forceSafe =>
    unfold takeForceSafe; dsimp only
    split
    · exact HostKept.refl s
    · exact HostKept.overAll (fun c t => by split <;> constructor <;> simp) s
  case clearFault =>
    unfold takeClearFault
    split
    · exact HostKept.refl s
    · (repeat' split) <;> constructor <;> simp
  case readEvents => unfold takeReadEvents; dsimp only; split <;> constructor <;> simp
  case setEventMask => unfold takeSetEventMask; dsimp only; split <;> constructor <;> simp
  case eventTest => unfold takeEventTest; constructor <;> simp

/-- A taken command (R141): its block's effect, and its reply in the port. -/
theorem State.takeAndAnswer_eq (p : Port) (name : CommandName) (q : Request) :
    s.takeAndAnswer p name q =
      (takeCommand name p q.args s).1.setPort p
        (((s.port p).stored name (takeCommand name p q.args s).2).answered (requestAfter name q)
          (takeCommand name p q.args s).2) := by
  unfold State.takeAndAnswer
  have h := (takeCommand_keeps s name p q.args).ports
  dsimp only
  rw [show (takeCommand name p q.args s).1.port p = s.port p by simp only [State.port, h]]

end Sys2Proof.Machine
end

