-- ==== Sys2Proof/Laws/Answers.lean ====
section
/-! SUPPORT. A host command as the claims speak of it: sent where a frame is open it is refused by a framing check, or
taken, and then the outcome of its block is what it leaves beside the reply. -/

namespace Sys2Proof.Safety

open Sys2Proof.Machine

variable {s s' : State} {p : Port} {name : CommandName} {args : List Byte} {r : Reply}

/-- The state with other ports. -/
def withPorts (s : State) (P : Table 3 PortRecord) : State := { s with ports := P }

@[simp] theorem withPorts_inReset (s : State) (P : Table 3 PortRecord) : (withPorts s P).inReset = s.inReset := rfl
@[simp] theorem withPorts_devicePhase (s : State) (P : Table 3 PortRecord) : (withPorts s P).devicePhase = s.devicePhase := rfl
@[simp] theorem withPorts_timeCount (s : State) (P : Table 3 PortRecord) : (withPorts s P).timeCount = s.timeCount := rfl
@[simp] theorem withPorts_faultAsserted (s : State) (P : Table 3 PortRecord) : (withPorts s P).faultAsserted = s.faultAsserted := rfl
@[simp] theorem withPorts_syncArmed (s : State) (P : Table 3 PortRecord) : (withPorts s P).syncArmed = s.syncArmed := rfl
@[simp] theorem withPorts_channels (s : State) (P : Table 3 PortRecord) : (withPorts s P).channels = s.channels := rfl
@[simp] theorem withPorts_leases (s : State) (P : Table 3 PortRecord) : (withPorts s P).leases = s.leases := rfl
@[simp] theorem withPorts_leads (s : State) (P : Table 3 PortRecord) : (withPorts s P).leads = s.leads := rfl
@[simp] theorem withPorts_commits (s : State) (P : Table 3 PortRecord) : (withPorts s P).commits = s.commits := rfl
@[simp] theorem withPorts_slots (s : State) (P : Table 3 PortRecord) : (withPorts s P).slots = s.slots := rfl
@[simp] theorem withPorts_queue (s : State) (P : Table 3 PortRecord) : (withPorts s P).queue = s.queue := rfl
@[simp] theorem withPorts_inFlight (s : State) (P : Table 3 PortRecord) : (withPorts s P).inFlight = s.inFlight := rfl
@[simp] theorem withPorts_linkPhase (s : State) (P : Table 3 PortRecord) : (withPorts s P).linkPhase = s.linkPhase := rfl
@[simp] theorem withPorts_events (s : State) (P : Table 3 PortRecord) : (withPorts s P).events = s.events := rfl
@[simp] theorem withPorts_pending (s : State) (P : Table 3 PortRecord) : (withPorts s P).pending = s.pending := rfl
@[simp] theorem withPorts_chan (s : State) (P : Table 3 PortRecord) (d : Channel) : (withPorts s P).chan d = s.chan d := rfl
@[simp] theorem withPorts_lease (s : State) (P : Table 3 PortRecord) (d : Channel) : (withPorts s P).lease d = s.lease d := rfl
@[simp] theorem withPorts_holder (s : State) (P : Table 3 PortRecord) (d : Channel) : (withPorts s P).holder d = s.holder d := rfl
@[simp] theorem withPorts_lead (s : State) (P : Table 3 PortRecord) (q : Port) : (withPorts s P).lead q = s.lead q := rfl
@[simp] theorem withPorts_commit (s : State) (P : Table 3 PortRecord) (q : Port) : (withPorts s P).commit q = s.commit q := rfl
@[simp] theorem withPorts_slot (s : State) (P : Table 3 PortRecord) (j : Slot) : (withPorts s P).slot j = s.slot j := rfl
@[simp] theorem withPorts_event (s : State) (P : Table 3 PortRecord) (q : Port) : (withPorts s P).event q = s.event q := rfl

/-- Every command of the code table is a request on its sender's port. -/
theorem exec_commandOf (name : CommandName) (p : Port) (args : List Byte) (s : State) :
    exec (commandOf name p args) s = .next (s.request p name args) := by
  cases name <;> rfl

/-- A port that has answered. -/
theorem replies_setPort (hs : s'.ports = s.ports) (x : PortRecord) (h1 : x.phase = .reply) (h2 : x.sending = some r)
    (h3 : x.rank = s.rank p) (h4 : x.csLow = (s.port p).csLow) :
    Replies s (s'.setPort p x) p r x.store := by
  have hp : ∀ q, s'.port q = s.port q := fun q => by simp only [State.port, hs]
  constructor
  · simpa using h1
  · simp [State.sdo, h1, h2]
  · simp
  · simpa [State.rank] using h3
  · simpa using h4
  · intro q hq
    simp [Ne.symm hq, hp]

/-- A command whose length its row does not allow is refused BAD_LENGTH (R140). -/
theorem command_badLength (hl : Listening s p) (h : args.length ≤ 255) (hn : name.lenAllowed args.length = false) :
    ∃ t, exec (commandOf name p args) s = .next t ∧ Refuses s t p .badLength ∧ t = { s with ports := t.ports } := by
  refine ⟨_, exec_commandOf name p args s, ?_, ?_⟩
  · rw [State.request_eq s hl.1 hl.2 name h, if_pos hn]
    exact replies_setPort (x := (s.port p).answered _ _) rfl rfl rfl rfl rfl
  · rw [State.request_eq s hl.1 hl.2 name h, if_pos hn]
    rfl

/-- A command that is not taken in STARTING is refused NOT_READY there (R140). -/
theorem command_notReady (hl : Listening s p) (hn : name.lenAllowed args.length = true)
    (hp : s.devicePhase = .starting) (ht : name.takenInStarting = false) :
    ∃ t, exec (commandOf name p args) s = .next t ∧ Refuses s t p .notReady ∧ t = { s with ports := t.ports } := by
  have h : args.length ≤ 255 := by have := CommandName.lenAllowed_le hn; omega
  refine ⟨_, exec_commandOf name p args s, ?_, ?_⟩
  · rw [State.request_eq s hl.1 hl.2 name h, if_neg (by simp [hn]), if_pos ⟨hp, ht⟩]
    exact replies_setPort (x := (s.port p).answered _ _) rfl rfl rfl rfl rfl
  · rw [State.request_eq s hl.1 hl.2 name h, if_neg (by simp [hn]), if_pos ⟨hp, ht⟩]
    rfl

/-- A command that passes the framing checks is taken: its reply is that of its block, the state its block leaves stands but
for the ports, and so does what the port keeps of the request (R141, R142). -/
theorem command_taken (hl : Listening s p) (hn : name.lenAllowed args.length = true)
    (hp : s.devicePhase = .running ∨ name.takenInStarting = true) (hk : takeCommand name p args s = (s', r)) :
    ∃ P, exec (commandOf name p args) s = .next (withPorts s' P) ∧
      Replies s (withPorts s' P) p r ((s.port p).stored name r).store ∧
      (P.get p).request = requestAfter name (received name args) := by
  have h48 := CommandName.lenAllowed_le hn
  have h : args.length ≤ 255 := by omega
  have hd : ¬(s.devicePhase = .starting ∧ name.takenInStarting = false) := by
    rcases hp with hp | hp <;> simp [hp]
  have e := State.request_eq s hl.1 hl.2 name h
  rw [if_neg (by simp [hn]), if_neg hd, State.takeAndAnswer_eq, received_args, List.take_of_length_le h48, hk] at e
  have hports : s'.ports = s.ports := by
    have := (takeCommand_keeps s name p args).ports
    rw [hk] at this; exact this
  have hrank : ((s.port p).stored name r).rank = s.rank p := by cases name <;> rfl
  have hcs : ((s.port p).stored name r).csLow = (s.port p).csLow := by cases name <;> rfl
  refine ⟨s'.ports.set p (((s.port p).stored name r).answered (requestAfter name (received name args)) r), ?_, ?_, ?_⟩
  · rw [exec_commandOf, e]; rfl
  · exact replies_setPort (s := s) (s' := s') (p := p) hports
      (((s.port p).stored name r).answered (requestAfter name (received name args)) r) rfl rfl hrank hcs
  · simp [PortRecord.answered]

/-- Every command but Repeat Reply and Port Clear stores its reply (R141). -/
theorem command_answers (hl : Listening s p) (hn : name.lenAllowed args.length = true)
    (hp : s.devicePhase = .running ∨ name.takenInStarting = true) (h1 : name ≠ .repeatReply) (h2 : name ≠ .portClear)
    (hk : takeCommand name p args s = (s', r)) :
    ∃ P, exec (commandOf name p args) s = .next (withPorts s' P) ∧ Answers s (withPorts s' P) p r := by
  obtain ⟨P, a, b, _⟩ := command_taken hl hn hp hk
  refine ⟨P, a, ?_⟩
  have : ((s.port p).stored name r).store = some r := by
    cases name <;> first | rfl | exact absurd rfl h1 | exact absurd rfl h2
  rw [this] at b
  exact b

end Sys2Proof.Safety
end

