-- ==== Sys2Proof/Laws/Check.lean ====
section
/-! SUPPORT. The laws of the part as a check that the kernel can evaluate on one state, and its soundness: so a test can
show that a state it writes out meets them. -/

namespace Sys2Proof.Safety

open Sys2Proof.Machine

/-- The law of a channel record, checked. -/
def checkChannel (r : ChannelRecord) : Bool :=
  decide ((r.limitLow ≤ r.fallback ∧ r.fallback ≤ r.limitHigh) ∧ (r.limitLow ≤ r.target ∧ r.target ≤ r.limitHigh) ∧
    (r.state = .safe → r.target = r.fallback) ∧ (r.failures ≤ 3 ∧ (r.failures = 3 ↔ r.state = .faulted)) ∧
    (r.state = .starting → r = { ChannelRecord.reset with failures := r.failures }) ∧
    (r.state = .unavailable → r = { ChannelRecord.reset with state := .unavailable }))

theorem checkChannel_sound {r : ChannelRecord} (h : checkChannel r = true) : ChannelLaw r := by
  obtain ⟨h1, h2, h3, h4, h5, h6⟩ := of_decide_eq_true h
  exact ⟨h1, h2, h3, h4, h5, h6⟩

/-- What the law of a lease record says of its holder, checked. -/
def checkHeld (r : LeaseRecord) : Bool :=
  match r.held with
  | none => decide (r.waiters = [])
  | some l =>
    decide ((1 ≤ l.remaining ∧ l.remaining ≤ l.duration ∧ l.duration ≤ Config.maxDuration) ∧
      (∀ w ∈ r.waiters, w.port ≠ l.holder) ∧ (l.warningPutOff = true → l.remaining = l.duration))

/-- The law of a lease record, checked. -/
def checkLease (rank : Port → BitVec 2) (r : LeaseRecord) : Bool :=
  checkHeld r &&
    decide ((r.waiters.map Waiter.port).Nodup ∧ (∀ w ∈ r.waiters, 1 ≤ w.duration ∧ w.duration ≤ Config.maxDuration) ∧
      r.waiters.Pairwise (fun v w => rank w.port ≤ rank v.port))

theorem checkLease_sound {rank : Port → BitVec 2} {r : LeaseRecord} (h : checkLease rank r = true) :
    LeaseLaw rank r := by
  obtain ⟨ha, hb⟩ := Bool.and_eq_true_iff.mp h
  obtain ⟨h1, h2, h3⟩ := of_decide_eq_true hb
  unfold checkHeld at ha
  rcases hh : r.held with _ | l
  · rw [hh] at ha
    exact ⟨fun l hl => absurd (hh.symm.trans hl) (by simp), fun _ => of_decide_eq_true ha,
      fun l hl => absurd (hh.symm.trans hl) (by simp), h1, h2, h3, fun l hl => absurd (hh.symm.trans hl) (by simp)⟩
  · rw [hh] at ha
    obtain ⟨a1, a2, a3⟩ := of_decide_eq_true ha
    refine ⟨fun k hk => ?_, fun hn => absurd (hh.symm.trans hn) (by simp), fun k hk => ?_, h1, h2, h3, fun k hk => ?_⟩
    · rw [hh] at hk; cases hk; exact a1
    · rw [hh] at hk; cases hk; exact a2
    · rw [hh] at hk; cases hk; exact a3

/-- The laws of a host's armed set, checked. -/
def checkArmed (r : CommitRecord) : Bool :=
  match r.armed with
  | none => true
  | some a =>
    decide ((a.entries.map StageEntry.channel).Nodup ∧ a.entries ≠ [] ∧ a.number ≠ 0 ∧ a.window ≤ Config.maxArmWindow)

/-- The laws of a host's part of the commit unit, checked. -/
def checkCommit (r : CommitRecord) : Bool :=
  checkArmed r && decide ((r.staging.map StageEntry.channel).Nodup ∧ r.nextNumber ≠ 0)

theorem checkCommit_sound {r : CommitRecord} (h : checkCommit r = true) : CommitLaw r := by
  obtain ⟨ha, hb⟩ := Bool.and_eq_true_iff.mp h
  obtain ⟨h1, h2⟩ := of_decide_eq_true hb
  have key : ∀ a, r.armed = some a → (a.entries.map StageEntry.channel).Nodup ∧ a.entries ≠ [] ∧ a.number ≠ 0 ∧
      a.window ≤ Config.maxArmWindow := by
    intro a hs
    unfold checkArmed at ha
    rw [hs] at ha
    exact of_decide_eq_true ha
  exact ⟨h1, fun a hs => (key a hs).1, fun a hs => (key a hs).2.1, fun a hs => (key a hs).2.2.1,
    fun a hs => (key a hs).2.2.2, h2⟩

/-- The law of an event queue, checked. -/
def checkEvent (u : EventUnit) : Bool :=
  decide (u.queue.length ≤ Config.eventCapacity ∧ (∀ r ∈ u.queue.dropLast, r.kind ≠ .overflow) ∧
    ∀ r ∈ u.queue, r.kind = .overflow → 2 ≤ r.tag ∧ r.tag ≤ Config.maxLost)

theorem checkEvent_sound {u : EventUnit} (h : checkEvent u = true) : EventLaw u := by
  obtain ⟨h1, h2, h3⟩ := of_decide_eq_true h
  exact ⟨h1, h2, h3⟩

/-- The law of a port, checked. -/
def checkPort (r : PortRecord) : Bool :=
  decide ((r.phase ≠ .deselected → r.csLow = true) ∧ (r.phase = .request → r.request = Request.empty) ∧
    (r.sending.isSome = true ↔ r.phase = .reply))

theorem checkPort_sound {r : PortRecord} (h : checkPort r = true) : PortLaw r := by
  obtain ⟨h1, h2, h3⟩ := of_decide_eq_true h
  exact ⟨h1, h2, h3⟩

/-- The law of the entry in flight, checked. -/
def checkFlying (s : State) : Bool :=
  match s.inFlight with
  | none => true
  | some e => decide ((s.chan e.channel).state ≠ .faulted ∧ (s.chan e.channel).state ≠ .unavailable)

/-- The laws of the converter link, checked. -/
def checkLink (s : State) : Bool :=
  checkFlying s &&
    decide ((s.queue.map UpdateEntry.channel).Nodup ∧
      (∀ e ∈ s.queue, (s.chan e.channel).state ≠ .faulted ∧ (s.chan e.channel).state ≠ .unavailable) ∧
      (s.inFlight.isSome = true ↔ (s.linkPhase = .writing ∨ s.linkPhase = .verifying)) ∧
      (s.linkPhase = .probing ↔ s.probed.isSome = true) ∧
      (s.linkPhase = .probing → s.queue = [] ∧ s.devicePhase = .starting) ∧
      (∀ c, (s.slot (slotOf c)).state = .probing → (s.chan c).state = .starting) ∧
      (s.linkPhase = .probing → ∀ c, s.chan c = ChannelRecord.reset ∨ (s.chan c).state = .unavailable) ∧
      ∀ c, (s.slot (slotOf c)).state = .absent ↔ (s.chan c).state = .unavailable)

theorem checkLink_sound {s : State} (h : checkLink s = true) : LinkLaw s := by
  obtain ⟨ha, hb⟩ := Bool.and_eq_true_iff.mp h
  obtain ⟨h1, h2, h3, h4, h5, h6, h7, h8⟩ := of_decide_eq_true hb
  refine ⟨h1, h2, fun e he => ?_, h3, h4, h5, h6, h7, h8⟩
  unfold checkFlying at ha
  rw [he] at ha
  exact of_decide_eq_true (p := (s.chan e.channel).state ≠ .faulted ∧ (s.chan e.channel).state ≠ .unavailable) ha

/-- The law of device reset, checked. -/
def checkReset (s : State) : Bool :=
  !s.inReset ||
    decide (s.devicePhase = .starting ∧ s.timeCount = 0 ∧ s.faultAsserted = false ∧
      (∀ c, s.chan c = ChannelRecord.reset) ∧ (∀ c, s.lease c = LeaseRecord.reset) ∧ (∀ p, s.lead p = 0) ∧
      (∀ p, s.commit p = CommitRecord.reset) ∧
      (∀ p, (s.port p).phase = .deselected ∧ (s.port p).request = Request.empty ∧ (s.port p).store = none) ∧
      (∀ k, s.slot k = SlotRecord.reset) ∧ (s.queue = [] ∧ s.inFlight = none ∧ s.linkPhase = .probing) ∧
      ∀ p, s.event p = EventUnit.reset)

theorem checkReset_sound {s : State} (h : checkReset s = true) : ResetLaw s := by
  intro hr
  unfold checkReset at h
  rw [hr] at h
  obtain ⟨h1, h2, h3, h4, h5, h6, h7, h8, h9, h10, h11⟩ := of_decide_eq_true h
  exact ⟨h1, h2, h3, h4, h5, h6, h7, h8, h9, h10, h11⟩

/-- The laws that join the blocks, checked. -/
def checkWhole (s : State) : Bool :=
  decide ((s.devicePhase = .starting ↔ s.anyStarting = true) ∧
    (s.devicePhase = .starting → ∀ c, s.lease c = LeaseRecord.reset) ∧
    (s.devicePhase = .starting → ∀ p, s.commit p = CommitRecord.reset) ∧
    (s.devicePhase = .starting → ∀ c, (s.chan c).state ≠ .live) ∧
    (s.faultAsserted = true → (∀ c, (s.chan c).state ≠ .live) ∧ ∀ p, (s.commit p).armed = none) ∧
    ∀ c, (s.chan c).state = .unavailable → s.lease c = LeaseRecord.reset)

/-- The laws of the part, checked. -/
def checkInv (s : State) : Bool :=
  decide ((∀ c, checkChannel (s.chan c) = true) ∧ (∀ c, checkLease s.rank (s.lease c) = true) ∧
    (∀ p, s.lead p ≤ Config.maxLead) ∧ (∀ p, checkCommit (s.commit p) = true) ∧
    (∀ p, checkEvent (s.event p) = true) ∧ (∀ p, checkPort (s.port p) = true) ∧
    ∀ k, ((s.slot k).revision.isSome = true ↔ (s.slot k).state = .present)) &&
  (checkLink s && checkReset s && checkWhole s)

/-- A state that passes the check has the laws of the part. -/
theorem checkInv_sound {s : State} (h : checkInv s = true) : Inv s := by
  obtain ⟨ha, hb⟩ := Bool.and_eq_true_iff.mp h
  obtain ⟨hb, hc⟩ := Bool.and_eq_true_iff.mp hb
  obtain ⟨a1, a2, a3, a4, a5, a6, a7⟩ := of_decide_eq_true ha
  obtain ⟨hb, hr⟩ := Bool.and_eq_true_iff.mp hb
  obtain ⟨c1, c2, c3, c4, c6, c7⟩ := of_decide_eq_true hc
  have hs : s.anyStarting = true ↔ ∃ c, (s.chan c).state = .starting := by
    unfold State.anyStarting ascending
    simp
  exact ⟨fun c => checkChannel_sound (a1 c), fun c => checkLease_sound (a2 c), a3, fun p => checkCommit_sound (a4 p),
    fun p => checkEvent_sound (a5 p), fun p => checkPort_sound (a6 p), a7, checkLink_sound hb,
    ⟨c1.trans hs, c2, c3, c4⟩,
    checkReset_sound hr,
    ⟨fun h => (c6 h).1, fun h => (c6 h).2⟩, c7⟩

end Sys2Proof.Safety
end

