-- ==== Sys2Proof/Laws/Records.lean ====
section
/-! SUPPORT. The terms of the claims and the functions of the model agree, record by record: safe entry, the fall
to the next waiter, a ramp step, a commit, a warning, and the bytes of arguments and link frames. -/

namespace Sys2Proof.Safety

open Sys2Proof.Machine

variable {s : State} {p : Port}

/-! Acts over all channels -/

/-- An act each of whose parts touches only its own channel's record does so to each. -/
theorem overAll_get {β : Type} (f : State → Channel → β) (act : Channel → State → State) (g : Channel → β → β)
    (h : ∀ c d t, f (act c t) d = if c = d then g d (f t d) else f t d) (s : State) (d : Channel) :
    f (overAll 16 act s) d = g d (f s d) :=
  overAll_view d (fun t => f t d) (g d) (fun j t hj => by rw [h, if_neg hj]) (fun t => by rw [h, if_pos rfl]) s

/-- What only part d of an act touches, by what it sees there, the act leaves as that part alone would. -/
theorem overAll_local {n : Nat} {act : Fin n → State → State} {γ : Type} (d : Fin n) (K : State → γ)
    (other : ∀ j t, j ≠ d → K (act j t) = K t) (own : ∀ t u, K t = K u → K (act d t) = K (act d u)) (s : State) :
    K (overAll n act s) = K (act d s) := by
  classical
  have h := overAll_view (act := act) d K (fun x => if h : ∃ u, K u = x then K (act d h.choose) else x) other
    (fun t => by
      have hx : ∃ u, K u = K t := ⟨t, rfl⟩
      rw [dif_pos hx]
      exact own _ _ hx.choose_spec.symm) s
  rw [h]
  have hx : ∃ u, K u = K s := ⟨s, rfl⟩
  rw [dif_pos hx]
  exact own _ _ hx.choose_spec

theorem overAll_three (act : Port → State → State) (s : State) : overAll 3 act s = act 2 (act 1 (act 0 s)) := by
  simp [overAll, ascending, List.finRange]

/-! Channel records -/

theorem toFallback_eq_movedToFallback (r : ChannelRecord) : r.toFallback = movedToFallback r := by
  unfold movedToFallback ChannelRecord.toFallback ChannelRecord.rampsToFallback
  by_cases h : r.rampToFallback = true ∧ r.rampStep ≠ 0
  · rw [if_pos h]
    have : (r.rampToFallback && r.rampStep != 0) = true := by simpa using h
    simp only [this, if_true]
  · rw [if_neg h]
    have : (r.rampToFallback && r.rampStep != 0) = false := by simpa using h
    simp only [this, Bool.false_eq_true, if_false]

theorem safed_eq_safeRecord (r : ChannelRecord) : r.safed = safeRecord r := by
  cases h : r.state <;> simp [ChannelRecord.safed, safeRecord, h, toFallback_eq_movedToFallback]

theorem place_eq_safeQueue (c : Channel) (q : List UpdateEntry) (r : ChannelRecord) :
    (if r.safeJumps then Machine.place q c r.fallback .safe else q) = safeQueue r c q := by
  unfold safeQueue
  have : r.safeJumps = decide ((r.state = .live ∨ r.state = .safe) ∧ ¬(r.rampToFallback = true ∧ r.rampStep ≠ 0)) := by
    unfold ChannelRecord.safeJumps ChannelRecord.rampsToFallback
    rw [Bool.eq_iff_iff]
    simp
  rw [this]
  simp only [decide_eq_true_eq]

theorem moving_iff (r : ChannelRecord) : r.moving = true ↔
    ((r.state = .safe ∨ r.state = .live) ∧ r.present ≠ r.target) := by
  simp [ChannelRecord.moving]

theorem rampedPresent_eq (r : ChannelRecord) : r.rampedPresent = presentAfterTick r := by
  unfold ChannelRecord.rampedPresent presentAfterTick rampStepped
  by_cases h : r.moving = true
  · rw [if_pos h, if_pos ((moving_iff r).mp h)]
  · rw [if_neg h, if_neg (fun x => h ((moving_iff r).mpr x))]

theorem committed_eq_applied (r : ChannelRecord) (e : StageEntry) : r.committed e = applied r e := by
  unfold ChannelRecord.committed applied ChannelRecord.jumpsFor
  by_cases h : e.jump = true ∨ r.rampStep = 0
  · rw [if_pos (by simpa using h), if_pos h]
  · rw [if_neg (by simpa using h), if_neg h]

theorem jumps_iff (r : ChannelRecord) (e : StageEntry) : r.jumpsFor e = true ↔ (e.jump = true ∨ r.rampStep = 0) := by
  simp [ChannelRecord.jumpsFor]

theorem settingChecks_held {x : Byte} {c : Channel} (h0 : channelOf x = some c) (a : (s.chan c).state ≠ .unavailable)
    (b : s.holder c = some p) : s.settingChecks p x = .ok c := by
  unfold State.settingChecks; rw [h0]; dsimp only; rw [if_neg a, if_pos]; simp [State.holds, b]

/-! Lease records -/

theorem granted_eq_afterLoss (r : LeaseRecord) : ({ r with held := none } : LeaseRecord).granted = afterLoss r.waiters
    := by
  unfold LeaseRecord.granted afterLoss
  rcases h : r.waiters with _ | ⟨w, ws⟩ <;> simp_all [Lease.fresh, newLease]

theorem withoutWaiter_eq_filter (p : Port) (ws : List Waiter) : withoutWaiter p ws = ws.filter (fun w => w.port ≠ p)
    := by
  unfold withoutWaiter; congr 1; funext w; simp [bne, beq_eq_decide]

theorem seenGrant_eq (q : Port) (c : Channel) (t : State) :
    (t.grantHead c).event q = seenGrant q t.timeCount c (t.lease c).waiters (t.event q) := by
  rw [State.grantHead_event]; unfold seenGrant
  rcases (t.lease c).waiters with _ | ⟨w, ws⟩ <;> rfl

theorem release_event (policy : Policy) (q : Port) (c : Channel) (t : State) :
    (t.releaseChannel policy c).event q = seenGrant q t.timeCount c (t.lease c).waiters (t.event q) := by
  cases policy <;> simp [State.releaseChannel, seenGrant_eq, State.dropHolder_lease]

theorem release_queue (policy : Policy) (c : Channel) (t : State) :
    (t.releaseChannel policy c).queue = if policy = .safe then safeQueue (t.chan c) c t.queue else t.queue := by
  cases policy <;> simp [State.releaseChannel, State.safeEntry_queue, place_eq_safeQueue]

theorem release_chan (policy : Policy) (c d : Channel) (t : State) :
    (t.releaseChannel policy c).chan d = if c = d ∧ policy = .safe then safeRecord (t.chan d) else t.chan d := by
  cases policy <;> simp [State.releaseChannel, State.safeEntry_chan, safed_eq_safeRecord]

/-- A renewal of the lease table as the statements speak of it (R31, R46). -/
theorem renewed_eq (duration : Nat) (l : Lease) : l.renewed duration = renewedLease duration l := by
  have : (decide (1 < l.remaining) && warnTests (duration - 1) (l.remaining - 1) l) =
      decide (1 < l.remaining ∧ l.remaining ≤ duration ∧ duration ≤ l.duration ∧ l.warned = false) := by
    rw [Bool.eq_iff_iff]
    simp only [warnTests, Bool.and_eq_true, decide_eq_true_eq, Bool.not_eq_true', and_assoc]
    constructor <;> rintro ⟨h1, h⟩ <;> refine ⟨h1, ?_⟩ <;> simp only [h, and_true] <;> omega
  unfold Lease.renewed renewedLease
  rw [this]

theorem warnDue_eq (lead : Nat) (l : Lease) : warnDue lead (l.remaining - 1) l = warnedAtTick lead l
    := by
  unfold warnDue warnTests warnedAtTick
  rw [Bool.eq_iff_iff]; simp; tauto

/-! Bytes -/

theorem argWord_first (w : Word) (l : List Byte) : argWord (wordBytes w ++ l) 0 = w := by
  simp [argWord, argByte, wordBytes]

theorem argWord_only (w : Word) : argWord (wordBytes w) 0 = w := by
  simp [argWord, argByte, wordBytes]

theorem claim_args (m : Mask) (d : Word) (o : Byte) : argWord (wordBytes m ++ wordBytes d ++ [o]) 0 = m ∧ argWord
    (wordBytes m ++ wordBytes d ++ [o]) 2 = d ∧ argByte (wordBytes m ++ wordBytes d ++ [o]) 4 = o := by
  refine ⟨by rw [List.append_assoc]; exact argWord_first _ _, by simp [argWord, argByte, wordBytes], by simp [argByte,
      wordBytes]⟩

theorem channelOf_some {b : Byte} {c : Channel} (h : channelOf b = some c) : b = channelByte c ∧ b.toNat < 16 := by
  unfold channelOf at h
  split at h
  · rename_i hb
    injection h with h; subst h
    refine ⟨?_, hb⟩
    simp [channelByte]
  · cases h

theorem channelByte_of {c : Channel} {b : Byte} (h : channelOf b = some c) : channelByte c = b :=
    (channelOf_some h).1.symm

/-- An entry that R52 refuses spoils the whole Stage request. -/
theorem stageEntriesOf_bad (n : Nat) : ∀ (args : List Byte), args.length ≤ n → ∀ k, 4 * k + 3 < args.length →
    (16 ≤ (args.getD (4 * k) 0).toNat ∨ 2 ≤ (args.getD (4 * k + 3) 0).toNat) → stageEntriesOf args = none := by
  induction n with
  | zero => intro args h k hk; omega
  | succ n ih =>
    intro args h k hk hbad
    rcases args with _ | ⟨a, _ | ⟨b, _ | ⟨c, _ | ⟨d, rest⟩⟩⟩⟩
    all_goals try (simp at hk)
    unfold stageEntriesOf
    rcases k with _ | k
    · have : stageEntryOf a b c d = none := by
        unfold stageEntryOf
        simp at hbad
        rcases hbad with hb | hb
        · have : channelOf a = none := by unfold channelOf; rw [dif_neg (by omega)]
          rw [this]
        · split
          · rfl
          · rw [if_neg (by rintro rfl; simp at hb), if_neg (by rintro rfl; simp at hb)]
      rw [this]
    · have e1 : 4 * (k+1) = 4*k+1+1+1+1 := by ring
      have e2 : 4 * (k+1) +3 = (4*k+3)+1+1+1+1 := by ring
      rw [e1] at hbad
      have e3 : 4*k+1+1+1+1+3 = (4*k+3)+1+1+1+1 := by ring
      rw [e3] at hbad
      simp only [List.getD_cons_succ] at hbad
      simp only [List.length_cons] at h
      rw [ih rest (by omega) k (by omega) hbad]
      split <;> simp_all

/-- The entries of a request are read as they were written (R155). -/
theorem stageEntriesOf_entryBytes (es : List StageEntry) : stageEntriesOf (entryBytes es) = some es := by
  induction es with
  | nil => rfl
  | cons e es ih =>
    have : entryBytes (e :: es) = channelByte e.channel :: hiByte e.code :: loByte e.code :: flagByte e.jump :: entryBytes es := by
      simp [entryBytes, StageEntry.bytes, wordBytes]
    rw [this, stageEntriesOf, ih]
    unfold stageEntryOf
    rw [channelOf_channelByte]
    rcases e with ⟨c, w, j⟩
    cases j <;> simp [flagByte]

theorem entryBytes_length (es : List StageEntry) : (entryBytes es).length = 4 * es.length := by
  induction es with
  | nil => rfl
  | cons e es ih =>
    have : entryBytes (e :: es) = channelByte e.channel :: hiByte e.code :: loByte e.code :: flagByte e.jump :: entryBytes es := by
      simp [entryBytes, StageEntry.bytes, wordBytes]
    rw [this]; simp [ih]; omega

/-- And only from the bytes that write them (R155). -/
theorem entryBytes_stageEntriesOf (n : Nat) : ∀ (bytes : List Byte) (es : List StageEntry), bytes.length ≤ n →
    stageEntriesOf bytes = some es → entryBytes es = bytes := by
  induction n with
  | zero =>
    intro bytes es h he
    rcases bytes with _ | ⟨b, bs⟩
    · cases he; rfl
    · simp at h
  | succ n ih =>
    intro bytes es h he
    rcases bytes with _ | ⟨a, _ | ⟨b, _ | ⟨c, _ | ⟨d, rest⟩⟩⟩⟩
    · cases he; rfl
    · cases he
    · cases he
    · cases he
    · rw [stageEntriesOf] at he
      split at he
      · rename_i e es' h1 h2
        injection he with he; subst he
        simp only [List.length_cons] at h
        have := ih rest es' (by omega) h2
        have hc : entryBytes (e :: es') = channelByte e.channel :: hiByte e.code :: loByte e.code :: flagByte e.jump :: entryBytes es' := by
          simp [entryBytes, StageEntry.bytes, wordBytes]
        rw [hc, this]
        unfold stageEntryOf at h1
        split at h1
        · cases h1
        · rename_i ch hch
          have hw : hiByte (wordOf b c) = b ∧ loByte (wordOf b c) = c := by
            unfold hiByte loByte wordOf
            constructor <;> (apply BitVec.eq_of_getLsbD_eq; intro i hi; rw [BitVec.getLsbD_extractLsb',
                BitVec.getLsbD_append]; simp [hi])
          split at h1
          · injection h1 with h1; subst h1; simp [channelByte_of hch, flagByte, *]
          · split at h1
            · injection h1 with h1; subst h1; simp [channelByte_of hch, flagByte, *]
            · cases h1
      · cases he

theorem crcShifts_iterate (n : Nat) (r : Byte) : crcShifts n r = Nat.iterate crcShift n r := by
  induction n generalizing r with
  | zero => rfl
  | succ n ih => rw [crcShifts, ih]; rfl

theorem receive_bytes_count (l : List Byte) : ∀ r : Request, (r.receiveAll l).check = none → (r.receiveAll l).count =
    r.count + l.length := by
  induction l with
  | nil => intro r _; rfl
  | cons b l ih =>
    intro r h
    have h1 : r.receiveAll (b :: l) = (r.receive b).receiveAll l := rfl
    rw [h1] at h ⊢
    rw [ih _ h]
    have hb : (r.receive b).check = none := by
      by_contra hx
      have := Request.receiveAll_of_check (r := r.receive b) (by rcases hc : (r.receive b).check; exact absurd hc hx; rfl) l
      rw [this] at h; exact hx h
    have hc : (r.receive b).count = r.count + 1 := by
      unfold Request.receive at hb ⊢
      rcases hr : r.check with _ | c
      · rw [hr] at hb; dsimp only at hb ⊢
        split <;> rfl
      · rw [hr] at hb; simp [hr] at hb
    rw [hc, List.length_cons]; omega

theorem writeCodeFrame_bytes (e : UpdateEntry) : (writeCodeFrame e).bytes = BitVec.ofNat 8
    (0x20 + e.channel.val % 4) :: wordBytes e.code := by
  unfold writeCodeFrame converterChannelOf
  dsimp only
  have : ∀ n : Fin 4, (0x20 ||| BitVec.ofNat 8 n.val : Byte) = BitVec.ofNat 8 (0x20 + n.val) := by decide
  rw [this ⟨e.channel.val % 4, by omega⟩]

theorem readCodeFrame_bytes (e : UpdateEntry) : (readCodeFrame e).bytes =
    [BitVec.ofNat 8 (0x60 + e.channel.val % 4), 0, 0] := by
  unfold readCodeFrame converterChannelOf
  dsimp only
  have : ∀ n : Fin 4, (0x60 ||| BitVec.ofNat 8 n.val : Byte) = BitVec.ofNat 8 (0x60 + n.val) := by decide
  rw [this ⟨e.channel.val % 4, by omega⟩]

/-! Slots and start-up -/

theorem presenceMask_shows : ShowsPresence s s.presenceMask := by
  constructor
  · intro k
    unfold State.presenceMask
    rw [BitVec.getLsbD_eq_getElem (by omega)]
    simp [BitVec.getElem_ofFnLE, k.isLt]
  · intro i hi
    unfold State.presenceMask
    by_cases h8 : i < 8
    · rw [BitVec.getLsbD_eq_getElem h8]; simp [BitVec.getElem_ofFnLE]; omega
    · exact BitVec.getLsbD_of_ge _ _ (by omega)

theorem any_starting : s.anyStarting = true ↔ ∃ c, (s.chan c).state = .starting := by
  unfold State.anyStarting ascending
  rw [List.any_eq_true]
  constructor
  · rintro ⟨c, _, h⟩; exact ⟨c, by simpa using h⟩
  · rintro ⟨c, h⟩; exact ⟨c, List.mem_finRange c, by simpa using h⟩

/-- Placing codes of channels that have no waiting entry appends them in order (R104, R108). -/
theorem place_all (l : List Channel) (f : Channel → Bool) (code : Channel → Code) (q : List UpdateEntry) (hn : l.Nodup)
    (hq : ∀ c ∈ l, ∀ e ∈ q, e.channel ≠ c) :
    l.foldl (fun q c => if f c = true then place q c (code c) .start else q) q = q ++ (l.filter f).map (fun c => { channel := c, code := code c, origin := .start }) := by
  induction l generalizing q with
  | nil => simp
  | cons c l ih =>
    obtain ⟨h1, h2⟩ := List.nodup_cons.mp hn
    rw [List.foldl_cons]
    by_cases hf : f c = true
    · rw [if_pos hf, List.filter_cons_of_pos hf]
      have hp : place q c (code c) .start = q ++ [{ channel := c, code := code c, origin := .start }] := by
        unfold place; rw [if_neg]; simp; intro e he; exact hq c (by simp) e he
      rw [hp, ih _ h2]
      · simp
      · intro d hd e he
        rcases List.mem_append.mp he with he | he
        · exact hq d (by simp [hd]) e he
        · simp at he; subst he; rintro rfl; exact h1 hd
    · rw [if_neg hf, List.filter_cons_of_neg hf]
      exact ih _ h2 (fun d hd => hq d (by simp [hd]))

theorem placeStarts_queue (t : State) : t.placeStarts.queue = (ascending 16).foldl
    (fun q c => if (t.slot (slotOf c)).state = .present then place q c (t.chan c).fallback .start else q) t.queue :=
  (overAll_fold (act := fun (c : Channel) (t : State) => if (t.slot (slotOf c)).state = .present then t.place c (t.chan c).fallback .start else t) State.queue (fun c t => ((t.slot (slotOf c)).state, (t.chan c).fallback)) (fun c k q => if k.1 = .present then place q c k.2 .start else q)
        (fun c t => by split <;> simp [*]) (fun i j t _ => by split <;> simp) t)

theorem endStartup_running (t : State) (h : t.devicePhase = .running) : t.endStartup = t := by
  unfold State.endStartup; simp [h]

theorem exec_verifyResult {e : UpdateEntry} (h1 : s.linkPhase = .verifying) (h2 : s.inFlight = some e) (read : Code) :
    exec (.verifyResult read) s = .next ({ s.verify e read with inFlight := none, linkPhase := .idle }).endStartup := by
  simp [exec, execVerifyResult, h1, h2]

theorem recv_slots (s : State) (p : Port) (l : List Byte) : (s.receiveBytes p l).slots = s.slots := by
  unfold State.receiveBytes State.decideRequest
  dsimp only
  split
  · split
    · split
      · simp
      · rw [State.takeAndAnswer_eq]; simp [(takeCommand_keeps s _ p _).slots]
    · simp
  · rfl

end Sys2Proof.Safety
end

