-- ==== Sys2Proof/Laws/Claims.lean ====
section
/-! SUPPORT. What a Claim and a Port Clear do to one channel. -/

namespace Sys2Proof.Safety

open Sys2Proof.Machine

variable {s : State} {p : Port}

/-! Claim -/

/-- What a Claim reads to decide a channel: its lease, its record and the ranks. -/
def claimView (d : Channel) (t : State) : LeaseRecord × ChannelRecord × Table 3 PortRecord :=
    (t.lease d, t.chan d, t.ports)

theorem claimOutcome_congr {o : ClaimOptions} {d : Channel} {t u : State} (h : claimView d t = claimView d u) :
    t.claimOutcome p o d = u.claimOutcome p o d := by
  simp only [claimView, Prod.mk.injEq] at h
  obtain ⟨h1, h2, h3⟩ := h
  have hr : ∀ q, t.rank q = u.rank q := fun q => by simp only [State.rank, State.port, h3]
  unfold State.claimOutcome State.preempts State.holder
  rw [h1, h2]
  simp only [hr]

theorem claimChannel_congr {o : ClaimOptions} {n : Nat} {d : Channel} {t u : State}
    (h : claimView d t = claimView d u) : claimView d (t.claimChannel p o n d) = claimView d (u.claimChannel p o n d)
    := by
  have ho := claimOutcome_congr (p := p) (o := o) h
  have hh := h
  simp only [claimView, Prod.mk.injEq] at h
  obtain ⟨h1, h2, h3⟩ := h
  have hr : t.rank = u.rank := by funext q; simp only [State.rank, State.port, h3]
  unfold State.claimChannel
  rw [ho]
  split
  · simp [claimView, State.claimGrant_lease, h1, h2, h3]
  · simp [claimView, State.claimWait, State.waits, h1, h2, h3, hr]
  · exact hh

theorem claimChannel_lease_ne (o : ClaimOptions) (n : Nat) {c d : Channel} (t : State) (h : c ≠ d) :
    (t.claimChannel p o n c).lease d = t.lease d := by
  unfold State.claimChannel
  split
  · simp [State.claimGrant_lease, h]
  · simp [State.claimWait, h]
  · rfl

theorem claimAll_lease (o : ClaimOptions) (n : Nat) (m : Mask) (d : Channel) :
    (s.claimAll p o n m).lease d = if inMask m d then (s.claimChannel p o n d).lease d else s.lease d := by
  have := overAll_local (act := fun c t => if inMask m c then t.claimChannel p o n c else t) d (claimView d)
    (fun j t hj => by
      split
      · simp [claimView, claimChannel_lease_ne _ _ _ hj]
      · rfl)
    (fun t u h => by
      split
      · exact claimChannel_congr h
      · exact h) s
  have h := congrArg Prod.fst this
  change (s.claimAll p o n m).lease d = _ at h
  rw [h]
  split <;> rfl

theorem joinWaiters_split (rank : Port → BitVec 2) (p : Port) (n : Nat) (ws : List Waiter)
    (ho : ws.Pairwise (fun v w => rank w.port ≤ rank v.port)) :
    ∃ before after, joinWaiters rank { port := p, duration := n } ws = before ++ { port := p, duration := n } :: after ∧ ws = before ++ after ∧
      (∀ w ∈ before, rank p ≤ rank w.port) ∧ (∀ w ∈ after, rank w.port < rank p) := by
  refine ⟨_, _, rfl, (List.takeWhile_append_dropWhile ..).symm, ?_, ?_⟩
  · intro w hw
    have := List.mem_takeWhile_imp hw
    simpa using this
  · intro w hw
    rcases hd : ws.dropWhile (fun v => decide (rank p ≤ rank v.port)) with _ | ⟨x, xs⟩
    · simp only [hd] at hw; cases hw
    · simp only [hd] at hw
      have hx : ¬ rank p ≤ rank x.port := by
        have := List.head_dropWhile_not (fun v : Waiter => decide (rank p ≤ rank v.port)) (l := ws) (by rw [hd]; simp)
        simp only [hd] at this
        exact of_decide_eq_false this
      have hsub : (x :: xs).Pairwise (fun v w => rank w.port ≤ rank v.port) := by
        rw [← hd]; exact ho.sublist (List.dropWhile_sublist _)
      rcases List.mem_cons.mp hw with rfl | hw
      · simpa using hx
      · have := (List.pairwise_cons.mp hsub).1 w hw
        have hx : rank x.port < rank p := by simpa using hx
        bv_omega

theorem waitAgain_split (p : Port) (n : Nat) (ws : List Waiter) (hn : (ws.map Waiter.port).Nodup)
    (hw : ws.any (fun w => w.port == p) = true) :
    ∃ before w after, ws = before ++ w :: after ∧ w.port = p ∧
      ws.map (fun w => if w.port = p then { w with duration := n } else w) = before ++ { port := p, duration := n } :: after := by
  induction ws with
  | nil => simp at hw
  | cons x xs ih =>
    simp only [List.map_cons, List.nodup_cons] at hn
    by_cases hx : x.port = p
    · refine ⟨[], x, xs, rfl, hx, ?_⟩
      subst hx
      simp only [List.map_cons, if_true, List.nil_append, List.cons.injEq, true_and]
      rw [List.map_congr_left (g := id), List.map_id]
      intro w hw
      rw [if_neg]; rfl
      intro h
      exact absurd (List.mem_map.mpr ⟨w, hw, h⟩) hn.1
    · obtain ⟨b, w, a, h1, h2, h3⟩ := ih hn.2 (by simpa [hx] using hw)
      exact ⟨x :: b, w, a, by simp [h1], h2, by simp [hx, h3]⟩

/-- One channel of a Claim is decided by the rows of R27. -/
theorem claim_row (o : ClaimOptions) (n : Nat) (c : Channel)
    (hi : LeaseLaw s.rank (s.lease c) ∨ o.wait = false) :
    ClaimRow s p n o.wait o.preempt c ((s.claimChannel p o n c).lease c) (s.claimOutcome p o c) := by
  unfold State.claimChannel
  rcases ho : s.claimOutcome p o c with _ | _ | _
  all_goals
    dsimp only
    unfold State.claimOutcome at ho
    by_cases hu : (s.chan c).state = .unavailable
  · rw [if_pos hu] at ho; cases ho
  · rw [if_neg hu] at ho
    rw [State.claimGrant_lease, if_pos rfl]
    unfold LeaseRecord.claimed
    unfold State.holder at ho
    rcases hh : (s.lease c).held with _ | l
    · exact .free hu (by simp [State.holder, hh])
    · simp only [hh, Option.map_some] at ho ⊢
      by_cases hp : l.holder = p
      · rw [if_pos hp]; rw [renewed_eq]; exact .own hu l hh hp
      · rw [if_neg hp] at ho ⊢
        by_cases hpr : s.preempts p o l.holder = true
        · simp [State.preempts] at hpr
          rw [withoutWaiter_eq_filter]
          exact .preempted l.holder hu (by simp [State.holder, hh]) hp hpr.1 hpr.2
        · rw [if_neg hpr] at ho
          split at ho <;> cases ho
  · rw [if_pos hu] at ho; cases ho
  · rw [if_neg hu] at ho
    unfold State.holder at ho
    rcases hh : (s.lease c).held with _ | l
    · simp [hh] at ho
    · simp only [hh, Option.map_some] at ho
      by_cases hp : l.holder = p
      · rw [if_pos hp] at ho; cases ho
      · rw [if_neg hp] at ho
        by_cases hpr : s.preempts p o l.holder = true
        · rw [if_pos hpr] at ho; cases ho
        · rw [if_neg hpr] at ho
          have hw : o.wait = true := by
            by_contra h; rw [if_neg h] at ho; cases ho
          have law := hi.resolve_right (by simp [hw])
          have hnp : ¬(o.preempt = true ∧ s.rank l.holder < s.rank p) := by simpa [State.preempts] using hpr
          unfold State.claimWait
          simp only [State.setLease_lease_self]
          split <;> rename_i hwt
          · obtain ⟨b, w, a, h1, h2, h3⟩ := waitAgain_split p n _ law.noneTwice hwt
            rw [h3]
            exact .waitsAgain l.holder b a w hu (by simp [State.holder, hh]) hp hnp hw h1 h2
          · obtain ⟨b, a, h1, h2, h3, h4⟩ := joinWaiters_split s.rank p n _ law.ordered
            rw [h1]
            refine .joined l.holder b a hu (by simp [State.holder, hh]) hp hnp hw ?_ h2 h3 h4
            simpa [State.waits] using hwt
  · exact .unavailable hu
  · rw [if_neg hu] at ho
    unfold State.holder at ho
    rcases hh : (s.lease c).held with _ | l
    · simp [hh] at ho
    · simp only [hh, Option.map_some] at ho
      by_cases hp : l.holder = p
      · rw [if_pos hp] at ho; cases ho
      · rw [if_neg hp] at ho
        by_cases hpr : s.preempts p o l.holder = true
        · rw [if_pos hpr] at ho; cases ho
        · rw [if_neg hpr] at ho
          have hnp : ¬(o.preempt = true ∧ s.rank l.holder < s.rank p) := by simpa [State.preempts] using hpr
          exact .refused l.holder hu (by simp [State.holder, hh]) hp hnp (by
            by_contra h; rw [if_pos (by simpa using h)] at ho; cases ho)

theorem claim_event (o : ClaimOptions) (n : Nat) (c : Channel) (q : Port) (t : State) :
    (t.claimChannel p o n c).event q = seenPreemption t p o.preempt q c (t.event q) := by
  unfold State.claimChannel seenPreemption
  rcases ho : t.claimOutcome p o c with _ | _ | _
  all_goals
    dsimp only
    unfold State.claimOutcome at ho
    by_cases hu : (t.chan c).state = .unavailable
    · simp_all <;> (split <;> rfl)
    rw [if_neg hu] at ho
    rcases hh : t.holder c with _ | l
    all_goals simp only [hh] at ho
  · have hk : (t.lease c).held = none := by simpa [State.holder] using hh
    unfold State.claimGrant; simp [hk]
  · obtain ⟨k, hk, rfl⟩ : ∃ k, (t.lease c).held = some k ∧ k.holder = l := by simpa [State.holder] using hh
    unfold State.claimGrant; simp only [hk]
    by_cases hp : k.holder = p
    · simp [hp]
    · rw [if_neg hp] at ho ⊢
      by_cases hpr : t.preempts p o k.holder = true
      · simp [State.preempts] at hpr
        simp [State.preempt, State.sendTo_event, hp, hpr, hu]
      · rw [if_neg hpr] at ho; by_cases hw : o.wait = true <;> simp [hw] at ho
  · cases ho
  · unfold State.claimWait
    have : ¬(l ≠ p ∧ o.preempt = true ∧ t.rank l < t.rank p) := by
      intro h; rw [if_neg h.1] at ho; simp [State.preempts, h] at ho
    simp only [State.setLease_event]; rw [if_neg (fun h => this ⟨h.2.1, h.2.2.1, h.2.2.2.1⟩)]
  · cases ho
  · have : ¬(l ≠ p ∧ o.preempt = true ∧ t.rank l < t.rank p) := by
      intro h; rw [if_neg h.1] at ho; simp [State.preempts, h] at ho
    simp only []; rw [if_neg (fun h => this ⟨h.2.1, h.2.2.1, h.2.2.2.1⟩)]

theorem claimAll_event (o : ClaimOptions) (n : Nat) (m : Mask) (q : Port) :
    (s.claimAll p o n m).event q = (ascending 16).foldl (fun u c => if inMask m c = true then seenPreemption s p o.preempt q c u else u) (s.event q) := by
  refine (overAll_fold (fun t => t.event q) (fun c t => (claimView c t,
      t.timeCount)) (fun c k u => if inMask m c = true then
    (match k.1.1.held.map Lease.holder with
     | none => u
     | some old => if old = q ∧ old ≠ p ∧ o.preempt = true ∧ (k.1.2.2.get old).rank < (k.1.2.2.get p).rank ∧ k.1.2.1.state ≠ .unavailable then
       u.take { kind := .leaseLost, channel := channelByte c, reason := portByte p, tag := 0, time := k.2 } else u) else u) ?_ ?_ s).trans rfl
  · intro c t; split
    · rw [claim_event]; rfl
    · rfl
  · intro i j t hij; split
    · simp [claimView, claimChannel_lease_ne _ _ _ hij]
    · rfl

theorem claimAll_frame (P) (o : ClaimOptions) (n : Nat) (m : Mask) : withPorts (s.claimAll p o n m) P =
    { s with leases := (withPorts (s.claimAll p o n m) P).leases, events := (withPorts (s.claimAll p o n m) P).events, ports := (withPorts (s.claimAll p o n m) P).ports } := by
  ext1 <;> simp

/-- ATOMIC passes a channel exactly where the Claim would grant it (R28). -/
theorem atomic_iff (o : ClaimOptions) (ho : o.wait = false) (c : Channel) : s.claimOutcome p o c = .granted ↔
    AtomicPasses s p o.preempt c := by
  unfold State.claimOutcome AtomicPasses
  by_cases hu : (s.chan c).state = .unavailable
  · simp [hu]
  · rw [if_neg hu]
    rcases hh : s.holder c with _ | l
    · simp [hu]
    · by_cases hp : l = p
      · simp [hp, hu]
      · by_cases hpr : s.preempts p o l = true
        · have := hpr; simp [State.preempts] at hpr; simp [hp, this, hu, hpr]
        · have := hpr; simp [State.preempts] at hpr; simp [hp, this, ho, hu]; exact hpr

/-! Port Clear -/

/-- Port Clear on one channel's lease (R48). -/
theorem clearLease_lease (c d : Channel) (t : State) : (t.clearLease p c).lease d =
   if c = d then (if t.holder d = some p then afterLoss ((t.lease d).waiters.filter (fun w => w.port ≠ p))
        else { t.lease d with waiters := (t.lease d).waiters.filter (fun w => w.port ≠ p) }) else t.lease d := by
  unfold State.clearLease
  dsimp only
  have hw : ∀ d, (if t.waits p c = true then t.withdraw p c else t).lease d = if c = d then { t.lease d with waiters := withoutWaiter p (t.lease d).waiters } else t.lease d := by
    intro d
    split
    · rw [State.withdraw_lease]
    · rename_i h
      split
      · rename_i hc; subst hc
        have : withoutWaiter p (t.lease c).waiters = (t.lease c).waiters := by
          unfold withoutWaiter; rw [List.filter_eq_self]
          intro w hw
          unfold State.waits at h
          simp at h ⊢; exact h w hw
        rw [this]
      · rfl
  have hh : ∀ d, (if t.waits p c = true then t.withdraw p c else t).holder d = t.holder d := by
    intro d; unfold State.holder; rw [hw]; split <;> rfl
  by_cases hp : t.holder c = some p
  · rw [if_pos (by simp [State.holds, hh, hp])]
    rw [State.releaseChannel_lease, hw]
    by_cases hc : c = d
    · subst hc; simp only [if_true,
        hp]; rw [← withoutWaiter_eq_filter]; exact granted_eq_afterLoss { held := none, waiters := withoutWaiter p (t.lease c).waiters }
    · simp [hc]
  · rw [if_neg (by simp [State.holds, hh, hp]), hw]
    by_cases hc : c = d
    · subst hc; simp only [if_true, hp, if_false, ← withoutWaiter_eq_filter]
    · simp [hc]

theorem withdraw_holder (c d : Channel) (t : State) : (if t.waits p c = true then t.withdraw p c else t).holder d =
    t.holder d := by
  unfold State.holder
  split
  · rw [State.withdraw_lease]; split <;> rfl
  · rfl

theorem clearLease_chan (c d : Channel) (t : State) : (t.clearLease p c).chan d =
   if c = d ∧ t.holder d = some p then safeRecord (t.chan d) else t.chan d := by
  unfold State.clearLease
  dsimp only
  have h1 : ∀ d, (if t.waits p c = true then t.withdraw p c else t).chan d = t.chan d := by intro d; split <;> simp
  by_cases hp : t.holder c = some p
  · rw [if_pos (by simp [State.holds, withdraw_holder, hp]), release_chan, h1]
    by_cases hc : c = d
    · subst hc; simp [hp]
    · simp [hc]
  · rw [if_neg (by simp [State.holds, withdraw_holder, hp]), h1, if_neg]
    rintro ⟨rfl, h⟩; exact hp h

theorem clearLease_queue (c : Channel) (t : State) : (t.clearLease p c).queue =
   if t.holder c = some p then safeQueue (t.chan c) c t.queue else t.queue := by
  unfold State.clearLease
  dsimp only
  have h1 : ∀ d, (if t.waits p c = true then t.withdraw p c else t).chan d = t.chan d := by intro d; split <;> simp
  have h2 : (if t.waits p c = true then t.withdraw p c else t).queue = t.queue := by split <;> simp
  by_cases hp : t.holder c = some p
  · rw [if_pos (by simp [State.holds, withdraw_holder, hp]), release_queue, h1, h2]; simp [hp]
  · rw [if_neg (by simp [State.holds, withdraw_holder, hp]), h2]; simp [hp]

theorem clearLease_event (q : Port) (c : Channel) (t : State) : (t.clearLease p c).event q =
   if t.holder c = some p then seenGrant q t.timeCount c ((t.lease c).waiters.filter (fun w => w.port ≠ p)) (t.event q) else t.event q := by
  unfold State.clearLease
  dsimp only
  have h1 : (if t.waits p c = true then t.withdraw p c else t).event q = t.event q := by split <;> simp
  have h2 : (if t.waits p c = true then t.withdraw p c else t).timeCount = t.timeCount := by split <;> simp
  have h3 : ((if t.waits p c = true then t.withdraw p c else t).lease c).waiters = (t.lease c).waiters.filter (fun w => w.port ≠ p) := by
    split
    · rw [State.withdraw_lease, if_pos rfl, withoutWaiter_eq_filter]
    · rename_i h
      rw [← withoutWaiter_eq_filter]; unfold withoutWaiter; symm; rw [List.filter_eq_self]
      intro w hw
      unfold State.waits at h
      simp at h ⊢; exact h w hw
  by_cases hp : t.holder c = some p
  · rw [if_pos (by simp [State.holds, withdraw_holder, hp]), release_event, h1, h2, h3]; simp [hp]
  · rw [if_neg (by simp [State.holds, withdraw_holder, hp]), h1]; simp [hp]

end Sys2Proof.Safety
end

