-- ==== Sys2Proof/Laws/KeptBasics.lean ====
section
/-! SUPPORT. The laws of the part under a change of one field, and safe entry. Kept is Safety.Inv with its last law of
start-up optional and the law of device reset weakened. -/

namespace Sys2Proof.Safety

open Sys2Proof.Machine

variable {b : Prop} {s : State}

/-- The laws of start-up without the one that STARTING lasts only while a channel is STARTING: an act on one channel keeps
these, and the end of start-up restores that one. -/
structure StartKept (s : State) : Prop where
  phase : (∃ c, (s.chan c).state = .starting) → s.devicePhase = .starting
  noLease : s.devicePhase = .starting → ∀ c, s.lease c = LeaseRecord.reset
  noCommit : s.devicePhase = .starting → ∀ p, s.commit p = CommitRecord.reset
  noLive : s.devicePhase = .starting → ∀ c, (s.chan c).state ≠ .live

/-- What an act on one block keeps of the law of device reset; that nothing but the levels of the chip selects changes while
it lasts is said of whole commands (KeptReset). -/
structure ResetKept (s : State) : Prop where
  starting : s.inReset = true → s.devicePhase = .starting
  deselected : s.inReset = true → ∀ p, (s.port p).phase = .deselected
  released : s.inReset = true → s.faultAsserted = false
  probing : s.inReset = true → s.linkPhase = .probing

theorem ResetLaw.kept (h : ResetLaw s) : ResetKept s :=
  ⟨fun x => (h x).phase, fun x p => ((h x).ports p).1, fun x => (h x).fault, fun x => (h x).queue.2.2⟩

/-- The laws of the part, the last law of start-up only under b, the law of device reset as far as one block goes. -/
structure Kept (b : Prop) (s : State) : Prop where
  channels : ∀ c, ChannelLaw (s.chan c)
  leases : ∀ c, LeaseLaw s.rank (s.lease c)
  leads : ∀ p, s.lead p ≤ Config.maxLead
  commits : ∀ p, CommitLaw (s.commit p)
  events : ∀ p, EventLaw (s.event p)
  ports : ∀ p, PortLaw (s.port p)
  slots : ∀ k, SlotLaw (s.slot k)
  link : LinkLaw s
  start : StartKept s
  reset : ResetKept s
  fault : FaultLaw s
  hold : HoldLaw s
  sp : b → s.devicePhase = .starting → ∃ c, (s.chan c).state = .starting

/-- The laws of the part, with the last law of start-up. -/
theorem Kept.of (h : Inv s) : Kept True s :=
  ⟨h.channels, h.leases, h.leads, h.commits, h.events, h.ports, h.slots, h.link,
   ⟨h.startup.phase.2, h.startup.noLease, h.startup.noCommit,
       h.startup.noLive⟩, h.reset.kept, h.fault, h.hold, fun _ => h.startup.phase.1⟩

/-- With the last law of start-up and the law of device reset they are the laws of the part. -/
theorem Kept.to (h : Kept True s) (hr : ResetLaw s) : Inv s :=
  ⟨h.channels, h.leases, h.leads, h.commits, h.events, h.ports, h.slots, h.link,
   ⟨⟨h.sp trivial, h.start.phase⟩, h.start.noLease, h.start.noCommit, h.start.noLive⟩, hr, h.fault, h.hold⟩

theorem Kept.weaken (h : Kept b s) : Kept False s := { h with sp := fun x => x.elim }

theorem Kept.ofEvents (h : Kept b s) (ev : Table 3 EventUnit) (he : ∀ p, EventLaw (ev.get p)) :
    Kept b { s with events := ev } :=
  ⟨h.channels, h.leases, h.leads, h.commits, he, h.ports, h.slots,
   ⟨h.link.1, h.link.2, h.link.3, h.link.4, h.link.5, h.link.6, h.link.7, h.link.8, h.link.9⟩,
   ⟨h.start.1, h.start.2, h.start.3, h.start.4⟩, ⟨h.reset.1, h.reset.2, h.reset.3, h.reset.4⟩, ⟨h.fault.1,
       h.fault.2⟩, h.hold, h.sp⟩

theorem Kept.ofLeases (h : Kept b s) (ls : Table 16 LeaseRecord) (hl : ∀ c, LeaseLaw s.rank (ls.get c))
    (hs : s.devicePhase = .starting → ∀ c, ls.get c = LeaseRecord.reset)
    (hh : ∀ c, (s.chan c).state = .unavailable → ls.get c = LeaseRecord.reset) :
    Kept b { s with leases := ls } :=
  ⟨h.channels, hl, h.leads, h.commits, h.events, h.ports, h.slots,
   ⟨h.link.1, h.link.2, h.link.3, h.link.4, h.link.5, h.link.6, h.link.7, h.link.8, h.link.9⟩,
   ⟨h.start.1, hs, h.start.3, h.start.4⟩, ⟨h.reset.1, h.reset.2, h.reset.3, h.reset.4⟩, ⟨h.fault.1,
       h.fault.2⟩, hh, h.sp⟩

theorem Kept.ofLeads (h : Kept b s) (ls : Table 3 Nat) (hl : ∀ p, ls.get p ≤ Config.maxLead) :
    Kept b { s with leads := ls } :=
  ⟨h.channels, h.leases, hl, h.commits, h.events, h.ports, h.slots,
   ⟨h.link.1, h.link.2, h.link.3, h.link.4, h.link.5, h.link.6, h.link.7, h.link.8, h.link.9⟩,
   ⟨h.start.1, h.start.2, h.start.3, h.start.4⟩, ⟨h.reset.1, h.reset.2, h.reset.3, h.reset.4⟩, ⟨h.fault.1,
       h.fault.2⟩, h.hold, h.sp⟩

theorem Kept.ofCommits (h : Kept b s) (cs : Table 3 CommitRecord) (hc : ∀ p, CommitLaw (cs.get p))
    (hs : s.devicePhase = .starting → ∀ p, cs.get p = CommitRecord.reset)
    (hf : s.faultAsserted = true → ∀ p, (cs.get p).armed = none) :
    Kept b { s with commits := cs } :=
  ⟨h.channels, h.leases, h.leads, hc, h.events, h.ports, h.slots,
   ⟨h.link.1, h.link.2, h.link.3, h.link.4, h.link.5, h.link.6, h.link.7, h.link.8, h.link.9⟩,
   ⟨h.start.1, h.start.2, hs, h.start.4⟩, ⟨h.reset.1, h.reset.2, h.reset.3, h.reset.4⟩, ⟨h.fault.1, hf⟩, h.hold, h.sp⟩

theorem Kept.ofPorts (h : Kept b s) (ps : Table 3 PortRecord) (hp : ∀ p, PortLaw (ps.get p))
    (hr : s.devicePhase = .starting ∨ ∀ p, (ps.get p).rank = s.rank p)
    (hd : s.inReset = true → ∀ p, (ps.get p).phase = .deselected) :
    Kept b { s with ports := ps } :=
  ⟨h.channels, by
     intro c
     rcases hr with hr | hr
     · have e := h.start.noLease hr c
       show LeaseLaw _ (s.lease c)
       rw [e]
       constructor <;> simp [LeaseRecord.reset]
     · have : State.rank { s with ports := ps } = s.rank := funext hr
       rw [this]; exact h.leases c,
   h.leads, h.commits, h.events, hp, h.slots,
   ⟨h.link.1, h.link.2, h.link.3, h.link.4, h.link.5, h.link.6, h.link.7, h.link.8, h.link.9⟩,
   ⟨h.start.1, h.start.2, h.start.3, h.start.4⟩, ⟨h.reset.1, hd, h.reset.3, h.reset.4⟩, ⟨h.fault.1,
       h.fault.2⟩, h.hold, h.sp⟩

theorem Kept.ofClocks (h : Kept b s) (n : Word) (a : Bool) (l : List Instr) :
    Kept b { s with timeCount := n, syncArmed := a, pending := l } :=
  ⟨h.channels, h.leases, h.leads, h.commits, h.events, h.ports, h.slots,
   ⟨h.link.1, h.link.2, h.link.3, h.link.4, h.link.5, h.link.6, h.link.7, h.link.8, h.link.9⟩,
   ⟨h.start.1, h.start.2, h.start.3, h.start.4⟩, ⟨h.reset.1, h.reset.2, h.reset.3, h.reset.4⟩, ⟨h.fault.1,
       h.fault.2⟩, h.hold, h.sp⟩

/-- What a change of a channel record keeps of its state. -/
structure Kin (r r' : ChannelRecord) : Prop where
  starting : r'.state = .starting → r.state = .starting
  unavailable : r'.state = .unavailable ↔ r.state = .unavailable
  faulted : r'.state = .faulted → r.state = .faulted

theorem Kept.ofChannels {b' : Prop} (h : Kept b s) (cs : Table 16 ChannelRecord) (q : List UpdateEntry)
    (hlaw : ∀ c, ChannelLaw (cs.get c)) (hkin : ∀ c, Kin (s.chan c) (cs.get c))
    (hlive : ∀ c,
        (cs.get c).state = .live → (s.chan c).state = .live ∨ (s.devicePhase = .running ∧ s.faultAsserted = false))
    (hpr : s.linkPhase = .probing → q = [] ∧ ∀ c, (s.chan c).state = .starting → cs.get c = s.chan c)
    (hnd : (q.map UpdateEntry.channel).Nodup) (hq : ∀ e ∈ q, Deliverable (cs.get e.channel).state)
    (hsp : b' → b ∧ ∀ c, (s.chan c).state = .starting → (cs.get c).state = .starting) :
    Kept b' { s with channels := cs, queue := q } := by
  have hdel : ∀ c, Deliverable (s.chan c).state → Deliverable (cs.get c).state := fun c hd =>
    ⟨fun hf => hd.1 ((hkin c).faulted hf), fun hu => hd.2 ((hkin c).unavailable.1 hu)⟩
  have pslot : ∀ c, (s.slot (slotOf c)).state = .probing → s.linkPhase = .probing := by
    intro c hc
    rw [h.link.probingPhase]
    unfold State.probed
    rw [List.find?_isSome]
    exact ⟨slotOf c, List.mem_finRange _, by simp [hc]⟩
  refine ⟨hlaw, h.leases, h.leads, h.commits, h.events, h.ports, h.slots,
   ⟨hnd, hq, fun e he => hdel _ (h.link.flyingDeliverable e he), h.link.4, h.link.5, ?_, ?_, ?_, ?_⟩,
   ⟨?_, h.start.2, h.start.3, ?_⟩, ⟨h.reset.1, h.reset.2, h.reset.3, h.reset.4⟩, ⟨?_, h.fault.2⟩, ?_, ?_⟩
  · exact fun hp => ⟨(hpr hp).1, (h.link.probingEmpty hp).2⟩
  · intro c hc
    show (cs.get c).state = _
    rw [(hpr (pslot c hc)).2 c (h.link.probingSlot c hc)]; exact h.link.probingSlot c hc
  · intro hp c
    rcases h.link.probingChannel hp c with hc | hc
    · left; show cs.get c = _
      rw [(hpr hp).2 c (by rw [hc]; rfl)]; exact hc
    · exact Or.inr ((hkin c).unavailable.2 hc)
  · exact fun c => (h.link.absentSlot c).trans (hkin c).unavailable.symm
  · exact fun ⟨c, hc⟩ => h.start.phase ⟨c, (hkin c).starting hc⟩
  · intro hp c hc
    rcases hlive c hc with hl | hl
    · exact h.start.noLive hp c hl
    · rw [hl.1] at hp; cases hp
  · intro hp c hc
    rcases hlive c hc with hl | hl
    · exact h.fault.noLive hp c hl
    · have : s.faultAsserted = true := hp
      rw [hl.2] at this; cases this
  · exact fun c hc => h.hold c ((hkin c).unavailable.1 hc)
  · intro hb hp
    obtain ⟨c, hc⟩ := h.sp (hsp hb).1 hp
    exact ⟨c, (hsp hb).2 c hc⟩

theorem Kept.setChan (h : Kept b s) (c : Channel) (r : ChannelRecord) (law : ChannelLaw r) (kin : Kin (s.chan c) r)
    (live : r.state = .live → (s.chan c).state = .live ∨ (s.devicePhase = .running ∧ s.faultAsserted = false))
    (st : (s.chan c).state = .starting → r.state = .starting ∧ (s.linkPhase = .probing → r = s.chan c)) :
    Kept b (s.setChan c r) := by
  have g : ∀ d, (s.channels.set c r).get d = if c = d then r else s.chan d := fun d => Table.get_set _ _ _ _
  refine Kept.ofChannels h (s.channels.set c r) s.queue ?_ ?_ ?_ ?_ h.link.oncePerChannel ?_ ?_
  · intro d; rw [g]; split
    · exact law
    · exact h.channels d
  · intro d; rw [g]; split
    · rename_i hd; subst hd; exact kin
    · exact ⟨id, Iff.rfl, id⟩
  · intro d; rw [g]; split
    · rename_i hd; subst hd; exact live
    · exact Or.inl
  · refine fun hp => ⟨(h.link.probingEmpty hp).1, ?_⟩
    intro d; rw [g]; split
    · rename_i hd; subst hd; exact fun hs => (st hs).2 hp
    · exact fun _ => rfl
  · intro e he; rw [g]
    have := h.link.waitingDeliverable e he
    split
    · rename_i hd; subst hd
      exact ⟨fun hf => this.1 (kin.faulted hf), fun hu => this.2 (kin.unavailable.1 hu)⟩
    · exact this
  · intro hb; refine ⟨hb, ?_⟩
    intro d; rw [g]; split
    · rename_i hd; subst hd; exact fun hs => (st hs).1
    · exact id

/-- Placing a code for a SAFE or LIVE channel. -/
theorem Kept.place (h : Kept b s) (c : Channel) (hst : (s.chan c).state = .safe ∨ (s.chan c).state = .live)
    (code : Code) (origin : Origin) : Kept b (s.place c code origin) := by
  have np : s.linkPhase ≠ .probing := by
    intro hp
    rcases h.link.probingChannel hp c with hc | hc <;> rw [hc] at hst <;> simp [ChannelRecord.reset] at hst
  refine Kept.ofChannels (b' := b) h s.channels _ h.channels (fun c => ⟨id, Iff.rfl, id⟩) (fun _ => Or.inl)
    (fun hp => absurd hp np) (place_nodup h.link.oncePerChannel _ _ _) ?_ (fun hb => ⟨hb, fun _ => id⟩)
  intro e he
  rcases mem_place he with rfl | ⟨he, _⟩
  · show Deliverable (s.chan c).state
    rcases hst with hst | hst <;> rw [hst] <;> simp [Deliverable]
  · exact h.link.waitingDeliverable e he

theorem clamp_in {r : ChannelRecord} (h : r.limitLow ≤ r.limitHigh) (code : Code) :
    r.limitLow ≤ r.clamp code ∧ r.clamp code ≤ r.limitHigh := by
  unfold ChannelRecord.clamp
  split
  · constructor <;> bv_omega
  · split <;> constructor <;> bv_omega

theorem channelLimits {r : ChannelRecord} (h : ChannelLaw r) : r.limitLow ≤ r.limitHigh := by
  have := h.1; bv_omega

theorem target_fallback {r : ChannelRecord} (h : r.target = r.fallback) : { r with target := r.fallback } = r := by
  cases r; simp only at h; subst h; rfl

theorem ChannelLaw.safed {r : ChannelRecord} (h : ChannelLaw r) : ChannelLaw r.safed := by
  unfold ChannelRecord.safed
  have hf := h.failureCount
  rcases hs : r.state with _ | _ | _ | _ | _ <;> simp only
  · have e := h.startingRests hs
    have hfb : r.fallback = 0 := by rw [e]; rfl
    have htg : r.target = 0 := by rw [e]; rfl
    rw [← hs, target_fallback (htg.trans hfb.symm)]; exact h
  · exact h
  · constructor <;> simp only [ChannelRecord.toFallback]
    · exact h.1
    · exact h.1
    · simp
    · rw [hs] at hf; simpa using hf
    · simp
    · simp
  · constructor <;> simp only [ChannelRecord.toFallback]
    · exact h.1
    · exact h.1
    · simp
    · rw [hs] at hf; simpa using hf
    · simp
    · simp
  · constructor <;> simp only
    · exact h.1
    · exact h.1
    · simp
    · rw [hs] at hf; simpa using hf
    · simp
    · simp

theorem kin_safed (r : ChannelRecord) : Kin r r.safed := by
  unfold ChannelRecord.safed
  rcases hs : r.state with _ | _ | _ | _ | _ <;> constructor <;> simp [hs]

/-- Safe entry keeps the laws (R11, R12). -/
theorem Kept.safeEntry (h : Kept b s) (c : Channel) : Kept b (s.safeEntry c) := by
  have h1 : Kept b (s.setChan c (s.chan c).safed) := by
    refine h.setChan c _ (ChannelLaw.safed (h.channels c)) (kin_safed _) ?_ ?_
    · unfold ChannelRecord.safed
      rcases hs : (s.chan c).state with _ | _ | _ | _ | _ <;> simp [hs]
    · intro hs
      have : (s.chan c).safed = s.chan c := by
        have e := (h.channels c).startingRests hs
        unfold ChannelRecord.safed
        rw [hs]
        simp only
        rw [← hs]
        refine target_fallback ?_
        rw [e]; rfl
      rw [this]; exact ⟨hs, fun _ => rfl⟩
  unfold State.safeEntry
  dsimp only
  split
  · rename_i hj
    refine h1.place c ?_ _ _
    left
    simp only [State.setChan_chan_self]
    unfold ChannelRecord.safed
    simp only [ChannelRecord.safeJumps, Bool.and_eq_true, Bool.or_eq_true, beq_iff_eq] at hj
    rcases hj.1 with hs | hs <;> simp [hs]
  · exact h1

end Sys2Proof.Safety
end

