-- ==== Sys2Proof/Laws/KeptLeases.lean ====
section
/-! SUPPORT. Event records, leases and armed sets keep the laws of the part. -/

namespace Sys2Proof.Safety

open Sys2Proof.Machine

variable {b : Prop} {s : State}

theorem law_enqueue {u : EventUnit} (h : EventLaw u) (r : EventRecord) (hr : r.kind ≠ .overflow) :
    EventLaw { u with queue := enqueue u.queue r } := by
  unfold enqueue
  rcases hq : u.queue.getLast? with _ | last
  · constructor <;> simp [Config.eventCapacity, hr]
  · have hne : u.queue ≠ [] := by intro e; rw [e] at hq; simp at hq
    have hl : u.queue.getLast hne = last := by
      rw [List.getLast?_eq_getLast_of_ne_nil hne] at hq; simpa using hq
    have hsplit : u.queue = u.queue.dropLast ++ [last] := by rw [← hl]; exact (List.dropLast_append_getLast hne).symm
    have hlen : u.queue.length = u.queue.dropLast.length + 1 := by
      conv_lhs => rw [hsplit]
      simp
    have hcap := h.capacity
    simp only [Config.eventCapacity] at hcap
    dsimp only
    split
    · rename_i hk
      have hm : last ∈ u.queue := by rw [hsplit]; simp
      have ht := h.lostCount last hm hk
      constructor
      · simp [Config.eventCapacity]; omega
      · simpa using h.overflowLast
      · intro x hx hxk
        simp only [List.mem_append, List.mem_singleton] at hx
        rcases hx with hx | rfl
        · exact h.lostCount x (List.dropLast_subset _ hx) hxk
        · have h255 : Config.maxLost = 255 := rfl
          rw [h255] at ht
          unfold EventRecord.lostOneMore
          rw [h255]
          by_cases hlt : last.tag < 255
          · simp only [hlt, if_true]; constructor <;> bv_omega
          · simp only [hlt, if_false]; exact ht
    · rename_i hk
      have hno : ∀ x ∈ u.queue, x.kind ≠ .overflow := by
        intro x hx
        rw [hsplit] at hx
        simp only [List.mem_append, List.mem_singleton] at hx
        rcases hx with hx | rfl
        · exact h.overflowLast x hx
        · exact hk
      split
      · rename_i hc
        simp only [Config.eventCapacity] at hc
        constructor
        · simp [Config.eventCapacity]; omega
        · simpa using hno
        · intro x hx hxk
          simp only [List.mem_append, List.mem_singleton] at hx
          rcases hx with hx | rfl
          · exact absurd hxk (hno x hx)
          · exact absurd hxk hr
      · constructor
        · simp [Config.eventCapacity]; omega
        · simpa using h.overflowLast
        · intro x hx hxk
          simp only [List.mem_append, List.mem_singleton] at hx
          rcases hx with hx | rfl
          · exact h.lostCount x (List.dropLast_subset _ hx) hxk
          · simp only [overflowRecord, Config.maxLost]; constructor <;> decide

/-- An arriving record keeps the law of an event queue (R168). -/
theorem law_take {u : EventUnit} (h : EventLaw u) (r : EventRecord) (hr : r.kind ≠ .overflow) : EventLaw (u.take r) :=
    by
  unfold EventUnit.take
  split
  · exact law_enqueue h r hr
  · exact h

theorem Kept.setEvent (h : Kept b s) (p : Port) (u : EventUnit) (hu : EventLaw u) : Kept b (s.setEvent p u) := by
  refine h.ofEvents _ ?_
  intro q
  rw [Table.get_set]
  split
  · exact hu
  · exact h.events q

theorem Kept.sendTo (h : Kept b s) (p : Port) (kind : EventKind) (hk : kind ≠ .overflow) (c r : Byte) (tag : Word) :
    Kept b (s.sendTo p kind c r tag) :=
  h.setEvent p _ (law_take (h.events p) _ hk)

theorem Kept.sendAll (h : Kept b s) (kind : EventKind) (hk : kind ≠ .overflow) (c r : Byte) (tag : Word) :
    Kept b (s.sendAll kind c r tag) :=
  overAll_induct (P := Kept b) (fun p _ ht => ht.sendTo p kind hk c r tag) s h

theorem Kept.sendHolderOrAll (h : Kept b s) (o : Option Port) (kind : EventKind) (hk : kind ≠ .overflow) (c r : Byte)
    (tag : Word) :
    Kept b (s.sendHolderOrAll o kind c r tag) := by
  unfold State.sendHolderOrAll
  split
  · exact h.sendTo _ _ hk _ _ _
  · exact h.sendAll _ hk _ _ _

theorem Kept.setLease (h : Kept b s) (c : Channel) (r : LeaseRecord) (hl : LeaseLaw s.rank r)
    (hs : s.devicePhase = .starting → r = LeaseRecord.reset)
    (hh : (s.chan c).state = .unavailable → r = LeaseRecord.reset) : Kept b (s.setLease c r) := by
  refine h.ofLeases _ ?_ ?_ ?_
  · intro d; rw [Table.get_set]; split
    · exact hl
    · exact h.leases d
  · intro hp d; rw [Table.get_set]; split
    · exact hs hp
    · exact h.start.noLease hp d
  · intro d; rw [Table.get_set]; split
    · rename_i e; subst e; exact hh
    · exact h.hold d

/-- a held channel is running and available -/
theorem Kept.running_of_held (h : Kept b s) {c : Channel} {l : Lease} (hl : (s.lease c).held = some l) :
    s.devicePhase ≠ .starting ∧ (s.chan c).state ≠ .unavailable := by
  constructor
  · intro hp; rw [h.start.noLease hp c] at hl; simp [LeaseRecord.reset] at hl
  · intro hp; rw [h.hold c hp] at hl; simp [LeaseRecord.reset] at hl

/-- Renewing a lease keeps the laws (R31). -/
theorem Kept.renewLease (h : Kept b s) (c : Channel) : Kept b (s.renewLease c) := by
  unfold State.renewLease
  split
  · exact h
  · rename_i l hl
    have hr := h.running_of_held hl
    have ll := h.leases c
    refine h.setLease c _ ?_ (fun x => absurd x hr.1) (fun x => absurd x hr.2)
    have ht := ll.times l hl
    constructor
    · intro l' hl'
      simp only [Option.some.injEq] at hl'
      subst hl'
      simp only [Lease.renewed]
      omega
    · simp
    · intro l' hl'
      simp only [Option.some.injEq] at hl'
      subst hl'
      exact ll.holderNotWaiting l hl
    · exact ll.noneTwice
    · exact ll.requested
    · exact ll.ordered
    · intro l' hl' _
      simp only [Option.some.injEq] at hl'
      subst hl'
      rfl

theorem law_granted {rank : Port → BitVec 2} {r : LeaseRecord} (h : LeaseLaw rank r) (l : Lease) (_ : r.held = some l) :
    LeaseLaw rank (({ r with held := none } : LeaseRecord).granted) := by
  unfold LeaseRecord.granted
  rcases hw : r.waiters with _ | ⟨w, ws⟩ <;> simp only
  · constructor <;> simp
  · have hn := h.noneTwice; have hq := h.requested; have ho := h.ordered
    rw [hw] at hn hq ho
    simp only [List.map_cons, List.nodup_cons] at hn
    constructor
    · intro l' hl'
      simp only [Option.some.injEq] at hl'
      subst hl'
      have := hq w (by simp)
      simp only [Lease.fresh]
      omega
    · simp
    · intro l' hl' v hv
      simp only [Option.some.injEq] at hl'
      subst hl'
      simp only [Lease.fresh]
      intro e
      exact hn.1 (e ▸ List.mem_map_of_mem hv)
    · exact hn.2
    · exact fun v hv => hq v (by simp [hv])
    · exact (List.pairwise_cons.mp ho).2
    · intro l' hl' hx
      simp only [Option.some.injEq] at hl'
      subst hl'
      simp [Lease.fresh] at hx

theorem law_filter {rank : Port → BitVec 2} {r : LeaseRecord} (h : LeaseLaw rank r) (f : Waiter → Bool) :
    LeaseLaw rank { r with waiters := r.waiters.filter f } := by
  constructor
  · exact h.times
  · intro e; simp only at e ⊢; rw [h.noHolderNoWaiter e]; rfl
  · exact fun l hl w hw => h.holderNotWaiting l hl w (List.mem_filter.mp hw).1
  · exact List.Nodup.sublist (List.Sublist.map _ (List.filter_sublist)) h.noneTwice
  · exact fun w hw => h.requested w (List.mem_filter.mp hw).1
  · exact List.Pairwise.sublist (List.filter_sublist) h.ordered
  · exact h.restarted

/-- the lease record of a loss of holder, then its events -/
theorem Kept.lose (h : Kept b s) (c : Channel) (l : Lease) (hl : (s.lease c).held = some l) :
    Kept b (s.setLease c (({ s.lease c with held := none } : LeaseRecord).granted)) := by
  have hr := h.running_of_held hl
  exact h.setLease c _ (law_granted (h.leases c) l hl) (fun x => absurd x hr.1) (fun x => absurd x hr.2)

theorem Kept.ofEventsOnly {t u : State} (h : Kept b u) (ev : ∀ p, EventLaw (t.event p))
    (e : t = { u with events := t.events }) :
    Kept b t := by
  rw [e]; exact h.ofEvents _ ev

/-- Safe entry and the loss of the holder act on separate records. -/
theorem State.safeEntry_dropHolder (s : State) (c : Channel) :
    (s.dropHolder c).safeEntry c = (s.safeEntry c).dropHolder c := by
  unfold State.safeEntry
  dsimp only
  rw [State.dropHolder_chan]
  split <;> rfl

/-- Ending a lease by a policy keeps the laws (R33, R42). -/
theorem Kept.releaseChannel (h : Kept b s) (policy : Policy) (c : Channel) (l : Lease)
    (hl : (s.lease c).held = some l) :
    Kept b (s.releaseChannel policy c) := by
  have key : ∀ t : State, Kept b t → t.lease c = s.lease c →
      Kept b ((t.dropHolder c).grantHead c) := by
    intro t ht e
    have h1 := ht.lose c l (e ▸ hl)
    refine Kept.ofEventsOnly h1 ?_ ?_
    · intro p
      rw [State.grantHead_event]
      split
      · exact ht.events p
      · split
        · exact law_take (ht.events p) _ (by simp)
        · exact ht.events p
    · apply State.ext <;> try simp
      apply Table.ext_get
      intro d
      show ((t.dropHolder c).grantHead c).lease d = State.lease (State.setLease _ _ _) d
      rw [State.grantHead_lease, State.dropHolder_lease]
      by_cases hd : c = d
      · subst hd; simp
      · simp [hd]
  cases policy
  · exact key s h rfl
  · have : s.releaseChannel .safe c = ((s.safeEntry c).dropHolder c).grantHead c := by
      show ((s.dropHolder c).safeEntry c).grantHead c = _
      rw [State.safeEntry_dropHolder]
    rw [this]
    exact key _ (h.safeEntry c) (by simp)

theorem Kept.expire (h : Kept b s) (c : Channel) (l : Lease) (hl : (s.lease c).held = some l) (q : Port) :
    Kept b (s.expire c q) := by
  have h1 := (h.safeEntry c).lose c l (by simpa using hl)
  refine Kept.ofEventsOnly h1 ?_ ?_
  · intro p
    unfold State.expire
    rw [State.grantHead_event]
    have : EventLaw ((((s.dropHolder c).safeEntry c).sendTo q .leaseExpired (channelByte c) noReason 0).event p) := by
      rw [State.sendTo_event]
      split
      · exact law_take (by simpa using h.events p) _ (by simp)
      · simpa using h.events p
    split
    · exact this
    · split
      · exact law_take this _ (by simp)
      · exact this
  · have hc : (s.expire c q).channels = (s.safeEntry c).channels ∧ (s.expire c q).queue = (s.safeEntry c).queue := by
      unfold State.expire
      rw [State.safeEntry_dropHolder]
      simp
    apply State.ext <;> try simp
    · exact hc.1
    · apply Table.ext_get
      intro d
      show (s.expire c q).lease d = State.lease (State.setLease _ _ _) d
      rw [State.expire_lease]
      by_cases hd : c = d
      · subst hd; simp
      · simp [hd]
    · exact hc.2

theorem Kept.reduceLease (h : Kept b s) (c : Channel) (l : Lease) (hl : (s.lease c).held = some l)
    (h1 : 1 < l.remaining) :
    Kept b (s.reduceLease c l) := by
  have hr := h.running_of_held hl
  have ll := h.leases c
  have ht := ll.times l hl
  have key : ∀ w, Kept b (s.setLease c { s.lease c with held := some { l with remaining := l.remaining - 1, warned := w, warningPutOff := false } }) := by
    intro w
    refine h.setLease c _ ?_ (fun x => absurd x hr.1) (fun x => absurd x hr.2)
    constructor
    · intro l' hl'
      simp only [Option.some.injEq] at hl'
      subst hl'
      simp only
      omega
    · simp
    · intro l' hl'
      simp only [Option.some.injEq] at hl'
      subst hl'
      exact ll.holderNotWaiting l hl
    · exact ll.noneTwice
    · exact ll.requested
    · exact ll.ordered
    · intro l' hl' hx
      simp only [Option.some.injEq] at hl'
      subst hl'
      cases hx
  unfold State.reduceLease
  dsimp only
  split
  · exact (key true).sendTo _ _ (by simp) _ _ _
  · exact key l.warned

theorem Kept.tickLease (h : Kept b s) (c : Channel) : Kept b (s.tickLease c) := by
  unfold State.tickLease
  split
  · exact h
  · rename_i l hl
    split
    · rename_i h1; exact h.reduceLease c l hl h1
    · exact h.expire c l hl _

theorem Kept.setCommit (h : Kept b s) (p : Port) (r : CommitRecord) (hc : CommitLaw r)
    (hs : s.devicePhase = .starting → r = CommitRecord.reset) (hf : s.faultAsserted = true → r.armed = none) :
    Kept b (s.setCommit p r) := by
  refine h.ofCommits _ ?_ ?_ ?_
  · intro q; rw [Table.get_set]; split
    · exact hc
    · exact h.commits q
  · intro hp q; rw [Table.get_set]; split
    · exact hs hp
    · exact h.start.noCommit hp q
  · intro hp q; rw [Table.get_set]; split
    · exact hf hp
    · exact h.fault.noArmed hp q

theorem Kept.disarm (h : Kept b s) (p : Port) : Kept b (s.disarm p) := by
  have hc := h.commits p
  refine h.setCommit p _ ?_ ?_ (fun _ => rfl)
  · constructor
    · exact hc.stagedOnce
    · simp
    · simp
    · simp
    · simp
    · exact hc.numberNotZero
  · intro hp; rw [h.start.noCommit hp p]; rfl

theorem Kept.tickArm (h : Kept b s) (p : Port) : Kept b (s.tickArm p) := by
  unfold State.tickArm
  split
  · exact h
  · rename_i a ha
    have hc := h.commits p
    split
    · exact h
    · split
      · exact (h.disarm p).sendTo _ _ (by simp) _ _ _
      · refine h.setCommit p _ ?_ ?_ ?_
        · constructor
          · exact hc.stagedOnce
          all_goals try (intro a' ha'; simp only [Option.some.injEq] at ha'; subst ha')
          · exact hc.armedOnce a ha
          · exact hc.armedSome a ha
          · exact hc.armedNumber a ha
          · have := hc.armedWindow a ha; simp only; omega
          · exact hc.numberNotZero
        · intro hp; rw [h.start.noCommit hp p] at ha; simp [CommitRecord.reset] at ha
        · intro hp; rw [h.fault.noArmed hp p] at ha; simp at ha

/-- A lease tick keeps the laws (R35 to R42, R74). -/
theorem Kept.tick (h : Kept b s) : Kept b s.tick :=
  overAll_induct (P := Kept b) (fun p _ ht => ht.tickArm p) _
    (overAll_induct (P := Kept b) (fun c _ ht => ht.tickLease c) _ (h.ofClocks (s.timeCount + 1) s.syncArmed s.pending))

end Sys2Proof.Safety
end

