-- ==== Sys2Proof/Laws/KeptCommits.lean ====
section
/-! SUPPORT. Commits, sync events and Claims keep the laws of the part. -/

namespace Sys2Proof.Safety

open Sys2Proof.Machine

variable {b : Prop} {s : State}

theorem Kept.state_running (h : Kept b s) (hr : s.devicePhase = .running) (c : Channel) : (s.chan c).state ≠ .starting
    := by
  intro e
  have := h.start.phase ⟨c, e⟩
  rw [hr] at this; cases this

/-- applying an entry -/
theorem Kept.applyEntry (h : Kept b s) (e : StageEntry) (hr : s.devicePhase = .running) (hf : s.faultAsserted = false)
    (hst : (s.chan e.channel).state = .safe ∨ (s.chan e.channel).state = .live) : Kept b (s.applyEntry e) := by
  have hc := h.channels e.channel
  have h1 : Kept b (s.setChan e.channel ((s.chan e.channel).committed e)) := by
    refine h.setChan _ _ ?_ ?_ (fun _ => Or.inr ⟨hr, hf⟩) ?_
    · constructor <;> simp only [ChannelRecord.committed]
      · exact hc.1
      · exact clamp_in (channelLimits hc) e.code
      · simp
      · have := hc.failureCount
        rcases hst with hst | hst <;> rw [hst] at this <;> simpa using this
      · simp
      · simp
    · rcases hst with hst | hst <;> constructor <;> simp [ChannelRecord.committed, hst]
    · rcases hst with hst | hst <;> simp [hst]
  have h2 := h1.renewLease e.channel
  unfold State.applyEntry
  dsimp only
  split
  · exact h2.place _ (by right; simp [ChannelRecord.committed]) _ _
  · exact h2

theorem applyEntry_state (e : StageEntry) (d : Channel)
    (hst : (s.chan d).state = .safe ∨ (s.chan d).state = .live) :
    ((s.applyEntry e).chan d).state = .safe ∨ ((s.applyEntry e).chan d).state = .live := by
  rw [State.applyEntry_chan]
  split
  · right; rfl
  · exact hst

/-- Applying a commit keeps the laws (R60 to R62). -/
theorem Kept.applyEntries (h : Kept b s) (es : List StageEntry) (hr : s.devicePhase = .running)
    (hf : s.faultAsserted = false)
    (hst : ∀ e ∈ es,
        (s.chan e.channel).state = .safe ∨ (s.chan e.channel).state = .live) : Kept b (s.applyEntries es) := by
  induction es generalizing s with
  | nil => exact h
  | cons e es ih =>
    refine ih (h.applyEntry e hr hf (hst e (by simp))) (by simpa using hr) (by simpa using hf) ?_
    intro x hx
    exact applyEntry_state e _ (hst x (by simp [hx]))

theorem Kept.commitLaw_emptied (h : Kept b s) (p : Port) {r : CommitRecord}
    (hr : r = { s.commit p with staging := [] }) :
    CommitLaw r := by
  subst hr
  have hc := h.commits p
  constructor
  · simp
  · exact hc.armedOnce
  · exact hc.armedSome
  · exact hc.armedNumber
  · exact hc.armedWindow
  · exact hc.numberNotZero

theorem advance_ne (n : Word) : advanceNumber n ≠ 0 := by
  unfold advanceNumber
  split
  · decide
  · rename_i h; intro e; exact h (by bv_omega)

/-- channels held by a host in RUNNING are SAFE, LIVE or FAULTED. -/
theorem Kept.held_state (h : Kept b s) (hr : s.devicePhase = .running) {p : Port} {c : Channel}
    (hp : s.holder c = some p)
    (hn : (s.chan c).state ≠ .faulted) : (s.chan c).state = .safe ∨ (s.chan c).state = .live := by
  have h1 := h.state_running hr c
  unfold State.holder at hp
  rcases hl : (s.lease c).held with _ | l
  · rw [hl] at hp; simp at hp
  · have h2 := (h.running_of_held hl).2
    rcases hs : (s.chan c).state with _ | _ | _ | _ | _ <;> simp_all

theorem heldCheck_none (p : Port) (es : List StageEntry) :
    s.heldCheck p es = none ↔ ∀ e ∈ es, (s.chan e.channel).state ≠ .unavailable ∧ s.holds p e.channel = true := by
  induction es with
  | nil => simp [State.heldCheck]
  | cons e es ih =>
    unfold State.heldCheck
    split
    · rename_i hu; simp [hu]
    · split
      · rename_i hu hh; rw [ih]; simp [hu, hh]
      · rename_i hu hh; simp [hh]

theorem firstFaulted_none (es : List StageEntry) :
    s.firstFaulted es = none ↔ ∀ e ∈ es, (s.chan e.channel).state ≠ .faulted := by
  simp [State.firstFaulted]

theorem firstNotHeld_none (p : Port) (es : List StageEntry) :
    s.firstNotHeld p es = none ↔ ∀ e ∈ es, s.holds p e.channel = true := by
  simp [State.firstNotHeld]

theorem commitChecks_none (p : Port) (hc : s.commitChecks p = none) :
    s.faultAsserted = false ∧ (s.commit p).armed = none ∧ (s.commit p).staging ≠ [] ∧
      ∀ e ∈ (s.commit p).staging, (s.chan e.channel).state ≠ .unavailable ∧ s.holder e.channel = some p ∧
        (s.chan e.channel).state ≠ .faulted := by
  unfold State.commitChecks at hc
  split at hc
  · simp at hc
  · split at hc
    · simp at hc
    · split at hc
      · simp at hc
      · rename_i h1 h2 h3
        split at hc
        · simp at hc
        · rename_i h4
          rw [heldCheck_none] at h4
          simp only [Option.map_eq_none_iff] at hc
          rw [firstFaulted_none] at hc
          refine ⟨by simpa using h1, by simpa using h2, by simpa using h3, fun e he => ⟨(h4 e he).1, ?_, hc e he⟩⟩
          simpa [State.holds] using (h4 e he).2

theorem Kept.fireSet (h : Kept b s) (p : Port) (a : ArmedSet) (ha : (s.commit p).armed = some a) : Kept b
    (s.fireSet p a) := by
  have hph : s.devicePhase = .running := by
    rcases hp : s.devicePhase with _ | _
    · rw [h.start.noCommit hp p] at ha; simp [CommitRecord.reset] at ha
    · rfl
  unfold State.fireSet
  split
  · exact (h.disarm p).sendTo _ _ (by simp) _ _ _
  · rename_i hfc
    unfold State.fireCheck at hfc
    split at hfc
    · simp at hfc
    · rename_i hfa
      split at hfc
      · simp at hfc
      · rename_i hnh
        rw [firstNotHeld_none] at hnh
        simp only [Option.map_eq_none_iff] at hfc
        rw [firstFaulted_none] at hfc
        refine ((h.applyEntries a.entries hph (by simpa using hfa) ?_).disarm p).sendTo _ _ (by simp) _ _ _
        intro e he
        exact h.held_state hph (p := p) (by simpa [State.holds] using hnh e he) (hfc e he)

theorem Kept.firePort (h : Kept b s) (p : Port) : Kept b (s.firePort p) := by
  unfold State.firePort
  split
  · exact h
  · rename_i a ha; exact h.fireSet p a ha

/-- A sync event keeps the laws (R75 to R80). -/
theorem Kept.syncEvent (h : Kept b s) : Kept b s.syncEvent :=
  overAll_induct (P := Kept b) (fun p _ ht => ht.firePort p) s h

/-- A record whose holder's lease stands at an allowed duration keeps the law of a lease record. -/
theorem law_held {rank} {r : LeaseRecord} (h : LeaseLaw rank r) (k : Lease) (hd : k.remaining = k.duration)
    (hn : 1 ≤ k.duration ∧ k.duration ≤ Config.maxDuration) (hw : ∀ w ∈ r.waiters, w.port ≠ k.holder) :
    LeaseLaw rank { r with held := some k } := by
  constructor
  · intro l hl; simp only [Option.some.injEq] at hl; subst hl; omega
  · simp
  · intro l hl; simp only [Option.some.injEq] at hl; subst hl; exact hw
  · exact h.noneTwice
  · exact h.requested
  · exact h.ordered
  · intro l hl _; simp only [Option.some.injEq] at hl; subst hl; exact hd

theorem law_fresh {rank} {r : LeaseRecord} (h : LeaseLaw rank r) (p : Port) (n : Nat)
    (hn : 1 ≤ n ∧ n ≤ Config.maxDuration)
    (hw : ∀ w ∈ r.waiters, w.port ≠ p) : LeaseLaw rank { r with held := some (Lease.fresh p n) } :=
  law_held h (Lease.fresh p n) rfl hn hw

theorem law_join {rank} {r : LeaseRecord} (h : LeaseLaw rank r) (l : Lease) (hl : r.held = some l) (p : Port) (n : Nat)
    (hn : 1 ≤ n ∧ n ≤ Config.maxDuration) (hp : l.holder ≠ p) (hw : ∀ w ∈ r.waiters, w.port ≠ p) :
    LeaseLaw rank { r with waiters := joinWaiters rank { port := p, duration := n } r.waiters } := by
  have perm : (joinWaiters rank { port := p, duration := n } r.waiters).Perm ({ port := p, duration := n } :: r.waiters) := by
    unfold joinWaiters
    refine List.perm_middle.trans ?_
    rw [List.takeWhile_append_dropWhile]
  have mem : ∀ w, w ∈ joinWaiters rank { port := p, duration := n } r.waiters ↔ w = { port := p, duration := n } ∨ w ∈ r.waiters := by
    intro w; rw [perm.mem_iff]; simp
  constructor
  · exact h.times
  · intro e; simp only at e; rw [e] at hl; cases hl
  · intro l' hl' w hm
    have : l' = l := by simpa [hl] using hl'.symm
    subst this
    rcases (mem w).1 hm with rfl | hm
    · exact fun e => hp e.symm
    · exact h.holderNotWaiting l' hl w hm
  · have := (perm.map Waiter.port).nodup_iff
    simp only at this ⊢
    rw [this, List.map_cons, List.nodup_cons]
    refine ⟨?_, h.noneTwice⟩
    intro hm
    obtain ⟨w, hm, e⟩ := List.mem_map.mp hm
    exact hw w hm e
  · intro w hm
    rcases (mem w).1 hm with rfl | hm
    · exact hn
    · exact h.requested w hm
  · have hs := h.ordered
    show List.Pairwise _ (joinWaiters rank _ r.waiters)
    unfold joinWaiters
    have hsplit := List.takeWhile_append_dropWhile (p := fun v : Waiter => decide (rank p ≤ rank v.port)) (l := r.waiters)
    have hs' := hs
    rw [← hsplit, List.pairwise_append] at hs'
    have htake : ∀ v ∈ r.waiters.takeWhile (fun v => decide (rank p ≤ rank v.port)), rank p ≤ rank v.port := by
      intro v hv
      have := List.mem_takeWhile_imp hv
      simpa using this
    have hdrop : ∀ v ∈ r.waiters.dropWhile (fun v => decide (rank p ≤ rank v.port)), rank v.port ≤ rank p := by
      have hd := hs'.2.1
      rcases hdw : r.waiters.dropWhile (fun v => decide (rank p ≤ rank v.port)) with _ | ⟨v0, vs⟩
      · intro v hv; rw [hdw] at hv; cases hv
      · rw [hdw] at hd
        have hne : (r.waiters.dropWhile (fun v => decide (rank p ≤ rank v.port))) ≠ [] := by rw [hdw]; simp
        have h0 := List.head_dropWhile_not (fun v : Waiter => decide (rank p ≤ rank v.port)) hne
        have e0 : (r.waiters.dropWhile (fun v => decide (rank p ≤ rank v.port))).head hne = v0 := by
          simp [hdw]
        rw [e0] at h0
        have h0' : rank v0.port ≤ rank p := by simp only [decide_eq_false_iff_not] at h0; bv_omega
        intro v hv
        rw [hdw] at hv
        rcases List.mem_cons.mp hv with rfl | hv
        · exact h0'
        · have := (List.pairwise_cons.mp hd).1 v hv
          bv_omega
    rw [List.pairwise_append]
    refine ⟨hs'.1, ?_, ?_⟩
    · rw [List.pairwise_cons]
      exact ⟨hdrop, hs'.2.1⟩
    · intro v hv w hw
      rcases List.mem_cons.mp hw with rfl | hw
      · exact htake v hv
      · exact hs'.2.2 v hv w hw
  · exact h.restarted

theorem law_again {rank} {r : LeaseRecord} (h : LeaseLaw rank r) (p : Port) (n : Nat)
    (hn : 1 ≤ n ∧ n ≤ Config.maxDuration) :
    LeaseLaw rank { r with waiters := r.waiters.map (fun w => if w.port = p then { w with duration := n } else w) } := by
  have hport : ∀ w : Waiter, (if w.port = p then { w with duration := n } else w).port = w.port := by
    intro w; split <;> rfl
  constructor
  · exact h.times
  · intro e; simp only at e ⊢; rw [h.noHolderNoWaiter e]; rfl
  · intro l hl w hw
    obtain ⟨v, hv, rfl⟩ := List.mem_map.mp hw
    rw [hport]; exact h.holderNotWaiting l hl v hv
  · rw [List.map_map]
    have : (Waiter.port ∘ fun w : Waiter => if w.port = p then { w with duration := n } else w) = Waiter.port := by
      funext w; exact hport w
    rw [this]; exact h.noneTwice
  · intro w hw
    obtain ⟨v, hv, rfl⟩ := List.mem_map.mp hw
    split
    · exact hn
    · exact h.requested v hv
  · rw [List.pairwise_map]
    refine h.ordered.imp ?_
    intro v w hvw
    rw [hport, hport]; exact hvw
  · exact h.restarted

theorem Kept.claimChannel (h : Kept b s) (hr : s.devicePhase = .running) (p : Port) (o : ClaimOptions) (n : Nat)
    (hn : 1 ≤ n ∧ n ≤ Config.maxDuration) (c : Channel) : Kept b (s.claimChannel p o n c) := by
  have nst : s.devicePhase ≠ .starting := by rw [hr]; simp
  have ll := h.leases c
  unfold State.claimChannel
  have hu : s.claimOutcome p o c ≠ .refused → (s.chan c).state ≠ .unavailable := by
    intro hne hu; exact hne (by simp [State.claimOutcome, hu])
  split
  · rename_i ho
    have hu' := hu (by rw [ho]; simp)
    have hset : ∀ r, LeaseLaw s.rank r → Kept b (s.setLease c r) := fun r hr =>
      h.setLease c r hr (fun x => absurd x nst) (fun x => absurd x hu')
    unfold State.claimGrant
    rcases hl : (s.lease c).held with _ | l
    · exact hset _ (law_fresh ll p n hn (by rw [ll.noHolderNoWaiter hl]; simp))
    · dsimp only
      split
      · rename_i e
        subst e
        exact hset _ (law_held ll (l.renewed n) rfl hn (ll.holderNotWaiting l hl))
      · refine Kept.sendTo (hset _ ?_) _ _ (by simp) _ _ _
        refine law_fresh (law_filter ll (fun w => w.port != p)) p n hn ?_
        intro w hw
        simpa using (List.mem_filter.mp hw).2
  · rename_i ho
    have hu' := hu (by rw [ho]; simp)
    unfold State.claimWait
    refine h.setLease c _ ?_ (fun x => absurd x nst) (fun x => absurd x hu')
    have hhold : ∃ l, (s.lease c).held = some l ∧ l.holder ≠ p := by
      unfold State.claimOutcome at ho
      rw [if_neg hu'] at ho
      unfold State.holder at ho
      rcases hl : (s.lease c).held with _ | l
      · rw [hl] at ho; simp at ho
      · refine ⟨l, rfl, ?_⟩
        rw [hl] at ho
        simp only [Option.map_some] at ho
        intro e
        rw [if_pos e] at ho; cases ho
    obtain ⟨l, hl, hp⟩ := hhold
    split
    · exact law_again ll p n hn
    · rename_i hw
      refine law_join ll l hl p n hn hp ?_
      intro w hm e
      apply hw
      simp only [State.waits, List.any_eq_true]
      exact ⟨w, hm, by simp [e]⟩
  · exact h

/-- A Claim keeps the laws (R27). -/
theorem Kept.claimAll (h : Kept b s) (hr : s.devicePhase = .running) (p : Port) (o : ClaimOptions) (n : Nat)
    (hn : 1 ≤ n ∧ n ≤ Config.maxDuration) (m : Mask) : Kept b (s.claimAll p o n m) := by
  have := overAll_induct (n := 16) (act := fun c t => if inMask m c then t.claimChannel p o n c else t)
    (P := fun t => Kept b t ∧ t.devicePhase = .running) ?_ s ⟨h, hr⟩
  · exact this.1
  · intro c t ht
    split
    · exact ⟨ht.1.claimChannel ht.2 p o n hn c, by simpa using ht.2⟩
    · exact ht

theorem Kept.withdraw (h : Kept b s) (p : Port) (c : Channel) : Kept b (s.withdraw p c) := by
  have ll := h.leases c
  refine h.setLease c _ (law_filter ll (fun w => w.port != p)) ?_ ?_
  · intro hp; rw [h.start.noLease hp c]; rfl
  · intro hp; rw [h.hold c hp]; rfl

theorem holds_held {p : Port} {c : Channel} (h : s.holds p c = true) : ∃ l, (s.lease c).held = some l ∧ l.holder = p
    := by
  unfold State.holds State.holder at h
  rcases hl : (s.lease c).held with _ | l
  · rw [hl] at h; simp at h
  · rw [hl] at h; exact ⟨l, rfl, by simpa using h⟩

theorem Kept.clearLease (h : Kept b s) (p : Port) (c : Channel) : Kept b (s.clearLease p c) := by
  unfold State.clearLease
  dsimp only
  have h1 : Kept b (if s.waits p c then s.withdraw p c else s) := by split; exact h.withdraw p c; exact h
  generalize (if s.waits p c then s.withdraw p c else s) = t at h1
  split
  · rename_i hh
    obtain ⟨l, hl, _⟩ := holds_held hh
    exact h1.releaseChannel _ c l hl
  · exact h1

end Sys2Proof.Safety
end

