-- ==== Sys2Proof/Laws/Commits.lean ====
section
/-! SUPPORT. Staging, the commit checks, applying a commit, and the firing of an armed set. -/

namespace Sys2Proof.Safety

open Sys2Proof.Machine

variable {s : State} {p : Port}

/-! Staging -/

theorem stageEntry_eq : stageEntry = fun l e => if l.any (fun x => decide (x.channel = e.channel)) then l.map
    (fun x => if x.channel = e.channel then e else x) else l ++ [e] := by
  funext l e; unfold stageEntry; simp only [beq_eq_decide]

theorem stage_ne (es l : List StageEntry) (h : l ≠ [] ∨ es ≠ []) : es.foldl stageEntry l ≠ [] := by
  induction es generalizing l with
  | nil => simpa using h
  | cons e es ih =>
    apply ih; left; unfold stageEntry
    split
    · rcases l with _ | ⟨x, l⟩ <;> simp_all
    · simp

/-! The commit checks -/

theorem heldCheck_refusal (l pre : List StageEntry) (r : Reply)
    (hall : ∀ x ∈ pre, s.holder x.channel = some p ∧ (s.chan x.channel).state ≠ .unavailable)
    (h : s.heldCheck p l = some r) : ∃ before after e st, pre ++ l = before ++ e :: after ∧ (∀ x ∈ before,
        s.holder x.channel = some p ∧ (s.chan x.channel).state ≠ .unavailable) ∧
      (((s.chan e.channel).state = .unavailable ∧ st = .unavailable) ∨
        ((s.chan e.channel).state ≠ .unavailable ∧ s.holder e.channel ≠ some p ∧ st = .notHolder)) ∧ r = { status := st, data := [channelByte e.channel] } := by
  induction l generalizing pre with
  | nil => cases h
  | cons e l ih =>
    unfold State.heldCheck at h
    split at h
    · rename_i hu
      injection h with h
      exact ⟨pre, l, e, _, rfl, hall, .inl ⟨hu, rfl⟩, h.symm⟩
    · rename_i hu
      split at h
      · rename_i hh
        obtain ⟨b, a, e', st, h1, h2⟩ := ih (pre ++ [e]) (by
          intro x hx
          rcases List.mem_append.mp hx with hx | hx
          · exact hall x hx
          · simp at hx; subst hx; exact ⟨by simpa [State.holds] using hh, hu⟩) h
        exact ⟨b, a, e', st, by simpa using h1, h2⟩
      · rename_i hh
        injection h with h
        exact ⟨pre, l, e, _, rfl, hall, .inr ⟨hu, by simpa [State.holds] using hh, rfl⟩, h.symm⟩

theorem heldCheck_first (before after : List StageEntry) (e : StageEntry) (st : Status)
    (hall : ∀ x ∈ before, s.holder x.channel = some p ∧ (s.chan x.channel).state ≠ .unavailable)
    (h : ((s.chan e.channel).state = .unavailable ∧ st = .unavailable) ∨
        ((s.chan e.channel).state ≠ .unavailable ∧ s.holder e.channel ≠ some p ∧ st = .notHolder)) :
    s.heldCheck p (before ++ e :: after) = some { status := st, data := [channelByte e.channel] } := by
  induction before with
  | nil =>
    rw [List.nil_append, State.heldCheck]
    rcases h with ⟨h, rfl⟩ | ⟨h, h', rfl⟩
    · rw [if_pos h]; rfl
    · rw [if_neg h, if_neg (by simpa [State.holds] using h')]; rfl
  | cons x b ih =>
    rw [List.cons_append, State.heldCheck, if_neg (hall x (by simp)).2,
        if_pos (by simpa [State.holds] using (hall x (by simp)).1)]
    exact ih (fun y hy => hall y (by simp [hy]))

theorem heldCheck_pass (l : List StageEntry)
    (h : ∀ x ∈ l, s.holder x.channel = some p ∧ (s.chan x.channel).state ≠ .unavailable) : s.heldCheck p l = none := by
  induction l with
  | nil => rfl
  | cons x b ih =>
    rw [State.heldCheck, if_neg (h x (by simp)).2, if_pos (by simpa [State.holds] using (h x (by simp)).1)]
    exact ih (fun y hy => h y (by simp [hy]))

/-- The commit checks refuse by the first that fails (R57). -/
theorem commitChecks_refusal {r : Reply} : s.commitChecks p = some r ↔ CommitRefusal s p r := by
  constructor
  · intro h
    unfold State.commitChecks at h
    split at h
    · rename_i h2; injection h with h; subst h; exact .faultActive h2
    rename_i h2
    simp only [Bool.not_eq_true] at h2
    split at h
    · rename_i h3; injection h with h; subst h; exact .armed h2 (by intro hn; simp [hn] at h3)
    rename_i h3
    have h3 : (s.commit p).armed = none := by simpa using h3
    split at h
    · rename_i h4; injection h with h; subst h; exact .nothingStaged h2 h3 (by simpa using h4)
    split at h
    · rename_i r' hr'
      injection h with h; subst h
      obtain ⟨b, a, e, st, e1, e2, e3, rfl⟩ := heldCheck_refusal _ [] _ (by simp) hr'
      exact .notHeld b a e st h2 h3 e1 e2 e3
    · rename_i hr'
      have hall := (heldCheck_none (s := s) p (s.commit p).staging).mp hr'
      unfold State.firstFaulted at h
      rcases hf : (s.commit p).staging.find? (fun e => (s.chan e.channel).state == .faulted) with _ | e
      · rw [hf] at h; cases h
      · rw [hf] at h
        injection h with h; subst h
        obtain ⟨he, b, a, hl, hb⟩ := List.find?_eq_some_iff_append.mp hf
        exact .faulted b a e h2 h3 hl (fun x hx => by have := hall x hx; simp [State.holds] at this; tauto) (fun x hx => by simpa using hb x hx) (by simpa using he)
  · intro h
    unfold State.commitChecks
    cases h with
    | faultActive h2 => rw [if_pos h2]; rfl
    | armed h2 h3 => rw [if_neg (by simp [h2]),
        if_pos (by rcases h : (s.commit p).armed with _ | x; exact absurd h h3; rfl)]; rfl
    | nothingStaged h2 h3 h4 => rw [if_neg (by simp [h2]), if_neg (by simp [h3]), if_pos (by simp [h4])]; rfl
    | notHeld b a e st h2 h3 h4 hb h5 =>
      rw [if_neg (by simp [h2]), if_neg (by simp [h3]), if_neg (by simp [h4]), h4, heldCheck_first b a e st hb h5]
    | faulted b a e h2 h3 h4 h5 hb h6 =>
      rw [if_neg (by simp [h2]), if_neg (by simp [h3]), if_neg (by simp [h4]), heldCheck_pass _ h5]
      have : (s.commit p).staging.find? (fun e => (s.chan e.channel).state == .faulted) = some e := by
        rw [List.find?_eq_some_iff_append]
        exact ⟨by simp [h6], b, a, h4, fun x hx => by simpa using hb x hx⟩
      simp only [State.firstFaulted, this, Option.map_some]; rfl

/-- The commit checks pass (R57). -/
theorem commitChecks_pass : s.commitChecks p = none ↔ CommitPasses s p := by
  constructor
  · intro h
    obtain ⟨h1, h2, h3, h4⟩ := commitChecks_none (s := s) p h
    exact ⟨h2, h3, h1, fun e he => (h4 e he).2.1, fun e he => (h4 e he).1, fun e he => (h4 e he).2.2⟩
  · intro h
    unfold State.commitChecks
    rw [if_neg (by simp [h.entries.faultReleased]), if_neg (by simp [h.notArmed]), if_neg (by simp [h.staged]),
        heldCheck_pass _ (fun x hx => ⟨h.entries.held x hx, h.entries.available x hx⟩)]
    have : (s.commit p).staging.find? (fun e => (s.chan e.channel).state == .faulted) = none := by
      rw [List.find?_eq_none]; intro e he; simpa using h.entries.sound e he
    simp only [State.firstFaulted, this]; rfl

/-! Applying and firing -/

theorem applyEntry_renewed (e : StageEntry) (d : Channel) : (s.applyEntry e).lease d = if e.channel = d then renewed
    (s.lease d) else s.lease d := by
  unfold State.applyEntry
  dsimp only
  split <;> simp [State.renewLease_lease, renewed, renewed_eq]

/-- A channel of no entry of a commit stands. -/
theorem applyEntries_other (es : List StageEntry) (c : Channel) (h : ∀ e ∈ es, e.channel ≠ c) :
    (s.applyEntries es).chan c = s.chan c ∧ (s.applyEntries es).lease c = s.lease c := by
  unfold State.applyEntries
  induction es generalizing s with
  | nil => exact ⟨rfl, rfl⟩
  | cons e es ih =>
    rw [List.foldl_cons]
    have := ih (s := s.applyEntry e) (fun x hx => h x (by simp [hx]))
    rw [this.1, this.2, State.applyEntry_chan, applyEntry_renewed, if_neg (h e (by simp)), if_neg (h e (by simp))]
    exact ⟨rfl, rfl⟩

/-- An entry of a commit decides its channel's record and lease (R60, R61, R63). -/
theorem applyEntries_own (es : List StageEntry) (hn : (es.map StageEntry.channel).Nodup) (e : StageEntry) (h : e ∈ es) :
    (s.applyEntries es).chan e.channel = applied (s.chan e.channel) e ∧ (s.applyEntries es).lease e.channel = renewed (s.lease e.channel) := by
  induction es generalizing s with
  | nil => cases h
  | cons x es ih =>
    simp only [List.map_cons, List.nodup_cons] at hn
    have hx : s.applyEntries (x :: es) = (s.applyEntry x).applyEntries es := rfl
    rw [hx]
    rcases List.mem_cons.mp h with rfl | h
    · have := applyEntries_other (s := s.applyEntry e) es e.channel (fun y hy hc => hn.1 (List.mem_map.mpr ⟨y, hy, hc⟩))
      rw [this.1, this.2, State.applyEntry_chan, applyEntry_renewed, if_pos rfl, if_pos rfl, committed_eq_applied]
      exact ⟨rfl, rfl⟩
    · have hc : x.channel ≠ e.channel := fun hc => hn.1 (hc ▸ List.mem_map.mpr ⟨e, h, rfl⟩)
      have := ih (s := s.applyEntry x) hn.2 h
      rw [State.applyEntry_chan, applyEntry_renewed, if_neg hc, if_neg hc] at this
      exact this

theorem queueAfter_congr (t : State) (es : List StageEntry) (h : ∀ e ∈ es, t.chan e.channel = s.chan e.channel) (q) :
    queueAfter t es q = queueAfter s es q := by
  unfold queueAfter
  apply List.foldl_ext
  intro q e he
  rw [h e he]

/-- The jumps of a commit join the update queue in list order (R62). -/
theorem applyEntries_queue (es : List StageEntry) (hn : (es.map StageEntry.channel).Nodup) :
    (s.applyEntries es).queue = queueAfter s es s.queue := by
  induction es generalizing s with
  | nil => rfl
  | cons x es ih =>
    simp only [List.map_cons, List.nodup_cons] at hn
    have hx : s.applyEntries (x :: es) = (s.applyEntry x).applyEntries es := rfl
    rw [hx, ih hn.2, State.applyEntry_queue]
    rw [queueAfter_congr (s := s) (s.applyEntry x) es (fun e he => by
      rw [State.applyEntry_chan, if_neg]; exact fun hc => hn.1 (hc ▸ List.mem_map.mpr ⟨e, he, rfl⟩))]
    unfold queueAfter
    rw [List.foldl_cons]
    simp only [jumps_iff]

theorem clampedMask_names (es : List StageEntry) : NamesClamped s es (s.clampedMask es) := by
  intro c
  simp only [State.clampedMask, inMask_maskOf, List.any_eq_true, Bool.and_eq_true, beq_iff_eq, bne_iff_ne]

/-- what port p's set sees -/
def fireView (p : Port) (t : State) : CommitRecord × EventUnit × Bool × Word × (Channel → Option Port) ×
    (Channel → Option (ChannelRecord × LeaseRecord)) :=
  (t.commit p, t.event p, t.faultAsserted, t.timeCount, t.holder, fun c => if t.holder c = some p then some (t.chan c,
      t.lease c) else none)

theorem applyEntry_holder (e : StageEntry) : (s.applyEntry e).holder = s.holder := by
  funext c; unfold State.holder; rw [applyEntry_renewed]
  split
  · unfold renewed; rcases (s.lease c).held <;> rfl
  · rfl

theorem applyEntries_holder (es : List StageEntry) : (s.applyEntries es).holder = s.holder := by
  unfold State.applyEntries
  induction es generalizing s with
  | nil => rfl
  | cons e es ih => rw [List.foldl_cons, ih, applyEntry_holder]

theorem firePort_holder (p : Port) (t : State) : (t.firePort p).holder = t.holder := by
  unfold State.firePort State.fireSet
  split
  · rfl
  · split
    · funext c; simp [State.disarm]
    · rename_i a _ _ _; rw [← applyEntries_holder (s := t) a.entries]; funext c; simp [State.disarm]

theorem fireCheck_none (a : ArmedSet) : s.fireCheck p a = none ↔ s.faultAsserted = false ∧
    (∀ e ∈ a.entries, s.holder e.channel = some p) ∧ ∀ e ∈ a.entries, (s.chan e.channel).state ≠ .faulted := by
  unfold State.fireCheck
  by_cases hf : s.faultAsserted = true
  · simp [hf]
  · rw [if_neg hf]
    rcases h : s.firstNotHeld p a.entries with _ | c
    · have := (firstNotHeld_none (s := s) p _).mp h
      simp only [Option.map_eq_none_iff, firstFaulted_none]
      simp [State.holds] at this
      have hf : s.faultAsserted = false := by simpa using hf
      constructor
      · exact fun h => ⟨hf, this, h⟩
      · exact fun h => h.2.2
    · simp only [reduceCtorEq, false_iff]
      rintro ⟨_, h1, _⟩
      have : s.firstNotHeld p a.entries = none := (firstNotHeld_none (s := s) p _).mpr (fun e he => by simp [State.holds, h1 e he])
      rw [this] at h; cases h

theorem firePort_chan (p : Port) (t : State) (c : Channel) (h : t.holder c ≠ some p) : (t.firePort p).chan c =
    t.chan c ∧ (t.firePort p).lease c = t.lease c := by
  unfold State.firePort
  split
  · exact ⟨rfl, rfl⟩
  · rename_i a ha
    unfold State.fireSet
    split
    · simp [State.disarm]
    · rename_i hc
      have := (fireCheck_none (s := t) a).mp hc
      simpa [State.disarm] using applyEntries_other (s := t) a.entries c (fun e he hx => h (hx ▸ this.2.1 e he))

theorem firePort_other (p j : Port) (t : State) (h : j ≠ p) : fireView p (t.firePort j) = fireView p t := by
  unfold fireView
  rw [firePort_holder]
  have h1 : (t.firePort j).commit p = t.commit p := by
    unfold State.firePort
    split
    · rfl
    · unfold State.fireSet; split <;> simp [State.disarm, h]
  have h2 : (t.firePort j).event p = t.event p := by
    unfold State.firePort
    split
    · rfl
    · unfold State.fireSet; split <;> simp [State.disarm, h, State.sendTo_event]
  have h3 : (fun c => if t.holder c = some p then some ((t.firePort j).chan c,
      (t.firePort j).lease c) else none) = fun c => if t.holder c = some p then some (t.chan c, t.lease c) else none := by
    funext c
    split
    · rename_i hc
      have := firePort_chan j t c (by rw [hc]; simpa using Ne.symm h)
      rw [this.1, this.2]
    · rfl
  rw [h1, h2, h3]; simp

theorem fireView_chan {t u : State} (h : fireView p t = fireView p u) {c : Channel} (hc : t.holder c = some p) :
    t.chan c = u.chan c ∧ t.lease c = u.lease c := by
  simp only [fireView, Prod.mk.injEq] at h
  obtain ⟨_, _, _, _, h5, h6⟩ := h
  have := congrFun h6 c
  simp only [← h5] at this
  rw [if_pos hc, if_pos hc] at this
  simpa using this

theorem fireCheck_congr {t u : State} (h : fireView p t = fireView p u) (a : ArmedSet) : t.fireCheck p a =
    u.fireCheck p a := by
  have hk := h
  simp only [fireView, Prod.mk.injEq] at h
  obtain ⟨h1, h2, h3, h4, h5, h6⟩ := h
  unfold State.fireCheck State.firstNotHeld State.holds
  rw [h3, h5]
  split
  · rfl
  · rcases hf : (a.entries.find? fun e => !u.holder e.channel == some p) with _ | e
    ·
      have hall : ∀ e ∈ a.entries, t.holder e.channel = some p := by
        intro e he
        have := List.find?_eq_none.mp hf e he
        simpa [h5] using this
      have : t.firstFaulted a.entries = u.firstFaulted a.entries := by
        unfold State.firstFaulted
        congr 1
        have : ∀ l : List StageEntry, (∀ e ∈ l,
            t.holder e.channel = some p) → l.find? (fun e => (t.chan e.channel).state == .faulted) = l.find? (fun e => (u.chan e.channel).state == .faulted) := by
          intro l hl
          induction l with
          | nil => rfl
          | cons e l ih =>
            rw [List.find?_cons, List.find?_cons, (fireView_chan hk (hl e (by simp))).1,
                ih (fun x hx => hl x (by simp [hx]))]
        exact this _ hall
      rw [this]
    · simp only [hf, Option.map_some]

theorem applyEntries_congr {t u : State} (es : List StageEntry) (c : Channel)
    (h : t.chan c = u.chan c ∧ t.lease c = u.lease c) : (t.applyEntries es).chan c = (u.applyEntries es).chan c ∧
    (t.applyEntries es).lease c = (u.applyEntries es).lease c := by
  induction es generalizing t u with
  | nil => exact h
  | cons e es ih =>
    apply ih (t := t.applyEntry e) (u := u.applyEntry e)
    rw [State.applyEntry_chan, State.applyEntry_chan, applyEntry_renewed, applyEntry_renewed, h.1, h.2]
    exact ⟨rfl, rfl⟩

theorem clampedMask_congr {t u : State} (es : List StageEntry) (h : ∀ e ∈ es, t.chan e.channel = u.chan e.channel) :
    t.clampedMask es = u.clampedMask es := by
  unfold State.clampedMask
  congr 1; funext c
  rw [Bool.eq_iff_iff]
  simp only [List.any_eq_true, Bool.and_eq_true, beq_iff_eq, bne_iff_ne]
  constructor
  · rintro ⟨e, he, rfl, h2⟩; exact ⟨e, he, rfl, by rw [← h e he]; exact h2⟩
  · rintro ⟨e, he, rfl, h2⟩; exact ⟨e, he, rfl, by rw [h e he]; exact h2⟩

theorem firePort_own (t u : State) (h : fireView p t = fireView p u) : fireView p (t.firePort p) = fireView p
    (u.firePort p) := by
  have hk := h
  have hch : ∀ c, t.holder c = some p → _ := fun c hc => fireView_chan hk hc
  have hfc := fun a => fireCheck_congr hk a
  simp only [fireView, Prod.mk.injEq] at h
  obtain ⟨h1, h2, h3, h4, h5, h6⟩ := h
  unfold State.firePort
  rw [h1]
  rcases (u.commit p).armed with _ | a
  · exact hk
  · dsimp only
    unfold State.fireSet
    rw [hfc a]
    rcases hc : u.fireCheck p a with _ | ⟨why, x⟩
    · have hall := (fireCheck_none (s := u) a).mp hc
      have hcl := clampedMask_congr (t := t) (u := u) a.entries (fun e he => (hch e.channel (by rw [h5]; exact hall.2.1 e he)).1)
      rw [hcl]
      unfold fireView
      simp only [State.disarm, State.sendTo_commit, State.sendTo_event, State.setCommit_commit_self,
          State.sendTo_faultAsserted, State.setCommit_faultAsserted, State.applyEntries_faultAsserted,
        State.sendTo_timeCount, State.setCommit_timeCount, State.applyEntries_timeCount, h3, h4, State.applyEntries_commit, h1, State.setCommit_event, State.applyEntries_event, h2]
      have e1 : ∀ (x : State) k y z w cc, ((((x.applyEntries a.entries).setCommit p cc).sendTo p k y z w).holder) = x.holder := by
        intro x k y z w cc; rw [← applyEntries_holder (s := x) a.entries]; funext c; simp
      simp only [e1, h5]
      congr 6
      funext c
      split
      · rename_i hcc
        simp only [State.sendTo_chan, State.setCommit_chan, State.sendTo_lease, State.setCommit_lease]
        have := applyEntries_congr (t := t) (u := u) a.entries c (hch c (by rw [h5]; exact hcc))
        rw [this.1, this.2]
      · rfl
    · dsimp only
      unfold fireView
      simp only [State.disarm, State.sendTo_commit, State.sendTo_event, State.setCommit_commit_self,
          State.sendTo_faultAsserted, State.setCommit_faultAsserted,
        State.sendTo_timeCount, State.setCommit_timeCount, h3, h4, h1, State.setCommit_event, h2]
      have e1 : ∀ (x : State) k y z w cc, ((((x).setCommit p cc).sendTo p k y z w).holder) = x.holder := by
        intro x k y z w cc; funext c; simp
      simp only [e1, h5]
      congr 6
      funext c
      split
      · rename_i hcc
        simp only [State.sendTo_chan, State.setCommit_chan, State.sendTo_lease, State.setCommit_lease]
        have := hch c (by rw [h5]; exact hcc)
        rw [this.1, this.2]
      · rfl

/-- In a sync event each armed set fires on the state that stood before it (R79). -/
theorem syncEvent_fireView (p : Port) : fireView p s.syncEvent = fireView p (s.firePort p) :=
  overAll_local (act := fun p t => t.firePort p) p (fireView p) (fun j t hj => firePort_other p j t hj) (fun t u h => firePort_own t u h) s

theorem syncEvent_unheld (c : Channel) (h : s.holder c = none) : s.syncEvent.chan c = s.chan c ∧ s.syncEvent.lease c =
    s.lease c := by
  have := overAll_keeps (act := fun p t => t.firePort p) (fun t => (t.holder,
      fun c => if t.holder c = none then some (t.chan c, t.lease c) else none))
    (fun p t => by
      rw [firePort_holder]
      congr 1; funext c; split
      · rename_i hc; have := firePort_chan p t c (by rw [hc]; simp); rw [this.1, this.2]
      · rfl) s
  simp only [Prod.mk.injEq] at this
  have h2 := congrFun this.2 c
  have h1 := congrFun this.1 c
  change s.syncEvent.holder c = s.holder c at h1
  change (if s.syncEvent.holder c = none then some (s.syncEvent.chan c, s.syncEvent.lease c) else none) = _ at h2
  rw [h1, if_pos h, if_pos h] at h2
  simpa using h2

theorem firePort_queue (t : State) (hn : ∀ a, (t.commit p).armed = some a → (a.entries.map StageEntry.channel).Nodup) :
    (t.firePort p).queue = match (t.commit p).armed with
      | none => t.queue
      | some a => if t.fireCheck p a = none then queueAfter t a.entries t.queue else t.queue := by
  unfold State.firePort
  rcases h : (t.commit p).armed with _ | a
  · rfl
  · dsimp only
    unfold State.fireSet
    rcases hc : t.fireCheck p a with _ | ⟨w, x⟩
    · simp [State.disarm, applyEntries_queue (s := t) _ (hn a h)]
    · simp [State.disarm]

theorem fireCheck_passes (hi : HoldLaw s) (a : ArmedSet) : s.fireCheck p a = none ↔ EntriesPass s p a.entries := by
  rw [fireCheck_none]
  constructor
  · rintro ⟨h1, h2, h3⟩
    refine ⟨h1, h2, ?_, h3⟩
    intro e he hu
    have := hi _ hu
    have h := h2 e he
    unfold State.holder at h
    rw [this] at h; simp [LeaseRecord.reset] at h
  · rintro ⟨h1, h2, h3, h4⟩
    exact ⟨h1, h2, h4⟩

theorem fireCheck_fails (hf : s.faultAsserted = false) (a : ArmedSet) (w : Status) (x : Byte)
    (h : s.fireCheck p a = some (w, x)) : FireFailure s p a.entries x w := by
  unfold State.fireCheck at h
  rw [if_neg (by simp [hf])] at h
  unfold State.firstNotHeld State.firstFaulted at h
  rcases hh : a.entries.find? (fun e => !s.holds p e.channel) with _ | e
  · rw [hh] at h
    rcases hq : a.entries.find? (fun e => (s.chan e.channel).state == .faulted) with _ | e
    · rw [hq] at h; cases h
    · rw [hq] at h
      simp at h
      obtain ⟨rfl, rfl⟩ := h
      obtain ⟨he, b, l, hl, hb⟩ := List.find?_eq_some_iff_append.mp hq
      refine .faulted b l e hf hl (fun x hx => ?_) (fun x hx => by simpa using hb x hx) (by simpa using he)
      have := List.find?_eq_none.mp hh x hx
      simpa [State.holds] using this
  · rw [hh] at h
    simp at h
    obtain ⟨rfl, rfl⟩ := h
    obtain ⟨he, b, l, hl, hb⟩ := List.find?_eq_some_iff_append.mp hh
    refine .notHolder b l e hf hl (fun x hx => by simpa [State.holds] using hb x hx) (by simpa [State.holds] using he)

end Sys2Proof.Safety
end

