-- ==== Sys2Proof/Laws/KeptCommands.lean ====
section
/-! SUPPORT. The commands of the channel table, the ramp tick and every taken command keep the laws of the part. -/

namespace Sys2Proof.Safety

open Sys2Proof.Machine

variable {b : Prop} {s : State}

theorem Kept.jumpTo (h : Kept b s) (c : Channel) (hst : (s.chan c).state = .safe ∨ (s.chan c).state = .live)
    (code : Code)
    (o : Origin) : Kept b (s.jumpTo c code o) := by
  have hc := h.channels c
  unfold State.jumpTo
  refine Kept.place (h.setChan c _ ?_ ?_ ?_ ?_) c ?_ code o
  · constructor
    · exact hc.1
    · exact hc.2
    · exact hc.3
    · exact hc.4
    · intro e; simp only at e; rcases hst with hst | hst <;> rw [hst] at e <;> cases e
    · intro e; simp only at e; rcases hst with hst | hst <;> rw [hst] at e <;> cases e
  · exact ⟨id, Iff.rfl, id⟩
  · exact Or.inl
  · intro e; rcases hst with hst | hst <;> rw [hst] at e <;> cases e
  · simpa using hst

/-- the setting checks pass only on a held channel -/
theorem settingChecks_ok {p : Port} {x : Byte} {c : Channel} (hs : s.settingChecks p x = .ok c) :
    channelOf x = some c ∧ (s.chan c).state ≠ .unavailable ∧ s.holds p c = true := by
  unfold State.settingChecks at hs
  split at hs
  · cases hs
  · rename_i d hd
    split at hs
    · cases hs
    · split at hs
      · cases hs; rename_i h1 h2; exact ⟨hd, h1, h2⟩
      · cases hs

theorem Kept.held_not_starting (h : Kept b s) {p : Port} {c : Channel} (hh : s.holds p c = true) :
    (s.chan c).state ≠ .starting ∧ (s.chan c).state ≠ .unavailable := by
  obtain ⟨l, hl, _⟩ := holds_held hh
  have hr := h.running_of_held hl
  refine ⟨fun e => hr.1 (h.start.phase ⟨c, e⟩), hr.2⟩

theorem Kept.applyLimits (h : Kept b s) (c : Channel) (low high : Code) (hs : (s.chan c).state ≠ .starting)
    (hu : (s.chan c).state ≠ .unavailable)
    (hf : low ≤ (s.chan c).fallback ∧ (s.chan c).fallback ≤ high) : Kept b (s.applyLimits c low high) := by
  have hc := h.channels c
  unfold State.applyLimits
  dsimp only
  have h1 : Kept b (s.setChan c { s.chan c with
                                  limitLow := low
                                  limitHigh := high
                                  target := ({ s.chan c with limitLow := low, limitHigh := high } : ChannelRecord).clamp (s.chan c).target }) := by
    refine h.setChan c _ ?_ ⟨id, Iff.rfl, id⟩ Or.inl (fun e => absurd e (by simp_all))
    have hw : low ≤ high := by bv_omega
    constructor
    · exact hf
    · exact clamp_in (r := { s.chan c with limitLow := low, limitHigh := high }) hw _
    · intro e
      have e' := hc.3 e
      simp only
      rw [e']
      unfold ChannelRecord.clamp
      simp only
      rw [if_neg (by bv_omega), if_neg (by bv_omega)]
    · exact hc.4
    · intro e; exact absurd e hs
    · intro e; exact absurd e hu
  split
  · rename_i hl
    exact h1.jumpTo c (by right; simpa using hl.1) _ _
  · exact h1

theorem Kept.toFallback (h : Kept b s) (c : Channel) (hst : (s.chan c).state = .safe) : Kept b (s.toFallback c) := by
  have hc := h.channels c
  unfold State.toFallback
  dsimp only
  have h1 : Kept b (s.setChan c (s.chan c).toFallback) := by
    refine h.setChan c _ ?_ ⟨id, Iff.rfl, id⟩ Or.inl (fun e => absurd e (by simp_all))
    constructor
    · exact hc.1
    · exact hc.1
    · intro _; rfl
    · exact hc.4
    · intro e; exact absurd (hst.symm.trans e) (by simp)
    · intro e; exact absurd (hst.symm.trans e) (by simp)
  split
  · exact h1
  · exact h1.place c (by left; simpa [ChannelRecord.toFallback] using hst) _ _

theorem Kept.applyFallback (h : Kept b s) (c : Channel) (code : Code) (hs : (s.chan c).state ≠ .starting)
    (hu : (s.chan c).state ≠ .unavailable)
    (hf : (s.chan c).limitLow ≤ code ∧ code ≤ (s.chan c).limitHigh) : Kept b (s.applyFallback c code) := by
  have hc := h.channels c
  unfold State.applyFallback
  dsimp only
  by_cases hst : (s.chan c).state = .safe
  · -- the SAFE channel: with target equal to the code the record is sound, otherwise toFallback repairs it
    by_cases ht : (s.chan c).target = code
    · rw [if_neg (by simp [ht])]
      refine h.setChan c _ ?_ ⟨id, Iff.rfl, id⟩ Or.inl (fun e => absurd e (by simp_all))
      constructor
      · exact hf
      · exact hc.2
      · intro _; exact ht
      · exact hc.4
      · intro e; exact absurd e hs
      · intro e; exact absurd e hu
    · rw [if_pos ⟨hst, ht⟩]
      have e : (s.setChan c { s.chan c with fallback := code }).toFallback c
          = (if (s.chan c).rampsToFallback then s.setChan c { s.chan c with fallback := code, target := code }
             else (s.setChan c { s.chan c with fallback := code, target := code, present := code }).place c code .safe) := by
        have e1 : ({ s.chan c with fallback := code } : ChannelRecord).rampsToFallback = (s.chan c).rampsToFallback := rfl
        unfold State.toFallback
        simp only [State.setChan_chan_self, ChannelRecord.toFallback, e1]
        by_cases hr : (s.chan c).rampsToFallback = true <;> simp [State.setChan, hr]
      rw [e]
      have hl : ∀ pr, ChannelLaw { s.chan c with fallback := code, target := code, present := pr } := by
        intro pr
        constructor
        · exact hf
        · exact hf
        · intro _; rfl
        · exact hc.4
        · intro e; exact absurd e hs
        · intro e; exact absurd e hu
      split
      · exact h.setChan c _ (hl _) ⟨id, Iff.rfl, id⟩ Or.inl (fun e => absurd e (by simp_all))
      · exact (h.setChan c _ (hl code) ⟨id, Iff.rfl,
          id⟩ Or.inl (fun e => absurd e (by simp_all))).place c (by left; simpa using hst) _ _
  · rw [if_neg (fun x => hst x.1)]
    refine h.setChan c _ ?_ ⟨id, Iff.rfl, id⟩ Or.inl (fun e => absurd e (by simp_all))
    constructor
    · exact hf
    · exact hc.2
    · intro e; exact absurd e hst
    · exact hc.4
    · intro e; exact absurd e hs
    · intro e; exact absurd e hu

theorem Kept.recover (h : Kept b s) (c : Channel) (hst : (s.chan c).state = .faulted) : Kept b (s.recover c) := by
  have hc := h.channels c
  unfold State.recover
  refine Kept.jumpTo (h.setChan c _ ?_ ?_ ?_ ?_) c (by left; simp) _ _
  · constructor
    · exact hc.1
    · exact hc.1
    · intro _; rfl
    · simp
    · simp
    · simp
  · constructor <;> simp [hst]
  · simp
  · simp [hst]

theorem Kept.rampChannel (h : Kept b s) (c : Channel) : Kept b (s.rampChannel c) := by
  unfold State.rampChannel
  dsimp only
  split
  · rename_i hm
    have hst : (s.chan c).state = .safe ∨ (s.chan c).state = .live := by
      simp only [ChannelRecord.moving, Bool.and_eq_true, Bool.or_eq_true, beq_iff_eq] at hm
      exact hm.1
    have h1 := h.jumpTo c hst (s.chan c).rampedPresent .ramp
    split
    · unfold State.reportRamp
      split
      · exact h1.sendTo _ _ (by simp) _ _ _
      · exact h1
    · exact h1
  · exact h

/-- A ramp tick keeps the laws (R86). -/
theorem Kept.rampTick (h : Kept b s) : Kept b s.rampTick :=
  overAll_induct (P := Kept b) (fun c _ ht => ht.rampChannel c) s h

theorem Kept.setCommit' (h : Kept b s) (hr : s.devicePhase = .running) (p : Port) (r : CommitRecord) (hc : CommitLaw r)
    (hf : s.faultAsserted = true → r.armed = none) : Kept b (s.setCommit p r) :=
  h.setCommit p r hc (fun x => by rw [hr] at x; cases x) hf

theorem Kept.staging (h : Kept b s) (hr : s.devicePhase = .running) (p : Port) (es : List StageEntry)
    (hn : (es.map StageEntry.channel).Nodup) : Kept b (s.setCommit p { s.commit p with staging := es }) := by
  have hc := h.commits p
  refine h.setCommit' hr p _ ?_ (fun hf => h.fault.noArmed hf p)
  exact ⟨hn, hc.2, hc.3, hc.4, hc.5, hc.6⟩

theorem stageEntry_nodup {es : List StageEntry} (h : (es.map StageEntry.channel).Nodup) (e : StageEntry) :
    ((stageEntry es e).map StageEntry.channel).Nodup := by
  unfold stageEntry
  split
  · rw [List.map_map]
    have : es.map (StageEntry.channel ∘ fun x => if x.channel = e.channel then e else x) = es.map StageEntry.channel := by
      apply List.map_congr_left
      intro x _
      simp only [Function.comp_apply]
      split <;> simp_all
    rw [this]; exact h
  · rename_i hc
    rw [List.map_append, List.nodup_append]
    refine ⟨h, by simp, ?_⟩
    intro a ha b hb
    simp only [List.map_cons, List.map_nil, List.mem_singleton] at hb
    subst hb
    obtain ⟨x, hx, rfl⟩ := List.mem_map.mp ha
    intro e'
    exact hc (List.any_eq_true.mpr ⟨x, hx, by simp [e']⟩)

/-- A taken command keeps the laws, whatever its arguments. -/
theorem Kept.takeCommand (h : Kept b s) (name : CommandName) (p : Port) (args : List Byte)
    (hr : s.devicePhase = .running ∨ name.takenInStarting = true) : Kept b (takeCommand name p args s).1 := by
  cases name <;> unfold Machine.takeCommand <;> dsimp only
  case nop => exact h
  case readStatus => exact h
  case readIdent => exact h
  case repeatReply => exact h
  case portClear =>
    have hr : s.devicePhase = .running := by simpa [CommandName.takenInStarting] using hr
    unfold takePortClear
    have h1 : Kept b (s.clearCommit p) := by
      have hc := h.commits p
      refine h.setCommit' hr p _ ?_ (fun _ => rfl)
      constructor <;> first | exact hc.numberNotZero | simp
    have h2 : Kept b (overAll 16 (fun c t => t.clearLease p c) (s.clearCommit p)) :=
      overAll_induct (P := Kept b) (fun c _ ht => ht.clearLease p c) _ h1
    have h3 : Kept b ((overAll 16 (fun c t => t.clearLease p c) (s.clearCommit p)).setLead p 0) := by
      refine h2.ofLeads _ ?_
      intro q; rw [Table.get_set]; split
      · exact Nat.zero_le _
      · exact h2.leads q
    exact h3.setEvent p _ (by constructor <;> simp [EventUnit.reset])
  case claim =>
    have hr : s.devicePhase = .running := by simpa [CommandName.takenInStarting] using hr
    unfold takeClaim; dsimp only
    split
    · exact h
    · split
      · exact h
      · rename_i hd
        have hd' : 1 ≤ (argWord args 2).toNat ∧ (argWord args 2).toNat ≤ Config.maxDuration := by omega
        (repeat' split)
        · exact h
        · exact h
        · exact h
        · exact h.claimAll hr p _ _ hd' _
        · exact h.claimAll hr p _ _ hd' _
  case renew =>
    unfold takeRenew; dsimp only
    split
    · exact h
    · refine overAll_induct (P := Kept b) (fun c t ht => ?_) s h
      split
      · exact ht.renewLease c
      · exact ht
  case release =>
    unfold takeRelease; dsimp only
    split
    · exact h
    · split
      · exact h
      · -- the holder of each channel is read before the loop, and no other channel's release changes it
        rename_i policy hp
        have key : ∀ (l : List Channel), l.Nodup → ∀ t, Kept b t → (∀ c ∈ l, t.lease c = s.lease c) →
            Kept b (l.foldl (fun t c =>
              if inMask (maskOf fun c => inMask (argWord args 0) c && s.holds p c) c then t.releaseChannel policy c
              else if inMask (maskOf fun c => inMask (argWord args 0) c && (!s.holds p c && s.waits p c)) c then t.withdraw p c
              else t) t) := by
          intro l
          induction l with
          | nil => intro _ t ht _; exact ht
          | cons c l ih =>
            intro hn t ht he
            rw [List.nodup_cons] at hn
            refine ih hn.2 _ ?_ ?_ <;> dsimp only
            · split
              · rename_i hm
                simp only [inMask_maskOf, Bool.and_eq_true] at hm
                obtain ⟨x, hx, _⟩ := holds_held hm.2
                exact ht.releaseChannel _ c x (by rw [he c (by simp)]; exact hx)
              · split
                · exact ht.withdraw p c
                · exact ht
            · intro d hd
              have hcd : c ≠ d := fun e => hn.1 (e ▸ hd)
              have hd' := he d (by simp [hd])
              split
              · rw [State.releaseChannel_lease, if_neg hcd, hd']
              · split
                · rw [State.withdraw_lease, if_neg hcd, hd']
                · exact hd'
        exact key _ (List.nodup_finRange 16) s h (fun _ _ => rfl)
  case readLease => unfold takeReadLease; split <;> exact h
  case setWarning =>
    unfold takeSetWarning; dsimp only
    split
    · exact h
    · rename_i hl
      refine h.ofLeads _ ?_
      intro q; rw [Table.get_set]; split
      · omega
      · exact h.leads q
  case stage =>
    have hr : s.devicePhase = .running := by simpa [CommandName.takenInStarting] using hr
    unfold takeStage
    split
    · exact h
    · refine h.staging hr p _ ?_
      rename_i es _
      have : ∀ (l : List StageEntry) (m : List StageEntry), (m.map StageEntry.channel).Nodup →
          ((l.foldl stageEntry m).map StageEntry.channel).Nodup := by
        intro l
        induction l with
        | nil => intro m hm; exact hm
        | cons e l ih => intro m hm; exact ih _ (stageEntry_nodup hm e)
      exact this es _ (h.commits p).stagedOnce
  case unstage =>
    have hr : s.devicePhase = .running := by simpa [CommandName.takenInStarting] using hr
    unfold takeUnstage; dsimp only
    split
    · exact h
    · exact h.staging hr p _ (List.Nodup.sublist (List.Sublist.map _ (List.filter_sublist)) (h.commits p).stagedOnce)
  case readStage => exact h
  case commit =>
    have hr : s.devicePhase = .running := by simpa [CommandName.takenInStarting] using hr
    unfold takeCommit
    split
    · exact h
    · rename_i hck
      have hk := commitChecks_none p hck
      have h1 := h.applyEntries (s.commit p).staging hr hk.1
        (fun e he => h.held_state hr (hk.2.2.2 e he).2.1 (hk.2.2.2 e he).2.2)
      refine h1.setCommit' (by simpa using hr) p _ ?_ ?_
      swap
      · intro hf
        have : s.faultAsserted = true := by simpa using hf
        rw [hk.1] at this; cases this
      have hc := h.commits p
      exact ⟨by simp, hc.2, hc.3, hc.4, hc.5, advance_ne _⟩
  case arm =>
    have hr : s.devicePhase = .running := by simpa [CommandName.takenInStarting] using hr
    unfold takeArm; dsimp only
    split
    · exact h
    · split
      · exact h
      · rename_i hw _ hck
        have hk := commitChecks_none p hck
        have hc := h.commits p
        refine h.setCommit' hr p _ ?_ (fun hf => by rw [hk.1] at hf; cases hf)
        constructor
        · simp
        · intro a ha; simp only [Option.some.injEq] at ha; subst ha; exact hc.stagedOnce
        · intro a ha; simp only [Option.some.injEq] at ha; subst ha; exact hk.2.2.1
        · intro a ha; simp only [Option.some.injEq] at ha; subst ha; exact hc.numberNotZero
        · intro a ha; simp only [Option.some.injEq] at ha; subst ha; simp only; omega
        · exact advance_ne _
  case disarm => unfold takeDisarm; split; exact h; exact h.disarm p
  case sync => exact h.syncEvent
  case readArmed => unfold takeReadArmed; split <;> exact h
  case setLimits =>
    unfold takeSetLimits
    split
    · exact h
    · rename_i c hs
      have hk := settingChecks_ok hs
      have hst := h.held_not_starting hk.2.2
      dsimp only
      split
      · exact h
      · split
        · exact h
        · exact h.applyLimits c _ _ hst.1 hst.2 (by constructor <;> bv_omega)
  case setFallback =>
    unfold takeSetFallback
    split
    · exact h
    · rename_i c hs
      have hk := settingChecks_ok hs
      have hst := h.held_not_starting hk.2.2
      dsimp only
      split
      · exact h
      · exact h.applyFallback c _ hst.1 hst.2 (by constructor <;> bv_omega)
  case setRamp =>
    unfold takeSetRamp
    split
    · exact h
    · rename_i c hs
      have hk := settingChecks_ok hs
      have hst := h.held_not_starting hk.2.2
      have hc := h.channels c
      dsimp only
      split
      · exact h
      · refine h.setChan c _ ?_ ⟨id, Iff.rfl, id⟩ Or.inl (fun e => absurd e (by simp_all))
        exact ⟨hc.1, hc.2, hc.3, hc.4, fun e => absurd e hst.1, fun e => absurd e hst.2⟩
  case readChannel => unfold takeReadChannel; split <;> exact h
  case forceSafe =>
    unfold takeForceSafe; dsimp only
    split
    · exact h
    · refine overAll_induct (P := Kept b) (fun c t ht => ?_) s h
      split
      · exact ht.safeEntry c
      · exact ht
  case clearFault =>
    unfold takeClearFault
    split
    · exact h
    · split
      · rename_i hst; exact h.recover _ hst
      · exact h
  case readEvents =>
    unfold takeReadEvents; dsimp only
    split
    · exact h
    · refine h.setEvent p _ ?_
      have he := h.events p
      constructor
      · have := he.capacity; simp only [List.length_drop]; omega
      · intro r hr
        refine he.overflowLast r ?_
        rw [List.dropLast_eq_take, List.length_drop,
            show (s.event p).queue.length - (argByte args 0).toNat - 1 = ((s.event p).queue.length - 1) - (argByte args 0).toNat by omega, ← List.drop_take, ← List.dropLast_eq_take] at hr
        exact List.mem_of_mem_drop hr
      · exact fun r hr => he.lostCount r (List.mem_of_mem_drop hr)
  case setEventMask =>
    unfold takeSetEventMask; dsimp only
    split
    · exact h
    · have he := h.events p
      exact h.setEvent p _ ⟨he.1, he.2, he.3⟩
  case eventTest => exact h.sendTo _ _ (by simp) _ _ _

end Sys2Proof.Safety
end

