-- ==== Sys2Proof/Laws/KeptPorts.lean ====
section
/-! SUPPORT. Requests, frames and the end of start-up keep the laws of the part. -/

namespace Sys2Proof.Safety

open Sys2Proof.Machine

variable {b : Prop} {s : State}

theorem Kept.setPort (h : Kept b s) (p : Port) (r : PortRecord) (hp : PortLaw r) (hr : r.rank = s.rank p)
    (hd : s.inReset = true → r.phase = .deselected) : Kept b (s.setPort p r) := by
  refine h.ofPorts _ ?_ (Or.inr ?_) ?_
  · intro q; rw [Table.get_set]; split
    · exact hp
    · exact h.ports q
  · intro q; rw [Table.get_set]; split
    · rename_i e; subst e; exact hr
    · rfl
  · intro hr q; rw [Table.get_set]; split
    · exact hd hr
    · exact h.reset.deselected hr q

/-- a whole request brings its CHECK -/
theorem check_request (code : Byte) (args : List Byte) (check : Byte) :
    (Request.empty.receiveAll (requestBody code args ++ [check])).check.isSome := by
  -- cut to the LEN the code byte spells
  obtain ⟨n, hn⟩ : ∃ n, n = (BitVec.ofNat 8 args.length).toNat := ⟨_, rfl⟩
  have hle : n ≤ args.length := by
    rw [hn, BitVec.toNat_ofNat]; exact Nat.mod_le _ _
  have hlt : n ≤ 255 := by rw [hn]; exact Nat.le_of_lt_succ (BitVec.isLt _)
  have hlen : BitVec.ofNat 8 args.length = BitVec.ofNat 8 (args.take n).length := by
    rw [List.length_take, Nat.min_eq_left hle, hn]
    apply BitVec.eq_of_toNat_eq; simp
  -- the byte after n arguments
  obtain ⟨x, rest, hx⟩ : ∃ x rest, args ++ [check] = args.take n ++ x :: rest := by
    rcases hd : (args ++ [check]).drop n with _ | ⟨x, rest⟩
    · rw [List.drop_eq_nil_iff] at hd; simp at hd; omega
    · refine ⟨x, rest, ?_⟩
      have := List.take_append_drop n (args ++ [check])
      rw [hd, List.take_append_of_le_length hle] at this
      exact this.symm
  have e : requestBody code args ++ [check] = (requestBody code (args.take n) ++ [x]) ++ rest := by
    unfold requestBody
    rw [hlen]
    simp only [List.cons_append]
    rw [hx]
    simp
  rw [e, Request.receiveAll_append, receiveAll_request code (args.take n) x (by rw [List.length_take]; omega)]
  rw [Request.receiveAll_of_check (by rfl)]
  rfl

theorem Kept.decideRequest (h : Kept b s) (p : Port) (hp : (s.port p).phase = .request) (q : Request) :
    Kept b (s.decideRequest p q) := by
  have hr : s.inReset ≠ true := by
    intro e; rw [h.reset.deselected e p] at hp; cases hp
  have hl := h.ports p
  have law : ∀ (t : PortRecord) (q : Request) (r : Reply), t.csLow = true → PortLaw (t.answered q r) := by
    intro t q r ht
    constructor <;> simp [PortRecord.answered, ht]
  have cs := hl.frameSelected (by rw [hp]; simp)
  unfold State.decideRequest
  split
  · exact h.setPort p _ (law _ _ _ cs) rfl (fun e => absurd e hr)
  · rename_i name hf
    rw [State.takeAndAnswer_eq]
    have hk := takeCommand_keeps s name p q.args
    have hrun : s.devicePhase = .running ∨ name.takenInStarting = true := by
      unfold framing at hf
      split at hf
      · cases hf
      · split at hf
        · cases hf
        · split at hf
          · cases hf
          · split at hf
            · cases hf
            · cases hf
              rename_i hn
              rcases hd : s.devicePhase with _ | _
              · right; by_contra hc; exact hn ⟨hd, by simpa using hc⟩
              · left; rfl
    have h1 := h.takeCommand name p q.args hrun
    have pe : (Machine.takeCommand name p q.args s).1.port p = s.port p := by unfold State.port; rw [hk.ports]
    refine h1.setPort p _ (law _ _ _ ?_) ?_ (fun e => absurd (hk.inReset ▸ e) hr)
    · cases name <;> exact cs
    · unfold State.rank; rw [pe]; cases name <;> rfl

/-- Received bytes keep the laws. -/
theorem Kept.receiveBytes (h : Kept b s) (p : Port) (bytes : List Byte)
    (hb : (Request.empty.receiveAll bytes).check.isSome) : Kept b (s.receiveBytes p bytes) := by
  unfold State.receiveBytes
  dsimp only
  split
  · rename_i hp
    have := (h.ports p).requestFresh hp
    rw [this, if_pos hb]
    exact h.decideRequest p hp _
  · exact h

theorem Kept.chipSelectRise (h : Kept b s) (p : Port) : Kept b (s.chipSelectRise p) := by
  unfold State.chipSelectRise
  dsimp only
  have h1 : Kept b (s.setPort p (s.port p).deselect) := by
    refine h.setPort p _ ?_ rfl (fun _ => rfl)
    constructor <;> simp [PortRecord.deselect]
  split
  · exact h1.sendTo _ _ (by simp) _ _ _
  · exact h1

/-- a frame cut: bytes short of CHECK leave the request, and the rise clears it -/
theorem Kept.frameCut (h : Kept b s) (p : Port) (bytes : List Byte) : Kept b
    ((s.receiveBytes p bytes).chipSelectRise p) := by
  unfold State.receiveBytes
  dsimp only
  split
  · rename_i hp
    split
    · exact (h.decideRequest p hp _).chipSelectRise p
    · have e : (s.setPort p { s.port p with request := (s.port p).request.receiveAll bytes }).chipSelectRise p
          = let t := s.setPort p (s.port p).deselect
            if ((s.port p).request.receiveAll bytes).count ≠ 0 then
              t.sendTo p .frameCut noChannel noReason (BitVec.ofNat 16 ((s.port p).request.receiveAll bytes).count)
            else t := by
        unfold State.chipSelectRise
        simp [hp, PortRecord.deselect]
      rw [e]
      have h1 : Kept b (s.setPort p (s.port p).deselect) := by
        refine h.setPort p _ ?_ rfl (fun _ => rfl)
        constructor <;> simp [PortRecord.deselect]
      dsimp only
      split
      · exact h1.sendTo _ _ (by simp) _ _ _
      · exact h1
  · exact h.chipSelectRise p

theorem Kept.frameOpen (h : Kept b s) (p : Port) : ∀ t, execFrameOpen p s = .next t → Kept b t := by
  intro t ht
  unfold execFrameOpen at ht
  simp only [Host.Outcome.next.injEq] at ht
  subst ht
  have hl := h.ports p
  split
  · exact h
  · split
    · refine h.setPort p _ ?_ rfl ?_
      · exact ⟨fun _ => rfl, hl.2, hl.3⟩
      · intro e; exact h.reset.deselected e p
    · rename_i hc hn
      refine h.setPort p _ ?_ rfl ?_
      · refine ⟨fun _ => rfl, fun _ => rfl, ?_⟩
        have := hl.3
        have hd : (s.port p).phase = .deselected := by by_contra e; exact hn (Or.inr e)
        rw [hd] at this
        simpa using this
      · intro e; exact absurd (Or.inl e) hn

theorem Kept.endStartup (h : Kept False s) : Kept True s.endStartup := by
  unfold State.endStartup
  split
  · rename_i hc
    have none : ∀ c, (s.chan c).state ≠ .starting := by
      intro c e
      have := hc.2
      simp only [State.anyStarting, List.any_eq_false] at this
      exact this c (List.mem_finRange c) (by simp [e])
    have np : s.linkPhase ≠ .probing := by
      intro hp
      -- a slot still PROBING has STARTING channels
      have := (h.link.probingPhase.1 hp)
      unfold State.probed at this
      rw [List.find?_isSome] at this
      obtain ⟨k, _, hk⟩ := this
      have hk' : (s.slot k).state = .probing := by simpa using hk
      have := h.link.probingSlot ⟨4 * k.val, by omega⟩ (by
        have e : slotOf ⟨4 * k.val, by omega⟩ = k := by apply Fin.ext; simp [slotOf]
        rw [e]; exact hk')
      exact none _ this
    refine Kept.sendAll (s := { s with devicePhase := .running }) ?_ _ (by simp) _ _ _
    refine ⟨h.channels, h.leases, h.leads, h.commits, h.events, h.ports, h.slots,
      ⟨h.link.1, h.link.2, h.link.3, h.link.4, h.link.5, fun hp => absurd hp np, h.link.7, h.link.8, h.link.9⟩,
      ⟨fun ⟨c, hc⟩ => absurd hc (none c), (fun e => by cases e), (fun e => by cases e), (fun e => by cases e)⟩,
      ⟨?_, h.reset.2, h.reset.3, h.reset.4⟩, ⟨h.fault.1, h.fault.2⟩, h.hold, fun _ e => by cases e⟩
    intro e
    exact absurd (h.reset.probing e) np
  · rename_i hc
    refine { h with sp := ?_ }
    intro _ hp
    by_contra hn
    apply hc
    refine ⟨hp, ?_⟩
    simp only [State.anyStarting, List.any_eq_false]
    intro c _ e
    exact hn ⟨c, by simpa using e⟩

end Sys2Proof.Safety
end

