-- ==== Sys2Proof/Laws/KeptLink.lean ====
section
/-! SUPPORT. The converter link and the FAULT input keep the laws of the part. -/

namespace Sys2Proof.Safety

open Sys2Proof.Machine

variable {b : Prop} {s : State}

/-- taking the head -/
theorem Kept.linkTake (h : Kept b s) : ∀ t, execLinkTakeEntry s = .next t → Kept b t := by
  intro t ht
  unfold execLinkTakeEntry at ht
  simp only [Host.Outcome.next.injEq] at ht
  subst ht
  split
  · rename_i e rest hp hq
    have hn := h.link.oncePerChannel
    have hd := h.link.waitingDeliverable
    rw [hq] at hn hd
    refine ⟨h.channels, h.leases, h.leads, h.commits, h.events, h.ports, h.slots,
      ⟨?_, ?_, ?_, ?_, ?_, ?_, h.link.7, ?_, h.link.9⟩,
      ⟨h.start.1, h.start.2, h.start.3, h.start.4⟩, ⟨h.reset.1, h.reset.2, h.reset.3, ?_⟩, ⟨h.fault.1,
          h.fault.2⟩, h.hold, h.sp⟩
    · exact (List.nodup_cons.mp hn).2
    · exact fun x hx => hd x (by simp [hx])
    · intro x hx
      simp only [Option.some.injEq] at hx
      subst hx; exact hd _ (by simp)
    · simp
    · have := h.link.probingPhase
      rw [hp] at this
      simp only [reduceCtorEq, false_iff] at this ⊢
      exact this
    · intro x; cases x
    · intro x; cases x
    · intro x
      have := h.reset.probing x
      rw [hp] at this; cases this
  · exact h

theorem Kept.writeDone (h : Kept b s) : ∀ t, execWriteCodeDone s = .next t → Kept b t := by
  intro t ht
  unfold execWriteCodeDone at ht
  simp only [Host.Outcome.next.injEq] at ht
  subst ht
  split
  · rename_i hp
    refine ⟨h.channels, h.leases, h.leads, h.commits, h.events, h.ports, h.slots,
      ⟨h.link.1, h.link.2, h.link.3, ?_, ?_, ?_, h.link.7, ?_, h.link.9⟩,
      ⟨h.start.1, h.start.2, h.start.3, h.start.4⟩, ⟨h.reset.1, h.reset.2, h.reset.3, ?_⟩, ⟨h.fault.1,
          h.fault.2⟩, h.hold, h.sp⟩
    · have := h.link.flyingPhase
      rw [hp] at this
      simpa using this
    · have := h.link.probingPhase
      rw [hp] at this
      simp only [reduceCtorEq, false_iff] at this ⊢
      exact this
    · intro x; cases x
    · intro x; cases x
    · intro x
      have := h.reset.probing x
      rw [hp] at this; cases this
  · exact h

theorem Kept.verify (h : Kept b s) (hidle : s.linkPhase = .idle) (e : UpdateEntry)
    (hd : Deliverable (s.chan e.channel).state) (read : Code) : Kept False (s.verify e read) := by
  have np : s.linkPhase ≠ .probing := by rw [hidle]; simp
  have hc := h.channels e.channel
  have hf := hc.failureCount
  have hnf : (s.chan e.channel).failures ≠ 3 := fun x => hd.1 (hf.2.1 x)
  have g : ∀ (r : ChannelRecord) d, (s.channels.set e.channel r).get d = if e.channel = d then r else s.chan d :=
    fun r d => Table.get_set _ _ _ _
  -- a change of the one record, with a new queue
  have key : ∀ (r : ChannelRecord) (q : List UpdateEntry), ChannelLaw r → Kin (s.chan e.channel) { r with state := if r.state = .faulted then (s.chan e.channel).state else r.state } →
      True := fun _ _ _ _ => trivial
  clear key
  unfold State.verify
  split
  · -- match
    have st : (s.chan e.channel).state ≠ .faulted := hd.1
    refine Kept.ofChannels h.weaken (s.channels.set e.channel ((s.chan e.channel).verified e.code)) s.queue ?_ ?_ ?_ ?_
      h.link.oncePerChannel ?_ (fun x => x.elim)
    · intro d; rw [g]; split
      · unfold ChannelRecord.verified
        by_cases hs : (s.chan e.channel).state = .starting
        · have er := hc.startingRests hs
          simp only [hs, if_true]
          constructor
          · exact hc.1
          · exact hc.2
          · intro _; simp only; rw [er]; rfl
          · simp
          · simp
          · simp
        · simp only [hs, if_false]
          constructor
          · exact hc.1
          · exact hc.2
          · exact hc.3
          · simpa using st
          · intro x; exact absurd x hs
          · intro x; exact absurd x hd.2
      · exact h.channels d
    · intro d; rw [g]; split
      · rename_i hcd; subst hcd
        unfold ChannelRecord.verified
        by_cases hs : (s.chan e.channel).state = .starting <;> constructor <;> simp [hs]
      · exact ⟨id, Iff.rfl, id⟩
    · intro d; rw [g]; split
      · rename_i hcd; subst hcd
        unfold ChannelRecord.verified
        by_cases hs : (s.chan e.channel).state = .starting
        · simp [hs]
        · simp only [hs, if_false]; exact Or.inl
      · exact Or.inl
    · exact fun x => absurd x np
    · intro x hx; rw [g]
      have := h.link.waitingDeliverable x hx
      split
      · rename_i hcd
        unfold ChannelRecord.verified
        by_cases hs : (s.chan e.channel).state = .starting
        · simp [hs, Deliverable]
        · simp only [hs, if_false]; exact hd
      · exact this
  · split
    · -- first or second failure
      rename_i hlt
      simp only [Config.failuresToFault] at hlt
      have h1 : Kept False (s.setChan e.channel { s.chan e.channel with failures := (s.chan e.channel).failures + 1 }) := by
        refine h.weaken.setChan _ _ ?_ ⟨id, Iff.rfl, id⟩ Or.inl (fun x => ⟨x, fun y => absurd y np⟩)
        constructor
        · exact hc.1
        · exact hc.2
        · exact hc.3
        · refine ⟨by simp only; omega, ?_⟩
          have := hd.1
          constructor
          · intro x; simp only at x; omega
          · intro x; exact absurd x this
        · intro x
          have er := hc.startingRests x
          conv_lhs => rw [er]
        · intro x; exact absurd x hd.2
      unfold State.verifyRetry
      dsimp only
      split
      · exact h1
      · -- a STARTING channel may be placed too
        refine Kept.ofChannels (b' := False) h1 (s.setChan e.channel { s.chan e.channel with failures := (s.chan e.channel).failures + 1 }).channels _
          h1.channels (fun c => ⟨id, Iff.rfl, id⟩) (fun _ => Or.inl) (fun hp => absurd hp np)
          (place_nodup h1.link.oncePerChannel _ _ _) ?_ (fun x => x.elim)
        intro x hx
        rcases mem_place hx with rfl | ⟨hx, _⟩
        · show Deliverable ((s.setChan e.channel _).chan e.channel).state
          simpa using hd
        · exact h1.link.waitingDeliverable x hx
    · -- third failure
      rename_i hlt
      simp only [Config.failuresToFault] at hlt
      unfold State.verifyFault
      refine Kept.sendHolderOrAll ?_ _ _ (by simp) _ _ _
      have hdel : ∀ x ∈ unplace s.queue e.channel, x ∈ s.queue ∧ x.channel ≠ e.channel := by
        intro x hx
        simpa [unplace] using hx
      refine ⟨?_, h.leases, h.leads, h.commits, h.events, h.ports, h.slots,
        ⟨?_, ?_, ?_, h.link.4, h.link.5, fun x => absurd x np, ?_, fun x => absurd x np, ?_⟩,
        ⟨?_, h.start.2, h.start.3, ?_⟩, ⟨h.reset.1, h.reset.2, h.reset.3, h.reset.4⟩, ⟨?_,
            h.fault.2⟩, ?_, fun x => x.elim⟩
      · intro d
        show ChannelLaw ((s.channels.set e.channel _).get d)
        rw [g]; split
        · constructor
          · exact hc.1
          · exact hc.2
          · simp [ChannelRecord.fault]
          · simp [ChannelRecord.fault, Config.failuresToFault]
          · simp [ChannelRecord.fault]
          · simp [ChannelRecord.fault]
        · exact h.channels d
      · exact List.Nodup.sublist (List.Sublist.map _ (List.filter_sublist)) h.link.oncePerChannel
      · intro x hx
        show Deliverable ((s.channels.set e.channel _).get x.channel).state
        have := hdel x hx
        rw [g, if_neg (Ne.symm this.2)]
        exact h.link.waitingDeliverable x this.1
      · intro x hx
        have : s.inFlight.isSome = true := by
          have hx' : s.inFlight = some x := hx
          rw [hx']; rfl
        have := h.link.flyingPhase.1 this
        rw [hidle] at this; simp at this
      · intro c hp
        have : s.linkPhase = .probing := by
          rw [h.link.probingPhase]
          unfold State.probed
          rw [List.find?_isSome]
          exact ⟨slotOf c, List.mem_finRange _, by simpa using hp⟩
        exact absurd this np
      · intro c
        show _ ↔ ((s.channels.set e.channel _).get c).state = _
        have := h.link.absentSlot c
        rw [g]; split
        · rename_i hcd; subst hcd
          show (s.slot _).state = _ ↔ _
          rw [this]
          simp [ChannelRecord.fault, hd.2]
        · exact this
      · rintro ⟨c, hcs⟩
        have hcs : ((s.channels.set e.channel (s.chan e.channel).fault).get c).state = .starting := hcs
        rw [g] at hcs
        split at hcs
        · simp [ChannelRecord.fault] at hcs
        · exact h.start.phase ⟨c, hcs⟩
      · intro hp c hl
        have hl : ((s.channels.set e.channel (s.chan e.channel).fault).get c).state = .live := hl
        rw [g] at hl
        split at hl
        · simp [ChannelRecord.fault] at hl
        · exact h.start.noLive hp c hl
      · intro hp c hl
        have hl : ((s.channels.set e.channel (s.chan e.channel).fault).get c).state = .live := hl
        rw [g] at hl
        split at hl
        · simp [ChannelRecord.fault] at hl
        · exact h.fault.noLive hp c hl
      · intro c hcu
        have hcu : ((s.channels.set e.channel (s.chan e.channel).fault).get c).state = .unavailable := hcu
        rw [g] at hcu
        split at hcu
        · simp [ChannelRecord.fault] at hcu
        · exact h.hold c hcu

/-- The transaction has ended. -/
def landed (t : State) : State := { t with inFlight := none, linkPhase := .idle }

theorem landed_sendAll (u : State) (k : EventKind) (c r : Byte) (g : Word) :
    landed (u.sendAll k c r g) = (landed u).sendAll k c r g := by
  apply State.ext <;> try simp [landed]
  apply Table.ext_get
  intro p
  exact (State.sendAll_event _ p k c r g).trans (State.sendAll_event _ p k c r g).symm

theorem landed_verify (e : UpdateEntry) (read : Code) :
    landed (s.verify e read) = (landed s).verify e read := by
  unfold State.verify
  by_cases h1 : read = e.code
  · rw [if_pos h1, if_pos h1]; rfl
  · rw [if_neg h1, if_neg h1]
    have : (landed s).chan e.channel = s.chan e.channel := rfl
    rw [this]
    by_cases h2 : (s.chan e.channel).failures + 1 < Config.failuresToFault
    · rw [if_pos h2, if_pos h2]
      unfold State.verifyRetry
      rw [this]
      have hw : (landed s).waiting e.channel = s.waiting e.channel := rfl
      by_cases h3 : (s.waiting e.channel).isSome = true
      · simp only [hw, h3, if_true]; rfl
      · simp only [hw, h3]; rfl
    · rw [if_neg h2, if_neg h2]
      unfold State.verifyFault State.sendHolderOrAll
      have hh : (landed s).holder e.channel = s.holder e.channel := rfl
      rw [hh, this]
      rcases s.holder e.channel with _ | p
      · simp only [landed_sendAll]; rfl
      · rfl

/-- A verify result keeps the laws (R112 to R117). -/
theorem Kept.verifyResult (h : Kept True s) (read : Code) : ∀ t, execVerifyResult read s = .next t → Kept True t := by
  intro t ht
  unfold execVerifyResult at ht
  simp only [Host.Outcome.next.injEq] at ht
  subst ht
  split
  · rename_i e hp he
    refine Kept.endStartup ?_
    show Kept False (landed (s.verify e read))
    rw [landed_verify]
    have nr : ¬s.inReset = true := by
      intro x
      have := h.reset.probing x
      rw [hp] at this; cases this
    have h1 : Kept True ({ s with inFlight := none, linkPhase := .idle } : State) := by
      refine ⟨h.channels, h.leases, h.leads, h.commits, h.events, h.ports, h.slots,
        ⟨h.link.1, h.link.2, ?_, ?_, ?_, ?_, h.link.7, ?_, h.link.9⟩,
        ⟨h.start.1, h.start.2, h.start.3, h.start.4⟩, ⟨h.reset.1, h.reset.2, h.reset.3,
            fun x => absurd x nr⟩, ⟨h.fault.1, h.fault.2⟩, h.hold, h.sp⟩
      · intro x hx; cases hx
      · simp
      · have := h.link.probingPhase
        rw [hp] at this
        simp only [reduceCtorEq, false_iff] at this ⊢
        exact this
      · intro x; cases x
      · intro x; cases x
    exact h1.verify rfl e (h.link.flyingDeliverable e he) read
  · exact h

theorem decideSlot_chan (k : Slot) (mark rev : Byte) (c : Channel) :
    (s.decideSlot k mark rev).chan c =
      if mark ≠ Config.presenceMark ∧ slotOf c = k then { s.chan c with state := .unavailable } else s.chan c := by
  unfold State.decideSlot
  split
  · rename_i h; simp [h]
  · rename_i h
    have := overAll_view (n := 16) (act := fun c t => if slotOf c = k then t.setChan c { t.chan c with state := .unavailable } else t)
      c (fun t => t.chan c) (fun r => if slotOf c = k then { r with state := .unavailable } else r)
      (fun j t hj => by split <;> simp [hj]) (fun t => by split <;> simp) (s.setSlot k { state := .absent, revision := none })
    refine this.trans ?_
    simp [h]

theorem decideSlot_slot (k j : Slot) (mark rev : Byte) :
    (s.decideSlot k mark rev).slot j =
      if k = j then (if mark = Config.presenceMark then { state := .present, revision := some rev } else { state := .absent, revision := none })
      else s.slot j := by
  unfold State.decideSlot
  split
  · by_cases h : k = j
    · subst h; simp
    · simp [h]
  · have := overAll_keeps (n := 16) (act := fun c t => if slotOf c = k then t.setChan c { t.chan c with state := .unavailable } else t)
      (fun t => t.slot j) (fun i t => by split <;> simp) (s.setSlot k { state := .absent, revision := none })
    refine this.trans ?_
    by_cases h : k = j
    · subst h; simp
    · simp [h]

theorem probed_some {k : Slot} (hk : s.probed = some k) : (s.slot k).state = .probing := by
  unfold State.probed at hk
  simpa using List.find?_some hk

theorem probed_none (h : s.probed = none) (k : Slot) : (s.slot k).state ≠ .probing := by
  unfold State.probed at h
  rw [List.find?_eq_none] at h
  simpa using h k (List.mem_finRange k)

/-- The end of a probe frame keeps the laws (R102 to R104). -/
theorem Kept.probe (h : Kept True s) (mark rev : Byte) : ∀ t, execProbeSlot mark rev s = .next t → Kept True t := by
  intro t ht
  unfold execProbeSlot at ht
  simp only [Host.Outcome.next.injEq] at ht
  subst ht
  split
  · exact h
  · rename_i hnr
    split
    · rename_i k hp hk
      have hks := probed_some hk
      have hst := (h.link.probingEmpty hp).2
      have hq := (h.link.probingEmpty hp).1
      have hin : s.inFlight = none := by
        rcases hi : s.inFlight with _ | e
        · rfl
        · have := h.link.flyingPhase.1 (by rw [hi]; rfl)
          rw [hp] at this; simp at this
      -- a decided state with a link phase
      have base : ∀ (lp : LinkPhase), (lp = .probing ↔ (s.decideSlot k mark rev).probed.isSome = true) →
          lp ≠ .writing → lp ≠ .verifying →
          Kept False ({ s.decideSlot k mark rev with linkPhase := lp } : State) := by
        intro lp hlp hw hv
        have cch : ∀ c, s.chan c = ChannelRecord.reset ∨ (s.chan c).state = .unavailable := h.link.probingChannel hp
        have own : ∀ c, slotOf c = k → s.chan c = ChannelRecord.reset := by
          intro c hc
          rcases cch c with x | x
          · exact x
          · have := h.link.probingSlot c (by rw [hc]; exact hks)
            rw [this] at x; cases x
        refine ⟨?_, ?_, ?_, ?_, ?_, ?_, ?_, ⟨?_, ?_, ?_, ?_, hlp, ?_, ?_, ?_, ?_⟩, ⟨?_, ?_, ?_, ?_⟩, ⟨?_, ?_, ?_, ?_⟩,
            ⟨?_, ?_⟩, ?_, fun x => x.elim⟩
        · intro c
          show ChannelLaw ((s.decideSlot k mark rev).chan c)
          rw [decideSlot_chan]
          split
          · rename_i hc
            rw [own c hc.2]
            constructor <;> simp [ChannelRecord.reset]
          · exact h.channels c
        · intro c
          show LeaseLaw (s.decideSlot k mark rev).rank ((s.decideSlot k mark rev).lease c)
          have : (s.decideSlot k mark rev).rank = s.rank := by funext q; simp
          rw [this]
          simpa using h.leases c
        · intro q; show (s.decideSlot k mark rev).lead q ≤ _; simpa using h.leads q
        · intro q; show CommitLaw ((s.decideSlot k mark rev).commit q); simpa using h.commits q
        · intro q; show EventLaw ((s.decideSlot k mark rev).event q); simpa using h.events q
        · intro q; show PortLaw ((s.decideSlot k mark rev).port q); simpa using h.ports q
        · intro j
          show SlotLaw ((s.decideSlot k mark rev).slot j)
          rw [decideSlot_slot]
          split
          · split <;> simp [SlotLaw]
          · exact h.slots j
        · show ((s.decideSlot k mark rev).queue.map _).Nodup
          simpa using h.link.oncePerChannel
        · show ∀ e ∈ (s.decideSlot k mark rev).queue, _
          simp [hq]
        · show ∀ e, (s.decideSlot k mark rev).inFlight = some e → _
          simp [hin]
        · show (s.decideSlot k mark rev).inFlight.isSome = true ↔ (lp = .writing ∨ lp = .verifying)
          simp [hin, hw, hv]
        · intro _
          show (s.decideSlot k mark rev).queue = [] ∧ (s.decideSlot k mark rev).devicePhase = .starting
          simp [hq, hst]
        · intro c
          show ((s.decideSlot k mark rev).slot (slotOf c)).state = .probing → ((s.decideSlot k mark rev).chan c).state = .starting
          rw [decideSlot_slot, decideSlot_chan]
          by_cases hc : slotOf c = k
          · rw [if_pos hc.symm]; split <;> simp
          · rw [if_neg (Ne.symm hc), if_neg (fun x => hc x.2)]
            exact h.link.probingSlot c
        · intro _ c
          show (s.decideSlot k mark rev).chan c = _ ∨ ((s.decideSlot k mark rev).chan c).state = _
          rw [decideSlot_chan]
          split
          · right; rfl
          · exact cch c
        · intro c
          show ((s.decideSlot k mark rev).slot (slotOf c)).state = .absent ↔ ((s.decideSlot k mark rev).chan c).state = .unavailable
          rw [decideSlot_slot, decideSlot_chan]
          by_cases hc : slotOf c = k
          · rw [if_pos hc.symm]
            by_cases hm : mark = Config.presenceMark
            · simp [hm, own c hc, ChannelRecord.reset]
            · simp [hm, hc]
          · rw [if_neg (Ne.symm hc), if_neg (fun x => hc x.2)]
            exact h.link.absentSlot c
        · intro _
          show (s.decideSlot k mark rev).devicePhase = .starting
          simpa using hst
        · intro _ c
          show (s.decideSlot k mark rev).lease c = _
          simpa using h.start.noLease hst c
        · intro _ q
          show (s.decideSlot k mark rev).commit q = _
          simpa using h.start.noCommit hst q
        · intro _ c
          show ((s.decideSlot k mark rev).chan c).state ≠ _
          rw [decideSlot_chan]
          split
          · simp
          · exact h.start.noLive hst c
        · intro _
          show (s.decideSlot k mark rev).devicePhase = .starting
          simpa using hst
        · intro x
          have : s.inReset = true := by
            have y : (s.decideSlot k mark rev).inReset = true := x
            simpa using y
          exact absurd this hnr
        · intro x
          have : s.inReset = true := by
            have y : (s.decideSlot k mark rev).inReset = true := x
            simpa using y
          exact absurd this hnr
        · intro x
          have : s.inReset = true := by
            have y : (s.decideSlot k mark rev).inReset = true := x
            simpa using y
          exact absurd this hnr
        · intro _ c
          show ((s.decideSlot k mark rev).chan c).state ≠ _
          rw [decideSlot_chan]
          split
          · simp
          · exact h.start.noLive hst c
        · intro x q
          have y : (s.decideSlot k mark rev).faultAsserted = true := x
          show ((s.decideSlot k mark rev).commit q).armed = none
          simp at y ⊢
          exact h.fault.noArmed y q
        · intro c _
          show (s.decideSlot k mark rev).lease c = _
          simpa using h.start.noLease hst c
      unfold State.endProbe
      split
      · rename_i j hj
        have b1 := base .probing (by simp [hj]) (by simp) (by simp)
        have e : ({ s.decideSlot k mark rev with linkPhase := .probing } : State) = s.decideSlot k mark rev := by
          apply State.ext <;> simp [hp]
        rw [e] at b1
        refine { b1 with sp := fun _ _ => ?_ }
        refine ⟨⟨4 * j.val, by omega⟩, b1.link.probingSlot _ ?_⟩
        have : slotOf ⟨4 * j.val, by omega⟩ = j := by apply Fin.ext; simp [slotOf]
        rw [this]; exact probed_some hj
      · rename_i hn
        have b1 := base .idle (by simp [hn]) (by simp) (by simp)
        refine Kept.endStartup ?_
        unfold State.placeStarts
        -- every entry placed is of a channel of a PRESENT slot
        refine (overAll_induct (n := 16) (P := fun t => Kept False t ∧ t.linkPhase = .idle ∧
          (∀ c, t.slot c = (s.decideSlot k mark rev).slot c) ∧ ∀ c, t.chan c = (s.decideSlot k mark rev).chan c) ?_ _
          ⟨b1, rfl, fun _ => rfl, fun _ => rfl⟩).1
        intro c t ht
        split
        · rename_i hpres
          refine ⟨?_, ?_, ?_, ?_⟩
          · refine Kept.ofChannels (b' := False) ht.1 t.channels _ ht.1.channels (fun c => ⟨id, Iff.rfl,
              id⟩) (fun _ => Or.inl)
              (fun hpp => by rw [ht.2.1] at hpp; cases hpp) (place_nodup ht.1.link.oncePerChannel _ _ _) ?_ (fun x => x.elim)
            intro x hx
            rcases mem_place hx with rfl | ⟨hx, _⟩
            · show Deliverable (t.chan c).state
              have hu : (t.chan c).state ≠ .unavailable := by
                intro hu
                have := (ht.1.link.absentSlot c).2 hu
                rw [hpres] at this; cases this
              rw [ht.2.2.2 c] at hu ⊢
              rw [decideSlot_chan] at hu ⊢
              split at hu
              · simp at hu
              · rename_i hc
                rw [if_neg hc]
                rcases h.link.probingChannel hp c with x | x
                · rw [x]; simp [ChannelRecord.reset, Deliverable]
                · exact absurd x hu
            · exact ht.1.link.waitingDeliverable x hx
          · exact ht.2.1
          · exact ht.2.2.1
          · exact ht.2.2.2
        · exact ht
    · exact h

/-- A FAULT assertion keeps the laws (R122). -/
theorem Kept.assertFault (h : Kept b s) (hnr : ¬s.inReset = true) : Kept b s.assertFault := by
  unfold State.assertFault
  refine Kept.sendAll ?_ _ (by simp) _ _ _
  -- the two loops act as they would with the flag clear
  let f : State → State := fun t => { t with faultAsserted := true }
  have c1 : ∀ c t, (f t).safeEntry c = f (t.safeEntry c) := by
    intro c t
    unfold State.safeEntry
    dsimp only
    have : (f t).chan c = t.chan c := rfl
    rw [this]
    by_cases hj : (t.chan c).safeJumps = true
    · rw [if_pos hj, if_pos hj]; rfl
    · rw [if_neg hj, if_neg hj]; rfl
  have c2 : ∀ p t, (f t).dropArmed p = f (t.dropArmed p) := by
    intro p t
    unfold State.dropArmed
    have : (f t).commit p = t.commit p := rfl
    rw [this]
    rcases (t.commit p).armed with _ | a <;> rfl
  have comm : ∀ {n} (act : Fin n → State → State), (∀ i t,
      act i (f t) = f (act i t)) → ∀ t, overAll n act (f t) = f (overAll n act t) := by
    intro n act ha t
    unfold overAll
    generalize ascending n = l
    induction l generalizing t with
    | nil => rfl
    | cons i l ih => rw [List.foldl_cons, List.foldl_cons, ha, ih]
  show Kept b (overAll 3 (fun p t => t.dropArmed p) (overAll 16 (fun c t => t.safeEntry c) (f s)))
  rw [comm (n := 16) _ (fun c t => c1 c t), comm (n := 3) _ (fun p t => c2 p t)]
  have h1 : Kept b (overAll 16 (fun c t => t.safeEntry c) s) :=
    overAll_induct (P := Kept b) (fun c _ ht => ht.safeEntry c) s h
  have h2 : Kept b (overAll 3 (fun p t => t.dropArmed p) (overAll 16 (fun c t => t.safeEntry c) s)) := by
    refine overAll_induct (P := Kept b) (fun p t ht => ?_) _ h1
    unfold State.dropArmed
    split
    · exact ht
    · exact (ht.disarm p).sendTo _ _ (by simp) _ _ _
  have nl : ∀ c, ((overAll 3 (fun p t => t.dropArmed p) (overAll 16 (fun c t => t.safeEntry c) s)).chan c).state ≠ .live := by
    intro c
    rw [overAll_keeps (fun t => t.chan c) (fun p t => by simp)]
    rw [overAll_view (n := 16) c (fun t => t.chan c) ChannelRecord.safed
      (fun j t hj => by simp [State.safeEntry_chan, hj]) (fun t => by simp [State.safeEntry_chan])]
    unfold ChannelRecord.safed
    rcases hs : (s.chan c).state with _ | _ | _ | _ | _ <;> simp [hs]
  have na : ∀ p, ((overAll 3 (fun p t => t.dropArmed p) (overAll 16 (fun c t => t.safeEntry c) s)).commit p).armed = none := by
    intro p
    have := overAll_view (n := 3) (act := fun p t => t.dropArmed p) p (fun t => (t.commit p).armed) (fun _ => none)
      (fun j t hj => by
        unfold State.dropArmed
        split
        · rfl
        · simp [State.disarm, hj])
      (fun t => by
        unfold State.dropArmed
        rcases ha : (t.commit p).armed with _ | a
        · simpa using ha
        · simp [State.disarm])
    exact this _
  have hr : ¬(overAll 3 (fun p t => t.dropArmed p) (overAll 16 (fun c t => t.safeEntry c) s)).inReset = true := by
    rw [overAll_keeps State.inReset (fun p t => by simp), overAll_keeps State.inReset (fun p t => by simp)]; exact hnr
  generalize overAll 3 (fun p t => t.dropArmed p) (overAll 16 (fun c t => t.safeEntry c) s) = t at h2 nl na hr
  exact ⟨h2.channels, h2.leases, h2.leads, h2.commits, h2.events, h2.ports, h2.slots,
      ⟨h2.link.1, h2.link.2, h2.link.3, h2.link.4, h2.link.5, h2.link.6, h2.link.7, h2.link.8, h2.link.9⟩,
      ⟨h2.start.1, h2.start.2, h2.start.3, h2.start.4⟩, ⟨h2.reset.1, h2.reset.2, fun x => absurd x hr, h2.reset.4⟩,
      ⟨fun _ => nl, fun _ => na⟩, h2.hold, h2.sp⟩

end Sys2Proof.Safety
end

