-- ==== Sys2Proof/Laws/KeptReset.lean ====
section
/-! SUPPORT. The law of device reset: what every command leaves while device reset lasts, and that only DEVICE_RESET begins
it. -/

namespace Sys2Proof.Safety

open Sys2Proof.Machine

variable {s t : State}

/-- Reset values are a matter of the fields that hold them. -/
theorem ResetValues.setPort (h : ResetValues s) (p : Port) {r : PortRecord} (hp : r.phase = .deselected)
    (hq : r.request = Request.empty) (hst : r.store = none) : ResetValues (s.setPort p r) :=
  ⟨h.phase, h.time, h.fault, h.channels, h.leases, h.leads, h.commits, fun q => by
    by_cases e : p = q
    · subst e; simp [hp, hq, hst]
    · rw [State.setPort_port_ne _ _ _ _ e]; exact h.ports q, h.slots, h.queue, h.events⟩

/-- DEVICE_RESET leaves every block at its reset values (R177). -/
theorem resetValues_deviceReset (s : State) : ResetValues s.deviceReset := by
  constructor
  · rfl
  · rfl
  · rfl
  · intro c; simp [State.deviceReset, State.chan, State.reset, ChannelRecord.reset]
  · intro c; simp [State.deviceReset, State.lease, State.reset, LeaseRecord.reset]
  · intro p; simp [State.deviceReset, State.lead, State.reset]
  · intro p; simp [State.deviceReset, State.commit, State.reset, CommitRecord.reset]
  · intro p; simp [State.deviceReset, State.port, PortRecord.resetAt, PortRecord.reset]
  · intro k; simp [State.deviceReset, State.slot, State.reset, SlotRecord.reset]
  · exact ⟨rfl, rfl, rfl⟩
  · intro p; simp [State.deviceReset, State.event, State.reset, EventUnit.reset]

/-- Bytes received change nothing of device reset. -/
theorem receiveBytes_inReset (p : Port) (bytes : List Byte) : (s.receiveBytes p bytes).inReset = s.inReset := by
  unfold State.receiveBytes State.decideRequest
  dsimp only
  split
  · split
    · split
      · simp
      · rw [State.takeAndAnswer_eq]; simp [(takeCommand_keeps s _ p _).inReset]
    · simp
  · rfl

/-- Bytes that arrive while device reset lasts are ignored: no frame is open (R135). -/
theorem receiveBytes_inReset_ignored (h : ResetValues s) (p : Port) (bytes : List Byte) : s.receiveBytes p bytes = s := by
  unfold State.receiveBytes
  simp [(h.ports p).1]

theorem resetValues_chipSelectRise (h : ResetValues s) (p : Port) : ResetValues (s.chipSelectRise p) := by
  unfold State.chipSelectRise
  simp only [(h.ports p).1]
  exact h.setPort p rfl rfl (h.ports p).2.2

theorem chipSelectRise_inReset (p : Port) : (s.chipSelectRise p).inReset = s.inReset := by
  unfold State.chipSelectRise
  dsimp only
  split <;> simp

/-- Only DEVICE_RESET begins device reset (R177). -/
theorem inReset_of_exec {i : Instr} (h : exec i s = .next t) (ht : t.inReset = true) :
    s.inReset = true ∨ i = .deviceReset := by
  by_contra hn
  obtain ⟨hs, hi⟩ := not_or.mp hn
  suffices t.inReset = s.inReset from hs (this ▸ ht)
  cases i <;> obtain rfl := Host.Outcome.next.inj h
  case deviceReset => exact absurd rfl hi
  case deviceResetEnd a b x => split <;> simp_all
  case frameOpen p => (repeat' split) <;> simp
  case frameCut p b => rw [chipSelectRise_inReset, receiveBytes_inReset]
  case frameEnd p => exact chipSelectRise_inReset p
  case probeSlot m v => (repeat' split) <;> simp
  case linkTakeEntry | writeCodeDone | verifyResult | rcheckShiftedOut => split <;> simp
  case leaseTick | leaseExpiry | armWindowExpiry | rampTick | syncEdge | syncQualifierArm | faultAssertion
      | faultRelease => split <;> simp
  all_goals exact receiveBytes_inReset _ _

/-- While device reset lasts no command but its end moves a block from its reset values (R177). -/
theorem resetValues_of_exec {i : Instr} (hr : s.inReset = true) (hv : ResetValues s) (h : exec i s = .next t)
    (ht : t.inReset = true) : ResetValues t := by
  cases i <;> obtain rfl := Host.Outcome.next.inj h
  case deviceReset => exact resetValues_deviceReset s
  case deviceResetEnd a b x =>
    rw [if_pos hr] at ht; cases ht
  case frameOpen p =>
    split
    · exact hv
    · rw [if_pos (Or.inl hr)]; exact hv.setPort p (hv.ports p).1 (hv.ports p).2.1 (hv.ports p).2.2
  case frameCut p b => rw [receiveBytes_inReset_ignored hv]; exact resetValues_chipSelectRise hv p
  case frameEnd p => exact resetValues_chipSelectRise hv p
  case rcheckShiftedOut p => rw [if_neg (by rw [(hv.ports p).1]; simp)]; exact hv
  case linkTakeEntry => simp only [hv.queue.2.2]; exact hv
  case writeCodeDone => rw [if_neg (by rw [hv.queue.2.2]; simp)]; exact hv
  case verifyResult r => simp only [hv.queue.2.2]; exact hv
  case probeSlot | rampTick | leaseTick | faultAssertion | syncEdge | syncQualifierArm | faultRelease | leaseExpiry
      | armWindowExpiry => simp only [hr, if_true]; exact hv
  case badCommand => rw [receiveBytes_inReset_ignored hv]; exact hv
  all_goals
    unfold State.request
    rw [receiveBytes_inReset_ignored hv]
    exact hv

/-- Every command keeps the law of device reset (R177). -/
theorem ResetLaw.exec {i : Instr} (hl : ResetLaw s) (h : exec i s = .next t) : ResetLaw t := by
  intro ht
  rcases inReset_of_exec h ht with hr | rfl
  · exact resetValues_of_exec hr (hl hr) h ht
  · obtain rfl := Host.Outcome.next.inj h
    exact resetValues_deviceReset s

end Sys2Proof.Safety
end

