-- ==== Sys2Proof/Laws/Ticks.lean ====
section
/-! SUPPORT. What a lease tick does to one lease, one channel, one arm window and one event queue. -/

namespace Sys2Proof.Safety

open Sys2Proof.Machine

variable {s : State} {p : Port}

theorem tickLease_event (q : Port) (c : Channel) (t : State) (h : ∀ l, (t.lease c).held = some l → 1 ≤ l.remaining) :
    (t.tickLease c).event q = seenTick t q t.timeCount c (t.event q) := by
  unfold State.tickLease seenTick
  rcases hh : (t.lease c).held with _ | l
  · rfl
  · dsimp only
    have := h l hh
    split
    · rename_i h1
      rw [if_neg (by omega)]
      unfold State.reduceLease
      dsimp only
      rw [warnDue_eq]
      by_cases hw : warnedAtTick (t.lead l.holder) l = true
      · rw [if_pos hw, State.sendTo_event]
        by_cases hq : l.holder = q
        · subst hq; simp [hw]; rfl
        · simp [hq]
      · rw [if_neg hw, if_neg]; rfl
        rintro ⟨rfl, h⟩; exact hw h
    · rename_i h1
      have h1 : l.remaining = 1 := by omega
      rw [if_pos h1]
      unfold State.expire
      rw [seenGrant_eq]
      simp [State.sendTo_event, State.dropHolder_lease]
      congr 1

theorem tickArm_event (q : Port) (t : State) : (t.tickArm q).event q = seenWindow t q t.timeCount (t.event q) := by
  unfold State.tickArm seenWindow
  rcases (t.commit q).armed with _ | a
  · rfl
  · dsimp only
    split
    · rename_i h; rw [if_neg (by omega)]
    · split
      · simp [State.sendTo_event, State.disarm]; rfl
      · simp

theorem tickArm_event_ne {p q : Port} (h : p ≠ q) (t : State) : (t.tickArm p).event q = t.event q := by
  unfold State.tickArm
  (repeat' split) <;> simp [State.sendTo_event, State.disarm, h]

theorem tickArm_commit (p q : Port) (t : State) : (t.tickArm p).commit q = if p = q then
   (match (t.commit q).armed with
    | none => t.commit q
    | some a => if a.window = 0 then t.commit q else if a.window = 1 then { t.commit q with armed := none } else { t.commit q with armed := some { a with window := a.window - 1 } }) else t.commit q := by
  unfold State.tickArm
  by_cases h : p = q
  · subst h
    rw [if_pos rfl]
    (repeat' split) <;> simp_all [State.disarm]
  · rw [if_neg h]
    (repeat' split) <;> simp_all [State.disarm]

/-- What a lease tick reads and writes of a channel. -/
def tickView (c : Channel) (t : State) : LeaseRecord × ChannelRecord × (Port → Nat) := (t.lease c, t.chan c, t.lead)

theorem tick_tickView (c : Channel) : tickView c s.tick = tickView c (s.tickLease c) := by
  unfold State.tick
  have h1 : ∀ t : State, tickView c (overAll 3 (fun p t => t.tickArm p) t) = tickView c t := fun t => overAll_keeps (tickView c) (fun p t => by
    unfold tickView; have : (t.tickArm p).lead = t.lead := by funext q; simp
    rw [this]; simp) t
  rw [h1]
  rw [overAll_local (act := fun c t => t.tickLease c) c (tickView c) (fun j t hj => by
      unfold tickView
      have : (t.tickLease j).lead = t.lead := by funext q; simp
      rw [this, State.tickLease_lease, State.tickLease_chan, if_neg hj, if_neg (by tauto)]) (fun t u h => by
      unfold tickView at h ⊢
      simp only [Prod.mk.injEq] at h
      have h1 : (t.tickLease c).lead = t.lead := by funext q; simp
      have h2 : (u.tickLease c).lead = u.lead := by funext q; simp
      rw [h1, h2, State.tickLease_lease, State.tickLease_chan, State.tickLease_lease, State.tickLease_chan, h.1,
          h.2.1, h.2.2])]
  unfold tickView
  have h1 : ∀ (u : State), (u.tickLease c).lead = u.lead := by intro u; funext q; simp
  rw [h1, h1]
  simp only [State.tickLease_lease, State.tickLease_chan]
  rfl

/-- A lease after a lease tick (R35). -/
theorem tick_lease (c : Channel) : s.tick.lease c = (s.lease c).ticked s.lead := by
  have := congrArg (·.1) (tick_tickView (s := s) c)
  simpa [tickView, State.tickLease_lease] using this

/-- A channel after a lease tick (R36). -/
theorem tick_chan (c : Channel) : s.tick.chan c = if (s.lease c).ends = true then safeRecord (s.chan c) else s.chan c
    := by
  have := congrArg (·.2.1) (tick_tickView (s := s) c)
  simpa [tickView, State.tickLease_chan, safed_eq_safeRecord] using this

/-- The update queue after a lease tick (R36). -/
theorem tick_queue : s.tick.queue = safeQueues s (fun c => (s.lease c).ends) s.queue := by
  unfold State.tick
  have h1 : ∀ t : State, (overAll 3 (fun p t => t.tickArm p) t).queue = t.queue := fun t => overAll_keeps State.queue (fun p t => by simp) t
  rw [h1]
  refine (overAll_fold (act := fun c t => t.tickLease c) State.queue (fun c t => (t.chan c,
      (t.lease c).ends)) (fun c k q => if k.2 = true then safeQueue k.1 c q else q) ?_ ?_ _).trans rfl
  · intro c t
    unfold State.tickLease LeaseRecord.ends
    rcases hh : (t.lease c).held with _ | l
    · simp
    · dsimp only
      split
      · rename_i h; simp [show ¬ l.remaining ≤ 1 by omega]
      · rename_i h; simp [show l.remaining ≤ 1 by omega, State.expire, State.safeEntry_queue, place_eq_safeQueue]
  · intro i j t hij
    simp [State.tickLease_chan, State.tickLease_lease, hij]

theorem exec_leaseTick (h : s.inReset = false) : exec .leaseTick s = .next s.tick := by
  simp [exec, execLeaseTick, h]

theorem tick_time : s.tick.timeCount = s.timeCount + 1 := by
  unfold State.tick
  rw [overAll_keeps State.timeCount (fun p t => by simp), overAll_keeps State.timeCount (fun p t => by simp)]

theorem tick_commit (q : Port) : s.tick.commit q =
   (match (s.commit q).armed with
    | none => s.commit q
    | some a => if a.window = 0 then s.commit q else if a.window = 1 then { s.commit q with armed := none } else { s.commit q with armed := some { a with window := a.window - 1 } }) := by
  unfold State.tick
  have := overAll_local (act := fun p t => t.tickArm p) q (fun t => t.commit q) (fun j t hj => by
      simp [tickArm_commit, hj]) (fun t u h => by simp only [tickArm_commit, h])
  rw [this, tickArm_commit, if_pos rfl]
  have hc : ∀ t : State, (overAll 16 (fun c t => t.tickLease c) t).commit q = t.commit q := fun t => overAll_keeps (fun t => t.commit q) (fun c t => by simp) t
  rw [hc]; rfl

theorem tick_event_end (q : Port) (a : ArmedSet) (ha : (s.commit q).armed = some a) (hw : a.window = 1) : ∃ u :
    EventUnit, s.tick.event q = u.take
          { kind := .armExpired, channel := 0xFF, reason := 0, tag := a.number, time := s.timeCount + 1 } := by
  unfold State.tick
  have h1 : ∀ t : State, (overAll 3 (fun p t => t.tickArm p) t).event q = seenWindow t q t.timeCount (t.event q) := by
    intro t
    have := overAll_local (act := fun p t => t.tickArm p) q (fun t => (t.event q, t.commit q,
        t.timeCount)) (fun j t hj => by
      simp [tickArm_event_ne hj, tickArm_commit, hj]) (fun t u h => by
      simp only [Prod.mk.injEq] at h
      simp only [tickArm_event, tickArm_commit, State.tickArm_timeCount, seenWindow, h.1, h.2.1, h.2.2]) t
    have := congrArg (·.1) this
    simp only at this
    rw [this, tickArm_event]
  rw [h1]
  have hc : ∀ t : State, (overAll 16 (fun c t => t.tickLease c) t).commit q = t.commit q := fun t => overAll_keeps (fun t => t.commit q) (fun c t => by simp) t
  have ht : ∀ t : State, (overAll 16 (fun c t => t.tickLease c) t).timeCount = t.timeCount := fun t => overAll_keeps (fun t => t.timeCount) (fun c t => by simp) t
  unfold seenWindow
  rw [hc, ht]
  have hcm : (({ s with timeCount := s.timeCount + 1 } : State).commit q).armed = some a := ha
  rw [hcm]
  simp only [if_pos hw]
  exact ⟨_, rfl⟩

end Sys2Proof.Safety
end

