-- ==== Sys2Proof/Tests/Slice0.lean ====
section
/-! SUPPORT. Tests of single commands, most of them steps of the manual's worked examples, the well-formedness smoke tests,
and for each statement with hypotheses a witness that meets them, at the boundaries of its clauses. -/

namespace Sys2Proof.Tests

set_option Elab.async false

open Sys2Proof.Machine Sys2Proof.Safety

/-! Small states to start from -/

/-- A channel at rest in SAFE, its code confirmed. -/
def resting (code : Code) : ChannelRecord :=
  { ChannelRecord.reset with state := .safe, target := code, present := code, fallback := code, confirmed := some code }

/-- A LIVE channel at rest. -/
def live (code : Code) : ChannelRecord :=
  { ChannelRecord.reset with state := .live, target := code, present := code, confirmed := some code }

/-- A channel whose slot was found ABSENT. -/
def absentChannel : ChannelRecord := { ChannelRecord.reset with state := .unavailable }

/-- A lease. -/
def lent (p : Port) (duration remaining : Nat) : LeaseRecord :=
  { held := some { holder := p, duration := duration, remaining := remaining, warned := false }, waiters := [] }

/-- A port whose frame has just opened. -/
def openPort (rank : BitVec 2) : PortRecord :=
  { PortRecord.reset with phase := .request, rank := rank, csLow := true }

/-- RUNNING, SLOT0 to SLOT2 PRESENT, SLOT3 ABSENT, every channel at rest in SAFE, a frame open on every port; the ranks are
HP0 = 1, HP1 = 0 and HP2 = 2, as the manual's examples take them. -/
def idle : State :=
  { State.reset with
    inReset := false
    devicePhase := .running
    timeCount := 1000
    channels := Table.ofFn (fun c => if c.val < 12 then resting 0 else absentChannel)
    ports := Table.ofFn (fun p => openPort (if p.val = 0 then 1 else if p.val = 1 then 0 else 2))
    slots := Table.ofFn (fun k =>
      if k.val < 3 then { state := .present, revision := some 0x11 } else { state := .absent, revision := none })
    linkPhase := .idle }

/-- The state after a command; a stop leaves the state, and no command stops. -/
def after (i : Instr) (s : State) : State :=
  match exec i s with
  | .next t => t
  | _ => s

/-- The reply a port shifts out. -/
def reply (s : State) (p : Port) : Option Reply := (s.port p).sending

/-- The records a host's queue holds, as kind, channel, reason and tag. -/
def records (s : State) (p : Port) : List (EventKind × Byte × Byte × Word) :=
  (s.event p).queue.map (fun r => (r.kind, r.channel, r.reason, r.tag))

/-! Well-formedness: an ill-formed term for each check -/

theorem test_wellFormed_arguments_refused : Instr.wellFormed (.nop 0 (List.replicate 256 0)) = false := by
  decide +kernel

theorem test_wellFormed_arguments_accepted : Instr.wellFormed (.nop 0 (List.replicate 255 0)) = true := by
  decide +kernel

theorem test_wellFormed_goodCheck_refused : Instr.wellFormed (.badCommand 0 0x10 [] 0x80) = false := by decide +kernel

theorem test_wellFormed_badCheck_accepted : Instr.wellFormed (.badCommand 0 0x10 [] 0x81) = true := by decide +kernel

theorem test_wellFormed_wholeRequest_refused : Instr.wellFormed (.frameCut 0 [0x10, 0x00, 0x80]) = false := by
  decide +kernel

theorem test_wellFormed_cutRequest_accepted : Instr.wellFormed (.frameCut 0 [0x10, 0x00]) = true := by decide +kernel

/-! The step and the word of a table row -/

theorem test_step_idles : step State.reset = .next State.reset := rfl

theorem test_step_takes_front :
    step { idle with pending := [.faultAssertion, .faultRelease] } =
      exec .faultAssertion { idle with pending := [.faultRelease] } := rfl

theorem test_no_word_spells : decodeTableWord 16 0x10 = none ∧ idle.withFetchWord 16 0x10 = idle := by decide +kernel

/-! Check values (R138's worked values) -/

theorem test_check_nop : requestBytes .nop [] = [0x10, 0x00, 0x80] := by decide +kernel

theorem test_check_readStatus : requestBytes .readStatus [] = [0x11, 0x00, 0x95] := by decide +kernel

theorem test_check_ok_reply : (Reply.bare .ok).bytes = [0x00, 0x00, 0xD7] := by decide +kernel

/-! The commands of the port -/

theorem test_nop : reply (after (.nop 0 []) idle) 0 = some { status := .ok, data := [] } := by decide +kernel

/-- Byte by byte from R157: RUNNING, rank 2, nothing held, waited for, staged, armed or queued, interrupt disabled. -/
theorem test_readStatus :
    reply (after (.readStatus 2 []) idle) 2 =
      some { status := .ok, data := [1, 2, 0, 0, 0, 0, 0, 0, 0, 0, 0, 0, 0] } := by decide +kernel

/-- Byte by byte from R150: SLOT0 to SLOT2 PRESENT is the mask 07h, and the ABSENT slot shows FFh. -/
theorem test_readIdent :
    reply (after (.readIdent 1 []) idle) 1 =
      some { status := .ok, data := [0x44, 0x31, 0x60, 0x01, 0x07, 0x11, 0x11, 0x11, 0xFF] } := by decide +kernel

theorem test_repeatReply_empty : reply (after (.repeatReply 0 []) idle) 0 = some { status := .noReply, data := [] } := by
  decide +kernel

/-- A refusal by its block is stored too (R142) and repeated byte for byte. -/
theorem test_repeatReply_stored :
    reply (after (.repeatReply 0 [])
      (idle.setPort 0 { openPort 1 with store := some { status := .nothingStaged, data := [] } })) 0 =
      some { status := .nothingStaged, data := [] } := by decide +kernel

/-- Port Clear ends the lease with policy SAFE and grants the head waiter, at its requested duration (R48). -/
theorem test_portClear :
    let s := (idle.setChan 4 (live 20000)).setLease 4 { lent 1 200 150 with waiters := [{ port := 0, duration := 500 }] }
    let t := after (.portClear 1 []) s
    t.lease 4 = lent 0 500 500 ∧ (t.chan 4).state = .safe ∧ records t 0 = [(.leaseGranted, 4, 0, 500)] := by
  decide +kernel

/-! Leases (the examples of chapter 2) -/

/-- CH4 held by HP1 with duration 200 and remaining 150. -/
def lentCh4 : State := idle.setLease 4 (lent 1 200 150)

/-- HP0 Claim 0010h, 500 ms, WAIT: it waits. -/
theorem test_claim_waits :
    reply (after (.claim 0 [0x00, 0x10, 0x01, 0xF4, 0x01]) lentCh4) 0 =
      some { status := .ok, data := [0x00, 0x00, 0x00, 0x10, 0x00, 0x00] } := by decide +kernel

/-- HP2, of higher rank, joins ahead of HP0. -/
theorem test_claim_order :
    ((after (.claim 2 [0x00, 0x10, 0x01, 0x2C, 0x01])
      (idle.setLease 4 { lent 1 200 150 with waiters := [{ port := 0, duration := 500 }] })).lease 4).waiters =
      [{ port := 2, duration := 300 }, { port := 0, duration := 500 }] := by decide +kernel

/-- The ranks of the second example (HP0 = HP2 = 2, HP1 = 0) and its lease table. -/
def fourChannels : State :=
  (((idle.setPort 0 (openPort 2)).setLease 1 { lent 0 100 50 with waiters := [{ port := 1, duration := 10 }] }).setLease 2
    (lent 1 100 50)).setLease 3 (lent 0 100 50)

/-- ATOMIC names the lowest channel that fails. -/
theorem test_claim_atomic_held :
    reply (after (.claim 2 [0x00, 0x0F, 0x03, 0xE8, 0x06]) fourChannels) 2 = some { status := .held, data := [0x01] } := by
  decide +kernel

/-- PREEMPT and WAIT: granted 0005h, waiting 000Ah, and HP1 loses CH2 to port 2. -/
theorem test_claim_split :
    let t := after (.claim 2 [0x00, 0x0F, 0x03, 0xE8, 0x03]) fourChannels
    reply t 2 = some { status := .ok, data := [0x00, 0x05, 0x00, 0x0A, 0x00, 0x00] } ∧
      records t 1 = [(.leaseLost, 0x02, 0x02, 0)] ∧
      (t.lease 1).waiters = [{ port := 2, duration := 1000 }, { port := 1, duration := 10 }] := by decide +kernel

theorem test_renew :
    let t := after (.renew 1 [0x00, 0x30]) lentCh4
    (t.lease 4).held.map (fun l => (l.holder, l.duration, l.remaining, l.warned)) = some (1, 200, 200, false) ∧
      reply t 1 = some { status := .notHolder, data := [0x00, 0x10, 0x00, 0x20] } := by decide +kernel

/-- HP1 Release 0010h, KEEP: the channel stays LIVE and HP2, the head waiter, is granted. -/
theorem test_release_keep :
    let s := (idle.setChan 4 (live 20000)).setLease 4
      { lent 1 200 200 with waiters := [{ port := 2, duration := 300 }, { port := 0, duration := 500 }] }
    let t := after (.release 1 [0x00, 0x10, 0x00]) s
    (t.chan 4).state = .live ∧ t.lease 4 = { lent 2 300 300 with waiters := [{ port := 0, duration := 500 }] } ∧
      records t 2 = [(.leaseGranted, 0x04, 0x00, 300)] := by decide +kernel

theorem test_readLease :
    reply (after (.readLease 2 [0x04])
      (idle.setLease 4 { lent 1 200 150 with waiters := [{ port := 0, duration := 500 }] })) 2 =
      some { status := .ok, data := [0x01, 0x00, 0x00, 0xC8, 0x00, 0x96, 0x01, 0x00, 0x01, 0xF4] } := by decide +kernel

theorem test_setWarning_limit :
    (after (.setWarning 0 [0x03, 0xE8]) idle).lead 0 = 1000 ∧
      reply (after (.setWarning 0 [0x03, 0xE9]) idle) 0 = some { status := .badArgument, data := [] } := by decide +kernel

/-- Duration 40, lead 10: the thirtieth tick finds remaining 11 and warns with tag 10. -/
theorem test_leaseTick_warns :
    let t := after .leaseTick ((idle.setLease 7 (lent 0 40 11)).setLead 0 10)
    records t 0 = [(.leaseWarning, 0x07, 0x00, 10)] ∧ t.timeCount = 1001 := by decide +kernel

/-- Duration 40, lead 39, a warning due: renewed before the tick, the lease is not warned by it (R46). -/
theorem test_leaseTick_after_renewal :
    let s := (idle.setLease 7 (lent 0 40 40)).setLead 0 39
    records (after .leaseTick (s.renewLease 7)) 0 = [] ∧
      ((after .leaseTick (s.renewLease 7)).lease 7).held.map Lease.remaining = some 39 := by decide +kernel

/-- The same lease already warned, so no warning is due: after its renewal it is warned afresh (R40). -/
theorem test_leaseTick_warns_afresh :
    let s := (idle.setLease 7
      { held := some { holder := 0, duration := 40, remaining := 39, warned := true }, waiters := [] }).setLead 0 39
    records (after .leaseTick (s.renewLease 7)) 0 = [(.leaseWarning, 0x07, 0x00, 39)] := by decide +kernel

/-- The tick that finds remaining 1: HP2's lease expires, CH4 takes safe entry and HP0 is granted. -/
theorem test_leaseExpiry :
    let s := (idle.setChan 4 (live 20000)).setLease 4 { lent 2 300 1 with waiters := [{ port := 0, duration := 500 }] }
    let t := after (.leaseExpiry 4) s
    t.lease 4 = lent 0 500 500 ∧ (t.chan 4).state = .safe ∧ records t 2 = [(.leaseExpired, 0x04, 0x00, 0)] ∧
      records t 0 = [(.leaseGranted, 0x04, 0x00, 500)] := by decide +kernel

/-! Staging and commit (the example of chapter 3) -/

/-- HP0 holds CH0 and CH1, HP2 holds CH8; CH5 waits in the update queue. -/
def commitBench : State :=
  { (((((((idle.setChan 0 (resting 1000)).setChan 1
      { resting 28000 with limitHigh := 30000, rampStep := 500 }).setChan 8 (live 15000)).setLease 0
      (lent 0 100 40)).setLease 1 (lent 0 100 40)).setLease 8 (lent 2 100 40)).setCommit 0
      { staging := [⟨8, 12000, true⟩, ⟨0, 20000, false⟩], armed := none, nextNumber := 7 }) with
    queue := [{ channel := 5, code := 9000, origin := .ramp }] }

/-- The second Stage frame replaces CH0's entry in place. -/
theorem test_stage :
    let t := after (.stage 0 [0x01, 0x9C, 0x40, 0x00, 0x00, 0x52, 0x08, 0x01]) commitBench
    (t.commit 0).staging = [⟨8, 12000, true⟩, ⟨0, 21000, true⟩, ⟨1, 40000, false⟩] ∧
      reply t 0 = some { status := .ok, data := [3] } := by decide +kernel

/-- The list of the example once CH8 is out of it. -/
def readyBench : State :=
  commitBench.setCommit 0 { staging := [⟨0, 21000, true⟩, ⟨1, 40000, false⟩], armed := none, nextNumber := 7 }

theorem test_unstage :
    let t := after (.unstage 0 [0x01, 0x00]) commitBench
    (t.commit 0).staging = [⟨0, 20000, false⟩] ∧ reply t 0 = some { status := .ok, data := [0x01, 0x00] } := by
  decide +kernel

theorem test_readStage :
    reply (after (.readStage 0 []) readyBench) 0 =
      some { status := .ok, data := [0x00, 0x52, 0x08, 0x01, 0x01, 0x9C, 0x40, 0x00] } := by decide +kernel

/-- Check 5 reaches CH8 first and finds it held by HP2. -/
theorem test_commit_refused :
    reply (after (.commit 0 []) commitBench) 0 = some { status := .notHolder, data := [0x08] } := by decide +kernel

/-- Commit 7: CH0 jumps, CH1 is clamped to 30000 and left to the ramp engine. -/
theorem test_commit :
    let t := after (.commit 0 []) readyBench
    reply t 0 = some { status := .ok, data := [0x00, 0x07, 0x00, 0x02] } ∧ (t.chan 1).target = 30000 ∧
      (t.chan 1).present = 28000 ∧
      t.queue = [{ channel := 5, code := 9000, origin := .ramp }, { channel := 0, code := 21000, origin := .commit }] ∧
      (t.commit 0).nextNumber = 8 := by decide +kernel

/-! Armed sets (the example of chapter 4) -/

/-- HP0's and HP2's sets armed, CH1 preempted by HP2. -/
def armedBench : State :=
  (((((idle.setChan 1 { resting 0 with limitHigh := 30000 }).setLease 0 (lent 0 100 40)).setLease 1 (lent 2 100 40)).setLease
    8 (lent 2 100 40)).setCommit 0
    { staging := []
      armed := some { entries := [⟨0, 5000, true⟩, ⟨1, 60000, false⟩], number := 12, window := 30 }
      nextNumber := 13 }).setCommit 2
    { staging := [], armed := some { entries := [⟨8, 8000, true⟩], number := 40, window := 0 }, nextNumber := 41 }

/-- HP2's first Arm fails on CH1, which HP0 holds. -/
theorem test_arm_refused :
    reply (after (.arm 2 [0x00, 0x00])
      (((idle.setLease 1 (lent 0 100 40)).setLease 8 (lent 2 100 40)).setCommit 2
        { staging := [⟨8, 8000, true⟩, ⟨1, 100, false⟩], armed := none, nextNumber := 40 })) 2 =
      some { status := .notHolder, data := [0x01] } := by decide +kernel

theorem test_arm :
    let t := after (.arm 2 [0x00, 0x00]) ((idle.setLease 8 (lent 2 100 40)).setCommit 2
      { staging := [⟨8, 8000, true⟩], armed := none, nextNumber := 40 })
    reply t 2 = some { status := .ok, data := [0x00, 0x28] } ∧ (t.commit 2).staging = [] := by decide +kernel

theorem test_disarm :
    let t := after (.disarm 0 []) armedBench
    (t.commit 0).armed = none ∧ (t.commit 0).nextNumber = 13 := by decide +kernel

theorem test_readArmed :
    reply (after (.readArmed 2 []) armedBench) 2 =
      some { status := .ok, data := [0x00, 0x28, 0x00, 0x00, 0x08, 0x1F, 0x40, 0x01] } := by decide +kernel

/-- The edge of the example as a Sync command: HP0's set fails on CH1, HP2's is applied. -/
theorem test_sync :
    reply (after (.sync 1 []) armedBench) 1 = some { status := .ok, data := [0x04, 0x01] } := by decide +kernel

theorem test_syncEdge :
    let t := after .syncEdge { armedBench with syncArmed := true }
    records t 0 = [(.commitFailed, 0x01, 0x07, 12)] ∧ records t 2 = [(.commitApplied, 0x00, 0x00, 40)] ∧
      (t.chan 8).present = 8000 ∧ (t.chan 0).state = .safe ∧ t.syncArmed = false := by decide +kernel

theorem test_syncQualifierArm : (after .syncQualifierArm idle).syncArmed = true := by decide +kernel

/-- The fiftieth lease tick after HP0's Arm. -/
theorem test_armWindowExpiry :
    let t := after (.armWindowExpiry 0) (idle.setCommit 0
      { staging := [], armed := some { entries := [⟨0, 5000, true⟩], number := 12, window := 1 }, nextNumber := 13 })
    (t.commit 0).armed = none ∧ records t 0 = [(.armExpired, 0xFF, 0x00, 12)] := by decide +kernel

/-! The channel table (the examples of chapters 1 and 7) -/

/-- CH6 ramping, held by HP1, as Set Limits finds it. -/
def rampingCh6 (step : Code) : State :=
  (idle.setChan 6 { live 40000 with present := 31000, fallback := 12000, rampStep := step }).setLease 6 (lent 1 100 40)

theorem test_setLimits_ramp :
    let t := after (.setLimits 1 [0x06, 0x27, 0x10, 0x7D, 0x00]) (rampingCh6 200)
    (t.chan 6).target = 32000 ∧ (t.chan 6).present = 31000 ∧ t.queue = [] := by decide +kernel

/-- Had the step been 0, present would have jumped to 32000. -/
theorem test_setLimits_jump :
    let t := after (.setLimits 1 [0x06, 0x27, 0x10, 0x7D, 0x00]) (rampingCh6 0)
    (t.chan 6).present = 32000 ∧ t.queue = [{ channel := 6, code := 32000, origin := .commit }] := by decide +kernel

theorem test_setFallback :
    let t := after (.setFallback 0 [0x02, 0x13, 0x88]) (idle.setLease 2 (lent 0 100 40))
    (t.chan 2).target = 5000 ∧ (t.chan 2).present = 5000 ∧ t.queue = [{ channel := 2, code := 5000, origin := .safe }] := by
  decide +kernel

theorem test_setRamp :
    let t := after (.setRamp 0 [0x02, 0x03, 0xE8, 0x03]) (idle.setLease 2 (lent 0 100 40))
    (t.chan 2).rampStep = 1000 ∧ (t.chan 2).rampToFallback = true ∧ (t.chan 2).rampDoneReport = true := by decide +kernel

/-- Byte by byte from R159: the FAULTED channel of R129, with confirmed 6000 and present 8000. -/
theorem test_readChannel :
    reply (after (.readChannel 1 [0x05])
      (idle.setChan 5 { live 8000 with state := .faulted, confirmed := some 6000, failures := 3 })) 1 =
      some { status := .ok
             data := [0x05, 0x04, 0x1F, 0x40, 0x1F, 0x40, 0x01, 0x17, 0x70, 0x00, 0x00, 0x00, 0x00, 0xFF, 0xFF, 0x00,
                      0x00, 0x00, 0x03, 0xFF, 0x00, 0x00] } := by decide +kernel

theorem test_forceSafe :
    let t := after (.forceSafe 0 [0x00, 0x05]) ((idle.setChan 2 (live 20000)).setLease 2 (lent 0 100 40))
    reply t 0 = some { status := .notHolder, data := [0x00, 0x04, 0x00, 0x01] } ∧ (t.chan 2).state = .safe := by
  decide +kernel

/-- HP1 Clear Fault, CH10: it joins the queue behind CH2 and CH6. -/
theorem test_clearFault :
    let s := (idle.setChan 10 { live 22000 with state := .faulted, fallback := 3000, failures := 3, rampStep := 400 }).setLease
      10 (lent 1 100 40)
    let t := after (.clearFault 1 [0x0A])
      { s with queue := [{ channel := 2, code := 7000, origin := .ramp }, { channel := 6, code := 1500, origin := .commit }] }
    (t.chan 10).state = .safe ∧ (t.chan 10).present = 3000 ∧ (t.chan 10).failures = 0 ∧
      t.queue = [{ channel := 2, code := 7000, origin := .ramp }, { channel := 6, code := 1500, origin := .commit },
                 { channel := 10, code := 3000, origin := .recovery }] := by decide +kernel

/-! The ramp engine (the examples of chapter 5) -/

/-- Ramp tick 3 of the first example: the redirected ramp turns at once, the waiting entry is replaced in place. -/
theorem test_rampTick :
    let t := after .rampTick { idle.setChan 3 { live 9000 with present := 13000, rampStep := 1500 } with
      queue := [{ channel := 3, code := 13000, origin := .ramp }] }
    (t.chan 3).present = 11500 ∧ t.queue = [{ channel := 3, code := 11500, origin := .ramp }] := by decide +kernel

/-- Ramp tick 5: the last, smaller step arrives and is reported. -/
theorem test_rampTick_arrives :
    let s := (idle.setChan 3 { live 9000 with present := 10000, rampStep := 1500, rampDoneReport := true }).setLease 3
      (lent 1 100 40)
    records (after .rampTick s) 1 = [(.rampDone, 0x03, 0x00, 9000)] := by decide +kernel

/-! The converter link (the examples of chapter 6) -/

/-- Three slots decided ABSENT: the probe has only SLOT3 to decide. -/
def lastProbe : State :=
  { State.reset with
    inReset := false
    channels := Table.ofFn (fun c => if c.val < 12 then absentChannel else ChannelRecord.reset)
    slots := Table.ofFn (fun k => if k.val < 3 then { state := .absent, revision := none } else SlotRecord.reset) }

theorem test_probeSlot_present :
    let t := after (.probeSlot 0x5A 0x22) lastProbe
    (t.slot 3).revision = some 0x22 ∧ t.devicePhase = .starting ∧
      t.queue = [{ channel := 12, code := 0, origin := .start }, { channel := 13, code := 0, origin := .start },
                 { channel := 14, code := 0, origin := .start }, { channel := 15, code := 0, origin := .start }] := by
  decide +kernel

/-- With no slot PRESENT the end of the probe ends start-up (R106). -/
theorem test_probeSlot_absent :
    let t := after (.probeSlot 0x00 0x5A) lastProbe
    t.devicePhase = .running ∧ (t.chan 15).state = .unavailable ∧ records t 2 = [(.startupDone, 0xFF, 0x00, 0)] := by
  decide +kernel

/-- CH5 LIVE and held by HP0, the link in this phase with CH5's 7000 in flight. -/
def linkBench (phase : LinkPhase) (failures : Nat) (waiting : List UpdateEntry) : State :=
  { ((idle.setChan 5 { live 8000 with confirmed := some 6000, failures := failures }).setLease 5 (lent 0 100 40)) with
    queue := waiting
    inFlight := some { channel := 5, code := 7000, origin := .commit }
    linkPhase := phase }

/-- The Write Code frame to CH5, converter channel 1 of SLOT1 (R98, R161). -/
theorem test_linkTakeEntry :
    let t := after .linkTakeEntry { idle with queue := [{ channel := 5, code := 7000, origin := .commit }] }
    t.linkFrame = some { slot := 1, bytes := [0x21, 0x1B, 0x58] } ∧ t.queue = [] := by decide +kernel

/-- Within a frame one chip select is low; between frames none is, and DSCK rests low (R97). -/
theorem test_link_lines :
    let t := after .linkTakeEntry { idle with queue := [{ channel := 5, code := 7000, origin := .commit }] }
    t.chipSelectHigh 1 = false ∧ t.chipSelectHigh 0 = true ∧ t.dsck = .clocking 24 ∧
      t.dsdo = .sending [0x21, 0x1B, 0x58] ∧ idle.chipSelectHigh 1 = true ∧ idle.dsck = .low := by decide +kernel

theorem test_writeCodeDone :
    (after .writeCodeDone (linkBench .writing 0 [])).linkFrame = some { slot := 1, bytes := [0x61, 0x00, 0x00] } := by
  decide +kernel

/-- The first mismatch finds no newer code: 7000 goes back to the queue. -/
theorem test_verifyResult_retry :
    let t := after (.verifyResult 0) (linkBench .verifying 0 [])
    t.queue = [{ channel := 5, code := 7000, origin := .commit }] ∧ (t.chan 5).failures = 1 ∧
      (t.chan 5).confirmed = some 6000 := by decide +kernel

/-- The third mismatch makes CH5 FAULTED. -/
theorem test_verifyResult_third :
    let s := linkBench .verifying 2 []
    let t := after (.verifyResult 0) { s with inFlight := some { channel := 5, code := 8000, origin := .commit } }
    (t.chan 5).state = .faulted ∧ (t.chan 5).present = 8000 ∧ records t 0 = [(.channelFault, 0x05, 0x00, 0x1F40)] := by
  decide +kernel

/-! The FAULT input (the example of chapter 7) -/

/-- The assertion meets the recovery: the waiting entry is replaced in place, with origin SAFE. -/
theorem test_faultAssertion :
    let t := after .faultAssertion { idle.setChan 10 (resting 3000) with
      queue := [{ channel := 10, code := 3000, origin := .recovery }] }
    t.faultAsserted = true ∧ t.queue.head? = some { channel := 10, code := 3000, origin := .safe } ∧
      records t 1 = [(.faultAsserted, 0xFF, 0x00, 0)] := by decide +kernel

/-- The channel ramps to its fallback and a commit's jump entry waits: nothing is placed (R11 step 2, R89, R118, R132). -/
theorem test_faultAssertion_ramping :
    let t := after .faultAssertion { idle.setChan 10 { live 3000 with rampStep := 100, rampToFallback := true } with
      queue := [{ channel := 10, code := 3000, origin := .commit }] }
    t.queue.head? = some { channel := 10, code := 3000, origin := .commit } ∧ (t.chan 10).target = 0 ∧
      (t.chan 10).present = 3000 := by decide +kernel

theorem test_faultRelease :
    let t := after .faultRelease { idle with faultAsserted := true }
    t.faultAsserted = false ∧ records t 1 = [(.faultReleased, 0xFF, 0x00, 0)] := by decide +kernel

/-! Events (the examples of chapter 9) -/

/-- A record of the example. -/
def record (kind : EventKind) (channel : Byte) (tag time : Word) : EventRecord :=
  { kind := kind, channel := channel, reason := 0, tag := tag, time := time }

/-- Count 4 returns count 2, RAMP_DONE then TEST, and INT0 is released. -/
theorem test_readEvents :
    let s := idle.setEvent 0
      { queue := [record .rampDone 0x05 9000 7, record .test 0xFF 0 8], mask := 0x3F, enable := true }
    let t := after (.readEvents 0 [4]) s
    reply t 0 = some { status := .ok
                       data := [2, 0x31, 0x05, 0x00, 0x23, 0x28, 0x00, 0x07, 0x50, 0xFF, 0x00, 0x00, 0x00, 0x00, 0x08] } ∧
      s.interruptDriven 0 = true ∧ t.interruptDriven 0 = false := by decide +kernel

/-- With a record waiting, INT0 falls as the enable is set. -/
theorem test_setEventMask :
    let s := idle.setEvent 0 { queue := [record .rampDone 0x05 9000 7], mask := 0x3D, enable := false }
    s.interruptDriven 0 = false ∧ (after (.setEventMask 0 [0x3F, 0x01]) s).interruptDriven 0 = true := by decide +kernel

theorem test_eventTest : records (after (.eventTest 1 []) idle) 1 = [(.test, 0xFF, 0x00, 0)] := by decide +kernel

/-- LEASE_GRANTED at 1001 finds 16 records, the last no OVERFLOW. -/
theorem test_overflow :
    ((EventUnit.take
      { queue := List.replicate 15 (record .leaseWarning 0x03 0 9) ++ [record .leaseExpired 0x03 0 1000]
        mask := 0x3F
        enable := true } (record .leaseGranted 0x08 500 1001)).queue).drop 15 = [record .overflow 0xFF 2 1001] := by
  decide +kernel

/-! Frames -/

theorem test_badCommand_check :
    let t := after (.badCommand 0 0x10 [] 0x81) idle
    reply t 0 = some { status := .checkError, data := [] } ∧ (t.port 0).store = none := by decide +kernel

theorem test_badCommand_code :
    reply (after (.badCommand 0 0x99 [] (crc [0x99, 0x00])) idle) 0 = some { status := .badCommand, data := [] } := by
  decide +kernel

theorem test_frameOpen :
    let t := after (.frameOpen 1) (idle.setPort 1 { PortRecord.reset with rank := 2 })
    (t.port 1).phase = .request ∧ (t.port 1).csLow = true ∧ t.sdo 1 = .ones := by decide +kernel

/-- The chip select rises after two bytes of the Commit request (the example of chapter 8). -/
theorem test_frameCut :
    let t := after (.frameCut 1 [0x33, 0x00]) idle
    records t 1 = [(.frameCut, 0xFF, 0x00, 2)] ∧ (t.port 1).phase = .deselected := by decide +kernel

theorem test_frameCut_silent : records (after (.frameCut 1 []) idle) 1 = [] := by decide +kernel

theorem test_frameEnd :
    let t := after (.frameEnd 0) (after (.nop 0 []) idle)
    (t.port 0).phase = .deselected ∧ t.sdo 0 = .highImpedance ∧
      (t.port 0).store = some { status := .ok, data := [] } := by decide +kernel

theorem test_rcheckShiftedOut :
    let t := after (.rcheckShiftedOut 0) (after (.nop 0 []) idle)
    (t.port 0).phase = .trailer ∧ t.sdo 0 = .ones := by decide +kernel

/-! Reset -/

/-- While device reset lasts DSCK and DSDO are low (R177). -/
theorem test_reset_link_lines : State.reset.dsck = .low ∧ State.reset.dsdo = .low := by decide +kernel

theorem test_deviceReset : after .deviceReset { State.reset with inReset := false, timeCount := 9 } = State.reset := by
  decide +kernel

/-- RANKnA and RANKnB give the rank B A: with A = 101 and B = 100 (port 0 at the right) the ranks are 1, 0 and 3. -/
theorem test_deviceResetEnd :
    let t := after (.deviceResetEnd 0b101 0b100 true) State.reset
    t.rank 0 = 1 ∧ t.rank 1 = 0 ∧ t.rank 2 = 3 ∧ t.syncArmed = false ∧ t.inReset = false ∧
      t.linkFrame = some { slot := 0, bytes := [0xE0, 0x00, 0x00] } := by decide +kernel

/-! Witnesses: for each statement with hypotheses, a state and operands that meet them together -/

theorem listens {s : State} {p : Port} (h : (s.port p).phase = .request ∧ (s.port p).request = Request.empty) :
    Listening s p := ⟨h.1, h.2⟩

/-- RUNNING with a lease at its last tick, a FAULTED and a LIVE channel held, a moving channel, a free LIVE channel, waiters,
warning leads, a staging list, an armed set at its last tick and one that will fail, waiting updates and records. -/
def bench : State :=
  { ((((((((((((((idle.setChan 0 (live 5000)).setLease 0
      { lent 0 100 1 with waiters := [{ port := 2, duration := 500 }, { port := 1, duration := 60000 }] }).setChan 1
      { resting 28000 with limitHigh := 30000, rampStep := 500 }).setLease 1 (lent 0 100 50)).setChan 2
      { live 8000 with state := .faulted, failures := 3, fallback := 100 }).setLease 2 (lent 0 100 2)).setChan 3
      { live 14000 with present := 10000, rampStep := 1500, rampDoneReport := true }).setLease 3
      { lent 1 60000 60000 with waiters := [{ port := 0, duration := 300 }] }).setChan 5 (live 7000)).setLease 8
      (lent 2 100 40)).setLead 0 49).setCommit 0
      { staging := [⟨0, 21000, true⟩, ⟨1, 40000, false⟩], armed := none, nextNumber := 65535 }).setCommit 1
      { staging := [], armed := some { entries := [⟨3, 9000, false⟩], number := 12, window := 1 }, nextNumber := 13 }).setCommit
      2 { staging := [⟨8, 100, false⟩]
          armed := some { entries := [⟨8, 8000, true⟩, ⟨4, 5, false⟩], number := 40, window := 2 }
          nextNumber := 41 }).setEvent 1
      { queue := List.replicate 15 (record .leaseWarning 0x03 0 9) ++ [record .overflow 0xFF 255 9]
        mask := 0x3F
        enable := true } with
    queue := [{ channel := 3, code := 10000, origin := .ramp }, { channel := 1, code := 28000, origin := .start }]
    syncArmed := true }

theorem bench_inv : Safety.Inv bench := checkInv_sound (by decide +kernel)

theorem bench_listens (p : Port) : Listening bench p := listens (by revert p; decide +kernel)

theorem bench_running : bench.devicePhase = .running := by decide +kernel

/-- STARTING: CH11, and CH10 too where it waits, are yet to be decided, and CH11's verify result is due. -/
def startBench (failures : Nat) (waits : Bool) : State :=
  { idle with
    devicePhase := .starting
    channels := Table.ofFn (fun c =>
      if c.val = 11 then { ChannelRecord.reset with failures := failures }
      else if c.val = 10 ∧ waits = true then ChannelRecord.reset
      else if c.val < 12 then resting 0
      else absentChannel)
    queue := if waits = true then [{ channel := 10, code := 0, origin := .start }] else []
    inFlight := some { channel := 11, code := 0, origin := .start }
    linkPhase := .verifying }

theorem startBench_inv : Safety.Inv (startBench 2 false) ∧ Safety.Inv (startBench 0 true) :=
  ⟨checkInv_sound (by decide +kernel), checkInv_sound (by decide +kernel)⟩

theorem startBench_listens (p : Port) : Listening (startBench 2 false) p := listens (by revert p; decide +kernel)

theorem startBench_starting : (startBench 2 false).devicePhase = .starting := by decide +kernel

/-- The part after the end of device reset, its probe just begun. -/
def probeBench : State := { State.reset with inReset := false }

theorem witness_LawsKeptByEveryStep :
    Safety.Inv { bench with pending := [.leaseTick, .rampTick] } ∧
      step { bench with pending := [.leaseTick, .rampTick] } =
        .next (after .leaseTick { bench with pending := [.rampTick] }) :=
  ⟨checkInv_sound (by decide +kernel), rfl⟩

theorem witness_OnlyTheirCausesWrite_live :
    Safety.Inv bench ∧ (Instr.commit 0 []).wellFormed = true ∧ exec (.commit 0 []) bench = .next (after (.commit 0 []) bench) ∧
      ((after (.commit 0 []) bench).chan 1).state = .live ∧ (bench.chan 1).state ≠ .live :=
  ⟨bench_inv, by decide +kernel, rfl, by decide +kernel, by decide +kernel⟩

theorem witness_OnlyTheirCausesWrite_confirmed :
    Safety.Inv (linkBench .verifying 0 []) ∧
      exec (.verifyResult 7000) (linkBench .verifying 0 []) = .next (after (.verifyResult 7000) (linkBench .verifying 0 [])) ∧
      ((after (.verifyResult 7000) (linkBench .verifying 0 [])).chan 5).confirmed ≠
        ((linkBench .verifying 0 []).chan 5).confirmed :=
  ⟨checkInv_sound (by decide +kernel), rfl, by decide +kernel⟩

theorem witness_OnlyTheirCausesWrite_starting :
    exec .deviceReset bench = .next (after .deviceReset bench) ∧ (after .deviceReset bench).devicePhase = .starting ∧
      bench.devicePhase = .running :=
  ⟨rfl, by decide +kernel, by decide +kernel⟩

theorem witness_RequestReceivedAsSent :
    (List.replicate 255 (0 : Byte)).length ≤ 255 ∧ (List.replicate 48 (0 : Byte)).length ≤ 255 ∧
      48 < (List.replicate 49 (0 : Byte)).length := by decide +kernel

theorem witness_CommandsDecodeAsEncoded :
    CommandName.lenAllowed .stage (List.replicate 48 (0 : Byte)).length = true ∧
      CommandName.lenAllowed .stage (List.replicate 4 (0 : Byte)).length = true ∧
      CommandName.lenAllowed .nop ([] : List Byte).length = true ∧
      stageEntriesOf [0x0F, 0xFF, 0xFF, 0x01] = some [⟨15, 65535, true⟩] := by decide +kernel

theorem witness_FramingChecksRefuse_check :
    Listening bench 2 ∧ (List.replicate 255 (0 : Byte)).length ≤ 255 ∧
      crc (0x10 :: BitVec.ofNat 8 (List.replicate 255 (0 : Byte)).length :: List.replicate 255 0) + 1 ≠
        crc (0x10 :: BitVec.ofNat 8 (List.replicate 255 (0 : Byte)).length :: List.replicate 255 0) :=
  ⟨bench_listens 2, by decide +kernel, by
    generalize crc _ = x
    revert x
    decide +kernel⟩

theorem witness_FramingChecksRefuse_code :
    (∀ name : CommandName, name.code ≠ 0x0F) ∧ (∀ name : CommandName, name.code ≠ 0x53) :=
  ⟨fun name => by cases name <;> decide +kernel, fun name => by cases name <;> decide +kernel⟩

theorem witness_FramingChecksRefuse_length :
    CommandName.lenAllowed .stage (List.replicate 49 (0 : Byte)).length = false ∧
      CommandName.lenAllowed .stage ([] : List Byte).length = false ∧
      CommandName.lenAllowed .nop (List.replicate 255 (0 : Byte)).length = false := by decide +kernel

theorem witness_FramingChecksRefuse_phase :
    Listening (startBench 2 false) 0 ∧ CommandName.lenAllowed .portClear ([] : List Byte).length = true ∧
      (startBench 2 false).devicePhase = .starting ∧
      CommandName.portClear ∉ [CommandName.nop, .readStatus, .readIdent, .repeatReply, .readChannel, .readEvents,
        .setEventMask, .eventTest] :=
  ⟨startBench_listens 0, by decide +kernel, startBench_starting, by decide +kernel⟩

theorem witness_PassedRequestIsTaken :
    Listening bench 0 ∧ CommandName.lenAllowed .commit ([] : List Byte).length = true ∧ bench.devicePhase = .running ∧
      Listening (startBench 2 false) 0 ∧
      CommandName.repeatReply ∈ [CommandName.nop, .readStatus, .readIdent, .repeatReply, .readChannel, .readEvents,
        .setEventMask, .eventTest] :=
  ⟨bench_listens 0, by decide +kernel, bench_running, startBench_listens 0, by decide +kernel⟩

theorem witness_FramesOpenAndEnd :
    let shut := idle.setPort 1 { PortRecord.reset with rank := 2 }
    let answering := after (.nop 0 []) idle
    ((idle.port 1).csLow = true ∧ (idle.port 1).phase ≠ .reply) ∧
    ((State.reset.port 1).csLow = false ∧ State.reset.inReset = true) ∧
    ((shut.port 1).csLow = false ∧ shut.inReset = false ∧ (shut.port 1).phase = .deselected) ∧
      (answering.port 0).phase = .reply ∧ (answering.port 0).phase ≠ .request ∧
      ((after (.rcheckShiftedOut 0) answering).port 0).phase = .trailer := by decide +kernel

theorem witness_CutFrameTakesNothing :
    Listening bench 1 ∧ (Request.empty.receiveAll []).check = none ∧ (Request.empty.receiveAll [0x33]).check = none ∧
      (Request.empty.receiveAll (0x33 :: 0xFF :: List.replicate 255 0)).check = none :=
  ⟨bench_listens 1, by decide +kernel, by decide +kernel, by decide +kernel⟩

theorem witness_NopAnswersOk : Listening bench 0 ∧ Listening (startBench 2 false) 2 :=
  ⟨bench_listens 0, startBench_listens 2⟩

theorem witness_ReadStatusReportsTheSender :
    Listening bench 0 ∧ Listening (startBench 2 false) 0 ∧ Safety.Inv (startBench 2 false) ∧
      (startBench 2 false).devicePhase = .starting :=
  ⟨bench_listens 0, startBench_listens 0, startBench_inv.1, startBench_starting⟩

theorem witness_ReadIdentReportsTheSlots :
    Listening bench 0 ∧ ((bench.slot 2).state = .present ∧ (bench.slot 2).revision = some 0x11) ∧
      (bench.slot 3).state ≠ .present ∧ exec .faultAssertion bench = .next (after .faultAssertion bench) ∧
      bench.linkPhase ≠ .probing ∧ Instr.faultAssertion ≠ .deviceReset :=
  ⟨bench_listens 0, by decide +kernel, by decide +kernel, rfl, by decide +kernel, by decide +kernel⟩

theorem witness_RepeatReplyReturnsTheStore :
    Listening bench 0 ∧ (bench.port 0).store = none ∧
      Listening (after (.frameOpen 0) (after (.frameEnd 0) (after (.nop 0 []) bench))) 0 ∧
      ((after (.frameOpen 0) (after (.frameEnd 0) (after (.nop 0 []) bench))).port 0).store ≠ none :=
  ⟨bench_listens 0, by decide +kernel, listens (by decide +kernel), by decide +kernel⟩

/-- The sender holds a LIVE channel with two waiters and waits for another's. -/
theorem witness_PortClearTearsDownTheSender :
    Listening bench 0 ∧ bench.devicePhase = .running ∧ bench.holder 0 = some 0 ∧ bench.holder 3 ≠ some 0 ∧
      (bench.lease 3).waiters ≠ [] :=
  ⟨bench_listens 0, bench_running, by decide +kernel, by decide +kernel, by decide +kernel⟩

/-- Each clause alone: no channel, 0 ms, 60001 ms, a reserved option, ATOMIC with WAIT. -/
theorem witness_ClaimChecksItsArguments :
    Listening bench 0 ∧ bench.devicePhase = .running ∧ (0 : Mask) = 0 ∧ (0 : Word).toNat < 1 ∧
      60000 < (60001 : Word).toNat ∧ (0x08 : Byte) &&& 0xF8 ≠ 0 ∧
      ((0x05 : Byte).getLsbD 2 = true ∧ (0x05 : Byte).getLsbD 0 = true) :=
  ⟨bench_listens 0, bench_running, rfl, by decide +kernel, by decide +kernel, by decide +kernel, by decide +kernel⟩

/-- HP2, of the highest rank, claims every channel with PREEMPT and WAIT, for 1 and for 60000 ms. -/
theorem witness_ClaimDecidesEachChannel :
    Safety.Inv bench ∧ Listening bench 2 ∧ bench.devicePhase = .running ∧ (0xFFFF : Mask) ≠ 0 ∧
      (1 ≤ (1 : Word).toNat ∧ (60000 : Word).toNat ≤ 60000) ∧ (0x03 : Byte) &&& 0xF8 = 0 ∧
      (0x03 : Byte).getLsbD 2 = false ∧ inMask (0x7FFF : Mask) 15 = false :=
  ⟨bench_inv, bench_listens 2, bench_running, by decide +kernel, by decide +kernel, by decide +kernel, by decide +kernel,
    by decide +kernel⟩

/-- HP2 may take the free CH4 and, with PREEMPT, CH1 of HP0; UNAVAILABLE CH12 fails, and no lower channel of the mask does. -/
theorem witness_AtomicClaimTakesAllOrNone :
    Listening bench 2 ∧ (0x06 : Byte) &&& 0xF8 = 0 ∧ (0x06 : Byte).getLsbD 2 = true ∧ (0x06 : Byte).getLsbD 0 = false ∧
      (∀ c, inMask (0x0012 : Mask) c = true → AtomicPasses bench 2 true c) ∧
      (inMask (0x1012 : Mask) 12 = true ∧ ¬AtomicPasses bench 2 true 12 ∧
        ∀ b, b < 12 → inMask (0x1012 : Mask) b = true → AtomicPasses bench 2 true b) := by
  have h1 : ∀ old, bench.holder 1 = some old → old = 2 ∨ (true = true ∧ bench.rank old < bench.rank 2) := by
    decide +kernel
  have h4 : ∀ old, bench.holder 4 = some old → old = 2 ∨ (true = true ∧ bench.rank old < bench.rank 2) := by
    decide +kernel
  have p1 : AtomicPasses bench 2 true 1 := ⟨by decide +kernel, h1⟩
  have p4 : AtomicPasses bench 2 true 4 := ⟨by decide +kernel, h4⟩
  have key : ∀ c : Channel, c < 12 → inMask (0x1012 : Mask) c = true → c = 1 ∨ c = 4 := by decide +kernel
  have key' : ∀ c : Channel, inMask (0x0012 : Mask) c = true → c = 1 ∨ c = 4 := by decide +kernel
  refine ⟨bench_listens 2, by decide +kernel, by decide +kernel, by decide +kernel, fun c hc => ?_, by decide +kernel,
    fun h => h.1 (by decide +kernel), fun b hb hm => ?_⟩
  · rcases key' c hc with rfl | rfl
    · exact p1
    · exact p4
  · rcases key b hb hm with rfl | rfl
    · exact p1
    · exact p4

theorem witness_RenewRestartsHeldLeases :
    Listening bench 0 ∧ bench.devicePhase = .running ∧ (0xFFFF : Mask) ≠ 0 ∧ bench.holder 0 = some 0 ∧
      bench.holder 3 ≠ some 0 :=
  ⟨bench_listens 0, bench_running, by decide +kernel, by decide +kernel, by decide +kernel⟩

/-- One mask with a held channel, a wait and a channel of neither; both policies and the first byte that is neither. -/
theorem witness_ReleaseEndsOrWithdraws :
    Listening bench 0 ∧ bench.devicePhase = .running ∧ (0xFFFF : Mask) ≠ 0 ∧ ((2 : Byte) ≠ 0 ∧ (2 : Byte) ≠ 1) ∧
      bench.holder 0 = some 0 ∧ (bench.holder 3 ≠ some 0 ∧ ∃ w ∈ (bench.lease 3).waiters, w.port = 0) ∧
      (bench.holder 8 ≠ some 0 ∧ ∀ w ∈ (bench.lease 8).waiters, w.port ≠ 0) :=
  ⟨bench_listens 0, bench_running, by decide +kernel, by decide +kernel, by decide +kernel, by decide +kernel,
    by decide +kernel⟩

theorem witness_ReadLeaseReportsTheRecord :
    Listening bench 1 ∧ bench.devicePhase = .running ∧ 16 ≤ (16 : Byte).toNat ∧ 16 ≤ (255 : Byte).toNat ∧
      (bench.lease 15).held = none ∧
      (bench.lease 3).held = some { holder := 1, duration := 60000, remaining := 60000, warned := false } :=
  ⟨bench_listens 1, bench_running, by decide +kernel, by decide +kernel, by decide +kernel, by decide +kernel⟩

theorem witness_SetWarningWritesTheLead :
    Listening (startBench 2 false) 0 ∧ (startBench 2 false).devicePhase = .starting ∧ Listening bench 0 ∧
      bench.devicePhase = .running ∧ 1000 < (1001 : Word).toNat ∧ (1000 : Word).toNat ≤ 1000 ∧ (0 : Word).toNat ≤ 1000 :=
  ⟨startBench_listens 0, startBench_starting, bench_listens 0, bench_running, by decide +kernel, by decide +kernel,
    by decide +kernel⟩

/-- A lease at 1, one at 2 and one at 60000, a warning due on CH1, and a free channel. -/
theorem witness_LeaseTickActsOnEveryLease :
    Safety.Inv bench ∧ bench.inReset = false ∧ (bench.lease 4).held = none ∧
      (bench.lease 0).held = some { holder := 0, duration := 100, remaining := 1, warned := false } ∧
      (bench.lease 2).held = some { holder := 0, duration := 100, remaining := 2, warned := false } ∧
      (bench.lease 3).held = some { holder := 1, duration := 60000, remaining := 60000, warned := false } ∧
      warnedAtTick (bench.lead 0) { holder := 0, duration := 100, remaining := 50, warned := false } = true :=
  ⟨bench_inv, by decide +kernel, by decide +kernel, by decide +kernel, by decide +kernel, by decide +kernel,
    by decide +kernel⟩

theorem witness_LeaseTickSendsItsRecords : Safety.Inv bench ∧ bench.inReset = false := ⟨bench_inv, by decide +kernel⟩

/-- No set, a set at 1, a set at 2, and a set with no limit. -/
theorem witness_ArmWindowsCountDown :
    bench.inReset = false ∧ (bench.commit 0).armed = none ∧ ((bench.commit 1).armed.map ArmedSet.window) = some 1 ∧
      ((bench.commit 2).armed.map ArmedSet.window) = some 2 ∧ ((armedBench.commit 2).armed.map ArmedSet.window) = some 0 ∧
      armedBench.inReset = false := by decide +kernel

theorem witness_LeaseExpiryEndsTheLease :
    bench.inReset = false ∧
      (bench.lease 0).held = some { holder := 0, duration := 100, remaining := 1, warned := false } ∧
      (∀ l, (bench.lease 4).held = some l → l.remaining ≠ 1) ∧ ∀ l, (bench.lease 2).held = some l → l.remaining ≠ 1 := by
  have h4 : (bench.lease 4).held = none := by decide +kernel
  have h2 : (bench.lease 2).held = some { holder := 0, duration := 100, remaining := 2, warned := false } := by
    decide +kernel
  refine ⟨by decide +kernel, by decide +kernel, fun l h => ?_, fun l h => ?_⟩
  · rw [h4] at h; cases h
  · rw [h2] at h; cases h; decide

/-- A lease at its last tick and one of 60000 ms. -/
theorem witness_LeaseLastsItsRemaining :
    Safety.Inv bench ∧ bench.inReset = false ∧
      (bench.lease 0).held = some { holder := 0, duration := 100, remaining := 1, warned := false } ∧
      (bench.lease 3).held = some { holder := 1, duration := 60000, remaining := 60000, warned := false } ∧
      59999 < 60000 :=
  ⟨bench_inv, by decide +kernel, by decide +kernel, by decide +kernel, by decide⟩

/-- Twelve entries, a wrong channel and a wrong flag in the last of them; one entry. -/
theorem witness_StageReplacesInPlace :
    Listening bench 0 ∧ bench.devicePhase = .running ∧
      (let bad := List.replicate 44 (0 : Byte) ++ [0x10, 0, 0, 0]
       CommandName.lenAllowed .stage bad.length = true ∧ 4 * 11 + 3 < bad.length ∧ 16 ≤ (bad.getD (4 * 11) 0).toNat) ∧
      (let bad := List.replicate 44 (0 : Byte) ++ [0x0F, 0, 0, 2]
       CommandName.lenAllowed .stage bad.length = true ∧ 2 ≤ (bad.getD (4 * 11 + 3) 0).toNat) ∧
      (List.replicate 12 (⟨3, 65535, true⟩ : StageEntry)).length ≤ 12 ∧ [(⟨1, 7, false⟩ : StageEntry)] ≠ [] ∧
      Safety.Inv bench :=
  ⟨bench_listens 0, bench_running, by decide +kernel, by decide +kernel, by decide +kernel, by decide +kernel, bench_inv⟩

theorem witness_UnstageAndReadStage :
    Listening bench 0 ∧ bench.devicePhase = .running ∧ (0x8001 : Mask) ≠ 0 ∧
      (∃ e ∈ (bench.commit 0).staging, e.channel = 0) ∧ ∀ e ∈ (bench.commit 0).staging, e.channel ≠ 15 :=
  ⟨bench_listens 0, bench_running, by decide +kernel, by decide +kernel, by decide +kernel⟩

/-- The commit checks pass for HP0's list. -/
theorem bench_commitPasses : CommitPasses bench 0 :=
  ⟨by decide +kernel, by decide +kernel,
    ⟨by decide +kernel, by decide +kernel, by decide +kernel, by decide +kernel⟩⟩

theorem witness_CommitAndArmRefusals_faultActive :
    let s := { idle with faultAsserted := true }
    Listening s 0 ∧ s.devicePhase = .running ∧ CommitRefusal s 0 { status := .faultActive, data := [] } :=
  ⟨listens (by decide +kernel), by decide +kernel, .faultActive (by decide +kernel)⟩

theorem witness_CommitAndArmRefusals_armed :
    Listening bench 1 ∧ bench.devicePhase = .running ∧ CommitRefusal bench 1 { status := .armed, data := [] } ∧
      (60000 : Word).toNat ≤ 60000 ∧ 60000 < (60001 : Word).toNat :=
  ⟨bench_listens 1, bench_running, .armed (by decide +kernel) (by decide +kernel), by decide +kernel, by decide +kernel⟩

theorem witness_CommitAndArmRefusals_nothingStaged :
    Listening idle 0 ∧ CommitRefusal idle 0 { status := .nothingStaged, data := [] } :=
  ⟨listens (by decide +kernel), .nothingStaged (by decide +kernel) (by decide +kernel) (by decide +kernel)⟩

theorem witness_CommitAndArmRefusals_notHolder :
    Listening commitBench 0 ∧ CommitRefusal commitBench 0 { status := .notHolder, data := [channelByte 8] } :=
  ⟨listens (by decide +kernel),
    .notHeld [] [⟨0, 20000, false⟩] ⟨8, 12000, true⟩ .notHolder (by decide +kernel) (by decide +kernel) rfl (by simp)
      (.inr ⟨by decide +kernel, by decide +kernel, rfl⟩)⟩

theorem witness_CommitAndArmRefusals_unavailable :
    let s := idle.setCommit 0 { staging := [⟨12, 1, false⟩], armed := none, nextNumber := 1 }
    Listening s 0 ∧ CommitRefusal s 0 { status := .unavailable, data := [channelByte 12] } :=
  ⟨listens (by decide +kernel),
    .notHeld [] [] ⟨12, 1, false⟩ .unavailable (by decide +kernel) (by decide +kernel) rfl (by simp)
      (.inl ⟨by decide +kernel, rfl⟩)⟩

theorem witness_CommitAndArmRefusals_faulted :
    let s := bench.setCommit 0 { staging := [⟨0, 1, true⟩, ⟨2, 1, false⟩], armed := none, nextNumber := 1 }
    Listening s 0 ∧ CommitRefusal s 0 { status := .faulted, data := [channelByte 2] } :=
  ⟨listens (by decide +kernel),
    .faulted [⟨0, 1, true⟩] [] ⟨2, 1, false⟩ (by decide +kernel) (by decide +kernel) rfl (by decide +kernel)
      (by decide +kernel) (by decide +kernel)⟩

theorem witness_CommitAndArmRefusals_phases :
    Listening (startBench 2 false) 0 ∧ (startBench 2 false).devicePhase = .starting ∧ CommitPasses bench 0 :=
  ⟨startBench_listens 0, startBench_starting, bench_commitPasses⟩

/-- A list with a jump and a clamped ramp, and a channel outside it; the commit number is about to wrap. -/
theorem witness_CommitAppliesTheList :
    Safety.Inv bench ∧ Listening bench 0 ∧ bench.devicePhase = .running ∧ CommitPasses bench 0 ∧
      (⟨1, 40000, false⟩ : StageEntry) ∈ (bench.commit 0).staging ∧ (∀ e ∈ (bench.commit 0).staging, e.channel ≠ 3) ∧
      (bench.commit 0).nextNumber = 65535 :=
  ⟨bench_inv, bench_listens 0, bench_running, bench_commitPasses, by decide +kernel, by decide +kernel, by decide +kernel⟩

theorem witness_ArmMovesTheList :
    Listening bench 0 ∧ bench.devicePhase = .running ∧ CommitPasses bench 0 ∧ (0 : Word).toNat ≤ 60000 ∧
      (60000 : Word).toNat ≤ 60000 :=
  ⟨bench_listens 0, bench_running, bench_commitPasses, by decide +kernel, by decide +kernel⟩

theorem witness_DisarmAndReadArmed :
    Listening (startBench 2 false) 0 ∧ (startBench 2 false).devicePhase = .starting ∧ Listening bench 0 ∧
      bench.devicePhase = .running ∧ (bench.commit 0).armed = none ∧ Listening bench 1 ∧
      (bench.commit 1).armed = some { entries := [⟨3, 9000, false⟩], number := 12, window := 1 } :=
  ⟨startBench_listens 0, startBench_starting, bench_listens 0, bench_running, by decide +kernel, bench_listens 1,
    by decide +kernel⟩

/-- HP1's set passes, and HP2's does not: nobody holds CH4. -/
theorem bench_sets :
    (∃ a, (bench.commit 1).armed = some a ∧ EntriesPass bench 1 a.entries) ∧
      ∃ a, (bench.commit 2).armed = some a ∧ ¬EntriesPass bench 2 a.entries :=
  ⟨⟨_, rfl, by decide +kernel, by decide +kernel, by decide +kernel, by decide +kernel⟩,
    ⟨_, rfl, fun h => absurd (h.held ⟨4, 5, false⟩ (by decide +kernel)) (by decide +kernel)⟩⟩

theorem witness_SyncCommandFiresEverySet :
    Safety.Inv (startBench 2 false) ∧ Listening (startBench 2 false) 0 ∧ (startBench 2 false).devicePhase = .starting ∧
      Safety.Inv bench ∧ Listening bench 0 ∧ bench.devicePhase = .running ∧ (bench.commit 0).armed = none :=
  ⟨startBench_inv.1, startBench_listens 0, startBench_starting, bench_inv, bench_listens 0, bench_running,
    by decide +kernel⟩

theorem witness_SyncEdgeFiresEverySet :
    Safety.Inv bench ∧ (bench.inReset = false ∧ bench.syncArmed = true) ∧
      (Safety.Inv idle ∧ idle.inReset = false ∧ idle.syncArmed = false) ∧
      (Safety.Inv State.reset ∧ State.reset.inReset = true) :=
  ⟨bench_inv, by decide +kernel, ⟨checkInv_sound (by decide +kernel), by decide +kernel⟩,
    checkInv_sound (by decide +kernel), rfl⟩

theorem witness_SettingCommandsShareChecks :
    Listening bench 0 ∧ CommandName.setRamp ∈ [CommandName.setLimits, .setFallback, .setRamp, .clearFault] ∧
      CommandName.lenAllowed .setRamp ([0x10, 0, 0, 0] : List Byte).length = true ∧
      16 ≤ (([0x10, 0, 0, 0] : List Byte).getD 0 0).toNat ∧
      (([0x0F, 0, 0, 0] : List Byte).getD 0 0 = channelByte 15 ∧ (bench.chan 15).state = .unavailable) ∧
      (([0x03, 0, 0, 0] : List Byte).getD 0 0 = channelByte 3 ∧ (bench.chan 3).state ≠ .unavailable ∧
        bench.holder 3 ≠ some 0) ∧
      Listening (startBench 2 false) 0 ∧ (startBench 2 false).devicePhase = .starting :=
  ⟨bench_listens 0, by decide +kernel, by decide +kernel, by decide +kernel, by decide +kernel, by decide +kernel,
    startBench_listens 0, startBench_starting⟩

/-- CH6 of the first example of chapter 1: the window at its fallback, one beyond it, and an inverted one. -/
theorem witness_SetLimitsClampsTheTarget :
    Listening (rampingCh6 200) 1 ∧ (rampingCh6 200).devicePhase = .running ∧
      ((rampingCh6 200).chan 6).state ≠ .unavailable ∧ (rampingCh6 200).holder 6 = some 1 ∧ (1 : Code) < 2 ∧
      ((rampingCh6 200).chan 6).fallback < 12001 ∧ (11999 : Code) < ((rampingCh6 200).chan 6).fallback ∧
      ((12000 : Code) ≤ ((rampingCh6 200).chan 6).fallback ∧ ((rampingCh6 200).chan 6).fallback ≤ 12000) ∧
      ((rampingCh6 0).chan 6).rampStep = 0 :=
  ⟨listens (by decide +kernel), by decide +kernel, by decide +kernel, by decide +kernel, by decide +kernel,
    by decide +kernel, by decide +kernel, by decide +kernel, by decide +kernel⟩

/-- CH1 of bench, window 0 to 30000, SAFE: both ends of the window, and one beyond its upper end. -/
theorem witness_SetFallbackMovesASafeChannel :
    Listening bench 0 ∧ bench.devicePhase = .running ∧ (bench.chan 1).state = .safe ∧ bench.holder 1 = some 0 ∧
      (bench.chan 1).limitHigh < 30001 ∧ ((bench.chan 1).limitLow ≤ 0 ∧ (30000 : Code) ≤ (bench.chan 1).limitHigh) ∧
      (bench.chan 1).target ≠ 30000 :=
  ⟨bench_listens 0, bench_running, by decide +kernel, by decide +kernel, by decide +kernel, by decide +kernel,
    by decide +kernel⟩

theorem witness_SetRampWritesStepAndOptions :
    Listening (startBench 2 false) 0 ∧ (startBench 2 false).devicePhase = .starting ∧ Listening bench 0 ∧
      bench.devicePhase = .running ∧ (bench.chan 1).state ≠ .unavailable ∧ bench.holder 1 = some 0 ∧
      (0x04 : Byte) &&& 0xFC ≠ 0 ∧ (0x03 : Byte) &&& 0xFC = 0 :=
  ⟨startBench_listens 0, startBench_starting, bench_listens 0, bench_running, by decide +kernel, by decide +kernel,
    by decide +kernel, by decide +kernel⟩

/-- The byte of each origin, as the statement asks for it. -/
def originCodes : Option UpdateEntry → Byte
  | none => 0
  | some e =>
    match e.origin with
    | .start => 1
    | .commit => 2
    | .ramp => 3
    | .safe => 4
    | .recovery => 5

theorem witness_ReadChannelReportsTheRecord :
    Listening bench 2 ∧ 16 ≤ (16 : Byte).toNat ∧ originCodes none = 0 ∧
      ∀ e, originCodes (some e) =
        match e.origin with
        | .start => 1
        | .commit => 2
        | .ramp => 3
        | .safe => 4
        | .recovery => 5 :=
  ⟨bench_listens 2, by decide +kernel, rfl, fun _ => rfl⟩

theorem witness_ForceSafeTakesHeldChannels :
    Listening (startBench 2 false) 0 ∧ (startBench 2 false).devicePhase = .starting ∧ Listening bench 0 ∧
      bench.devicePhase = .running ∧ (0xFFFF : Mask) ≠ 0 ∧ (bench.holder 0 = some 0 ∧ (bench.chan 0).state = .live) ∧
      (bench.holder 2 = some 0 ∧ (bench.chan 2).state = .faulted) ∧ bench.holder 3 ≠ some 0 :=
  ⟨startBench_listens 0, startBench_starting, bench_listens 0, bench_running, by decide +kernel, by decide +kernel,
    by decide +kernel, by decide +kernel⟩

theorem witness_ClearFaultRecovers :
    Listening (startBench 2 false) 0 ∧ (startBench 2 false).devicePhase = .starting ∧ Listening bench 0 ∧
      bench.devicePhase = .running ∧
      ((bench.chan 1).state ≠ .unavailable ∧ bench.holder 1 = some 0 ∧ (bench.chan 1).state ≠ .faulted) ∧
      (bench.holder 2 = some 0 ∧ (bench.chan 2).state = .faulted) ∧ Safety.Inv bench :=
  ⟨startBench_listens 0, startBench_starting, bench_listens 0, bench_running, by decide +kernel, by decide +kernel,
    bench_inv⟩

theorem witness_RampTickMovesEachChannel :
    bench.inReset = false ∧ (bench.chan 3).present ≠ (bench.chan 3).target ∧
      (bench.chan 0).present = (bench.chan 0).target := by decide +kernel

/-- One channel below its target and one above it. -/
theorem witness_RampArrivesInItsTicks :
    let down := idle.setChan 3 { live 9000 with present := 13000, rampStep := 1500 }
    (bench.inReset = false ∧ (bench.chan 3).state = .live ∧ (bench.chan 3).rampStep ≠ 0 ∧
      (bench.chan 3).present ≤ (bench.chan 3).target) ∧
      (down.inReset = false ∧ (down.chan 3).state = .live ∧ (down.chan 3).rampStep ≠ 0 ∧
        (down.chan 3).target ≤ (down.chan 3).present) := by decide +kernel

/-- The first slot of the probe with three more to come, and the last. -/
theorem witness_ProbeDecidesEachSlot :
    (Safety.Inv probeBench ∧ probeBench.inReset = false ∧ probeBench.linkPhase = .probing ∧
      (probeBench.slot 0).state = .probing ∧ (∀ j : Slot, j < 0 → (probeBench.slot j).state ≠ .probing) ∧
      ∃ j : Slot, j ≠ 0 ∧ (probeBench.slot j).state = .probing) ∧
      (Safety.Inv lastProbe ∧ lastProbe.inReset = false ∧ lastProbe.linkPhase = .probing ∧
        (lastProbe.slot 3).state = .probing ∧ (∀ j : Slot, j < 3 → (lastProbe.slot j).state ≠ .probing) ∧
        ∀ j : Slot, j ≠ 3 → (lastProbe.slot j).state ≠ .probing) :=
  ⟨⟨checkInv_sound (by decide +kernel), by decide +kernel⟩, checkInv_sound (by decide +kernel), by decide +kernel⟩

theorem witness_LinkWritesThenReadsBack :
    (bench.linkPhase = .idle ∧ bench.inReset = false ∧
      bench.queue = { channel := 3, code := 10000, origin := .ramp } ::
        [{ channel := 1, code := 28000, origin := .start }]) ∧
      (idle.linkPhase = .idle ∧ idle.queue = []) ∧ (startBench 2 false).linkPhase ≠ .idle ∧
      ((linkBench .writing 0 []).linkPhase = .writing ∧ (linkBench .writing 0 []).inReset = false ∧
        (linkBench .writing 0 []).inFlight = some { channel := 5, code := 7000, origin := .commit }) ∧
      bench.linkPhase ≠ .writing ∧ (23 : Nat) ≠ 24 := by decide +kernel

/-- A RUNNING channel, and a STARTING one. -/
theorem witness_VerifyMatchConfirms :
    ((linkBench .verifying 2 []).linkPhase = .verifying ∧
      (linkBench .verifying 2 []).inFlight = some { channel := 5, code := 7000, origin := .commit } ∧
      (linkBench .verifying 2 []).devicePhase = .running) ∧
      ((startBench 2 false).linkPhase = .verifying ∧
        (startBench 2 false).inFlight = some { channel := 11, code := 0, origin := .start }) := by decide +kernel

/-- No newer code waits; and one does. -/
theorem witness_VerifyFailureIsTriedAgain :
    (Safety.Inv (linkBench .verifying 1 []) ∧ ((linkBench .verifying 1 []).chan 5).failures < 2 ∧
      (0 : Code) ≠ 7000 ∧ ∀ x ∈ (linkBench .verifying 1 []).queue, x.channel ≠ 5) ∧
      (let s := linkBench .verifying 0 [{ channel := 5, code := 8000, origin := .commit }]
       Safety.Inv s ∧ (s.chan 5).failures < 2 ∧ s.linkPhase = .verifying ∧
        s.inFlight = some { channel := 5, code := 7000, origin := .commit } ∧ ∃ x ∈ s.queue, x.channel = 5) :=
  ⟨⟨checkInv_sound (by decide +kernel), by decide +kernel⟩, checkInv_sound (by decide +kernel), by decide +kernel⟩

theorem witness_ThirdFailureFaultsTheChannel :
    let s := linkBench .verifying 2 [{ channel := 5, code := 8000, origin := .commit }]
    s.linkPhase = .verifying ∧ s.inFlight = some { channel := 5, code := 7000, origin := .commit } ∧ (0 : Code) ≠ 7000 ∧
      (s.chan 5).failures = 2 ∧ s.devicePhase = .running ∧ s.holder 5 = some 0 := by decide +kernel

/-- The last STARTING channel at its third failure; and a match that leaves another STARTING. -/
theorem witness_StartupEndsWithItsLastChannel :
    (Safety.Inv (startBench 2 false) ∧ (startBench 2 false).devicePhase = .starting ∧
      (startBench 2 false).linkPhase = .verifying ∧
      (startBench 2 false).inFlight = some { channel := 11, code := 0, origin := .start } ∧
      ((startBench 2 false).chan 11).failures = 2 ∧
      ∀ c, ((after (.verifyResult 1) (startBench 2 false)).chan c).state ≠ .starting) ∧
      (Safety.Inv (startBench 0 true) ∧ ((after (.verifyResult 0) (startBench 0 true)).chan 10).state = .starting) :=
  ⟨⟨startBench_inv.1, by decide +kernel⟩, startBench_inv.2, by decide +kernel⟩

theorem witness_FaultAssertionMakesEverythingSafe :
    (bench.inReset = false ∧ bench.faultAsserted = false) ∧ (bench.commit 0).armed = none ∧
      (bench.commit 1).armed ≠ none ∧ State.reset.inReset = true ∧
      { idle with faultAsserted := true }.faultAsserted = true := by decide +kernel

theorem witness_FaultReleaseTellsEveryHost :
    let s := { idle with faultAsserted := true }
    s.inReset = false ∧ s.faultAsserted = true := by decide +kernel

/-- A masked record; a queue of 15, a queue of 16, and a queue whose last record is OVERFLOW, at 254 and at 255. -/
theorem witness_RecordsArriveByMaskAndRoom :
    (EventKind.classBit .leaseWarning = some 1 ∧ (0x3D : BitVec 6).getLsbD 1 = false) ∧
      (0x3F : BitVec 6).getLsbD 1 = true ∧ (List.replicate 15 (record .test 0xFF 0 1)).length < 16 ∧
      (∀ x ∈ List.replicate 15 (record .test 0xFF 0 1), x.kind ≠ .overflow) ∧
      (16 ≤ (List.replicate 15 (record .test 0xFF 0 1) ++ [record .rampDone 0x09 5 1]).length ∧
        (record .rampDone 0x09 5 1).kind ≠ .overflow) ∧
      (record .overflow 0xFF 254 1).kind = .overflow ∧ (record .overflow 0xFF 254 1).tag < 255 ∧
      ¬(record .overflow 0xFF 255 1).tag < 255 := by decide +kernel

theorem witness_ReadEventsDrainsTheHead :
    Listening bench 1 ∧ 4 < (5 : Byte).toNat ∧ (1 ≤ (1 : Byte).toNat ∧ (4 : Byte).toNat ≤ 4) ∧
      (bench.event 1).queue.length = 16 ∧ (bench.event 0).queue = [] :=
  ⟨bench_listens 1, by decide +kernel, by decide +kernel, by decide +kernel, by decide +kernel⟩

theorem witness_SetEventMaskAndEventTest :
    Listening bench 1 ∧ (0x40 : Byte) &&& 0xC0 ≠ 0 ∧ ((2 : Byte) ≠ 0 ∧ (2 : Byte) ≠ 1) ∧ (0x3F : Byte) &&& 0xC0 = 0 ∧
      (bench.event 1).queue ≠ [] :=
  ⟨bench_listens 1, by decide +kernel, by decide +kernel, by decide +kernel, by decide +kernel⟩

/-- A part held in reset with a chip select low. -/
theorem witness_ResetEndSamplesTheStraps :
    let s := State.reset.setPort 1 { PortRecord.reset with csLow := true }
    Safety.Inv s ∧ s.inReset = true :=
  ⟨checkInv_sound (by decide +kernel), by decide +kernel⟩

/-- A part in reset, a frame on the link, and an IDLE link. -/
theorem witness_OutputsRestInReset :
    (Safety.Inv State.reset ∧ State.reset.inReset = true) ∧ idle.linkFrame = none ∧ idle.linkPhase = .idle ∧
      probeBench.linkFrame = some { slot := 0, bytes := [0xE0, 0x00, 0x00] } :=
  ⟨⟨checkInv_sound (by decide +kernel), rfl⟩, by decide +kernel, rfl, by decide +kernel⟩

end Sys2Proof.Tests
end

/-! PROOFS. The channel table: Set Limits (R16) and Read Channel (R18, R159). -/

namespace Sys2Proof.Safety

open Sys2Proof.Machine

variable {s : State} {p : Port} {c : Channel}

/-! A command that changes nothing -/

/-- Where the owning block leaves the state as it is, a taken command changes nothing but the ports (R141). -/
theorem command_answers_unchanged {name : CommandName} {args : List Byte} {r : Reply} (hl : Listening s p)
    (hn : name.lenAllowed args.length = true) (hp : s.devicePhase = .running ∨ name.takenInStarting = true)
    (h1 : name ≠ .repeatReply) (h2 : name ≠ .portClear) (hk : takeCommand name p args s = (s, r)) :
    ∃ t, exec (commandOf name p args) s = .next t ∧ Answers s t p r ∧ t = { s with ports := t.ports } := by
  obtain ⟨P, hexec, hanswers⟩ := command_answers hl hn hp h1 h2 hk
  exact ⟨withPorts s P, hexec, hanswers, rfl⟩

/-- A byte above 15 names no channel. -/
theorem channelOf_eq_none {b : Byte} (h : 16 ≤ b.toNat) : channelOf b = none :=
  dif_neg (by omega)

/-! Set Limits (R16) -/

/-- The argument bytes of Set Limits are read as they were written (R155). -/
theorem setLimits_args (c : Channel) (low high : Code) :
    argByte ([channelByte c] ++ wordBytes low ++ wordBytes high) 0 = channelByte c ∧
      argWord ([channelByte c] ++ wordBytes low ++ wordBytes high) 1 = low ∧
      argWord ([channelByte c] ++ wordBytes low ++ wordBytes high) 3 = high := by
  simp [argWord, argByte, wordBytes]

/-- On a channel that passes the checks of R15, Set Limits refuses an inverted window, then one that leaves out the
fallback, and else applies the window (R16). -/
theorem takeCommand_setLimits (hu : (s.chan c).state ≠ .unavailable) (hh : s.holder c = some p) (low high : Code) :
    takeCommand .setLimits p ([channelByte c] ++ wordBytes low ++ wordBytes high) s =
      if high < low then (s, Reply.naming .badArgument c)
      else if (s.chan c).fallback < low ∨ high < (s.chan c).fallback then (s, Reply.naming .outOfWindow c)
      else (s.applyLimits c low high, Reply.bare .ok) := by
  obtain ⟨hchan, hlow, hhigh⟩ := setLimits_args c low high
  unfold takeCommand takeSetLimits
  dsimp only
  rw [hchan, settingChecks_held (channelOf_channelByte c) hu hh, hlow, hhigh]

section
variable {low high target : Code}
  (ht : ({ s.chan c with limitLow := low, limitHigh := high } : ChannelRecord).clamp (s.chan c).target = target)
include ht

/-- An accepted Set Limits as two updates: the record with its clamped target, then the jump where R16 asks for it. -/
theorem applyLimits_eq :
    s.applyLimits c low high =
      if (s.chan c).state = .live ∧ target ≠ (s.chan c).target ∧ (s.chan c).rampStep = 0 then
        (s.setChan c { s.chan c with limitLow := low, limitHigh := high, target := target }).jumpTo c target .commit
      else s.setChan c { s.chan c with limitLow := low, limitHigh := high, target := target } := by
  subst ht
  rfl

/-- The channel's own record after an accepted Set Limits. -/
theorem applyLimits_chan_self :
    (s.applyLimits c low high).chan c =
      { s.chan c with
        limitLow := low
        limitHigh := high
        target := target
        present :=
          if (s.chan c).state = .live ∧ target ≠ (s.chan c).target ∧ (s.chan c).rampStep = 0 then target
          else (s.chan c).present } := by
  rw [applyLimits_eq ht]
  split
  · simp [State.jumpTo_chan]
  · simp

/-- The update queue after an accepted Set Limits: the jump, if any, places the clamped target with origin COMMIT. -/
theorem applyLimits_queue :
    (s.applyLimits c low high).queue =
      if (s.chan c).state = .live ∧ target ≠ (s.chan c).target ∧ (s.chan c).rampStep = 0 then
        place s.queue c target .commit
      else s.queue := by
  rw [applyLimits_eq ht]
  split
  · simp
  · simp

end

theorem applyLimits_chan_of_ne (low high : Code) {d : Channel} (hd : d ≠ c) :
    (s.applyLimits c low high).chan d = s.chan d := by
  rw [applyLimits_eq rfl]
  split
  · simp [State.jumpTo_chan, hd.symm]
  · simp [hd.symm]

/-- An accepted Set Limits writes the channel table and the update queue, and nothing else. -/
theorem applyLimits_frame (low high : Code) :
    s.applyLimits c low high =
      { s with channels := (s.applyLimits c low high).channels, queue := (s.applyLimits c low high).queue } := by
  apply State.ext <;> simp

/-- Settles O39: the three clauses are the three outcomes of `takeCommand_setLimits`. -/
theorem setLimitsClampsTheTarget : Obligations.SetLimitsClampsTheTarget := by
  unfold Obligations.SetLimitsClampsTheTarget
  intro s p c low high hl hrun hu hh
  have htake := takeCommand_setLimits hu hh low high
  refine ⟨fun hinv => ?inverted, fun hord hout => ?outside, fun hlow hhigh => ?accepted⟩
  case inverted =>
    rw [if_pos hinv] at htake
    exact command_answers_unchanged (name := .setLimits) hl rfl (.inl hrun) nofun nofun htake
  case outside =>
    rw [if_neg (BitVec.not_lt.mpr hord), if_pos hout] at htake
    exact command_answers_unchanged (name := .setLimits) hl rfl (.inl hrun) nofun nofun htake
  case accepted =>
    have hord : ¬high < low := BitVec.not_lt.mpr (BitVec.le_trans hlow hhigh)
    have hin : ¬((s.chan c).fallback < low ∨ high < (s.chan c).fallback) := by
      rintro (h | h)
      · exact BitVec.not_lt.mpr hlow h
      · exact BitVec.not_lt.mpr hhigh h
    rw [if_neg hord, if_neg hin] at htake
    obtain ⟨P, hexec, hanswers⟩ := command_answers (name := .setLimits) hl rfl (.inl hrun) nofun nofun htake
    refine ⟨_, _, hexec, hanswers, rfl, applyLimits_chan_self rfl, applyLimits_queue rfl,
      fun d hd => applyLimits_chan_of_ne low high hd, ?_⟩
    exact congrArg (withPorts · P) (applyLimits_frame low high)

/-! Read Channel (R18, R159) -/

/-- The confirmed code after the bytes before it: a flag and the code, all 00h where no code is confirmed (R159). -/
theorem append_confirmed_bytes (before : List Byte) (v : Option Code) :
    before ++ [flagByte v.isSome] ++ wordBytes (v.getD 0) =
      before ++
        match v with
        | none => [0, 0, 0]
        | some w => [1] ++ wordBytes w := by
  rw [List.append_assoc]
  cases v with
  | none => rfl
  | some w => rfl

/-- The options byte as the sum of its two bits (R159). -/
theorem options_eq_ofNat (r : ChannelRecord) :
    r.options =
      BitVec.ofNat 8 ((if r.rampToFallback = true then 1 else 0) + (if r.rampDoneReport = true then 2 else 0)) := by
  unfold ChannelRecord.options
  cases r.rampToFallback <;> cases r.rampDoneReport <;> rfl

/-- The origin's byte is determined by its cases (R159). -/
theorem eq_originByte {originCode : Option UpdateEntry → Byte} (hnone : originCode none = 0)
    (hsome : ∀ e, originCode (some e) = e.origin.code) : originCode = originByte := by
  funext o
  cases o with
  | none => exact hnone
  | some e => exact hsome e

/-- On a channel's byte, Read Channel leaves the state as it is and replies the channel's record (R18). -/
theorem takeCommand_readChannel (s : State) (p : Port) (c : Channel) :
    takeCommand .readChannel p [channelByte c] s = (s, { status := .ok, data := s.channelRecord c }) := by
  simp [takeCommand, takeReadChannel, argByte]

/-- On a byte that names no channel, Read Channel is refused (R18). -/
theorem takeCommand_readChannel_badArgument (s : State) (p : Port) {b : Byte} (hb : 16 ≤ b.toNat) :
    takeCommand .readChannel p [b] s = (s, Reply.bare .badArgument) := by
  simp [takeCommand, takeReadChannel, argByte, channelOf_eq_none hb]

/-- Settles O42: Read Channel is taken in either device phase and changes nothing; its reply is the channel's record.
The confirmed code, the options and the origins are rewritten by the lemmas above; the bytes of the state and of the
holder are the statement's by definition. -/
theorem readChannelReportsTheRecord : Obligations.ReadChannelReportsTheRecord := by
  unfold Obligations.ReadChannelReportsTheRecord
  intro s p hl
  refine ⟨fun b hb => ?noChannel, fun c originCode hnone hsome => ?channel⟩
  case noChannel =>
    exact command_answers_unchanged (name := .readChannel) hl rfl (.inr rfl) nofun nofun
      (takeCommand_readChannel_badArgument s p hb)
  case channel =>
    have htake := takeCommand_readChannel s p c
    obtain rfl := eq_originByte hnone hsome
    simp only [State.channelRecord, State.waiting, State.flying, beq_eq_decide, append_confirmed_bytes,
      options_eq_ofNat] at htake
    exact command_answers_unchanged (name := .readChannel) hl rfl (.inr rfl) nofun nofun htake

end Sys2Proof.Safety

/-! PROOFS. The lease table: Set Warning (R41), Read Lease (R44, R158), Read Status (R43, R147), Renew (R31) and the
argument checks and ATOMIC of Claim (R26, R28). -/

namespace Sys2Proof.Safety

open Sys2Proof.Machine

variable {s : State} {p : Port} {c : Channel}

/-! Holders, waiters and ranks -/

theorem holds_iff_holder : s.holds p c = true ↔ s.holder c = some p := by
  simp [State.holds]

theorem holds_eq_false_iff_holder : s.holds p c = false ↔ s.holder c ≠ some p := by
  simp [State.holds]

theorem waits_iff_mem : s.waits p c = true ↔ ∃ w ∈ (s.lease c).waiters, w.port = p := by
  simp [State.waits]

/-- The held mask names the channels the host holds (R43). -/
theorem inMask_heldMask : inMask (s.heldMask p) c = true ↔ s.holder c = some p := by
  rw [State.heldMask, inMask_maskOf, holds_iff_holder]

/-- The waiting mask names the channels on whose wait lists the host stands (R43). -/
theorem inMask_waitingMask :
    inMask (s.waitingMask p) c = true ↔ ∃ w ∈ (s.lease c).waiters, w.port = p := by
  rw [State.waitingMask, inMask_maskOf, waits_iff_mem]

/-- A rank as one byte of a record (R157, R158). -/
theorem rank_setWidth (s : State) (p : Port) : (s.rank p).setWidth 8 = BitVec.ofNat 8 (s.rank p).toNat :=
  (BitVec.ofNat_toNat 8 (s.rank p)).symm

/-! Set Warning (R41) -/

theorem takeCommand_setWarning_badArgument (s : State) (p : Port) {n : Word} (h : 1000 < n.toNat) :
    takeCommand .setWarning p (wordBytes n) s = (s, Reply.bare .badArgument) := by
  simp [takeCommand, takeSetWarning, argWord_only, Config.maxLead, h]

theorem takeCommand_setWarning (s : State) (p : Port) {n : Word} (h : n.toNat ≤ 1000) :
    takeCommand .setWarning p (wordBytes n) s = (s.setLead p n.toNat, Reply.bare .ok) := by
  simp [takeCommand, takeSetWarning, argWord_only, Config.maxLead, Nat.not_lt.mpr h]

/-- Settles O24: in STARTING the framing refuses the command; in RUNNING the two clauses are its two outcomes. -/
theorem setWarningWritesTheLead : Obligations.SetWarningWritesTheLead := by
  unfold Obligations.SetWarningWritesTheLead
  intro s p n hl
  refine ⟨fun hstart => ?starting, fun hrun habove => ?tooLong, fun hrun hle => ?written⟩
  case starting => exact command_notReady (name := .setWarning) hl rfl hstart rfl
  case tooLong =>
    exact command_answers_unchanged (name := .setWarning) hl rfl (.inl hrun) nofun nofun
      (takeCommand_setWarning_badArgument s p habove)
  case written =>
    obtain ⟨P, hexec, hanswers⟩ := command_answers (name := .setWarning) hl rfl (.inl hrun) nofun nofun
      (takeCommand_setWarning s p hle)
    exact ⟨_, hexec, hanswers, s.setLead_lead_self p n.toNat, fun q hq => s.setLead_lead_ne p n.toNat q hq.symm, rfl⟩

/-! Read Lease (R44, R158) -/

theorem takeCommand_readLease (s : State) (p : Port) (c : Channel) :
    takeCommand .readLease p [channelByte c] s = (s, { status := .ok, data := s.leaseRecord c }) := by
  simp [takeCommand, takeReadLease, argByte]

theorem takeCommand_readLease_badArgument (s : State) (p : Port) {b : Byte} (hb : 16 ≤ b.toNat) :
    takeCommand .readLease p [b] s = (s, Reply.bare .badArgument) := by
  simp [takeCommand, takeReadLease, argByte, channelOf_eq_none hb]

/-- The lease record of a channel without a holder (R44). -/
theorem leaseRecord_of_free (h : (s.lease c).held = none) : s.leaseRecord c = [0xFF, 0, 0, 0, 0, 0, 0] := by
  simp [State.leaseRecord, h]

/-- The lease record of a held channel: the lease, then its wait list (R158). -/
theorem leaseRecord_of_held {l : Lease} (h : (s.lease c).held = some l) :
    s.leaseRecord c =
      [portByte l.holder, BitVec.ofNat 8 (s.rank l.holder).toNat]
        ++ wordBytes (BitVec.ofNat 16 l.duration) ++ wordBytes (BitVec.ofNat 16 l.remaining)
        ++ [BitVec.ofNat 8 (s.lease c).waiters.length] ++ (s.lease c).waiters.flatMap Waiter.bytes := by
  simp only [State.leaseRecord, h, rank_setWidth]

/-- Settles O23: Read Lease changes nothing; its reply is the channel's lease record, by its holder. -/
theorem readLeaseReportsTheRecord : Obligations.ReadLeaseReportsTheRecord := by
  unfold Obligations.ReadLeaseReportsTheRecord
  intro s p hl hrun
  refine ⟨fun b hb => ?noChannel, fun c hfree => ?free, fun c l hheld => ?held⟩
  case noChannel =>
    exact command_answers_unchanged (name := .readLease) hl rfl (.inl hrun) nofun nofun
      (takeCommand_readLease_badArgument s p hb)
  case free =>
    have htake := takeCommand_readLease s p c
    rw [leaseRecord_of_free hfree] at htake
    exact command_answers_unchanged (name := .readLease) hl rfl (.inl hrun) nofun nofun htake
  case held =>
    have htake := takeCommand_readLease s p c
    rw [leaseRecord_of_held hheld] at htake
    exact command_answers_unchanged (name := .readLease) hl rfl (.inl hrun) nofun nofun htake

/-! Read Status (R43, R147, R157) -/

/-- The device flags byte as the sum of its two bits (R157). -/
theorem deviceFlags_eq_ofNat (s : State) :
    s.deviceFlags =
      BitVec.ofNat 8 ((if s.devicePhase = .running then 1 else 0) + (if s.faultAsserted = true then 2 else 0)) := by
  unfold State.deviceFlags
  cases s.devicePhase <;> cases s.faultAsserted <;> rfl

/-- In STARTING a host holds nothing, waits for nothing, and has neither a staged entry nor an armed set (R43). -/
theorem sender_of_starting (hi : Inv s) (hstart : s.devicePhase = .starting) (p : Port) :
    s.heldMask p = 0 ∧ s.waitingMask p = 0 ∧ (s.commit p).staging = [] ∧ (s.commit p).armed = none := by
  have hlease := hi.startup.noLease hstart
  have hcommit := hi.startup.noCommit hstart p
  refine ⟨(maskOf_eq_zero _).mpr fun c => ?held, (maskOf_eq_zero _).mpr fun c => ?waiting, ?staging, ?armed⟩
  case held => simp [State.holds, State.holder, hlease c, LeaseRecord.reset]
  case waiting => simp [State.waits, hlease c, LeaseRecord.reset]
  case staging => rw [hcommit]; rfl
  case armed => rw [hcommit]; rfl

/-- Settles O14: Read Status is taken in either device phase and changes nothing; its reply is the status record, whose
flags and rank are rewritten as the statement has them. -/
theorem readStatusReportsTheSender : Obligations.ReadStatusReportsTheSender := by
  unfold Obligations.ReadStatusReportsTheSender
  intro s p hl
  have htake : takeCommand .readStatus p [] s = (s, { status := .ok, data := s.statusRecord p }) := rfl
  simp only [State.statusRecord, deviceFlags_eq_ofNat, rank_setWidth] at htake
  obtain ⟨t, hexec, hanswers, hframe⟩ :=
    command_answers_unchanged (name := .readStatus) hl rfl (.inr rfl) nofun nofun htake
  exact ⟨t, s.heldMask p, s.waitingMask p, hexec, hanswers, fun c => inMask_heldMask, fun c => inMask_waitingMask,
    fun hi hstart => sender_of_starting hi hstart p, hframe⟩

/-! Renew (R31) -/

/-- The leases of a mask renewed (R31). -/
def renewAll (s : State) (m : Mask) : State :=
  overAll 16 (fun c t => if inMask m c then t.renewLease c else t) s

theorem renewAll_lease (m : Mask) (c : Channel) :
    (renewAll s m).lease c = if inMask m c = true then renewed (s.lease c) else s.lease c := by
  refine overAll_get State.lease _ (fun d r => if inMask m d = true then renewed r else r) (fun c d t => ?_) s c
  by_cases hcd : c = d
  · subst hcd
    by_cases hm : inMask m c = true <;> simp [hm, State.renewLease_lease, renewed_eq, renewed]
  · by_cases hm : inMask m c = true <;> simp [hm, State.renewLease_lease, hcd]

/-- A renewal writes the lease table and nothing else (R31). -/
theorem renewAll_frame (m : Mask) : renewAll s m = { s with leases := (renewAll s m).leases } := by
  have keeps {β : Type} (f : State → β) (h : ∀ c t, f (State.renewLease t c) = f t) : f (renewAll s m) = f s :=
    overAll_keeps f (fun c t => by split; exacts [h c t, rfl]) s
  apply State.ext
  case leases => rfl
  all_goals exact keeps _ (by simp)

theorem takeCommand_renew_badArgument (s : State) (p : Port) :
    takeCommand .renew p (wordBytes 0) s = (s, Reply.bare .badArgument) := by
  simp [takeCommand, takeRenew, argWord_only]

/-- Renew on a mask that names a channel: the sender's leases are renewed, and the rest of the mask is reported (R31). -/
theorem takeCommand_renew (s : State) (p : Port) {m done notHeld : Mask} (hm : m ≠ 0)
    (hdone : done = maskOf (fun c => inMask m c && s.holds p c))
    (hnot : notHeld = maskOf (fun c => inMask m c && !s.holds p c)) :
    takeCommand .renew p (wordBytes m) s =
      (renewAll s done,
        { status := if notHeld = 0 then .ok else .notHolder, data := wordBytes done ++ wordBytes notHeld }) := by
  subst hdone hnot
  unfold takeCommand takeRenew
  dsimp only
  rw [argWord_only, if_neg hm]
  simp [renewAll, Reply.masks]

/-- Settles O21: an empty mask is refused; else each channel's lease is renewed where the mask of the sender's channels
names it. -/
theorem renewRestartsHeldLeases : Obligations.RenewRestartsHeldLeases := by
  unfold Obligations.RenewRestartsHeldLeases
  intro s p m hl hrun
  refine ⟨fun hzero => ?refused, fun hm => ?renewed⟩
  case refused =>
    subst hzero
    exact command_answers_unchanged (name := .renew) hl rfl (.inl hrun) nofun nofun (takeCommand_renew_badArgument s p)
  case renewed =>
    obtain ⟨P, hexec, hanswers⟩ := command_answers (name := .renew) hl rfl (.inl hrun) nofun nofun
      (takeCommand_renew s p hm rfl rfl)
    have hdone : ∀ c, inMask (maskOf (fun c => inMask m c && s.holds p c)) c = true ↔
        inMask m c = true ∧ s.holder c = some p := by
      simp [holds_iff_holder]
    refine ⟨_, _, _, hexec, hanswers, hdone, ?notHeld, ?leases, congrArg (withPorts · P) (renewAll_frame _)⟩
    case notHeld => simp [holds_eq_false_iff_holder]
    case leases =>
      intro c
      simp only [withPorts_lease, renewAll_lease, hdone]

/-! Claim (R26, R28) -/

/-- The arguments of a Claim fail a check of R26. -/
def ClaimFailsCheck (m : Mask) (d : Word) (o : Byte) : Prop :=
  m = 0 ∨ d.toNat < 1 ∨ 60000 < d.toNat ∨ o &&& 0xF8 ≠ 0 ∨ (o.getLsbD 2 = true ∧ o.getLsbD 0 = true)

/-- An argument that fails a check of R26 is refused BAD_ARGUMENT, whichever check it is. -/
theorem takeCommand_claim_badArgument (s : State) (p : Port) {m : Mask} {d : Word} {o : Byte}
    (h : ClaimFailsCheck m d o) :
    takeCommand .claim p (wordBytes m ++ wordBytes d ++ [o]) s = (s, Reply.bare .badArgument) := by
  obtain ⟨hmask, hduration, hoptions⟩ := claim_args m d o
  unfold takeCommand takeClaim
  dsimp only
  rw [hmask, hduration, hoptions]
  rcases h with hm | hshort | hlong | hreserved | hboth
  · rw [if_pos hm]
  · rw [if_pos (Or.inl hshort), ite_self]
  · rw [if_pos (.inr hlong : d.toNat < 1 ∨ Config.maxDuration < d.toNat), ite_self]
  · rw [if_pos hreserved, ite_self, ite_self]
  · rw [if_pos (show (claimOptionsOf o).atomic = true ∧ (claimOptionsOf o).wait = true from hboth), ite_self, ite_self,
      ite_self]

/-- Settles O18: a Claim that fails a check of R26 is refused and changes nothing. -/
theorem claimChecksItsArguments : Obligations.ClaimChecksItsArguments := by
  unfold Obligations.ClaimChecksItsArguments
  intro s p m d o hl hrun hfails
  exact command_answers_unchanged (name := .claim) hl rfl (.inl hrun) nofun nofun
    (takeCommand_claim_badArgument s p hfails)

/-- The first of the ascending numbers that passes a test is the least that does. -/
theorem find?_ascending_eq_some {n : Nat} {f : Fin n → Bool} {i : Fin n} (hi : f i = true)
    (hleast : ∀ j, j < i → f j = false) : (ascending n).find? f = some i := by
  obtain ⟨before, after, hsplit⟩ := List.append_of_mem (List.mem_finRange i)
  have hsorted := List.pairwise_lt_finRange n
  rw [hsplit] at hsorted
  have hbefore : ∀ j ∈ before, j < i := fun j hj => (List.pairwise_append.mp hsorted).2.2 j hj i List.mem_cons_self
  rw [ascending, List.find?_eq_some_iff_append]
  exact ⟨hi, before, after, hsplit, fun j hj => by simp [hleast j (hbefore j hj)]⟩

section
variable {m : Mask} {d : Word} {o : Byte} (hm : m ≠ 0) (hone : 1 ≤ d.toNat) (hmax : d.toNat ≤ 60000)
  (hreserved : o &&& 0xF8 = 0) (hatomic : o.getLsbD 2 = true) (hwait : o.getLsbD 0 = false)
include hm hone hmax hreserved hatomic hwait

/-- A Claim with ATOMIC that passes the checks of R26: the first channel of its mask that it would not be granted decides
(R28). -/
theorem takeCommand_claim_atomic (s : State) (p : Port) :
    takeCommand .claim p (wordBytes m ++ wordBytes d ++ [o]) s =
      ((ascending 16).find? (fun c => inMask m c && s.claimOutcome p (claimOptionsOf o) c != .granted)).elim
        (s.claimAll p (claimOptionsOf o) d.toNat m, Reply.masks .ok [m, 0, 0])
        (fun c => (s, Reply.naming .held c)) := by
  obtain ⟨hmask, hduration, hoptions⟩ := claim_args m d o
  have hrange : ¬(d.toNat < 1 ∨ Config.maxDuration < d.toNat) := by
    simp only [Config.maxDuration]
    omega
  have hwaits : ¬((claimOptionsOf o).atomic = true ∧ (claimOptionsOf o).wait = true) := fun h =>
    Bool.false_ne_true (hwait.symm.trans h.2)
  unfold takeCommand takeClaim
  dsimp only
  rw [hmask, hduration, hoptions, if_neg hm, if_neg hrange, if_neg (not_not.mpr hreserved), if_neg hwaits,
    if_pos (show (claimOptionsOf o).atomic = true from hatomic)]
  cases (ascending 16).find? _ with
  | none => rfl
  | some c => rfl

/-- Where every channel of the mask passes, all of them are claimed (R28). -/
theorem takeCommand_claim_atomic_all (hall : ∀ c, inMask m c = true → AtomicPasses s p (o.getLsbD 1) c) :
    takeCommand .claim p (wordBytes m ++ wordBytes d ++ [o]) s =
      (s.claimAll p (claimOptionsOf o) d.toNat m, Reply.masks .ok [m, 0, 0]) := by
  have hnone : (ascending 16).find? (fun c => inMask m c && s.claimOutcome p (claimOptionsOf o) c != .granted) = none :=
    List.find?_eq_none.mpr fun c _ => by
      simpa using fun hc => (atomic_iff (claimOptionsOf o) hwait c).mpr (hall c hc)
  rw [takeCommand_claim_atomic hm hone hmax hreserved hatomic hwait, hnone]
  rfl

/-- Where a channel of the mask fails, nothing changes and the lowest one that fails is named (R28). -/
theorem takeCommand_claim_atomic_held (hc : inMask m c = true) (hfails : ¬AtomicPasses s p (o.getLsbD 1) c)
    (hlower : ∀ b, b < c → inMask m b = true → AtomicPasses s p (o.getLsbD 1) b) :
    takeCommand .claim p (wordBytes m ++ wordBytes d ++ [o]) s = (s, Reply.naming .held c) := by
  have hfirst : (ascending 16).find? (fun c => inMask m c && s.claimOutcome p (claimOptionsOf o) c != .granted) =
      some c := by
    refine find?_ascending_eq_some ?fails (fun b hb => ?passes)
    case fails =>
      have : s.claimOutcome p (claimOptionsOf o) c ≠ .granted := fun h =>
        hfails ((atomic_iff (claimOptionsOf o) hwait c).mp h)
      simp [hc, this]
    case passes =>
      have := fun hbm => (atomic_iff (claimOptionsOf o) hwait b).mpr (hlower b hb hbm)
      simpa using this
  rw [takeCommand_claim_atomic hm hone hmax hreserved hatomic hwait, hfirst]
  rfl

end

/-- Settles O20: where every channel passes, each is granted by its row of R27; where one fails, nothing is written. -/
theorem atomicClaimTakesAllOrNone : Obligations.AtomicClaimTakesAllOrNone := by
  unfold Obligations.AtomicClaimTakesAllOrNone
  intro s p m d o hl hrun hm hone hmax hreserved hatomic hwait
  refine ⟨fun hall => ?all, fun c hc hfails hlower => ?none⟩
  case all =>
    obtain ⟨P, hexec, hanswers⟩ := command_answers (name := .claim) hl rfl (.inl hrun) nofun nofun
      (takeCommand_claim_atomic_all hm hone hmax hreserved hatomic hwait hall)
    refine ⟨_, hexec, hanswers, fun c hc => ?outside, fun c hc => ?inside,
      claimAll_event (claimOptionsOf o) d.toNat m, claimAll_frame P _ _ _⟩
    case outside => rw [withPorts_lease, claimAll_lease, if_neg (by simp [hc])]
    case inside =>
      have hrow := claim_row (s := s) (p := p) (claimOptionsOf o) d.toNat c (.inr hwait)
      rw [(atomic_iff (claimOptionsOf o) hwait c).mpr (hall c hc), show (claimOptionsOf o).wait = false from hwait]
        at hrow
      rw [withPorts_lease, claimAll_lease, if_pos hc]
      exact hrow
  case none =>
    exact command_answers_unchanged (name := .claim) hl rfl (.inl hrun) nofun nofun
      (takeCommand_claim_atomic_held hm hone hmax hreserved hatomic hwait hc hfails hlower)

end Sys2Proof.Safety

/-! PROOFS. The commit unit: Stage (R52, R53), Unstage and Read Stage (R55, R56), the checks of Commit and Arm (R57 to
R59, R69) and an applied Commit (R60 to R65). -/

namespace Sys2Proof.Safety

open Sys2Proof.Machine

variable {s : State} {p : Port}

/-! A command that writes the sender's part of the commit unit -/

/-- Where the owning block replaces the sender's commit record, a taken command changes that record and the ports, and
nothing else (R141). -/
theorem command_answers_setCommit {name : CommandName} {args : List Byte} {r : Reply} {u : CommitRecord}
    (hl : Listening s p) (hn : name.lenAllowed args.length = true)
    (hp : s.devicePhase = .running ∨ name.takenInStarting = true) (h1 : name ≠ .repeatReply) (h2 : name ≠ .portClear)
    (hk : takeCommand name p args s = (s.setCommit p u, r)) :
    ∃ t, exec (commandOf name p args) s = .next t ∧ Answers s t p r ∧ t.commit p = u ∧
      (∀ q, q ≠ p → t.commit q = s.commit q) ∧ t = { s with commits := t.commits, ports := t.ports } := by
  obtain ⟨P, hexec, hanswers⟩ := command_answers hl hn hp h1 h2 hk
  exact ⟨_, hexec, hanswers, s.setCommit_commit_self p u, fun q hq => s.setCommit_commit_ne p u q hq.symm, rfl⟩

/-! Stage (R52, R53) -/

/-- Entries staged one after another keep one entry per channel (R51). -/
theorem foldl_stageEntry_nodup (es : List StageEntry) {list : List StageEntry}
    (h : (list.map StageEntry.channel).Nodup) : ((es.foldl stageEntry list).map StageEntry.channel).Nodup := by
  induction es generalizing list with
  | nil => exact h
  | cons e es ih => exact ih (stageEntry_nodup h e)

/-- A list with one entry per channel has at most sixteen entries. -/
theorem length_le_of_channels_nodup {list : List StageEntry} (h : (list.map StageEntry.channel).Nodup) :
    list.length ≤ 16 := by
  simpa using h.length_le_card

/-- A Stage with an entry that names no channel or has a reserved flag is refused whole (R52). -/
theorem takeCommand_stage_badArgument (s : State) (p : Port) {args : List Byte} {k : Nat} (hk : 4 * k + 3 < args.length)
    (hbad : 16 ≤ (args.getD (4 * k) 0).toNat ∨ 2 ≤ (args.getD (4 * k + 3) 0).toNat) :
    takeCommand .stage p args s = (s, Reply.bare .badArgument) := by
  simp [takeCommand, takeStage, stageEntriesOf_bad args.length args le_rfl k hk hbad]

/-- A Stage of written-out entries stages each of them in turn and reports the length of the list (R53). -/
theorem takeCommand_stage (s : State) (p : Port) {es list : List StageEntry}
    (hlist : es.foldl stageEntry (s.commit p).staging = list) :
    takeCommand .stage p (entryBytes es) s =
      (s.setCommit p { s.commit p with staging := list },
        { status := .ok, data := [BitVec.ofNat 8 list.length] }) := by
  simp [takeCommand, takeStage, stageEntriesOf_entryBytes, hlist]

/-- One to twelve entries are a length that Stage allows (R154). -/
theorem lenAllowed_stage {es : List StageEntry} (hsome : es ≠ []) (hmax : es.length ≤ 12) :
    CommandName.lenAllowed .stage (entryBytes es).length = true := by
  have hpos := List.length_pos_iff.mpr hsome
  rw [entryBytes_length]
  exact decide_eq_true (by omega)

/-- Settles O30: one bad entry refuses the whole request; else the list is the fold of the entries, and stays between
one entry and one per channel. -/
theorem stageReplacesInPlace : Obligations.StageReplacesInPlace := by
  unfold Obligations.StageReplacesInPlace
  intro s p hl hrun
  refine ⟨fun args hlen ⟨k, hk, hbad⟩ => ?refused, fun es hsome hmax => ?staged⟩
  case refused =>
    exact command_answers_unchanged (name := .stage) hl hlen (.inl hrun) nofun nofun
      (takeCommand_stage_badArgument s p hk hbad)
  case staged =>
    obtain ⟨t, hexec, hanswers, hown, hothers, hframe⟩ := command_answers_setCommit (name := .stage) hl
      (lenAllowed_stage hsome hmax) (.inl hrun) nofun nofun (takeCommand_stage s p rfl)
    refine ⟨t, _, hexec, hanswers, by rw [stageEntry_eq], fun hi => ⟨?least, ?most⟩, hown, hothers, hframe⟩
    case least => exact List.length_pos_iff.mpr (stage_ne es _ (.inr hsome))
    case most => exact length_le_of_channels_nodup (foldl_stageEntry_nodup es (hi.commits p).stagedOnce)

/-! Unstage and Read Stage (R55, R56) -/

theorem takeCommand_unstage_badArgument (s : State) (p : Port) :
    takeCommand .unstage p [0, 0] s = (s, Reply.bare .badArgument) := rfl

/-- The channels of a mask that a staging list holds: those that Unstage reports as removed (R55). -/
def removedMask (es : List StageEntry) (m : Mask) : Mask :=
  maskOf (fun c => inMask m c && es.any (fun e => e.channel == c))

theorem inMask_removedMask (es : List StageEntry) (m : Mask) (c : Channel) :
    inMask (removedMask es m) c = true ↔ inMask m c = true ∧ ∃ e ∈ es, e.channel = c := by
  simp [removedMask]

/-- Unstage on a mask that names a channel keeps the entries outside the mask, in their order (R55). -/
theorem takeCommand_unstage (s : State) (p : Port) {m : Mask} (hm : m ≠ 0) :
    takeCommand .unstage p (wordBytes m) s =
      (s.setCommit p
          { s.commit p with staging := (s.commit p).staging.filter (fun e => inMask m e.channel = false) },
        { status := .ok, data := wordBytes (removedMask (s.commit p).staging m) }) := by
  unfold takeCommand takeUnstage
  dsimp only
  rw [argWord_only, if_neg hm]
  simp [Reply.masks, removedMask]

/-- Read Stage replies the entries of the list, each in its four bytes (R56). -/
theorem takeCommand_readStage (s : State) (p : Port) :
    takeCommand .readStage p [] s =
      (s,
        { status := .ok
          data := (s.commit p).staging.flatMap
            (fun e => channelByte e.channel :: (wordBytes e.code ++ [if e.jump = true then 1 else 0])) }) := rfl

/-- Settles O31: an empty mask is refused, another takes its entries out of the list; Read Stage changes nothing. -/
theorem unstageAndReadStage : Obligations.UnstageAndReadStage := by
  unfold Obligations.UnstageAndReadStage
  intro s p hl hrun
  refine ⟨?refused, fun m hm => ?removed, ?read⟩
  case refused =>
    exact command_answers_unchanged (name := .unstage) hl rfl (.inl hrun) nofun nofun
      (takeCommand_unstage_badArgument s p)
  case removed =>
    obtain ⟨t, hexec, hanswers, hown, hothers, hframe⟩ := command_answers_setCommit (name := .unstage) hl rfl
      (.inl hrun) nofun nofun (takeCommand_unstage s p hm)
    exact ⟨t, _, hexec, hanswers, inMask_removedMask _ m, hown, hothers, hframe⟩
  case read =>
    exact command_answers_unchanged (name := .readStage) hl rfl (.inl hrun) nofun nofun (takeCommand_readStage s p)

/-! The checks of Commit and Arm (R57 to R59, R69) -/

/-- A Commit with a failing check is refused by it and leaves the state as it is (R57). -/
theorem takeCommand_commit_refused {r : Reply} (h : CommitRefusal s p r) : takeCommand .commit p [] s = (s, r) := by
  simp [takeCommand, takeCommit, commitChecks_refusal.mpr h]

/-- An Arm with too long a window is refused before its other checks (R69). -/
theorem takeCommand_arm_badArgument (s : State) (p : Port) {w : Word} (h : 60000 < w.toNat) :
    takeCommand .arm p (wordBytes w) s = (s, Reply.bare .badArgument) := by
  simp [takeCommand, takeArm, argWord_only, Config.maxArmWindow, h]

/-- An Arm whose window is allowed has the checks of a Commit (R69). -/
theorem takeCommand_arm_refused {w : Word} (hw : w.toNat ≤ 60000) {r : Reply} (h : CommitRefusal s p r) :
    takeCommand .arm p (wordBytes w) s = (s, r) := by
  simp [takeCommand, takeArm, argWord_only, Config.maxArmWindow, Nat.not_lt.mpr hw, commitChecks_refusal.mpr h]

/-- The commit checks pass, or the first that fails refuses (R57). -/
theorem commitPasses_or_refusal (s : State) (p : Port) : CommitPasses s p ∨ ∃ r, CommitRefusal s p r := by
  cases h : s.commitChecks p with
  | none => exact .inl (commitChecks_pass.mp h)
  | some r => exact .inr ⟨r, commitChecks_refusal.mp h⟩

/-- Settles O32: in STARTING the framing refuses both commands; in RUNNING an Arm's window is checked first, and then
the checks that the two commands share. -/
theorem commitAndArmRefusals : Obligations.CommitAndArmRefusals := by
  unfold Obligations.CommitAndArmRefusals
  intro s p hl
  refine ⟨fun hstart => ⟨?commitStarting, fun w => ?armStarting⟩, fun hrun =>
    ⟨fun w hw => ?window, fun r hr => ⟨?commitRefused, fun w hw => ?armRefused⟩, commitPasses_or_refusal s p⟩⟩
  case commitStarting => exact command_notReady (name := .commit) hl rfl hstart rfl
  case armStarting => exact command_notReady (name := .arm) hl rfl hstart rfl
  case window =>
    exact command_answers_unchanged (name := .arm) hl rfl (.inl hrun) nofun nofun (takeCommand_arm_badArgument s p hw)
  case commitRefused =>
    exact command_answers_unchanged (name := .commit) hl rfl (.inl hrun) nofun nofun (takeCommand_commit_refused hr)
  case armRefused =>
    exact command_answers_unchanged (name := .arm) hl rfl (.inl hrun) nofun nofun (takeCommand_arm_refused hw hr)

/-! An applied Commit (R60 to R65) -/

/-- The state after host p's staging list has been applied: the list is empty and the number has advanced (R60, R64,
R65). -/
def committedState (s : State) (p : Port) : State :=
  (s.applyEntries (s.commit p).staging).setCommit p
    { staging := [], armed := none, nextNumber := numberAfter (s.commit p).nextNumber }

/-- A Commit that passes its checks applies the list and reports its number and the clamped channels (R60, R61, R64). -/
theorem takeCommand_commit_passed (h : CommitPasses s p) :
    takeCommand .commit p [] s =
      (committedState s p,
        { status := .ok
          data := wordBytes (s.commit p).nextNumber ++ wordBytes (s.clampedMask (s.commit p).staging) }) := by
  simp [takeCommand, takeCommit, commitChecks_pass.mpr h, h.notArmed, committedState, numberAfter, advanceNumber]

/-- A Commit writes the channel table, the lease table, the commit unit and the update queue (R60, R65). -/
theorem committedState_frame (s : State) (p : Port) :
    committedState s p =
      { s with
        channels := (committedState s p).channels
        leases := (committedState s p).leases
        commits := (committedState s p).commits
        queue := (committedState s p).queue } := by
  apply State.ext <;> simp [committedState]

/-- A Commit leaves the commit records of the other hosts as they are (R65). -/
theorem committedState_commit_ne (s : State) {p q : Port} (h : q ≠ p) :
    (committedState s p).commit q = s.commit q :=
  (State.setCommit_commit_ne _ p _ q h.symm).trans (State.applyEntries_commit ..)

/-- Settles O33: each field of the state after a Commit is read off by the law of `applyEntries` about it; a list that
stages each channel once has one entry to decide each channel's record and lease. -/
theorem commitAppliesTheList : Obligations.CommitAppliesTheList := by
  unfold Obligations.CommitAppliesTheList
  intro s p hi hl hrun hpasses
  have honce := (hi.commits p).stagedOnce
  obtain ⟨P, hexec, hanswers⟩ := command_answers (name := .commit) hl rfl (.inl hrun) nofun nofun
    (takeCommand_commit_passed hpasses)
  exact ⟨_, _, hexec, hanswers, clampedMask_names _,
    fun e he => applyEntries_own _ honce e he,
    fun c hc => applyEntries_other _ c hc,
    applyEntries_queue _ honce,
    State.setCommit_commit_self _ p _,
    fun q hq => committedState_commit_ne s hq,
    congrArg (withPorts · P) (committedState_frame s p)⟩

end Sys2Proof.Safety

/-! PROOFS. Synchronised commit: Arm (R70), Disarm and Read Armed (R72, R73), and the sync event with the Sync command
(R75 to R80). -/

namespace Sys2Proof.Safety

open Sys2Proof.Machine

variable {s : State} {p : Port}

/-! Arm (R70) -/

/-- An Arm that passes its checks moves the list into an armed set, which takes the number (R70). -/
theorem takeCommand_arm_passed {w : Word} (hw : w.toNat ≤ 60000) (h : CommitPasses s p) :
    takeCommand .arm p (wordBytes w) s =
      (s.setCommit p
          { staging := []
            armed := some { entries := (s.commit p).staging, number := (s.commit p).nextNumber, window := w.toNat }
            nextNumber := numberAfter (s.commit p).nextNumber },
        { status := .ok, data := wordBytes (s.commit p).nextNumber }) := by
  simp [takeCommand, takeArm, argWord_only, Config.maxArmWindow, Nat.not_lt.mpr hw, commitChecks_pass.mpr h,
    numberAfter, advanceNumber]

/-- Settles O34: an Arm that passes writes the sender's commit record alone. -/
theorem armMovesTheList : Obligations.ArmMovesTheList := by
  unfold Obligations.ArmMovesTheList
  intro s p w hl hrun hpasses hw
  exact command_answers_setCommit (name := .arm) hl rfl (.inl hrun) nofun nofun (takeCommand_arm_passed hw hpasses)

/-! Disarm and Read Armed (R72, R73) -/

/-- Without an armed set Disarm is refused (R73). -/
theorem takeCommand_disarm_notArmed (h : (s.commit p).armed = none) :
    takeCommand .disarm p [] s = (s, Reply.bare .notArmed) := by
  simp [takeCommand, takeDisarm, h]

/-- Without an armed set Read Armed is refused (R72). -/
theorem takeCommand_readArmed_notArmed (h : (s.commit p).armed = none) :
    takeCommand .readArmed p [] s = (s, Reply.bare .notArmed) := by
  simp [takeCommand, takeReadArmed, h]

/-- Disarm discards the armed set; the staging list and the next number stand (R73). -/
theorem takeCommand_disarm {a : ArmedSet} (h : (s.commit p).armed = some a) :
    takeCommand .disarm p [] s = (s.setCommit p { s.commit p with armed := none }, Reply.bare .ok) := by
  simp [takeCommand, takeDisarm, h, State.disarm]

/-- Read Armed replies the number, the window remaining and the entries of the set (R72). -/
theorem takeCommand_readArmed {a : ArmedSet} (h : (s.commit p).armed = some a) :
    takeCommand .readArmed p [] s = (s, { status := .ok, data := a.bytes }) := by
  simp [takeCommand, takeReadArmed, h]

/-- Settles O35: in STARTING the framing refuses both commands; in RUNNING both look for the sender's armed set, which
Disarm discards and Read Armed leaves. -/
theorem disarmAndReadArmed : Obligations.DisarmAndReadArmed := by
  unfold Obligations.DisarmAndReadArmed
  intro s p hl
  refine ⟨fun hstart => ⟨?disarmStarting, ?readStarting⟩, fun hrun hnone => ⟨?disarmRefused, ?readRefused⟩,
    fun hrun a ha => ⟨?disarmed, ?read⟩⟩
  case disarmStarting => exact command_notReady (name := .disarm) hl rfl hstart rfl
  case readStarting => exact command_notReady (name := .readArmed) hl rfl hstart rfl
  case disarmRefused =>
    exact command_answers_unchanged (name := .disarm) hl rfl (.inl hrun) nofun nofun (takeCommand_disarm_notArmed hnone)
  case readRefused =>
    exact command_answers_unchanged (name := .readArmed) hl rfl (.inl hrun) nofun nofun
      (takeCommand_readArmed_notArmed hnone)
  case disarmed =>
    exact command_answers_setCommit (name := .disarm) hl rfl (.inl hrun) nofun nofun (takeCommand_disarm ha)
  case read =>
    exact command_answers_unchanged (name := .readArmed) hl rfl (.inl hrun) nofun nofun (takeCommand_readArmed ha)

/-! The firing of one port's armed set (R77 to R79) -/

/-- A port without an armed set has nothing to fire. -/
theorem firePort_unarmed (h : (s.commit p).armed = none) : s.firePort p = s := by
  simp [State.firePort, h]

/-- An armed set that passes is applied and gone, and its host receives COMMIT_APPLIED (R78). -/
theorem firePort_passed (hold : HoldLaw s) {a : ArmedSet} (ha : (s.commit p).armed = some a)
    (hpass : EntriesPass s p a.entries) :
    s.firePort p =
      ((s.applyEntries a.entries).disarm p).sendTo p .commitApplied (hiByte (s.clampedMask a.entries))
        (loByte (s.clampedMask a.entries)) a.number := by
  simp [State.firePort, ha, State.fireSet, (fireCheck_passes hold a).mpr hpass]

/-- An armed set that fails is gone, and its host receives COMMIT_FAILED with the failure's channel and reason (R79). No set
is armed while the FAULT input is asserted (R123), so the failure is one of check 5 or 6. -/
theorem firePort_failed (hi : Inv s) {a : ArmedSet} (ha : (s.commit p).armed = some a)
    (hfail : ¬EntriesPass s p a.entries) :
    ∃ c why, FireFailure s p a.entries c why ∧
      s.firePort p = (s.disarm p).sendTo p .commitFailed c why.code a.number := by
  have hreleased : s.faultAsserted = false := by
    by_contra hf
    simpa [ha] using hi.fault.noArmed (by simpa using hf) p
  cases hc : s.fireCheck p a with
  | none => exact absurd ((fireCheck_passes hi.hold a).mp hc) hfail
  | some failure =>
    obtain ⟨why, c⟩ := failure
    exact ⟨c, why, fireCheck_fails hreleased a why c hc, by simp [State.firePort, ha, State.fireSet, hc]⟩

/-- Applied or discarded, an armed set that has fired is gone; the staging list and the next number stand (R78, R79). -/
theorem firePort_commit (s : State) (p : Port) : (s.firePort p).commit p = { s.commit p with armed := none } := by
  cases ha : (s.commit p).armed with
  | none => rw [firePort_unarmed ha, ← ha]
  | some a =>
    unfold State.firePort
    rw [ha]
    dsimp only
    unfold State.fireSet
    split
    · simp [State.disarm]
    · simp [State.disarm]

/-- A channel that no passing set of its port writes stands, and so does its lease, when the port's set fires (R79). -/
theorem firePort_untouched (hi : Inv s) {c : Channel}
    (h : ∀ a, (s.commit p).armed = some a → EntriesPass s p a.entries → ∀ e ∈ a.entries, e.channel ≠ c) :
    (s.firePort p).chan c = s.chan c ∧ (s.firePort p).lease c = s.lease c := by
  cases ha : (s.commit p).armed with
  | none => simp [firePort_unarmed ha]
  | some a =>
    by_cases hpass : EntriesPass s p a.entries
    · simpa [firePort_passed hi.hold ha hpass] using applyEntries_other a.entries c (h a ha hpass)
    · obtain ⟨c', why, -, hfire⟩ := firePort_failed hi ha hpass
      simp [hfire]

/-! The sync event (R75, R80) -/

/-- A sync event leaves a port's part of the commit unit as the firing of its own set does (R80). -/
theorem syncEvent_commit (s : State) (p : Port) : s.syncEvent.commit p = { s.commit p with armed := none } :=
  (congrArg Prod.fst (syncEvent_fireView p)).trans (firePort_commit s p)

/-- A sync event sends a host what the firing of its own set sends it (R80). -/
theorem syncEvent_event (s : State) (p : Port) : s.syncEvent.event p = (s.firePort p).event p :=
  congrArg (fun view => view.2.1) (syncEvent_fireView p)

/-- A sync event leaves a channel and its lease as the firing of its holder's set does (R80). -/
theorem syncEvent_held {c : Channel} (h : s.holder c = some p) :
    s.syncEvent.chan c = (s.firePort p).chan c ∧ s.syncEvent.lease c = (s.firePort p).lease c := by
  have hholder : s.syncEvent.holder = s.holder := overAll_keeps State.holder firePort_holder s
  exact fireView_chan (syncEvent_fireView p) (by rw [hholder, h])

/-- The entries that a sync event applies for a port: those of its armed set where the set passes (R78, R79). -/
def firedEntries (s : State) (p : Port) : List StageEntry :=
  match (s.commit p).armed with
  | none => []
  | some a => if s.fireCheck p a = none then a.entries else []

theorem firedEntries_unarmed (h : (s.commit p).armed = none) : firedEntries s p = [] := by
  simp [firedEntries, h]

theorem firedEntries_passed {a : ArmedSet} (ha : (s.commit p).armed = some a) (h : s.fireCheck p a = none) :
    firedEntries s p = a.entries := by
  simp [firedEntries, ha, h]

theorem firedEntries_failed {a : ArmedSet} (ha : (s.commit p).armed = some a) (h : s.fireCheck p a ≠ none) :
    firedEntries s p = [] := by
  simp [firedEntries, ha, h]

/-- In any state that port p's set sees as s, its firing adds to the update queue the jumps it has in s (R78, R80). -/
theorem firePort_queue_of_view (hi : Inv s) {t : State} (h : fireView p t = fireView p s) :
    (t.firePort p).queue = queueAfter s (firedEntries s p) t.queue := by
  have hcommit : t.commit p = s.commit p := congrArg Prod.fst h
  rw [firePort_queue t (by rw [hcommit]; exact (hi.commits p).armedOnce), hcommit]
  cases ha : (s.commit p).armed with
  | none => rw [firedEntries_unarmed ha]; rfl
  | some a =>
    dsimp only
    rw [fireCheck_congr h a]
    by_cases hc : s.fireCheck p a = none
    · have hheld := ((fireCheck_none a).mp ((fireCheck_congr h a).trans hc)).2.1
      rw [if_pos hc, firedEntries_passed ha hc]
      exact queueAfter_congr t a.entries (fun e he => (fireView_chan h (hheld e he)).1) t.queue
    · rw [if_neg hc, firedEntries_failed ha hc]
      rfl

/-- Two lists of entries applied one after the other queue what their concatenation does (R62). -/
theorem queueAfter_append (s : State) (es fs : List StageEntry) (q : List UpdateEntry) :
    queueAfter s (es ++ fs) q = queueAfter s fs (queueAfter s es q) :=
  List.foldl_append

/-- The sets of a sync event join the update queue set by set, in ascending port order (R80). -/
theorem syncEvent_queue (hi : Inv s) :
    s.syncEvent.queue = queueAfter s (firedEntries s 0 ++ firedEntries s 1 ++ firedEntries s 2) s.queue := by
  have hview1 : fireView 1 (s.firePort 0) = fireView 1 s := firePort_other 1 0 s (by decide)
  have hview2 : fireView 2 ((s.firePort 0).firePort 1) = fireView 2 s :=
    (firePort_other 2 1 _ (by decide)).trans (firePort_other 2 0 s (by decide))
  calc s.syncEvent.queue
      = (((s.firePort 0).firePort 1).firePort 2).queue := rfl
    _ = queueAfter s (firedEntries s 2) (queueAfter s (firedEntries s 1) (queueAfter s (firedEntries s 0) s.queue)) := by
      rw [firePort_queue_of_view hi hview2, firePort_queue_of_view hi hview1, firePort_queue_of_view hi rfl]
    _ = queueAfter s (firedEntries s 0 ++ firedEntries s 1 ++ firedEntries s 2) s.queue := by
      rw [queueAfter_append, queueAfter_append]

/-- The entries that a port's set has at a sync event are those of its passing set, or none (R78, R79). -/
theorem eq_firedEntries (hold : HoldLaw s) {es : List StageEntry}
    (h : (∃ a, (s.commit p).armed = some a ∧ EntriesPass s p a.entries ∧ es = a.entries) ∨
      (es = [] ∧ ∀ a, (s.commit p).armed = some a → ¬EntriesPass s p a.entries)) :
    es = firedEntries s p := by
  rcases h with ⟨a, ha, hpass, rfl⟩ | ⟨rfl, hfail⟩
  · exact (firedEntries_passed ha ((fireCheck_passes hold a).mpr hpass)).symm
  · cases ha : (s.commit p).armed with
    | none => exact (firedEntries_unarmed ha).symm
    | some a => exact (firedEntries_failed ha (mt (fireCheck_passes hold a).mp (hfail a ha))).symm

/-- A sync event does what R75 and R77 to R80 say of it. -/
theorem syncEvent_done (hi : Inv s) : SyncEventDone s s.syncEvent where
  sets := syncEvent_commit s
  noSet p hnone := by rw [syncEvent_event, firePort_unarmed hnone]
  passed p a ha hpass := by
    have hfire := firePort_passed hi.hold ha hpass
    refine ⟨⟨_, clampedMask_names a.entries, ?event⟩, fun e he => ?entry⟩
    case event => rw [syncEvent_event, hfire]; simp [State.sendTo_event]
    case entry =>
      obtain ⟨hchan, hlease⟩ := syncEvent_held (hpass.held e he)
      rw [hchan, hlease, hfire]
      simpa using applyEntries_own a.entries ((hi.commits p).armedOnce a ha) e he
  failed p a ha hfail := by
    obtain ⟨c, why, hwhy, hfire⟩ := firePort_failed hi ha hfail
    exact ⟨c, why, hwhy, by rw [syncEvent_event, hfire]; simp [State.sendTo_event]⟩
  untouched c hc := by
    cases hholder : s.holder c with
    | none => exact syncEvent_unheld c hholder
    | some p =>
      obtain ⟨hchan, hlease⟩ := syncEvent_held hholder
      rw [hchan, hlease]
      exact firePort_untouched hi (hc p)
  queue es hes := by
    rw [eq_firedEntries hi.hold (hes 0), eq_firedEntries hi.hold (hes 1), eq_firedEntries hi.hold (hes 2)]
    exact syncEvent_queue hi
  rest := by apply State.ext <;> simp

/-- What a sync event does stands beside whatever the ports hold after it. -/
theorem syncEventDone_withPorts {t : State} (h : SyncEventDone s t) (P : Table 3 PortRecord) :
    SyncEventDone s (withPorts t P) :=
  { h with rest := congrArg (withPorts · P) h.rest }

/-! The Sync command (R76) -/

/-- A port mask has the bits of its ports, and no other (R76). -/
theorem portMaskOf_bit (f : Port → Bool) (q : Port) : (portMaskOf f).getLsbD q.val = f q := by
  have h : q.val < 8 := by omega
  simp [portMaskOf, BitVec.getLsbD_eq_getElem h, BitVec.getElem_ofFnLE]

theorem portMaskOf_high (f : Port → Bool) {i : Nat} (h : 3 ≤ i) : (portMaskOf f).getLsbD i = false := by
  by_cases h8 : i < 8
  · simp [portMaskOf, BitVec.getLsbD_eq_getElem h8, BitVec.getElem_ofFnLE, Nat.not_lt.mpr h]
  · exact BitVec.getLsbD_of_ge _ i (by omega)

/-- A port is in the applied-port mask where its armed set passes (R76). -/
theorem firePasses_true (hold : HoldLaw s) :
    s.firePasses p = some true ↔ ∃ a, (s.commit p).armed = some a ∧ EntriesPass s p a.entries := by
  simp [State.firePasses, fireCheck_passes hold]

/-- A port is in the failed-port mask where its armed set fails (R76). -/
theorem firePasses_false (hold : HoldLaw s) :
    s.firePasses p = some false ↔ ∃ a, (s.commit p).armed = some a ∧ ¬EntriesPass s p a.entries := by
  simp [State.firePasses, ← fireCheck_passes hold, ← Option.isSome_iff_ne_none]

/-- A Sync command is a sync event, with the two masks decided on the state that stood before it (R76, R80). -/
theorem takeCommand_sync (s : State) (p : Port) :
    takeCommand .sync p [] s =
      (s.syncEvent,
        { status := .ok
          data := [portMaskOf (fun q => s.firePasses q == some true),
            portMaskOf (fun q => s.firePasses q == some false)] }) := rfl

/-- Settles O36: each armed set fires on the state that stood before the sync event, and the reply's masks tell the ports
by the outcome of their checks there. -/
theorem syncCommandFiresEverySet : Obligations.SyncCommandFiresEverySet := by
  unfold Obligations.SyncCommandFiresEverySet
  intro s p hi hl
  refine ⟨fun hstart => command_notReady (name := .sync) hl rfl hstart rfl, fun hrun => ?fires⟩
  obtain ⟨P, hexec, hanswers⟩ := command_answers (name := .sync) hl rfl (.inl hrun) nofun nofun (takeCommand_sync s p)
  refine ⟨_, _, _, hexec, syncEventDone_withPorts (syncEvent_done hi) P, hanswers, fun q => ?fired, fun q => ?failed,
    fun i h => ⟨portMaskOf_high _ h, portMaskOf_high _ h⟩, s.syncEvent_syncArmed⟩
  case fired => rw [portMaskOf_bit, beq_iff_eq, firePasses_true hi.hold]
  case failed => rw [portMaskOf_bit, beq_iff_eq, firePasses_false hi.hold]

end Sys2Proof.Safety

/-! PROOFS. The ramp engine: the ramp tick over all channels (R86 to R88, R92). -/

namespace Sys2Proof.Safety

open Sys2Proof.Machine

variable {s : State}

/-! The ramp tick's action on one channel -/

/-- RAMP_DONE is due on a moving channel whose step, not 0, brings it to its target, with the report asked for (R92). -/
theorem rampDoneDue_iff (r : ChannelRecord) :
    r.rampDoneDue = true ↔
      (r.state = .safe ∨ r.state = .live) ∧ r.present ≠ r.target ∧ r.rampStep ≠ 0 ∧ presentAfterTick r = r.target ∧
        r.rampDoneReport = true := by
  simp [ChannelRecord.rampDoneDue, moving_iff, rampedPresent_eq, and_assoc]

/-- What a host sees of a channel's part of the ramp tick, by the model's own test for RAMP_DONE (R92). -/
theorem seenRamp_eq (s : State) (q : Port) (c : Channel) (u : EventUnit) :
    seenRamp s q c u =
      if (s.chan c).rampDoneDue = true ∧ s.holder c = some q then
        u.take
          { kind := .rampDone, channel := channelByte c, reason := 0, tag := (s.chan c).target, time := s.timeCount }
      else u := by
  simp only [seenRamp, rampDoneDue_iff, and_assoc]

/-- The record of an arrival goes to the channel's holder alone (R92). -/
theorem reportRamp_event (s : State) (c : Channel) (reached : Code) (q : Port) :
    (s.reportRamp c reached).event q =
      if s.holder c = some q then
        (s.event q).take
          { kind := .rampDone, channel := channelByte c, reason := 0, tag := reached, time := s.timeCount }
      else s.event q := by
  unfold State.reportRamp
  cases hholder : s.holder c with
  | none => simp
  | some p => simp [State.sendTo_event, noReason]

/-- A channel's part of the ramp tick sends a host its RAMP_DONE where one is due, and nothing else (R92). -/
theorem rampChannel_event (s : State) (c : Channel) (q : Port) :
    (s.rampChannel c).event q = seenRamp s q c (s.event q) := by
  rw [seenRamp_eq]
  unfold State.rampChannel
  dsimp only
  cases hdue : (s.chan c).rampDoneDue with
  | true =>
    obtain ⟨hstate, hapart, _, harrives, _⟩ := (rampDoneDue_iff _).mp hdue
    rw [if_pos ((moving_iff _).mpr ⟨hstate, hapart⟩), if_pos rfl, reportRamp_event, rampedPresent_eq, harrives]
    simp
  | false => split <;> simp

/-- What the ramp tick reports on a channel is decided by what stood before the channels below it moved (R85). -/
theorem seenRamp_rampChannel_ne {c d : Channel} (h : c ≠ d) (s : State) (q : Port) :
    seenRamp (s.rampChannel c) q d = seenRamp s q d := by
  funext u
  simp [seenRamp, State.rampChannel_chan, h]

/-! The ramp tick over all channels -/

theorem rampTick_chan (s : State) (c : Channel) :
    s.rampTick.chan c = { s.chan c with present := presentAfterTick (s.chan c) } := by
  rw [← rampedPresent_eq]
  exact overAll_get State.chan _ (fun _ r => { r with present := r.rampedPresent })
    (fun c d t => t.rampChannel_chan c d) s c

theorem rampTick_queue (s : State) :
    s.rampTick.queue =
      (ascending 16).foldl (fun q c =>
        if ((s.chan c).state = .safe ∨ (s.chan c).state = .live) ∧ (s.chan c).present ≠ (s.chan c).target then
          place q c (presentAfterTick (s.chan c)) .ramp
        else q) s.queue := by
  simp only [← moving_iff, ← rampedPresent_eq]
  exact overAll_fold State.queue (fun c t => t.chan c)
    (fun c r q => if r.moving = true then place q c r.rampedPresent .ramp else q) (fun c t => t.rampChannel_queue c)
    (fun c d t hcd => by rw [State.rampChannel_chan, if_neg hcd]) s

theorem rampTick_event (s : State) (q : Port) :
    s.rampTick.event q = (ascending 16).foldl (fun u c => seenRamp s q c u) (s.event q) :=
  overAll_fold (fun t => t.event q) (fun c t => seenRamp t q c) (fun _ seen u => seen u)
    (fun c t => rampChannel_event t c q) (fun _ _ t hcd => seenRamp_rampChannel_ne hcd t q) s

/-- A ramp tick writes the channel records, the update queue and the event queues, and nothing else (R86). -/
theorem rampTick_frame (s : State) :
    s.rampTick = { s with channels := s.rampTick.channels, queue := s.rampTick.queue, events := s.rampTick.events } := by
  apply State.ext <;> simp

theorem exec_rampTick (h : s.inReset = false) : exec .rampTick s = .next s.rampTick := by
  simp [exec, execRampTick, h]

/-- Settles O45: each channel's part of the tick touches its own record, places its own entry and sends its own record,
so that the tick is these parts in ascending order, each by the state that stood before the tick. -/
theorem rampTickMovesEachChannel : Obligations.RampTickMovesEachChannel := by
  unfold Obligations.RampTickMovesEachChannel
  intro s hrun
  exact ⟨s.rampTick, exec_rampTick hrun, rampTick_chan s, rampTick_queue s, rampTick_event s, rampTick_frame s⟩

end Sys2Proof.Safety

/-! PROOFS. The converter link: a first or second verify failure (R114). -/

namespace Sys2Proof.Safety

open Sys2Proof.Machine

variable {s : State} {e : UpdateEntry}

/-! The update queue and the end of start-up -/

/-- A channel has a waiting entry where one of the queue's entries is of that channel (R107). -/
theorem waiting_isSome_iff {c : Channel} : (s.waiting c).isSome = true ↔ ∃ x ∈ s.queue, x.channel = c := by
  simp [State.waiting]

/-- Without a waiting entry of its channel, a code is placed at the tail (R108). -/
theorem place_eq_append {q : List UpdateEntry} {c : Channel} (h : ∀ x ∈ q, x.channel ≠ c) (code : Code)
    (origin : Origin) : place q c code origin = q ++ [{ channel := c, code := code, origin := origin }] := by
  have hnone : ¬q.any (fun x => x.channel == c) = true := by simpa using h
  unfold place
  rw [if_neg hnone]

/-- While a channel of a STARTING part is STARTING, start-up does not end (R106). -/
theorem endStartup_of_starting_channel (h : s.devicePhase = .starting → ∃ c, (s.chan c).state = .starting) :
    s.endStartup = s := by
  unfold State.endStartup
  refine if_neg fun ⟨hphase, hnone⟩ => ?_
  have hsome : s.anyStarting = true := any_starting.mpr (h hphase)
  rw [hnone] at hsome
  exact nomatch hsome

/-! The first and the second verify failure -/

/-- A mismatch on a channel with fewer than two failures is a failure to be tried again (R114). -/
theorem verify_eq_verifyRetry {read : Code} (hread : read ≠ e.code) (hcount : (s.chan e.channel).failures < 2) :
    s.verify e read = s.verifyRetry e := by
  have hbelow : (s.chan e.channel).failures + 1 < Config.failuresToFault := Nat.succ_lt_succ hcount
  unfold State.verify
  rw [if_neg hread, if_pos hbelow]

theorem verifyRetry_chan (s : State) (e : UpdateEntry) (c : Channel) :
    (s.verifyRetry e).chan c =
      if e.channel = c then { s.chan e.channel with failures := (s.chan e.channel).failures + 1 } else s.chan c := by
  unfold State.verifyRetry
  dsimp only
  split
  · exact State.setChan_chan_get ..
  · rw [State.place_chan]
    exact State.setChan_chan_get ..

/-- A failure that is tried again leaves every channel's state as it is (R114). -/
theorem verifyRetry_chan_state (s : State) (e : UpdateEntry) (c : Channel) :
    ((s.verifyRetry e).chan c).state = (s.chan c).state := by
  rw [verifyRetry_chan]
  split
  next h => rw [← h]
  next => rfl

/-- Where no newer code waits, the failed entry itself is placed again at the tail (R114). -/
theorem verifyRetry_queue_of_none_waits (h : ∀ x ∈ s.queue, x.channel ≠ e.channel) :
    (s.verifyRetry e).queue = s.queue ++ [e] := by
  have hnone : ¬(s.waiting e.channel).isSome = true := by
    rw [waiting_isSome_iff]
    exact fun ⟨x, hx, hchannel⟩ => h x hx hchannel
  unfold State.verifyRetry
  rw [if_neg hnone]
  exact place_eq_append h e.code e.origin

/-- Where a newer code waits, nothing is placed (R114). -/
theorem verifyRetry_queue_of_waits (h : ∃ x ∈ s.queue, x.channel = e.channel) :
    (s.verifyRetry e).queue = s.queue := by
  unfold State.verifyRetry
  rw [if_pos (waiting_isSome_iff.mpr h)]
  rfl

/-- A verify result that is to be tried again ends the transaction; start-up goes on, for no channel leaves STARTING by
it (R106, R114, R117). -/
theorem exec_verifyResult_retry {read : Code} (hstart : StartLaw s) (hphase : s.linkPhase = .verifying)
    (hflying : s.inFlight = some e) (hread : read ≠ e.code) (hcount : (s.chan e.channel).failures < 2) :
    exec (.verifyResult read) s = .next (landed (s.verifyRetry e)) := by
  rw [exec_verifyResult hphase hflying, verify_eq_verifyRetry hread hcount]
  refine congrArg Host.Outcome.next (endStartup_of_starting_channel (s := landed (s.verifyRetry e)) fun h => ?_)
  have hstarting : s.devicePhase = .starting := (s.verifyRetry_devicePhase e).symm.trans h
  obtain ⟨c, hc⟩ := hstart.phase.mp hstarting
  exact ⟨c, (verifyRetry_chan_state s e c).trans hc⟩

/-- The retry writes the channel table and the update queue, and ends the transaction (R114, R117). -/
theorem landed_verifyRetry_frame (s : State) (e : UpdateEntry) :
    landed (s.verifyRetry e) =
      { s with channels := (s.verifyRetry e).channels, queue := (s.verifyRetry e).queue, inFlight := none,
               linkPhase := .idle } := by
  apply State.ext <;> simp [landed]

/-- Settles O50: the transaction ends on the retry, and the queue grows by the failed entry only where no entry of its
channel waits. Of the laws of the part only those of start-up are needed: a STARTING part has a STARTING channel, and the
retry leaves it so. -/
theorem verifyFailureIsTriedAgain : Obligations.VerifyFailureIsTriedAgain := by
  unfold Obligations.VerifyFailureIsTriedAgain
  intro s e read hi hphase hflying hread hcount
  refine ⟨_, exec_verifyResult_retry hi.startup hphase hflying hread hcount, ?own, fun c hc => ?other,
    verifyRetry_queue_of_none_waits, verifyRetry_queue_of_waits, landed_verifyRetry_frame s e⟩
  case own => exact (verifyRetry_chan s e e.channel).trans (if_pos rfl)
  case other => exact (verifyRetry_chan s e c).trans (if_neg hc.symm)

end Sys2Proof.Safety

/-! PROOFS. The check value (R138). -/

namespace Sys2Proof.Safety

open Sys2Proof.Machine

/-- One shift of the register as R138 words it: the bit shifted out brings in the polynomial. -/
theorem crcShift_eq (r : Byte) : crcShift r = if r.getLsbD 7 = true then (r <<< 1) ^^^ 0x07 else r <<< 1 := by
  unfold crcShift
  rw [BitVec.msb_eq_getLsbD_last]
  rfl

/-- One more byte goes through the register that the bytes before it have left. -/
theorem crc_append_singleton (bytes : List Byte) (b : Byte) : crc (bytes ++ [b]) = crcByte (crc bytes) b :=
  List.foldl_append

/-- The register combined with its own value is zero, and zero stays under the shifts. -/
theorem crcByte_self (r : Byte) : crcByte r r = 0 := by
  unfold crcByte
  rw [BitVec.xor_self]
  rfl

/-- Settles O6: the two clauses about one more byte follow from `crc_append_singleton`; the places of the check value in a
request and a reply are those of `requestBytes` and `Reply.bytes`; the worked values are evaluated. -/
theorem checkValueRule : Obligations.CheckValueRule := by
  unfold Obligations.CheckValueRule
  refine ⟨rfl, fun bytes b => ?oneMore, fun bytes => ?whole, fun name args => rfl, fun r => rfl, ?nopRequest,
    ?readStatusRequest, ?okReply⟩
  case oneMore =>
    calc crc (bytes ++ [b]) = crcShifts 8 (crc bytes ^^^ b) := crc_append_singleton bytes b
      _ = Nat.iterate crcShift 8 (crc bytes ^^^ b) := crcShifts_iterate 8 _
      _ = _ := by rw [funext crcShift_eq]
  case whole => rw [crc_append_singleton, crcByte_self]
  case nopRequest | readStatusRequest | okReply => decide +kernel

end Sys2Proof.Safety

/-! PROOFS. A request as the port has received it (R137), and the four framing checks (R140). -/

namespace Sys2Proof.Safety

open Sys2Proof.Machine

variable {s : State} {p : Port} {code check : Byte} {args : List Byte} {r : Request} {phase : DevicePhase}

/-! A request received whole (R137) -/

/-- What a port that had received nothing holds once CHECK has arrived. -/
def arrived (code : Byte) (args : List Byte) (check : Byte) : Request :=
  { kept := (requestBody code args).take 50, count := args.length + 3, running := crc (requestBody code args),
    check := some check }

theorem receiveAll_eq_arrived (h : args.length ≤ 255) :
    Request.empty.receiveAll (requestBody code args ++ [check]) = arrived code args check :=
  receiveAll_request code args check h

theorem arrived_code (code : Byte) (args : List Byte) (check : Byte) : (arrived code args check).code = code := rfl

theorem arrived_len (h : args.length ≤ 255) : (arrived code args check).len = args.length :=
  Nat.mod_eq_of_lt (Nat.lt_succ_of_le h)

theorem arrived_args (code : Byte) (args : List Byte) (check : Byte) :
    (arrived code args check).args = args.take 48 := rfl

/-! The framing checks in their order (R140) -/

theorem framing_checkError (h : r.check ≠ some r.running) : framing phase r = .error .checkError :=
  if_pos h

theorem framing_badCommand (hcheck : r.check = some r.running) (hcode : CommandName.ofCode r.code = none) :
    framing phase r = .error .badCommand := by
  simp [framing, hcheck, hcode]

theorem framing_badLength {name : CommandName} (hcheck : r.check = some r.running)
    (hcode : CommandName.ofCode r.code = some name) (hlen : name.lenAllowed r.len = false) :
    framing phase r = .error .badLength := by
  simp [framing, hcheck, hcode, hlen]

/-- No command allows a LEN above 48, so such a request fails one of the first three checks. -/
theorem framing_refuses_of_len_gt (phase : DevicePhase) (h : 48 < r.len) :
    framing phase r = .error .checkError ∨ framing phase r = .error .badCommand ∨
      framing phase r = .error .badLength := by
  by_cases hcheck : r.check = some r.running
  · right
    cases hcode : CommandName.ofCode r.code with
    | none => exact .inl (framing_badCommand hcheck hcode)
    | some name =>
      have hlen : name.lenAllowed r.len = false :=
        Bool.eq_false_iff.mpr fun hallowed => absurd (CommandName.lenAllowed_le hallowed) (Nat.not_le.mpr h)
      exact .inr (framing_badLength hcheck hcode hlen)
  · exact .inl (framing_checkError hcheck)

/-- Settles O7: the request received is `arrived`, and LEN as it reads it is the number of arguments sent. -/
theorem requestReceivedAsSent : Obligations.RequestReceivedAsSent := by
  unfold Obligations.RequestReceivedAsSent
  intro code args check h
  refine ⟨arrived code args check, receiveAll_eq_arrived h, arrived_code code args check, arrived_len h,
    arrived_args code args check, rfl, rfl, rfl, fun hlong phase => framing_refuses_of_len_gt phase ?_⟩
  rwa [arrived_len h]

/-! Refused requests (R140) -/

/-- A code that is no command's names none (R154). -/
theorem ofCode_eq_none (h : ∀ name : CommandName, name.code ≠ code) : CommandName.ofCode code = none := by
  simp [CommandName.ofCode, List.find?_eq_none, h]

/-- The commands taken in STARTING are the list of check 4 (R140). -/
theorem takenInStarting_iff_mem (name : CommandName) :
    name.takenInStarting = true ↔
      name ∈ [CommandName.nop, .readStatus, .readIdent, .repeatReply, .readChannel, .readEvents, .setEventMask,
        .eventTest] := by
  cases name <;> decide

/-- Whichever framing check refuses a BAD_COMMAND request, the port answers with that status and nothing is taken. -/
theorem badCommand_refuses {st : Status} (hl : Listening s p) (h : args.length ≤ 255)
    (hf : framing s.devicePhase (arrived code args check) = .error st) :
    ∃ t, exec (.badCommand p code args check) s = .next t ∧ Refuses s t p st ∧ t = { s with ports := t.ports } := by
  have hdecide : s.receiveBytes p (requestBody code args ++ [check]) =
      s.setPort p ((s.port p).answered (arrived code args check) (Reply.bare st)) := by
    rw [State.receiveBytes_request s hl.frameOpen hl.nothingReceived code h]
    change s.decideRequest p (arrived code args check) = _
    simp only [State.decideRequest, hf]
  refine ⟨_, congrArg Host.Outcome.next hdecide, ?_, rfl⟩
  exact replies_setPort (x := (s.port p).answered _ _) rfl rfl rfl rfl rfl

/-- Settles O9: one clause for each framing check, in their order. -/
theorem framingChecksRefuse : Obligations.FramingChecksRefuse := by
  unfold Obligations.FramingChecksRefuse
  intro s p hl
  refine ⟨fun code args check h hcheck => ?checkError, fun code args h hcode => ?badCommand,
    fun name args h hlen => ?badLength, fun name args hlen hstart hname => ?notReady⟩
  case checkError =>
    exact badCommand_refuses hl h (framing_checkError fun heq => hcheck (Option.some.inj heq))
  case badCommand =>
    exact badCommand_refuses hl h (framing_badCommand rfl (ofCode_eq_none hcode))
  case badLength => exact command_badLength hl h hlen
  case notReady =>
    have hlater : name.takenInStarting = false :=
      Bool.eq_false_iff.mpr fun htaken => hname ((takenInStarting_iff_mem name).mp htaken)
    exact command_notReady hl hlen hstart hlater

end Sys2Proof.Safety

/-! PROOFS. Read Ident and the slot table it reports (R150, R157). -/

namespace Sys2Proof.Safety

open Sys2Proof.Machine

variable {s t : State}

/-! The ident record (R157) -/

theorem revisionByte_of_present {r : SlotRecord} {v : Byte} (hstate : r.state = .present)
    (hrevision : r.revision = some v) : r.revisionByte = v := by
  simp [SlotRecord.revisionByte, hstate, hrevision]

theorem revisionByte_of_not_present {r : SlotRecord} (h : r.state ≠ .present) : r.revisionByte = 0xFF := by
  unfold SlotRecord.revisionByte
  split
  case h_1 hstate _ => exact absurd hstate h
  case h_2 => rfl

/-- The nine bytes of the ident record. -/
theorem identRecord_eq (s : State) :
    s.identRecord =
      [0x44, 0x31, 0x60, 0x01, s.presenceMask, (s.slot 0).revisionByte, (s.slot 1).revisionByte,
        (s.slot 2).revisionByte, (s.slot 3).revisionByte] := rfl

/-! What leaves the slot table as it is -/

theorem chipSelectRise_slots (s : State) (p : Port) : (s.chipSelectRise p).slots = s.slots := by
  unfold State.chipSelectRise
  dsimp only
  split <;> simp

theorem resetEnd_slots (s : State) (rankA rankB : BitVec 3) (syncHigh : Bool) :
    (s.resetEnd rankA rankB syncHigh).slots = s.slots :=
  overAll_keeps State.slots (fun _ _ => State.setPort_slots ..) s

/-- After the probe only a device reset writes the slot table: PROBE_SLOT finds no slot to decide, and no other command
reaches the table (R100, R150). -/
theorem slots_of_exec {i : Instr} (h : exec i s = .next t) (hprobed : s.linkPhase ≠ .probing)
    (hi : i ≠ .deviceReset) : t.slots = s.slots := by
  cases i <;> obtain rfl := Host.Outcome.next.inj h
  case deviceReset => exact absurd rfl hi
  case probeSlot mark revision =>
    split
    · rfl
    · split
      case h_1 hprobing _ => exact absurd hprobing hprobed
      case h_2 => rfl
  case deviceResetEnd rankA rankB syncHigh =>
    split
    · exact resetEnd_slots s rankA rankB syncHigh
    · rfl
  case frameOpen p => (repeat' split) <;> simp
  case frameCut p bytes => rw [chipSelectRise_slots, recv_slots]
  case frameEnd p => exact chipSelectRise_slots s p
  case linkTakeEntry | writeCodeDone | verifyResult | rcheckShiftedOut => split <;> simp
  case leaseTick | leaseExpiry | armWindowExpiry | rampTick | syncEdge | syncQualifierArm | faultAssertion
      | faultRelease => (repeat' split) <;> simp
  all_goals exact recv_slots ..

/-- Settles O15: Read Ident is taken in either device phase and changes nothing; its reply is the ident record. -/
theorem readIdentReportsTheSlots : Obligations.ReadIdentReportsTheSlots := by
  unfold Obligations.ReadIdentReportsTheSlots
  refine ⟨fun s p hl => ?reply, fun i s t h hprobed hi => slots_of_exec h hprobed hi⟩
  have htake : takeCommand .readIdent p [] s = (s, { status := .ok, data := s.identRecord }) := rfl
  rw [identRecord_eq] at htake
  obtain ⟨t, hexec, hanswers, hframe⟩ :=
    command_answers_unchanged (name := .readIdent) hl rfl (.inr rfl) nofun nofun htake
  exact ⟨t, s.presenceMask, fun k => (s.slot k).revisionByte, hexec, hanswers, presenceMask_shows,
    fun _ _ => revisionByte_of_present, fun _ => revisionByte_of_not_present, hframe⟩

end Sys2Proof.Safety

/-! PROOFS. The event unit: the table of kinds (R164), an arriving record (R165, R168) and Read Events (R169). -/

namespace Sys2Proof.Safety

open Sys2Proof.Machine

variable {s : State} {p : Port}

/-! The table of kinds (R164) -/

theorem mem_kindTable_fst (kind : EventKind) : kind ∈ kindTable.map Prod.fst := by
  cases kind <;> decide

theorem code_eq_kindTable : ∀ row ∈ kindTable, row.1.code = row.2.1 := by decide

theorem classBit_eq_kindTable : ∀ row ∈ kindTable, row.1.classBit = row.2.2 := by decide

/-! The class mask (R165) -/

variable {kind : EventKind} {mask : BitVec 6}

theorem enabled_of_classBit {b : Fin 6} (h : kind.classBit = some b) : kind.enabled mask = mask.getLsbD b.val := by
  simp [EventKind.enabled, h]

/-- A kind is let through where the mask has the bit of its class; OVERFLOW has no class and always is (R165). -/
theorem enabled_iff : kind.enabled mask = true ↔ ∀ b, kind.classBit = some b → mask.getLsbD b.val = true := by
  cases hclass : kind.classBit with
  | none => simp [EventKind.enabled, hclass]
  | some b => simp [enabled_of_classBit hclass]

variable {u : EventUnit} {r : EventRecord}

theorem eventTake_of_enabled (h : r.kind.enabled u.mask = true) : u.take r = { u with queue := enqueue u.queue r } :=
  if_pos h

theorem eventTake_of_not_enabled (h : r.kind.enabled u.mask = false) : u.take r = u :=
  if_neg (Bool.eq_false_iff.mp h)

/-! The room in the queue (R168) -/

/-- An arrival at a queue that is not empty is decided by its last record and its length. -/
theorem enqueue_append_last (front : List EventRecord) (last r : EventRecord) :
    enqueue (front ++ [last]) r =
      if last.kind = .overflow then front ++ [last.lostOneMore]
      else if (front ++ [last]).length < 16 then front ++ [last] ++ [r]
      else front ++ [overflowRecord r.time] := by
  simp [enqueue, Config.eventCapacity]

theorem enqueue_of_room {q : List EventRecord} (r : EventRecord) (hroom : q.length < 16)
    (hlast : ∀ x ∈ q, x.kind ≠ .overflow) : enqueue q r = q ++ [r] := by
  obtain rfl | ⟨front, last, rfl⟩ := q.eq_nil_or_concat'
  · rfl
  · have hkind : last.kind ≠ .overflow := hlast last (by simp)
    rw [enqueue_append_last, if_neg hkind, if_pos hroom]

theorem enqueue_of_full {front : List EventRecord} {last : EventRecord} (r : EventRecord)
    (hfull : 16 ≤ (front ++ [last]).length) (hlast : last.kind ≠ .overflow) :
    enqueue (front ++ [last]) r = front ++ [overflowRecord r.time] := by
  rw [enqueue_append_last, if_neg hlast, if_neg (Nat.not_lt.mpr hfull)]

theorem enqueue_of_overflow {last : EventRecord} (front : List EventRecord) (r : EventRecord)
    (hlast : last.kind = .overflow) : enqueue (front ++ [last]) r = front ++ [last.lostOneMore] := by
  rw [enqueue_append_last, if_pos hlast]

/-- Settles O55: the mask decides between `eventTake_of_not_enabled` and `eventTake_of_enabled`, and the queue's last
record and length between the three outcomes of an arrival. -/
theorem recordsArriveByMaskAndRoom : Obligations.RecordsArriveByMaskAndRoom := by
  unfold Obligations.RecordsArriveByMaskAndRoom
  refine ⟨classBit_eq_kindTable, mem_kindTable_fst, fun u r => ⟨fun b hclass hoff => ?masked, fun hon => ?arrives⟩⟩
  case masked => exact eventTake_of_not_enabled ((enabled_of_classBit hclass).trans hoff)
  case arrives =>
    rw [eventTake_of_enabled (enabled_iff.mpr hon)]
    refine ⟨rfl, rfl, fun hroom hlast => enqueue_of_room r hroom hlast, fun front last hq hfull hlast => ?full,
      fun front last hq hlast => ?overflow⟩
    case full =>
      rw [hq] at hfull ⊢
      exact enqueue_of_full r hfull hlast
    case overflow =>
      rw [hq]
      exact enqueue_of_overflow front r hlast

/-! Read Events (R169) -/

/-- Where the owning block replaces the sender's part of the event unit, a taken command changes that part and the ports,
and nothing else (R141). -/
theorem command_answers_setEvent {name : CommandName} {args : List Byte} {r : Reply} {u : EventUnit}
    (hl : Listening s p) (hn : name.lenAllowed args.length = true)
    (hp : s.devicePhase = .running ∨ name.takenInStarting = true) (h1 : name ≠ .repeatReply) (h2 : name ≠ .portClear)
    (hk : takeCommand name p args s = (s.setEvent p u, r)) :
    ∃ t, exec (commandOf name p args) s = .next t ∧ Answers s t p r ∧ t.event p = u ∧
      (∀ q, q ≠ p → t.event q = s.event q) ∧ t = { s with events := t.events, ports := t.ports } := by
  obtain ⟨P, hexec, hanswers⟩ := command_answers hl hn hp h1 h2 hk
  exact ⟨_, hexec, hanswers, s.setEvent_event_self p u, fun q hq => s.setEvent_event_ne p u q hq.symm, rfl⟩

/-- A count of 0 or above 4 is refused, and the queue is left as it is (R169). -/
theorem takeCommand_readEvents_badArgument (s : State) (p : Port) {n : Byte} (h : n = 0 ∨ 4 < n.toNat) :
    takeCommand .readEvents p [n] s = (s, Reply.bare .badArgument) := by
  have hcount : n.toNat = 0 ∨ 4 < n.toNat := h.imp_left (congrArg BitVec.toNat)
  simp only [takeCommand, takeReadEvents, argByte, List.getD_cons_zero, Config.maxReadEvents, if_pos hcount]

/-- A count of 1 to 4 takes that many records from the head of the sender's queue, or all where it holds fewer (R169). -/
theorem takeCommand_readEvents (s : State) (p : Port) {n : Byte} (hleast : 1 ≤ n.toNat) (hmost : n.toNat ≤ 4) :
    takeCommand .readEvents p [n] s =
      (s.setEvent p { s.event p with queue := (s.event p).queue.drop n.toNat },
        { status := .ok, data := eventsBytes ((s.event p).queue.take n.toNat) }) := by
  have hcount : ¬(n.toNat = 0 ∨ 4 < n.toNat) := by omega
  simp only [takeCommand, takeReadEvents, argByte, List.getD_cons_zero, Config.maxReadEvents, if_neg hcount]

/-- Settles O56: Read Events is taken in either device phase; the count cuts the sender's queue into the records replied
and those left. -/
theorem readEventsDrainsTheHead : Obligations.ReadEventsDrainsTheHead := by
  unfold Obligations.ReadEventsDrainsTheHead
  refine ⟨code_eq_kindTable, mem_kindTable_fst, fun s p n hl => ⟨fun hbad => ?refused, fun hleast hmost => ?drained⟩⟩
  case refused =>
    exact command_answers_unchanged (name := .readEvents) hl rfl (.inr rfl) nofun nofun
      (takeCommand_readEvents_badArgument s p hbad)
  case drained =>
    obtain ⟨t, hexec, hanswers, hown, hothers, hframe⟩ := command_answers_setEvent (name := .readEvents) hl rfl
      (.inr rfl) nofun nofun (takeCommand_readEvents s p hleast hmost)
    exact ⟨t, _, _, hexec, (List.take_append_drop n.toNat _).symm, List.length_take, hanswers, hown, hothers, hframe⟩

end Sys2Proof.Safety

/-! PROOFS. The laws of every block: reset has them, and every command keeps them (R177 and the laws of Safety.Inv). -/

namespace Sys2Proof.Safety

open Sys2Proof.Machine

variable {s t : State}

/-! The laws at the values of device reset -/

theorem channelLaw_reset : ChannelLaw ChannelRecord.reset := by
  constructor <;> simp [ChannelRecord.reset]

theorem leaseLaw_reset (rank : Port → BitVec 2) : LeaseLaw rank LeaseRecord.reset := by
  constructor <;> simp [LeaseRecord.reset]

theorem commitLaw_reset : CommitLaw CommitRecord.reset := by
  constructor <;> simp [CommitRecord.reset]

theorem eventLaw_reset : EventLaw EventUnit.reset := by
  constructor <;> simp [EventUnit.reset]

theorem slotLaw_reset : SlotLaw SlotRecord.reset := by
  simp [SlotLaw, SlotRecord.reset]

/-- At the reset values the link stands PROBING before SLOT0, with nothing queued and every channel STARTING (R101). -/
theorem ResetValues.linkLaw (h : ResetValues s) : LinkLaw s where
  oncePerChannel := by simp [h.queue.1]
  waitingDeliverable := by simp [h.queue.1]
  flyingDeliverable := by simp [h.queue.2.1]
  flyingPhase := by simp [h.queue.2.1, h.queue.2.2]
  probingPhase := by
    have hprobed : s.probed.isSome = true := by
      rw [State.probed, List.find?_isSome]
      exact ⟨0, List.mem_finRange 0, by simp [h.slots 0]⟩
    simp [h.queue.2.2, hprobed]
  probingEmpty _ := ⟨h.queue.1, h.phase⟩
  probingSlot c _ := by rw [h.channels c]
  probingChannel _ c := .inl (h.channels c)
  absentSlot c := by simp [h.slots, h.channels]

/-- Every block at its reset values, with nothing being sent on a port, is a state with all the laws (R177). -/
theorem ResetValues.inv (h : ResetValues s) (hports : ∀ p, PortLaw (s.port p)) : Inv s where
  channels c := by rw [h.channels c]; exact channelLaw_reset
  leases c := by rw [h.leases c]; exact leaseLaw_reset s.rank
  leads p := by rw [h.leads p]; exact Nat.zero_le _
  commits p := by rw [h.commits p]; exact commitLaw_reset
  events p := by rw [h.events p]; exact eventLaw_reset
  ports := hports
  slots k := by rw [h.slots k]; exact slotLaw_reset
  link := h.linkLaw
  startup :=
    { phase := ⟨fun _ => ⟨0, by rw [h.channels 0]⟩, fun _ => h.phase⟩
      noLease := fun _ => h.leases
      noCommit := fun _ => h.commits
      noLive := fun _ c => by simp [h.channels c] }
  reset _ := h
  fault := ⟨fun hf => by simp [h.fault] at hf, fun hf => by simp [h.fault] at hf⟩
  hold c _ := h.leases c

/-- The state the model starts from stands at the reset values of every block (R177). -/
theorem resetValues_reset : ResetValues State.reset where
  phase := rfl
  time := rfl
  fault := rfl
  channels c := Table.get_fill c _
  leases c := Table.get_fill c _
  leads p := Table.get_fill p _
  commits p := Table.get_fill p _
  ports p := by simp [State.port, State.reset, PortRecord.reset]
  slots k := Table.get_fill k _
  queue := ⟨rfl, rfl, rfl⟩
  events p := Table.get_fill p _

/-- Settles O3: the reset values have every law. -/
theorem lawsHoldAtReset : Obligations.LawsHoldAtReset :=
  resetValues_reset.inv fun p => by
    rw [State.port, State.reset, Table.get_fill]
    constructor <;> simp [PortRecord.reset]

/-! Device reset and its end -/

theorem deviceReset_port (s : State) (p : Port) : s.deviceReset.port p = (s.port p).resetAt :=
  Table.get_ofFn _ p

/-- DEVICE_RESET leaves a state with the laws, whatever stood before it (R177). -/
theorem inv_deviceReset (s : State) : Inv s.deviceReset :=
  (resetValues_deviceReset s).inv fun p => by
    rw [deviceReset_port]
    constructor <;> simp [PortRecord.resetAt, PortRecord.reset]

/-- The end of device reset writes a port's rank and nothing else of it (R151, R177). -/
theorem resetEnd_port (s : State) (rankA rankB : BitVec 3) (syncHigh : Bool) (p : Port) :
    (s.resetEnd rankA rankB syncHigh).port p = { s.port p with rank := strapRank rankA rankB p } :=
  overAll_view (act := fun p t => t.setPort p { t.port p with rank := strapRank rankA rankB p }) p (fun t => t.port p)
    (fun r => { r with rank := strapRank rankA rankB p }) (fun j t hj => t.setPort_port_ne j _ p hj)
    (fun t => t.setPort_port_self p _) s

/-- Writing every port's record writes the ports and nothing else. -/
theorem overAll_setPort_frame (r : Port → State → PortRecord) (s : State) :
    overAll 3 (fun p t => t.setPort p (r p t)) s =
      { s with ports := (overAll 3 (fun p t => t.setPort p (r p t)) s).ports } := by
  have keeps {β : Type} (f : State → β) (h : ∀ p x t, f (State.setPort t p x) = f t) :
      f (overAll 3 (fun p t => t.setPort p (r p t)) s) = f s :=
    overAll_keeps f (fun p t => h p _ t) s
  apply State.ext
  case ports => rfl
  all_goals exact keeps _ (by simp)

/-- The end of device reset writes the clocks, the FAULT filter, the SYNC qualifier and the ports (R177). -/
theorem resetEnd_frame (s : State) (rankA rankB : BitVec 3) (syncHigh : Bool) :
    s.resetEnd rankA rankB syncHigh =
      { s with inReset := false, timeCount := 0, faultAsserted := false, syncArmed := !syncHigh,
               ports := (s.resetEnd rankA rankB syncHigh).ports } := by
  unfold State.resetEnd
  rw [overAll_setPort_frame]

/-- At the end of device reset every block still stands at its reset values: only ranks, clocks and inputs are new
(R177). -/
theorem ResetValues.resetEnd (h : ResetValues s) (rankA rankB : BitVec 3) (syncHigh : Bool) :
    ResetValues (s.resetEnd rankA rankB syncHigh) := by
  have hports := resetEnd_port s rankA rankB syncHigh
  rw [resetEnd_frame] at hports ⊢
  exact ⟨h.phase, rfl, rfl, h.channels, h.leases, h.leads, h.commits, fun p => by rw [hports p]; exact h.ports p,
    h.slots, h.queue, h.events⟩

theorem Inv.resetEnd (h : Inv s) (hr : s.inReset = true) (rankA rankB : BitVec 3) (syncHigh : Bool) :
    Inv (s.resetEnd rankA rankB syncHigh) :=
  ((h.reset hr).resetEnd rankA rankB syncHigh).inv fun p => by
    obtain ⟨hselected, hfresh, hsent⟩ := h.ports p
    rw [resetEnd_port]
    exact ⟨hselected, hfresh, hsent⟩

/-! Every command -/

/-- A release of the FAULT input keeps the laws: they ask less of a released input (R123, R125). -/
theorem Kept.releaseFault {b : Prop} (h : Kept b s) : Kept b { s with faultAsserted := false } :=
  { h with
    link := { h.link with }
    start := { h.start with }
    reset := { h.reset with released := fun _ => rfl }
    fault := ⟨nofun, nofun⟩ }

/-- A whole request, with a CHECK of any value, keeps the laws (R137, R140, R141). -/
theorem Kept.request {b : Prop} (h : Kept b s) (p : Port) (name : CommandName) (args : List Byte) :
    Kept b (s.request p name args) :=
  h.receiveBytes p _ (check_request name.code args _)

/-- A command that acts only where its occasion stands keeps what its act keeps (log 7). -/
theorem Kept.ite {b c : Prop} [Decidable c] (h : Kept b s) (ht : ¬c → Kept b t) : Kept b (if c then s else t) := by
  split
  next => exact h
  next hc => exact ht hc

/-- Every command but the two ends of device reset keeps the laws, the law of device reset as far as one block goes. -/
theorem Kept.exec {i : Instr} (h : Kept True s) (hx : exec i s = .next t) (hreset : i ≠ .deviceReset)
    (hend : ∀ rankA rankB syncHigh, i ≠ .deviceResetEnd rankA rankB syncHigh) : Kept True t := by
  cases i
  case deviceReset => exact absurd rfl hreset
  case deviceResetEnd rankA rankB syncHigh => exact absurd rfl (hend rankA rankB syncHigh)
  case frameOpen p => exact h.frameOpen p t hx
  case probeSlot mark revision => exact h.probe mark revision t hx
  case linkTakeEntry => exact h.linkTake t hx
  case writeCodeDone => exact h.writeDone t hx
  case verifyResult read => exact h.verifyResult read t hx
  all_goals obtain rfl := Host.Outcome.next.inj hx
  case badCommand p code args check => exact h.receiveBytes p _ (check_request code args check)
  case frameCut p bytes => exact h.frameCut p bytes
  case frameEnd p => exact h.chipSelectRise p
  case leaseTick | leaseExpiry | armWindowExpiry => exact h.ite fun _ => h.tick
  case rampTick => exact h.ite fun _ => h.rampTick
  case syncEdge => exact h.ite fun _ => h.syncEvent.ofClocks _ _ _
  case syncQualifierArm => exact h.ite fun _ => h.ofClocks _ _ _
  case faultAssertion => exact h.ite fun hn => h.assertFault (by simp_all)
  case faultRelease => exact h.ite fun _ => h.releaseFault.sendAll .faultReleased nofun _ _ _
  case rcheckShiftedOut p =>
    split
    next hphase =>
      have hselected : (s.port p).csLow = true := (h.ports p).frameSelected (by simp [hphase])
      refine h.setPort p _ ⟨fun _ => hselected, nofun, by simp⟩ rfl fun hr => ?_
      simp [h.reset.deselected hr p] at hphase
    next => exact h
  all_goals exact h.request _ _ _

/-- Every command keeps the laws of every block. -/
theorem Inv.exec {i : Instr} (h : Inv s) (hx : exec i s = .next t) : Inv t := by
  by_cases hreset : i = .deviceReset
  · subst hreset
    obtain rfl := Host.Outcome.next.inj hx
    exact inv_deviceReset s
  by_cases hend : ∃ rankA rankB syncHigh, i = .deviceResetEnd rankA rankB syncHigh
  · obtain ⟨rankA, rankB, syncHigh, rfl⟩ := hend
    obtain rfl := Host.Outcome.next.inj hx
    split
    next hr => exact h.resetEnd hr rankA rankB syncHigh
    next => exact h
  · exact ((Kept.of h).exec hx hreset fun _ _ _ he => hend ⟨_, _, _, he⟩).to (h.reset.exec hx)

/-- The queue of waiting commands is in no law (log 6). -/
theorem Inv.withPending (h : Inv s) (cs : List Instr) : Inv (s.withPending cs) :=
  { h with
    link := { h.link with }
    startup := { h.startup with }
    reset := fun hr => { h.reset hr with }
    fault := { h.fault with } }

/-- Settles O4: a step runs one command, which keeps the laws, or idles. -/
theorem lawsKeptByEveryStep : Obligations.LawsKeptByEveryStep := by
  unfold Obligations.LawsKeptByEveryStep
  intro s t hi hstep
  unfold step at hstep
  split at hstep
  next => obtain rfl := Host.Outcome.next.inj hstep; exact hi
  next c rest _ => exact (hi.withPending rest).exec hstep

end Sys2Proof.Safety

/-! PROOFS. Safe entry over many channels (R10 to R13) and the FAULT input (R122, R125). -/

namespace Sys2Proof.Safety

open Sys2Proof.Machine

variable {s : State}

/-! Safe entry over many channels -/

/-- The channels that a test names take safe entry, in ascending order. -/
def safeAll (takes : Channel → Bool) (s : State) : State :=
  overAll 16 (fun c t => if takes c = true then t.safeEntry c else t) s

theorem safeAll_chan (takes : Channel → Bool) (s : State) (c : Channel) :
    (safeAll takes s).chan c = if takes c = true then safeRecord (s.chan c) else s.chan c := by
  refine overAll_get State.chan _ (fun d r => if takes d = true then safeRecord r else r) (fun c d t => ?_) s c
  by_cases hcd : c = d
  · subst hcd
    by_cases ht : takes c = true <;> simp [ht, State.safeEntry_chan, safed_eq_safeRecord]
  · by_cases ht : takes c = true <;> simp [ht, State.safeEntry_chan, hcd]

/-- Each channel's entry is placed by the record that stood before the channels below it took safe entry (R108). -/
theorem safeAll_queue (takes : Channel → Bool) (s : State) : (safeAll takes s).queue = safeQueues s takes s.queue := by
  refine overAll_fold State.queue (fun c t => t.chan c) (fun c r q => if takes c = true then safeQueue r c q else q)
    (fun c t => ?_) (fun c d t hcd => ?_) s
  · by_cases ht : takes c = true <;> simp [ht, State.safeEntry_queue, place_eq_safeQueue]
  · by_cases ht : takes c = true <;> simp [ht, State.safeEntry_chan, hcd]

/-- Safe entry writes the channel records and the update queue, and nothing else. -/
theorem safeAll_frame (takes : Channel → Bool) (s : State) :
    safeAll takes s = { s with channels := (safeAll takes s).channels, queue := (safeAll takes s).queue } := by
  have keeps {β : Type} (f : State → β) (h : ∀ c t, f (State.safeEntry t c) = f t) : f (safeAll takes s) = f s :=
    overAll_keeps f (fun c t => by split; exacts [h c t, rfl]) s
  apply State.ext
  case channels | queue => rfl
  all_goals exact keeps _ (by simp)

/-! The armed sets of a FAULT assertion -/

/-- A host's part of the event unit after its armed set, if any, is dropped: COMMIT_FAILED (R83, R122). -/
def seenDrop (armed : Option ArmedSet) (time : Word) (u : EventUnit) : EventUnit :=
  match armed with
  | none => u
  | some a => u.take { kind := .commitFailed, channel := 0xFF, reason := 0x06, tag := a.number, time := time }

theorem dropArmed_commit (s : State) (p q : Port) :
    (s.dropArmed p).commit q = if p = q then { s.commit q with armed := none } else s.commit q := by
  unfold State.dropArmed
  split
  next hnone =>
    split
    next hpq => subst hpq; rw [← hnone]
    next => rfl
  next => simp [State.disarm, State.setCommit_commit_get]; split <;> simp_all

theorem dropArmed_event (s : State) (p q : Port) :
    (s.dropArmed p).event q = if p = q then seenDrop (s.commit q).armed s.timeCount (s.event q) else s.event q := by
  by_cases hpq : p = q
  · subst hpq
    unfold State.dropArmed seenDrop
    cases (s.commit p).armed with
    | none => simp
    | some a => simp [State.sendTo_event, State.disarm, noChannel, Status.code]
  · unfold State.dropArmed
    split <;> simp [State.sendTo_event, hpq]

/-- Every armed set is dropped. -/
def dropAll (s : State) : State := overAll 3 (fun p t => t.dropArmed p) s

theorem dropAll_commit (s : State) (p : Port) : (dropAll s).commit p = { s.commit p with armed := none } :=
  overAll_view p (fun t => t.commit p) (fun r => { r with armed := none })
    (fun q t hq => by rw [dropArmed_commit, if_neg hq]) (fun t => by rw [dropArmed_commit, if_pos rfl]) s

theorem dropAll_event (s : State) (p : Port) :
    (dropAll s).event p = seenDrop (s.commit p).armed s.timeCount (s.event p) := by
  have h := overAll_local (act := fun p t => t.dropArmed p) p (fun t => (t.event p, t.commit p, t.timeCount))
    (fun q t hq => by simp [dropArmed_event, dropArmed_commit, hq])
    (fun t u h => by
      simp only [Prod.mk.injEq] at h
      simp [dropArmed_event, dropArmed_commit, h]) s
  exact (congrArg Prod.fst h).trans ((dropArmed_event s p p).trans (if_pos rfl))

/-! Assertion and release -/

/-- An assertion as its three acts: safe entry everywhere, the armed sets dropped, every host told (R122). -/
theorem assertFault_eq (s : State) :
    s.assertFault =
      (dropAll (safeAll (fun _ => true) { s with faultAsserted := true })).sendAll .faultAsserted noChannel noReason 0 :=
  rfl

theorem assertFault_faultAsserted (s : State) : s.assertFault.faultAsserted = true := by
  rw [assertFault_eq, State.sendAll_faultAsserted, dropAll, overAll_keeps State.faultAsserted (fun p t => by simp),
    safeAll_frame]

theorem assertFault_chan (s : State) (c : Channel) : s.assertFault.chan c = safeRecord (s.chan c) := by
  rw [assertFault_eq, State.sendAll_chan, dropAll, overAll_keeps (fun t => t.chan c) (fun p t => by simp), safeAll_chan]
  rfl

theorem assertFault_queue (s : State) : s.assertFault.queue = safeQueues s (fun _ => true) s.queue := by
  rw [assertFault_eq, State.sendAll_queue, dropAll, overAll_keeps State.queue (fun p t => by simp), safeAll_queue]
  rfl

theorem assertFault_commit (s : State) (p : Port) : s.assertFault.commit p = { s.commit p with armed := none } := by
  rw [assertFault_eq, State.sendAll_commit, dropAll_commit, safeAll_frame]
  rfl

/-- A host receives COMMIT_FAILED for its dropped set, then FAULT_ASSERTED (R122). -/
theorem assertFault_event (s : State) (p : Port) :
    s.assertFault.event p =
      (seenDrop (s.commit p).armed s.timeCount (s.event p)).take
        { kind := .faultAsserted, channel := 0xFF, reason := 0, tag := 0, time := s.timeCount } := by
  rw [assertFault_eq, State.sendAll_event, dropAll_event, dropAll, overAll_keeps State.timeCount (fun p t => by simp),
    safeAll_frame]
  rfl

/-- Settles O53. -/
theorem faultAssertionMakesEverythingSafe : Obligations.FaultAssertionMakesEverythingSafe := by
  unfold Obligations.FaultAssertionMakesEverythingSafe
  intro s
  refine ⟨fun hrun hreleased => ?asserted, fun hidle => ?idle⟩
  case asserted =>
    refine ⟨s.assertFault, by simp [exec, execFaultAssertion, hrun, hreleased], assertFault_faultAsserted s,
      assertFault_chan s, assertFault_queue s, assertFault_commit s, fun p => ?event, ?frame⟩
    case event => rw [assertFault_event]; unfold seenDrop; rfl
    case frame => apply State.ext <;> simp
  case idle => rcases hidle with h | h <;> simp [exec, execFaultAssertion, h]

/-- Settles O54: a release clears the filtered state, then tells every host. -/
theorem faultReleaseTellsEveryHost : Obligations.FaultReleaseTellsEveryHost := by
  unfold Obligations.FaultReleaseTellsEveryHost
  intro s hrun hasserted
  refine ⟨({ s with faultAsserted := false } : State).sendAll .faultReleased noChannel noReason 0,
    by simp [exec, execFaultRelease, hrun, hasserted], fun p => State.sendAll_event .., ?frame⟩
  case frame => apply State.ext <;> simp

end Sys2Proof.Safety

/-! PROOFS. One step, and what every command leaves: the queue of waiting commands (log 6), and the records, codes and
phase that only their causes write (R60, R101, R113). -/

namespace Sys2Proof.Safety

open Sys2Proof.Machine

variable {s t u : State} {p : Port}

/-- Settles O1. -/
theorem stepTakesFrontCommand : Obligations.StepTakesFrontCommand :=
  fun _ _ _ => rfl

/-! Bytes and edges on a port -/

/-- Bytes on a port are received and perhaps refused, which writes the port alone, or they complete a request that passes
the framing checks and is taken (R137, R140, R141). -/
theorem receiveBytes_cases (s : State) (p : Port) (bytes : List Byte) :
    (∃ r, s.receiveBytes p bytes = s.setPort p r) ∨
      (s.port p).phase = .request ∧ ∃ name r,
        framing s.devicePhase ((s.port p).request.receiveAll bytes) = .ok name ∧
        s.receiveBytes p bytes =
          (takeCommand name p ((s.port p).request.receiveAll bytes).args s).1.setPort p r := by
  unfold State.receiveBytes State.decideRequest
  dsimp only
  split
  next hphase =>
    split
    · split
      · exact .inl ⟨_, rfl⟩
      next name hname => exact .inr ⟨hphase, name, _, hname, State.takeAndAnswer_eq ..⟩
    · exact .inl ⟨_, rfl⟩
  · exact .inl ⟨s.port p, (s.setPort_port_eq p).symm⟩

/-- What no taken command changes and no port record holds, bytes on a port leave as it is. -/
theorem receiveBytes_keeps {β : Type} (f : State → β) (hport : ∀ t p r, f (State.setPort t p r) = f t)
    (htake : ∀ name p args s, f (takeCommand name p args s).1 = f s) (s : State) (p : Port) (bytes : List Byte) :
    f (s.receiveBytes p bytes) = f s := by
  rcases receiveBytes_cases s p bytes with ⟨r, h⟩ | ⟨-, name, r, -, h⟩
  · rw [h, hport]
  · rw [h, hport, htake]

theorem receiveBytes_pending (s : State) (p : Port) (bytes : List Byte) :
    (s.receiveBytes p bytes).pending = s.pending :=
  receiveBytes_keeps State.pending (fun _ _ _ => rfl) (fun name p args s => (takeCommand_keeps s name p args).pending) ..

theorem receiveBytes_devicePhase (s : State) (p : Port) (bytes : List Byte) :
    (s.receiveBytes p bytes).devicePhase = s.devicePhase :=
  receiveBytes_keeps State.devicePhase (fun _ _ _ => rfl)
    (fun name p args s => (takeCommand_keeps s name p args).devicePhase) ..

/-- The rise of a chip select writes the port, and sends its host at most a FRAME_CUT (R143, R144). -/
theorem chipSelectRise_frame (s : State) (p : Port) :
    s.chipSelectRise p =
      { s with ports := (s.chipSelectRise p).ports, events := (s.chipSelectRise p).events } := by
  unfold State.chipSelectRise
  dsimp only
  split <;> rfl

/-! Every command completes -/

/-- No command ends in a fault or a refusal. -/
theorem exec_next (i : Instr) (s : State) : ∃ t, exec i s = .next t := by
  cases i <;> exact ⟨_, rfl⟩

theorem pending_of_exec {i : Instr} (h : exec i s = .next t) : t.pending = s.pending := by
  cases i <;> obtain rfl := Host.Outcome.next.inj h
  case deviceReset => rfl
  case deviceResetEnd rankA rankB syncHigh =>
    split
    · rw [resetEnd_frame]
    · rfl
  case frameCut p bytes => rw [chipSelectRise_frame]; exact receiveBytes_pending s p bytes
  case frameEnd p => rw [chipSelectRise_frame]
  case frameOpen | probeSlot => (repeat' split) <;> simp
  case linkTakeEntry | writeCodeDone | verifyResult | rcheckShiftedOut => split <;> simp
  case leaseTick | leaseExpiry | armWindowExpiry | rampTick | syncEdge | syncQualifierArm | faultAssertion
      | faultRelease => split <;> simp
  all_goals exact receiveBytes_pending ..

/-- Settles O2: every arm answers a next state, and none writes the queue of waiting commands. -/
theorem everyCommandCompletes : Obligations.EveryCommandCompletes := by
  unfold Obligations.EveryCommandCompletes
  intro i s
  obtain ⟨t, h⟩ := exec_next i s
  exact ⟨t, h, pending_of_exec h⟩

/-! The device phase (R101) -/

/-- RUNNING ends only with a device reset (R101). -/
theorem running_of_exec {i : Instr} (h : exec i s = .next t) (hrun : s.devicePhase = .running)
    (hi : i ≠ .deviceReset) : t.devicePhase = .running := by
  cases i <;> obtain rfl := Host.Outcome.next.inj h
  case deviceReset => exact absurd rfl hi
  case deviceResetEnd rankA rankB syncHigh =>
    split
    · rw [resetEnd_frame]; exact hrun
    · exact hrun
  case frameCut p bytes =>
    rw [chipSelectRise_frame]
    exact (receiveBytes_devicePhase s p bytes).trans hrun
  case frameEnd p => rw [chipSelectRise_frame]; exact hrun
  case frameOpen => (repeat' split) <;> simp [hrun]
  case probeSlot =>
    split
    · exact hrun
    · split
      · unfold State.endProbe
        split
        · simp [hrun]
        · rw [endStartup_running _ (by simp [hrun])]; simp [hrun]
      · exact hrun
  case verifyResult =>
    split
    · rw [endStartup_running _ (by simp [hrun])]; simp [hrun]
    · exact hrun
  case linkTakeEntry | writeCodeDone | rcheckShiftedOut => split <;> simp [hrun]
  case leaseTick | leaseExpiry | armWindowExpiry | rampTick | syncEdge | syncQualifierArm | faultAssertion
      | faultRelease => split <;> simp [hrun]
  all_goals exact (receiveBytes_devicePhase ..).trans hrun

/-! Channels that neither enter LIVE nor change their confirmed code -/

/-- A channel record that has not entered LIVE and holds its confirmed code. -/
structure CalmRecord (r r' : ChannelRecord) : Prop where
  live : r'.state = .live → r.state = .live
  confirmed : r'.confirmed = r.confirmed

/-- From s to t no channel has entered LIVE, and every one holds its confirmed code. -/
structure Calm (s t : State) : Prop where
  record : ∀ c, CalmRecord (s.chan c) (t.chan c)

theorem CalmRecord.refl (r : ChannelRecord) : CalmRecord r r := ⟨id, rfl⟩

theorem Calm.refl (s : State) : Calm s s := ⟨fun c => .refl (s.chan c)⟩

theorem Calm.trans (h : Calm s t) (k : Calm t u) : Calm s u where
  record c := ⟨(h.record c).live ∘ (k.record c).live, (k.record c).confirmed.trans (h.record c).confirmed⟩

theorem Calm.of_chan (h : ∀ c, t.chan c = s.chan c) : Calm s t :=
  ⟨fun c => h c ▸ .refl (s.chan c)⟩

theorem Calm.setChan {c : Channel} {r : ChannelRecord} (h : CalmRecord (s.chan c) r) : Calm s (s.setChan c r) := by
  refine ⟨fun d => ?_⟩
  rw [State.setChan_chan_get]
  split
  next hcd => exact hcd ▸ h
  next => exact .refl _

theorem Calm.overAll {n : Nat} {act : Fin n → State → State} (h : ∀ i t, Calm t (act i t)) (s : State) :
    Calm s (overAll n act s) :=
  overAll_induct (P := Calm s) (fun i t ht => ht.trans (h i t)) s (Calm.refl s)

/-- Safe entry leaves no channel LIVE (R11). -/
theorem calmRecord_safed (r : ChannelRecord) : CalmRecord r r.safed := by
  cases h : r.state <;> constructor <;> simp [ChannelRecord.safed, ChannelRecord.toFallback, h]

theorem calm_safeEntry (s : State) (c : Channel) : Calm s (s.safeEntry c) := by
  refine ⟨fun d => ?_⟩
  rw [State.safeEntry_chan]
  split
  · exact calmRecord_safed _
  · exact .refl _

theorem calm_releaseChannel (s : State) (policy : Policy) (c : Channel) : Calm s (s.releaseChannel policy c) := by
  refine ⟨fun d => ?_⟩
  rw [State.releaseChannel_chan]
  split
  · exact calmRecord_safed _
  · exact .refl _

theorem calm_clearLease (s : State) (p : Port) (c : Channel) : Calm s (s.clearLease p c) := by
  refine ⟨fun d => ?_⟩
  rw [clearLease_chan, ← safed_eq_safeRecord]
  split
  · exact calmRecord_safed _
  · exact .refl _

theorem calm_tick (s : State) : Calm s s.tick := by
  refine ⟨fun c => ?_⟩
  rw [tick_chan, ← safed_eq_safeRecord]
  split
  · exact calmRecord_safed _
  · exact .refl _

theorem calm_rampTick (s : State) : Calm s s.rampTick := by
  refine ⟨fun c => ?_⟩
  rw [rampTick_chan]
  exact ⟨id, rfl⟩

theorem calm_jumpTo (s : State) (c : Channel) (code : Code) (origin : Origin) : Calm s (s.jumpTo c code origin) := by
  refine ⟨fun d => ?_⟩
  rw [State.jumpTo_chan]
  split
  · exact ⟨id, rfl⟩
  · exact .refl _

theorem calm_toFallback (s : State) (c : Channel) : Calm s (s.toFallback c) := by
  refine ⟨fun d => ?_⟩
  rw [State.toFallback_chan]
  split
  · exact ⟨id, rfl⟩
  · exact .refl _

theorem calm_applyLimits (s : State) (c : Channel) (low high : Code) : Calm s (s.applyLimits c low high) := by
  rw [applyLimits_eq rfl]
  split
  · refine Calm.trans ?_ (calm_jumpTo ..)
    exact .setChan ⟨id, rfl⟩
  · exact .setChan ⟨id, rfl⟩

theorem calm_applyFallback (s : State) (c : Channel) (code : Code) : Calm s (s.applyFallback c code) := by
  unfold State.applyFallback
  dsimp only
  split
  · refine Calm.trans ?_ (calm_toFallback ..)
    exact .setChan ⟨id, rfl⟩
  · exact .setChan ⟨id, rfl⟩

theorem calm_recover (s : State) (c : Channel) : Calm s (s.recover c) := by
  unfold State.recover
  refine Calm.trans ?_ (calm_jumpTo ..)
  exact .setChan ⟨nofun, rfl⟩

/-- Of the taken commands only Commit and Sync make a channel LIVE, and none confirms a code (R60). -/
theorem calm_takeCommand {name : CommandName} (hcommit : name ≠ .commit) (hsync : name ≠ .sync) (p : Port)
    (args : List Byte) (s : State) : Calm s (takeCommand name p args s).1 := by
  cases name <;> dsimp only [takeCommand]
  case commit => exact absurd rfl hcommit
  case sync => exact absurd rfl hsync
  case nop | readStatus | readIdent | repeatReply | readStage => exact .refl s
  case portClear =>
    have hcommit : Calm s (s.clearCommit p) := .of_chan fun c => by simp
    refine (hcommit.trans (.overAll (fun c t => calm_clearLease t p c) _)).trans (.of_chan fun c => ?_)
    simp [takePortClear]
  case claim => dsimp only [takeClaim]; (repeat' split) <;> exact .of_chan fun c => by simp
  case renew =>
    dsimp only [takeRenew]
    split
    · exact .refl s
    · exact .overAll (fun c t => .of_chan fun d => by split <;> simp) s
  case release =>
    dsimp only [takeRelease]
    split
    · exact .refl s
    · split
      · exact .refl s
      · refine .overAll (fun c t => ?_) s
        split
        · exact calm_releaseChannel ..
        · exact .of_chan fun d => by split <;> simp
  case readLease => dsimp only [takeReadLease]; split <;> exact .refl s
  case setWarning => dsimp only [takeSetWarning]; split <;> exact .of_chan fun c => by simp
  case stage => dsimp only [takeStage]; split <;> exact .of_chan fun c => by simp
  case unstage => dsimp only [takeUnstage]; split <;> exact .of_chan fun c => by simp
  case arm => dsimp only [takeArm]; (repeat' split) <;> exact .of_chan fun c => by simp
  case disarm => dsimp only [takeDisarm]; split <;> exact .of_chan fun c => by simp
  case readArmed => dsimp only [takeReadArmed]; split <;> exact .refl s
  case setLimits =>
    dsimp only [takeSetLimits]
    split
    · exact .refl s
    · (repeat' split) <;> first | exact .refl s | exact calm_applyLimits ..
  case setFallback =>
    dsimp only [takeSetFallback]
    split
    · exact .refl s
    · split
      · exact .refl s
      · exact calm_applyFallback ..
  case setRamp =>
    dsimp only [takeSetRamp]
    split
    · exact .refl s
    · split
      · exact .refl s
      · exact .setChan ⟨id, rfl⟩
  case readChannel => dsimp only [takeReadChannel]; split <;> exact .refl s
  case forceSafe =>
    dsimp only [takeForceSafe]
    split
    · exact .refl s
    · refine .overAll (fun c t => ?_) s
      split
      · exact calm_safeEntry ..
      · exact .refl t
  case clearFault =>
    dsimp only [takeClearFault]
    split
    · exact .refl s
    · split
      · exact calm_recover ..
      · exact .refl s
  case readEvents => dsimp only [takeReadEvents]; split <;> exact .of_chan fun c => by simp
  case setEventMask => dsimp only [takeSetEventMask]; split <;> exact .of_chan fun c => by simp
  case eventTest => dsimp only [takeEventTest]; exact .of_chan fun c => by simp

/-! Requests as the part can meet them -/

/-- A request of one command takes no other (R137, R140, R141). -/
theorem request_cases (hports : ∀ p, PortLaw (s.port p)) (p : Port) (name : CommandName) {args : List Byte}
    (h : args.length ≤ 255) :
    (∃ r, s.request p name args = s.setPort p r) ∨
      ∃ args' r, s.request p name args = (takeCommand name p args' s).1.setPort p r := by
  by_cases hphase : (s.port p).phase = .request
  · rw [State.request_eq s hphase ((hports p).requestFresh hphase) name h]
    split
    · exact .inl ⟨_, rfl⟩
    · split
      · exact .inl ⟨_, rfl⟩
      · exact .inr ⟨_, _, State.takeAndAnswer_eq ..⟩
  · exact .inl ⟨s.port p, by rw [State.request_ignored s hphase, State.setPort_port_eq]⟩

theorem calm_setPort (h : Calm s t) (p : Port) (r : PortRecord) : Calm s (t.setPort p r) :=
  h.trans (.of_chan fun _ => rfl)

theorem calm_request (hports : ∀ p, PortLaw (s.port p)) (p : Port) {name : CommandName} (hcommit : name ≠ .commit)
    (hsync : name ≠ .sync) {args : List Byte} (h : args.length ≤ 255) : Calm s (s.request p name args) := by
  rcases request_cases hports p name h with ⟨r, e⟩ | ⟨args', r, e⟩
  · rw [e]; exact calm_setPort (.refl s) p r
  · rw [e]; exact calm_setPort (calm_takeCommand hcommit hsync p args' s) p r

/-- Bytes that cannot pass the framing checks take nothing (R140). -/
theorem calm_receiveBytes (hports : ∀ p, PortLaw (s.port p)) (p : Port) {bytes : List Byte}
    (h : ∀ name, framing s.devicePhase (Request.empty.receiveAll bytes) ≠ .ok name) :
    Calm s (s.receiveBytes p bytes) := by
  rcases receiveBytes_cases s p bytes with ⟨r, e⟩ | ⟨hphase, name, r, hname, -⟩
  · rw [e]; exact calm_setPort (.refl s) p r
  · rw [(hports p).requestFresh hphase] at hname
    exact absurd hname (h name)

/-- A request that passes the framing checks has its CHECK right and a code of the code table (R140). -/
theorem framing_ok {phase : DevicePhase} {r : Request} {name : CommandName} (h : framing phase r = .ok name) :
    r.check = some r.running ∧ CommandName.ofCode r.code = some name := by
  unfold framing at h
  split at h
  next => cases h
  next hcheck =>
    split at h
    next => cases h
    next name' hcode =>
      have hname : name' = name := by
        split at h
        · cases h
        · split at h
          · cases h
          · exact Except.ok.inj h
      exact ⟨not_not.mp hcheck, hname ▸ hcode⟩

/-- A BAD_COMMAND request that the part can meet fails check 1 or check 2 (R140). -/
theorem framing_of_failsCheckOrCode {code check : Byte} {args : List Byte} (hfit : args.length ≤ 255)
    (hbad : failsCheckOrCode code args check = true) (phase : DevicePhase) (name : CommandName) :
    framing phase (Request.empty.receiveAll (requestBody code args ++ [check])) ≠ .ok name := by
  intro h
  rw [receiveAll_eq_arrived hfit] at h
  obtain ⟨hcheck, hcode⟩ := framing_ok h
  have hcheck : check = crc (requestBody code args) := Option.some.inj hcheck
  rw [arrived_code] at hcode
  simp [failsCheckOrCode, hcheck, hcode] at hbad

/-! Every command but the causes -/

theorem calm_chipSelectRise (h : Calm s t) (p : Port) : Calm s (t.chipSelectRise p) := by
  refine h.trans (.of_chan fun c => ?_)
  rw [chipSelectRise_frame]
  rfl

theorem calm_endProbe (s : State) (k : Slot) (mark revision : Byte) :
    Calm s (s.decideSlot k mark revision).endProbe := by
  refine ⟨fun c => ?_⟩
  rw [State.endProbe_chan, decideSlot_chan]
  split
  · exact ⟨nofun, rfl⟩
  · exact .refl _

/-- A command the part can meet leaves every channel calm, but for a Commit, a Sync, a SYNC edge, a verify result and a
device reset. -/
theorem calm_of_exec {i : Instr} (hi : Inv s) (hwf : i.wellFormed = true) (h : exec i s = .next t)
    (hcommit : ∀ p args, i ≠ .commit p args) (hsync : ∀ p args, i ≠ .sync p args) (hedge : i ≠ .syncEdge)
    (hverify : ∀ v, i ≠ .verifyResult v) (hreset : i ≠ .deviceReset) : Calm s t := by
  cases i <;> obtain rfl := Host.Outcome.next.inj h
  case commit p args => exact absurd rfl (hcommit p args)
  case sync p args => exact absurd rfl (hsync p args)
  case syncEdge => exact absurd rfl hedge
  case verifyResult v => exact absurd rfl (hverify v)
  case deviceReset => exact absurd rfl hreset
  case deviceResetEnd rankA rankB syncHigh =>
    split
    · exact .of_chan fun c => by rw [resetEnd_frame]; rfl
    · exact .refl s
  case badCommand p code args check =>
    obtain ⟨hfit, hbad⟩ := Bool.and_eq_true_iff.mp hwf
    exact calm_receiveBytes hi.ports p (framing_of_failsCheckOrCode (of_decide_eq_true hfit) hbad s.devicePhase)
  case frameCut p bytes =>
    refine calm_chipSelectRise (calm_receiveBytes hi.ports p fun name hname => ?_) p
    have hnone : (Request.empty.receiveAll bytes).check = none := Option.isNone_iff_eq_none.mp hwf
    rw [(framing_ok hname).1] at hnone
    cases hnone
  case frameEnd p => exact calm_chipSelectRise (.refl s) p
  case frameOpen => exact .of_chan fun c => by (repeat' split) <;> rfl
  case rcheckShiftedOut | linkTakeEntry | writeCodeDone => exact .of_chan fun c => by split <;> rfl
  case probeSlot mark revision =>
    split
    · exact .refl s
    · split
      · exact calm_endProbe ..
      · exact .refl s
  case leaseTick | leaseExpiry | armWindowExpiry =>
    split
    · exact .refl s
    · exact calm_tick s
  case rampTick =>
    split
    · exact .refl s
    · exact calm_rampTick s
  case faultAssertion =>
    split
    · exact .refl s
    · refine ⟨fun c => ?_⟩
      rw [assertFault_chan, ← safed_eq_safeRecord]
      exact calmRecord_safed _
  case syncQualifierArm => exact .of_chan fun c => by split <;> rfl
  case faultRelease =>
    split
    · exact .refl s
    · exact .of_chan fun c => State.sendAll_chan ..
  all_goals exact calm_request hi.ports _ (by nofun) (by nofun) (of_decide_eq_true hwf)

/-! The causes that confirm no code, or make no channel LIVE -/

theorem applyEntries_confirmed (es : List StageEntry) (s : State) (c : Channel) :
    ((s.applyEntries es).chan c).confirmed = (s.chan c).confirmed := by
  unfold State.applyEntries
  induction es generalizing s with
  | nil => rfl
  | cons e es ih =>
    rw [List.foldl_cons, ih, State.applyEntry_chan]
    split <;> rfl

theorem firePort_confirmed (p : Port) (s : State) (c : Channel) :
    ((s.firePort p).chan c).confirmed = (s.chan c).confirmed := by
  unfold State.firePort
  split
  · rfl
  · unfold State.fireSet
    split <;> simp [applyEntries_confirmed]

/-- A sync event confirms no code (R78). -/
theorem syncEvent_confirmed (s : State) (c : Channel) : (s.syncEvent.chan c).confirmed = (s.chan c).confirmed :=
  overAll_keeps (fun t => (t.chan c).confirmed) (fun p t => firePort_confirmed p t c) s

/-- No taken command confirms a code (R113). -/
theorem takeCommand_confirmed (name : CommandName) (p : Port) (args : List Byte) (s : State) (c : Channel) :
    ((takeCommand name p args s).1.chan c).confirmed = (s.chan c).confirmed := by
  by_cases hcommit : name = .commit
  · subst hcommit
    dsimp only [takeCommand, takeCommit]
    split
    · rfl
    · simp [applyEntries_confirmed]
  by_cases hsync : name = .sync
  · subst hsync
    exact syncEvent_confirmed s c
  · exact ((calm_takeCommand hcommit hsync p args s).record c).confirmed

theorem request_confirmed (s : State) (p : Port) (name : CommandName) (args : List Byte) (c : Channel) :
    ((s.request p name args).chan c).confirmed = (s.chan c).confirmed :=
  receiveBytes_keeps (fun t => (t.chan c).confirmed) (fun _ _ _ => rfl)
    (fun name p args s => takeCommand_confirmed name p args s c) ..

/-- A verify result makes no channel LIVE (R113 to R115). -/
theorem verify_not_live (s : State) (e : UpdateEntry) (read : Code) (c : Channel)
    (h : ((s.verify e read).chan c).state = .live) : (s.chan c).state = .live := by
  unfold State.verify at h
  split at h
  · rw [State.verifyMatch, State.setChan_chan_get] at h
    split at h
    next hc =>
      subst hc
      unfold ChannelRecord.verified at h
      dsimp only at h
      split at h
      · cases h
      · exact h
    next => exact h
  · split at h
    · rwa [verifyRetry_chan_state] at h
    · rw [State.verifyFault, State.sendHolderOrAll_chan, State.unplace_chan, State.setChan_chan_get] at h
      split at h
      · cases h
      · exact h

/-- Settles O5: every command but the five causes leaves each channel calm; of the causes, a Commit, a Sync and a SYNC
edge confirm no code, and a verify result and a device reset make no channel LIVE. -/
theorem onlyTheirCausesWrite : Obligations.OnlyTheirCausesWrite := by
  unfold Obligations.OnlyTheirCausesWrite
  intro i s t hi hwf hx
  refine ⟨fun c hlive hnot => ?live, fun c hchanged => ?confirmed, fun hstart hrun => ?phase⟩
  case live =>
    by_contra hcause
    simp only [not_or, not_exists] at hcause
    obtain ⟨hhost, hedge⟩ := hcause
    by_cases hreset : i = .deviceReset
    · subst hreset
      obtain rfl := Host.Outcome.next.inj hx
      rw [(resetValues_deviceReset s).channels c] at hlive
      cases hlive
    by_cases hverify : ∃ v, i = .verifyResult v
    · obtain ⟨v, rfl⟩ := hverify
      obtain rfl := Host.Outcome.next.inj hx
      split at hlive
      · rw [State.endStartup_chan] at hlive
        exact hnot (verify_not_live s _ v c hlive)
      · exact hnot hlive
    · exact hnot (((calm_of_exec hi hwf hx (fun p args => (hhost p args).1) (fun p args => (hhost p args).2) hedge
        (not_exists.mp hverify) hreset).record c).live hlive)
  case confirmed =>
    by_contra hcause
    obtain ⟨hreset, hverify⟩ := not_or.mp hcause
    refine hchanged ?_
    by_cases hcommit : ∃ p args, i = .commit p args
    · obtain ⟨p, args, rfl⟩ := hcommit
      obtain rfl := Host.Outcome.next.inj hx
      exact request_confirmed ..
    by_cases hsync : ∃ p args, i = .sync p args
    · obtain ⟨p, args, rfl⟩ := hsync
      obtain rfl := Host.Outcome.next.inj hx
      exact request_confirmed ..
    by_cases hedge : i = .syncEdge
    · subst hedge
      obtain rfl := Host.Outcome.next.inj hx
      split
      · rfl
      · exact syncEvent_confirmed s c
    · exact ((calm_of_exec hi hwf hx (fun p args h => hcommit ⟨p, args, h⟩) (fun p args h => hsync ⟨p, args, h⟩) hedge
        (not_exists.mp hverify) hreset).record c).confirmed
  case phase =>
    by_contra hreset
    rw [running_of_exec hx hrun hreset] at hstart
    cases hstart

end Sys2Proof.Safety

/-! PROOFS. Requests and frames: the code table (R137, R154, R155), a request that is taken (R141, R142, R156), the edges
of the chip select (R135, R143, R144), Nop (R146) and Repeat Reply (R145). -/

namespace Sys2Proof.Safety

open Sys2Proof.Machine

variable {s : State} {p : Port}

/-! The code table and the status table (R154, R156) -/

theorem code_eq_commandTable : ∀ row ∈ commandTable, row.1.code = row.2.1 := by decide

theorem mem_commandTable_fst (name : CommandName) : name ∈ commandTable.map Prod.fst := by
  cases name <;> decide

/-- The column LEN as lists: Stage allows the multiples of 4 from 4 to 48, every other command one value (R154). -/
theorem lenAllowed_iff_commandTable :
    ∀ row ∈ commandTable, ∀ len, row.1.lenAllowed len = true ↔ len ∈ row.2.2 := by
  intro row hrow len
  fin_cases hrow <;>
    simp only [CommandName.lenAllowed, decide_eq_true_eq, beq_iff_eq, List.mem_cons, List.not_mem_nil, or_false]
  -- The row of Stage is the one left.
  omega

theorem code_eq_statusTable : ∀ row ∈ statusTable, row.1.code = row.2 := by decide

theorem mem_statusTable_fst (st : Status) : st ∈ statusTable.map Prod.fst := by
  cases st <;> decide

/-- Settles O8. -/
theorem commandsDecodeAsEncoded : Obligations.CommandsDecodeAsEncoded := by
  unfold Obligations.CommandsDecodeAsEncoded
  refine ⟨fun row hrow => ⟨code_eq_commandTable row hrow, lenAllowed_iff_commandTable row hrow⟩, mem_commandTable_fst,
    fun name args hlen => ?decoded, stageEntriesOf_entryBytes,
    fun bytes es h => entryBytes_stageEntriesOf bytes.length bytes es le_rfl h⟩
  have h48 := CommandName.lenAllowed_le hlen
  have hfit : args.length ≤ 255 := h48.trans (by decide)
  have hreceived : Request.empty.receiveAll (requestBytes name args) = received name args :=
    receiveAll_request name.code args _ hfit
  rw [hreceived, framing_received _ _ hfit, received_args, List.take_of_length_le h48]
  simp [hlen]

/-! A request that passes the framing checks (R141, R142) -/

/-- The last-reply store after a taken command (R142). -/
theorem stored_store (r : PortRecord) (name : CommandName) (reply : Reply) :
    (r.stored name reply).store =
      if name = .repeatReply then r.store else if name = .portClear then none else some reply := by
  cases name <;> rfl

/-- Settles O10. -/
theorem passedRequestIsTaken : Obligations.PassedRequestIsTaken := by
  unfold Obligations.PassedRequestIsTaken
  refine ⟨code_eq_statusTable, mem_statusTable_fst, fun s p name args hl hlen hphase => ?_⟩
  obtain ⟨P, hexec, hreplies, -⟩ :=
    command_taken hl hlen (hphase.imp_right (takenInStarting_iff_mem name).mpr) (rfl : takeCommand name p args s = _)
  rw [stored_store] at hreplies
  exact ⟨_, hexec, hreplies, rfl⟩

/-- Settles O13: Nop's block changes nothing; its bytes are worked values of R138. -/
theorem nopAnswersOk : Obligations.NopAnswersOk := by
  unfold Obligations.NopAnswersOk
  obtain ⟨-, -, -, -, -, hrequest, -, hreply⟩ := checkValueRule
  refine ⟨fun s p hl => ?_, hrequest, hreply⟩
  exact command_answers_unchanged (name := .nop) (args := []) hl rfl (.inr rfl) nofun nofun rfl

/-- Settles O16: Repeat Reply's block leaves the state as it is, and the store is left too. -/
theorem repeatReplyReturnsTheStore : Obligations.RepeatReplyReturnsTheStore := by
  unfold Obligations.RepeatReplyReturnsTheStore
  intro s p hl
  obtain ⟨P, hexec, hreplies, -⟩ := command_taken (name := .repeatReply) (args := []) hl rfl (.inr rfl) rfl
  exact ⟨withPorts s P, hexec, hreplies, rfl⟩

/-! The edges of the chip select (R135, R144) -/

/-- A command that writes one port's record leaves the other ports and every other field. -/
theorem setPort_others (s : State) (p : Port) (r : PortRecord) :
    (∀ q, q ≠ p → (s.setPort p r).port q = s.port q) ∧ s.setPort p r = { s with ports := (s.setPort p r).ports } :=
  ⟨fun q hq => s.setPort_port_ne p r q hq.symm, rfl⟩

theorem exec_frameOpen_low (h : (s.port p).csLow = true) : exec (.frameOpen p) s = .next s := by
  simp [exec, execFrameOpen, h]

theorem exec_frameOpen_inReset (h : (s.port p).csLow = false) (hr : s.inReset = true) :
    exec (.frameOpen p) s = .next (s.setPort p { s.port p with csLow := true }) := by
  simp [exec, execFrameOpen, h, hr]

theorem exec_frameOpen (h : (s.port p).csLow = false) (hr : s.inReset = false)
    (hphase : (s.port p).phase = .deselected) :
    exec (.frameOpen p) s =
      .next (s.setPort p { s.port p with csLow := true, phase := .request, request := Request.empty }) := by
  simp [exec, execFrameOpen, h, hr, hphase]

/-- A decided frame ends in silence (R144). -/
theorem exec_frameEnd (h : (s.port p).phase ≠ .request) :
    exec (.frameEnd p) s = .next (s.setPort p (s.port p).deselect) := by
  simp [exec, execFrameEnd, State.chipSelectRise, h]

theorem exec_rcheckShiftedOut (h : (s.port p).phase = .reply) :
    exec (.rcheckShiftedOut p) s = .next (s.setPort p { s.port p with phase := .trailer, sending := none }) := by
  simp [exec, execRcheckShiftedOut, h]

/-- Bytes are received in REQUEST alone (R135). -/
theorem receiveBytes_ignored (h : (s.port p).phase ≠ .request) (bytes : List Byte) : s.receiveBytes p bytes = s := by
  simp [State.receiveBytes, h]

/-- Settles O11: each clause is the record that its edge leaves in the port. -/
theorem framesOpenAndEnd : Obligations.FramesOpenAndEnd := by
  unfold Obligations.FramesOpenAndEnd
  intro s p
  refine ⟨exec_frameOpen_low, fun hhigh hr => ?inReset, fun hphase => ?notReply, fun hhigh hr hphase => ?opened,
    fun hphase => ?ended, fun hphase => ?shifted, fun hphase => ⟨fun name args => ?host, fun code args check => ?bad⟩⟩
  case inReset =>
    obtain ⟨hothers, hframe⟩ := setPort_others s p { s.port p with csLow := true }
    exact ⟨_, exec_frameOpen_inReset hhigh hr, s.setPort_port_self p _, hothers, hframe⟩
  case notReply => simp [exec, execRcheckShiftedOut, hphase]
  case opened =>
    obtain ⟨hothers, hframe⟩ :=
      setPort_others s p { s.port p with csLow := true, phase := .request, request := Request.empty }
    refine ⟨_, exec_frameOpen hhigh hr hphase, ⟨?_, ?_⟩, ?_, ?_, ?_, ?_, hothers, hframe⟩ <;> simp [State.sdo, State.rank]
  case ended =>
    obtain ⟨hothers, hframe⟩ := setPort_others s p (s.port p).deselect
    refine ⟨_, exec_frameEnd hphase, ?_, ?_, ?_, ?_, ?_, ?_, hothers, hframe⟩ <;>
      simp [State.sdo, State.rank, PortRecord.deselect]
  case shifted =>
    obtain ⟨hothers, hframe⟩ := setPort_others s p { s.port p with phase := .trailer, sending := none }
    refine ⟨_, exec_rcheckShiftedOut hphase, ?_, ?_, ?_, ?_, ?_, ?_, hothers, hframe⟩ <;> simp [State.sdo, State.rank]
  case host => rw [exec_commandOf, State.request_ignored s hphase]
  case bad => exact congrArg Host.Outcome.next (receiveBytes_ignored hphase _)

/-! A cut frame (R143) -/

/-- A frame cut before CHECK leaves the port deselected, and sends FRAME_CUT where at least one byte is complete. -/
theorem exec_frameCut {bytes : List Byte} (hl : Listening s p)
    (hcut : (Request.empty.receiveAll bytes).check = none) :
    exec (.frameCut p bytes) s =
      .next (if bytes = [] then s.setPort p (s.port p).deselect
        else (s.setPort p (s.port p).deselect).sendTo p .frameCut noChannel noReason (BitVec.ofNat 16 bytes.length)) := by
  have hcount : (Request.empty.receiveAll bytes).count = bytes.length := by
    rw [receive_bytes_count bytes Request.empty hcut]
    exact Nat.zero_add _
  simp [exec, execFrameCut, State.receiveBytes, State.chipSelectRise, hl.frameOpen, hl.nothingReceived, hcut, hcount,
    PortRecord.deselect]

/-- Settles O12: the port is deselected, and the record, if any, goes to its host alone. -/
theorem cutFrameTakesNothing : Obligations.CutFrameTakesNothing := by
  unfold Obligations.CutFrameTakesNothing
  intro s p bytes hl hcut
  refine ⟨_, exec_frameCut hl hcut, ?_⟩
  split
  · refine ⟨?_, ?_, ?_, ?_, ?_, fun q hq => ?_, ?_, fun q _ => rfl, rfl⟩ <;>
      simp [State.rank, PortRecord.deselect, Ne.symm, *]
  · refine ⟨?_, ?_, ?_, ?_, ?_, fun q hq => ?_, ?_, fun q hq => ?_, rfl⟩ <;>
      simp [State.rank, PortRecord.deselect, State.sendTo_event, Ne.symm, noChannel, noReason, *]

end Sys2Proof.Safety

/-! PROOFS. The lease table: Claim (R25, R27, R29, R30), Release (R33, R34, R42) and Port Clear (R48, R148). -/

namespace Sys2Proof.Safety

open Sys2Proof.Machine

variable {s : State} {p : Port}

/-! Claim without ATOMIC (R27) -/

/-- A Claim without ATOMIC that passes the checks of R26 claims each channel of its mask and reports the outcomes. -/
theorem takeCommand_claim {m : Mask} {d : Word} {o : Byte} (hm : m ≠ 0) (hone : 1 ≤ d.toNat) (hmax : d.toNat ≤ 60000)
    (hreserved : o &&& 0xF8 = 0) (hatomic : o.getLsbD 2 = false) (s : State) (p : Port) :
    takeCommand .claim p (wordBytes m ++ wordBytes d ++ [o]) s =
      (s.claimAll p (claimOptionsOf o) d.toNat m,
        { status := .ok
          data := wordBytes (s.claimMask p (claimOptionsOf o) m .granted)
            ++ wordBytes (s.claimMask p (claimOptionsOf o) m .waiting)
            ++ wordBytes (s.claimMask p (claimOptionsOf o) m .refused) }) := by
  obtain ⟨hmask, hduration, hoptions⟩ := claim_args m d o
  have hrange : ¬(d.toNat < 1 ∨ Config.maxDuration < d.toNat) := by
    simp only [Config.maxDuration]
    omega
  have hnot : ¬(claimOptionsOf o).atomic = true := Bool.eq_false_iff.mp hatomic
  unfold takeCommand takeClaim
  dsimp only
  rw [hmask, hduration, hoptions, if_neg hm, if_neg hrange, if_neg (not_not.mpr hreserved), if_neg fun h => hnot h.1,
    if_neg hnot]
  simp [Reply.masks]

theorem inMask_claimMask (s : State) (p : Port) (o : ClaimOptions) (m : Mask) (x : ClaimOutcome) (c : Channel) :
    inMask (s.claimMask p o m x) c = (inMask m c && s.claimOutcome p o c == x) :=
  inMask_maskOf _ c

/-- Settles O19: a channel of the mask is claimed by the row of R27 that its outcome names, and the three masks are read
off the outcomes. -/
theorem claimDecidesEachChannel : Obligations.ClaimDecidesEachChannel := by
  unfold Obligations.ClaimDecidesEachChannel
  intro s p m d o hi hl hrun hm hone hmax hreserved hatomic
  obtain ⟨P, hexec, hanswers⟩ := command_answers (name := .claim) hl rfl (.inl hrun) nofun nofun
    (takeCommand_claim hm hone hmax hreserved hatomic s p)
  refine ⟨_, _, _, _, hexec, hanswers, fun c hc => ?outside,
    fun c hc => ⟨s.claimOutcome p (claimOptionsOf o) c, ?row, ?granted, ?waiting, ?refused⟩,
    claimAll_event (claimOptionsOf o) d.toNat m, claimAll_frame P _ _ _⟩
  case outside => simp [claimAll_lease, inMask_claimMask, hc]
  case row =>
    rw [withPorts_lease, claimAll_lease, if_pos hc]
    exact claim_row (claimOptionsOf o) d.toNat c (.inl (hi.leases c))
  case granted | waiting | refused => rw [inMask_claimMask, hc, Bool.true_and]

/-! Release (R33, R34) -/

/-- The leases of one mask end under a policy, and the sender's waits on those of another are withdrawn (R33). -/
def releaseAll (policy : Policy) (p : Port) (released withdrawn : Mask) (s : State) : State :=
  overAll 16 (fun c t =>
    if inMask released c then t.releaseChannel policy c else if inMask withdrawn c then t.withdraw p c else t) s

section
variable (policy : Policy) (p : Port) (released withdrawn : Mask) (s : State)

theorem releaseAll_lease (c : Channel) :
    (releaseAll policy p released withdrawn s).lease c =
      if inMask released c = true then afterLoss (s.lease c).waiters
      else if inMask withdrawn c = true then
        { s.lease c with waiters := (s.lease c).waiters.filter (fun w => w.port ≠ p) }
      else s.lease c := by
  refine overAll_get State.lease _
    (fun d r => if inMask released d = true then afterLoss r.waiters
      else if inMask withdrawn d = true then { r with waiters := r.waiters.filter (fun w => w.port ≠ p) } else r)
    (fun c d t => ?_) s c
  rw [← withoutWaiter_eq_filter, ← granted_eq_afterLoss]
  by_cases hcd : c = d
  · subst hcd
    split
    · rw [State.releaseChannel_lease]
    · split
      · rw [State.withdraw_lease]
      · exact (if_pos rfl).symm
  · rw [if_neg hcd]
    split
    · rw [State.releaseChannel_lease, if_neg hcd]
    · split
      · rw [State.withdraw_lease, if_neg hcd]
      · rfl

/-- One channel's part of a Release takes a released channel through safe entry, where the policy says so (R34). -/
theorem releaseAct_chan (c d : Channel) (t : State) :
    (if inMask released c then t.releaseChannel policy c
      else if inMask withdrawn c then t.withdraw p c else t).chan d =
      if c = d then (if inMask released d = true ∧ policy = .safe then safeRecord (t.chan d) else t.chan d)
      else t.chan d := by
  by_cases hcd : c = d
  · subst hcd
    by_cases hr : inMask released c = true
    · simp [hr, release_chan]
    · by_cases hw : inMask withdrawn c = true <;> simp [hr, hw]
  · by_cases hr : inMask released c = true
    · simp [hr, release_chan, hcd]
    · by_cases hw : inMask withdrawn c = true <;> simp [hr, hw, hcd]

theorem releaseAll_chan (c : Channel) :
    (releaseAll policy p released withdrawn s).chan c =
      if inMask released c = true ∧ policy = .safe then safeRecord (s.chan c) else s.chan c :=
  overAll_get State.chan _ (fun d r => if inMask released d = true ∧ policy = .safe then safeRecord r else r)
    (fun c d t => releaseAct_chan policy p released withdrawn c d t) s c

theorem releaseAll_queue :
    (releaseAll policy p released withdrawn s).queue =
      safeQueues s (fun c => inMask released c && decide (policy = .safe)) s.queue := by
  refine overAll_fold State.queue (fun c t => t.chan c)
    (fun c r q => if (inMask released c && decide (policy = .safe)) = true then safeQueue r c q else q) (fun c t => ?_)
    (fun c d t hcd => by rw [releaseAct_chan, if_neg hcd]) s
  by_cases hr : inMask released c = true
  · simp [hr, release_queue]
  · by_cases hw : inMask withdrawn c = true <;> simp [hr, hw]

theorem releaseAll_event (q : Port) :
    (releaseAll policy p released withdrawn s).event q =
      (ascending 16).foldl (fun u c =>
        if inMask released c = true then seenGrant q s.timeCount c (s.lease c).waiters u else u) (s.event q) := by
  refine overAll_fold (fun t => t.event q) (fun c t => ((t.lease c).waiters, t.timeCount))
    (fun c k u => if inMask released c = true then seenGrant q k.2 c k.1 u else u) (fun c t => ?_)
    (fun c d t hcd => ?_) s
  · by_cases hr : inMask released c = true
    · simp [hr, release_event]
    · by_cases hw : inMask withdrawn c = true <;> simp [hr, hw]
  · by_cases hr : inMask released c = true
    · simp [hr, State.releaseChannel_lease, hcd]
    · by_cases hw : inMask withdrawn c = true <;> simp [hr, hw, State.withdraw_lease, hcd]

/-- A Release writes channels, leases, the update queue and the event queues, and nothing else (R33, R34). -/
theorem releaseAll_frame :
    releaseAll policy p released withdrawn s =
      { s with
        channels := (releaseAll policy p released withdrawn s).channels
        leases := (releaseAll policy p released withdrawn s).leases
        queue := (releaseAll policy p released withdrawn s).queue
        events := (releaseAll policy p released withdrawn s).events } := by
  have keeps {β : Type} (f : State → β) (hr : ∀ c t, f (State.releaseChannel t policy c) = f t)
      (hw : ∀ c t, f (State.withdraw t p c) = f t) : f (releaseAll policy p released withdrawn s) = f s :=
    overAll_keeps f (fun c t => by (repeat' split) <;> simp [hr, hw]) s
  apply State.ext
  case channels | leases | queue | events => rfl
  all_goals exact keeps _ (by simp) (by simp)

end

theorem release_args (m : Mask) (y : Byte) :
    argWord (wordBytes m ++ [y]) 0 = m ∧ argByte (wordBytes m ++ [y]) 2 = y :=
  ⟨argWord_first m [y], rfl⟩

/-- An empty mask, or a byte that names no policy, is refused (R33). -/
theorem takeCommand_release_badArgument (s : State) (p : Port) {m : Mask} {y : Byte}
    (h : m = 0 ∨ (y ≠ 0 ∧ y ≠ 1)) :
    takeCommand .release p (wordBytes m ++ [y]) s = (s, Reply.bare .badArgument) := by
  obtain ⟨hmask, hpolicy⟩ := release_args m y
  unfold takeCommand takeRelease
  dsimp only
  rw [hmask, hpolicy]
  rcases h with hm | ⟨hkeep, hsafe⟩
  · rw [if_pos hm]
  · have hnone : policyOf y = none := by rw [policyOf, if_neg hkeep, if_neg hsafe]
    rw [hnone, ite_self]

/-- The policy that the byte 00h or 01h names is SAFE exactly for 01h (R155). -/
theorem policyOf_some {y : Byte} (hy : y = 0 ∨ y = 1) : ∃ policy, policyOf y = some policy ∧ (policy = .safe ↔ y = 1) := by
  rcases hy with rfl | rfl
  · exact ⟨.keep, rfl, by decide⟩
  · exact ⟨.safe, rfl, by decide⟩

theorem takeCommand_release (s : State) (p : Port) {m : Mask} {y : Byte} {policy : Policy} (hm : m ≠ 0)
    (hpolicy : policyOf y = some policy) {released withdrawn notHeld : Mask}
    (hr : released = maskOf (fun c => inMask m c && s.holds p c))
    (hw : withdrawn = maskOf (fun c => inMask m c && (!s.holds p c && s.waits p c)))
    (hn : notHeld = maskOf (fun c => inMask m c && (!s.holds p c && !s.waits p c))) :
    takeCommand .release p (wordBytes m ++ [y]) s =
      (releaseAll policy p released withdrawn s,
        { status := if notHeld = 0 then .ok else .notHolder
          data := wordBytes released ++ wordBytes withdrawn ++ wordBytes notHeld }) := by
  subst hr hw hn
  obtain ⟨hmask, hbyte⟩ := release_args m y
  unfold takeCommand takeRelease
  dsimp only
  rw [hmask, hbyte, if_neg hm, hpolicy]
  simp [releaseAll, Reply.masks]

/-- Settles O22: the three masks are decided on the state that stood before the Release, and each channel's part of it
touches its own record, lease and entry. -/
theorem releaseEndsOrWithdraws : Obligations.ReleaseEndsOrWithdraws := by
  unfold Obligations.ReleaseEndsOrWithdraws
  intro s p m y hl hrun
  refine ⟨fun hbad => ?refused, fun hm hy => ?taken⟩
  case refused =>
    exact command_answers_unchanged (name := .release) hl rfl (.inl hrun) nofun nofun
      (takeCommand_release_badArgument s p hbad)
  case taken =>
    obtain ⟨policy, hpolicy, hsafe⟩ := policyOf_some hy
    obtain ⟨P, hexec, hanswers⟩ := command_answers (name := .release) hl rfl (.inl hrun) nofun nofun
      (takeCommand_release s p hm hpolicy rfl rfl rfl)
    refine ⟨_, _, _, _, hexec, hanswers, fun c => ?released, fun c => ?withdrawn, fun c => ?notHeld,
      fun c => releaseAll_lease policy p _ _ s c, fun c => ?chan, ?queue, fun q => releaseAll_event policy p _ _ s q,
      congrArg (withPorts · P) (releaseAll_frame policy p _ _ s)⟩
    case released => simp [holds_iff_holder]
    case withdrawn => simp [holds_eq_false_iff_holder, waits_iff_mem]
    case notHeld => simp [holds_eq_false_iff_holder, State.waits]
    case chan => simp only [withPorts_chan, releaseAll_chan, hsafe]
    case queue => simp only [withPorts_queue, releaseAll_queue, hsafe]

/-! Port Clear (R148) -/

/-- What Port Clear reads of a channel: its lease and its record. -/
def channelView (c : Channel) (t : State) : LeaseRecord × ChannelRecord := (t.lease c, t.chan c)

/-- A channel's lease and record after Port Clear: the sender's wait is gone, its lease ends by policy SAFE (R48). -/
def clearedView (p : Port) (v : LeaseRecord × ChannelRecord) : LeaseRecord × ChannelRecord :=
  if v.1.held.map Lease.holder = some p then
    (afterLoss (v.1.waiters.filter (fun w => w.port ≠ p)), safeRecord v.2)
  else ({ v.1 with waiters := v.1.waiters.filter (fun w => w.port ≠ p) }, v.2)

theorem clearLease_view_ne {c d : Channel} (h : c ≠ d) (t : State) :
    channelView d (t.clearLease p c) = channelView d t := by
  simp [channelView, clearLease_lease, clearLease_chan, h]

theorem clearLease_view_self (c : Channel) (t : State) :
    channelView c (t.clearLease p c) = clearedView p (channelView c t) := by
  unfold channelView clearedView
  rw [clearLease_lease, clearLease_chan, if_pos rfl]
  change _ = if t.holder c = some p then _ else _
  by_cases h : t.holder c = some p <;> simp [h]

/-- Port Clear in the lease table: every channel's lease record is cleared of the sender (R48). Irreducible, so that no
proof runs the sixteen channels. -/
@[irreducible] def clearLeases (p : Port) (s : State) : State := overAll 16 (fun c t => t.clearLease p c) s

section
variable (s : State) (p : Port)

theorem clearLeases_view (c : Channel) : channelView c (clearLeases p s) = clearedView p (channelView c s) := by
  unfold clearLeases
  exact overAll_view c (channelView c) (clearedView p) (fun _ t hd => clearLease_view_ne hd t)
    (fun t => clearLease_view_self c t) s

theorem clearLeases_lease (c : Channel) :
    (clearLeases p s).lease c =
      if s.holder c = some p then afterLoss ((s.lease c).waiters.filter (fun w => w.port ≠ p))
      else { s.lease c with waiters := (s.lease c).waiters.filter (fun w => w.port ≠ p) } :=
  (congrArg Prod.fst (clearLeases_view s p c)).trans (apply_ite Prod.fst ..)

theorem clearLeases_chan (c : Channel) :
    (clearLeases p s).chan c = if s.holder c = some p then safeRecord (s.chan c) else s.chan c :=
  (congrArg Prod.snd (clearLeases_view s p c)).trans (apply_ite Prod.snd ..)

theorem clearLeases_queue :
    (clearLeases p s).queue = safeQueues s (fun c => decide (s.holder c = some p)) s.queue := by
  unfold clearLeases safeQueues
  simp only [decide_eq_true_eq]
  exact overAll_fold State.queue channelView
    (fun c v q => if v.1.held.map Lease.holder = some p then safeQueue v.2 c q else q)
    (fun c t => clearLease_queue c t) (fun c d t hcd => clearLease_view_ne hcd t) s

theorem clearLeases_event (q : Port) :
    (clearLeases p s).event q =
      (ascending 16).foldl (fun u c =>
        if s.holder c = some p then seenGrant q s.timeCount c ((s.lease c).waiters.filter (fun w => w.port ≠ p)) u
        else u) (s.event q) := by
  unfold clearLeases
  exact overAll_fold (fun t => t.event q) (fun c t => (channelView c t, t.timeCount))
    (fun c k u => if k.1.1.held.map Lease.holder = some p then
      seenGrant q k.2 c (k.1.1.waiters.filter (fun w => w.port ≠ p)) u else u)
    (fun c t => clearLease_event q c t)
    (fun c d t hcd => by rw [clearLease_view_ne hcd, State.clearLease_timeCount]) s

theorem clearLeases_frame :
    clearLeases p s =
      { s with
        channels := (clearLeases p s).channels, leases := (clearLeases p s).leases
        queue := (clearLeases p s).queue, events := (clearLeases p s).events } := by
  have keeps {β : Type} (f : State → β) (h : ∀ c t, f (State.clearLease t p c) = f t) : f (clearLeases p s) = f s := by
    unfold clearLeases
    exact overAll_keeps f h s
  apply State.ext
  case channels | leases | queue | events => rfl
  all_goals exact keeps _ (by simp)

end

/-- Port Clear's teardown of the sender in every block (R48, R67, R84, R148, R174). -/
def torndown (p : Port) (s : State) : State :=
  ((clearLeases p (s.clearCommit p)).setLead p 0).clearEvents p

theorem takeCommand_portClear (s : State) (p : Port) :
    takeCommand .portClear p [] s = (torndown p s, Reply.bare .ok) := by
  unfold torndown clearLeases
  rfl

theorem torndown_event (s : State) (p q : Port) :
    (torndown p s).event q = if p = q then EventUnit.reset else (clearLeases p (s.clearCommit p)).event q :=
  State.setEvent_event_get ..

/-- The teardown writes the lease table as it stands after the commit unit's part, the two records of the sender's that
Port Clear empties, and its lead (R148). -/
theorem torndown_frame (s : State) (p : Port) :
    torndown p s =
      { s with
        channels := (clearLeases p (s.clearCommit p)).channels
        leases := (clearLeases p (s.clearCommit p)).leases
        leads := s.leads.set p 0
        commits := s.commits.set p { s.commit p with staging := [], armed := none }
        queue := (clearLeases p (s.clearCommit p)).queue
        events := (torndown p s).events } := by
  unfold torndown
  rw [clearLeases_frame (s.clearCommit p) p]
  rfl

/-- Settles O17: the teardown runs over the lease table with the sender's armed set and staging list gone, which the lease
table does not read. -/
theorem portClearTearsDownTheSender : Obligations.PortClearTearsDownTheSender := by
  unfold Obligations.PortClearTearsDownTheSender
  intro s p hl hrun
  obtain ⟨P, hexec, hreplies, hrequest⟩ :=
    command_taken (name := .portClear) (args := []) hl rfl (.inl hrun) (takeCommand_portClear s p)
  have hevent : (torndown p s).event p = EventUnit.reset := (torndown_event s p p).trans (if_pos rfl)
  refine ⟨_, hexec, hreplies, hrequest, ?commit, fun q hq => ?commits, ?lead, fun q hq => ?leads, fun c => ?lease,
    fun c => ?chan, ?queue, hevent, ?line, fun q hq => ?grants, ?frame⟩
  case line => simp [State.interruptDriven, hevent, EventUnit.reset]
  case grants =>
    rw [withPorts_event, torndown_event, if_neg hq.symm, clearLeases_event]
    rfl
  all_goals rw [torndown_frame]
  case commit => exact Table.get_set_self ..
  case commits => exact Table.get_set_of_ne _ _ hq.symm
  case lead => exact Table.get_set_self ..
  case leads => exact Table.get_set_of_ne _ _ hq.symm
  case lease => exact clearLeases_lease (s.clearCommit p) p c
  case chan => exact clearLeases_chan (s.clearCommit p) p c
  case queue => exact clearLeases_queue (s.clearCommit p) p
  case frame => rfl

end Sys2Proof.Safety

/-! PROOFS. The lease tick (R35 to R37, R39, R40, R42, R74, R166, R167), what ends by it, and the SYNC edge (R75, R178). -/

namespace Sys2Proof.Safety

open Sys2Proof.Machine

variable {s t : State} {c : Channel} {l : Lease}

/-! A command repeated -/

theorem repeated_succ {i : Instr} (h : exec i s = .next t) (n : Nat) : repeated i (n + 1) s = repeated i n t := by
  simp [repeated, h]

/-! The lease tick on one channel -/

theorem ticked_free {r : LeaseRecord} (h : r.held = none) (lead : Port → Nat) : r.ticked lead = r := by
  simp [LeaseRecord.ticked, h]

/-- A lease above its last millisecond is reduced, and warned where R40 asks for it (R37). -/
theorem ticked_reduced {r : LeaseRecord} (h : r.held = some l) (habove : 1 < l.remaining) (lead : Port → Nat) :
    r.ticked lead =
      { r with
        held := some { l with
          remaining := l.remaining - 1
          warned := l.warned || warnedAtTick (lead l.holder) l
          warningPutOff := false } } := by
  simp [LeaseRecord.ticked, h, habove, warnDue_eq]

/-- A lease at its last millisecond ends, and the head waiter is granted (R36, R42). -/
theorem ticked_ended {r : LeaseRecord} (h : r.held = some l) (hlast : l.remaining = 1) (lead : Port → Nat) :
    r.ticked lead = afterLoss r.waiters := by
  simp [LeaseRecord.ticked, h, hlast, granted_eq_afterLoss]

theorem ends_free {r : LeaseRecord} (h : r.held = none) : r.ends = false := by
  simp [LeaseRecord.ends, h]

theorem ends_of_held {r : LeaseRecord} (h : r.held = some l) : r.ends = decide (l.remaining ≤ 1) := by
  simp [LeaseRecord.ends, h]

/-- Under the law of leases a tick ends those whose remaining is 1 (R22, R36). -/
theorem ends_eq_any {rank : Port → BitVec 2} {r : LeaseRecord} (law : LeaseLaw rank r) :
    r.ends = r.held.any (fun l => l.remaining = 1) := by
  cases h : r.held with
  | none => exact ends_free h
  | some l =>
    have hlast : l.remaining ≤ 1 ↔ l.remaining = 1 := by
      have := (law.times l h).1
      omega
    simp [ends_of_held h, hlast]

theorem tick_lease_reduced (h : (s.lease c).held = some l) (habove : 1 < l.remaining) :
    s.tick.lease c =
      { s.lease c with
        held := some { l with
          remaining := l.remaining - 1
          warned := l.warned || warnedAtTick (s.lead l.holder) l
          warningPutOff := false } } := by
  rw [tick_lease, ticked_reduced h habove]

theorem tick_lease_ended (h : (s.lease c).held = some l) (hlast : l.remaining = 1) :
    s.tick.lease c = afterLoss (s.lease c).waiters := by
  rw [tick_lease, ticked_ended h hlast]

theorem tick_chan_ended (h : (s.lease c).held = some l) (hlast : l.remaining = 1) :
    s.tick.chan c = safeRecord (s.chan c) := by
  rw [tick_chan, if_pos]
  simp [ends_of_held h, hlast]

/-- A lease tick writes the time count, channels, leases, the update queue, the commit unit and the event queues (R35). -/
theorem tick_frame (s : State) :
    s.tick =
      { s with
        timeCount := s.tick.timeCount, channels := s.tick.channels, leases := s.tick.leases, queue := s.tick.queue
        commits := s.tick.commits, events := s.tick.events } := by
  apply State.ext <;> simp

/-- Settles O25. -/
theorem leaseTickActsOnEveryLease : Obligations.LeaseTickActsOnEveryLease := by
  unfold Obligations.LeaseTickActsOnEveryLease
  intro s hi hrun
  refine ⟨s.tick, exec_leaseTick hrun, tick_time, fun c hfree => ⟨?lease, ?chan⟩,
    fun c l hheld habove => ⟨?stands, tick_lease_reduced hheld habove⟩,
    fun c l hheld hlast => ⟨tick_chan_ended hheld hlast, tick_lease_ended hheld hlast⟩, ?queue, tick_frame s⟩
  case lease => rw [tick_lease, ticked_free hfree]
  case chan => simp [tick_chan, ends_free hfree]
  case stands => simp [tick_chan, ends_of_held hheld, habove]
  case queue => rw [tick_queue, funext fun c => ends_eq_any (hi.leases c)]

/-! The records of a lease tick -/

/-- What a host receives when a tick acts on a channel's lease record: the fold of a tick's records needs it of every
record, also of one that has no millisecond left. -/
def seenLease (r : LeaseRecord) (lead : Port → Nat) (q : Port) (time : Word) (c : Channel) (u : EventUnit) :
    EventUnit :=
  match r.held with
  | none => u
  | some l =>
    if 1 < l.remaining then
      if l.holder = q ∧ warnedAtTick (lead q) l = true then
        u.take { kind := .leaseWarning, channel := channelByte c, reason := 0, tag := BitVec.ofNat 16 (l.remaining - 1),
                 time := time }
      else u
    else
      seenGrant q time c r.waiters
        (if l.holder = q then
          u.take { kind := .leaseExpired, channel := channelByte c, reason := 0, tag := 0, time := time }
         else u)

/-- Under the law of leases it is the record of the claims: a held lease has a millisecond left (R22). -/
theorem seenLease_eq_seenTick (law : LeaseLaw s.rank (s.lease c)) (q : Port) (time : Word) (u : EventUnit) :
    seenLease (s.lease c) s.lead q time c u = seenTick s q time c u := by
  unfold seenLease seenTick
  cases hheld : (s.lease c).held with
  | none => rfl
  | some l =>
    have hleast := (law.times l hheld).1
    dsimp only
    by_cases hlast : l.remaining = 1
    · rw [if_pos hlast, if_neg (by omega)]
    · rw [if_neg hlast, if_pos (by omega)]

theorem reduceLease_event (s : State) (c : Channel) (l : Lease) (q : Port) :
    (s.reduceLease c l).event q =
      if l.holder = q ∧ warnedAtTick (s.lead q) l = true then
        (s.event q).take
          { kind := .leaseWarning, channel := channelByte c, reason := 0, tag := BitVec.ofNat 16 (l.remaining - 1),
            time := s.timeCount }
      else s.event q := by
  unfold State.reduceLease
  dsimp only
  rw [warnDue_eq]
  by_cases hq : l.holder = q
  · subst hq
    by_cases hw : warnedAtTick (s.lead l.holder) l = true <;> simp [hw, State.sendTo_event, noReason]
  · by_cases hw : warnedAtTick (s.lead l.holder) l = true <;> simp [hw, State.sendTo_event, hq]

theorem expire_event (s : State) (c : Channel) (p q : Port) :
    (s.expire c p).event q =
      seenGrant q s.timeCount c (s.lease c).waiters
        (if p = q then
          (s.event q).take
            { kind := .leaseExpired, channel := channelByte c, reason := 0, tag := 0, time := s.timeCount }
         else s.event q) := by
  simp [State.expire, seenGrant_eq, State.sendTo_event, State.dropHolder_lease, noReason]

theorem tickLease_seen (s : State) (c : Channel) (q : Port) :
    (s.tickLease c).event q = seenLease (s.lease c) s.lead q s.timeCount c (s.event q) := by
  unfold State.tickLease seenLease
  cases (s.lease c).held with
  | none => rfl
  | some l =>
    dsimp only
    split
    · exact reduceLease_event s c l q
    · exact expire_event s c l.holder q

/-- The leases of a tick send their records in ascending channel order, each by what stood before the tick (R166). -/
theorem tickLeases_event (s : State) (q : Port) :
    (overAll 16 (fun c t => t.tickLease c) s).event q =
      (ascending 16).foldl (fun u c => seenLease (s.lease c) s.lead q s.timeCount c u) (s.event q) := by
  have hlead : ∀ (c : Channel) (t : State), (t.tickLease c).lead = t.lead := fun c t => funext fun p => by simp
  exact overAll_fold (fun t => t.event q) (fun c t => (t.lease c, t.lead, t.timeCount))
    (fun c k u => seenLease k.1 k.2.1 q k.2.2 c u) (fun c t => tickLease_seen t c q)
    (fun c d t hcd => by rw [State.tickLease_lease, if_neg hcd, hlead, State.tickLease_timeCount]) s

/-- A host's arm window sends its record by what stood before the arm windows were reduced (R74, R166). -/
theorem tickArms_event (s : State) (q : Port) :
    (overAll 3 (fun p t => t.tickArm p) s).event q = seenWindow s q s.timeCount (s.event q) := by
  have h := overAll_local (act := fun p t => t.tickArm p) q (fun t => (t.event q, t.commit q, t.timeCount))
    (fun p t hp => by simp [tickArm_event_ne hp, tickArm_commit, hp])
    (fun t u h => by
      simp only [Prod.mk.injEq] at h
      simp [tickArm_event, tickArm_commit, seenWindow, h]) s
  exact (congrArg Prod.fst h).trans (tickArm_event q s)

/-- Settles O26: the leases send their records at the raised time count, and the arm windows theirs after them, by armed
sets that no lease has touched. -/
theorem leaseTickSendsItsRecords : Obligations.LeaseTickSendsItsRecords := by
  unfold Obligations.LeaseTickSendsItsRecords
  intro s hi hrun
  refine ⟨s.tick, exec_leaseTick hrun, fun q => ?_⟩
  have hcommit : ∀ t : State, (overAll 16 (fun c t => t.tickLease c) t).commit q = t.commit q := fun t =>
    overAll_keeps (fun t => t.commit q) (fun c t => by simp) t
  have htime : ∀ t : State, (overAll 16 (fun c t => t.tickLease c) t).timeCount = t.timeCount := fun t =>
    overAll_keeps State.timeCount (fun c t => by simp) t
  rw [State.tick, tickArms_event, tickLeases_event, htime]
  unfold seenWindow
  rw [hcommit]
  simp only [← seenLease_eq_seenTick (hi.leases _)]
  rfl

/-! What ends by a lease tick -/

/-- Settles O27: ARM_WINDOW_EXPIRY is the whole tick where the window named stands at 1, and else nothing. -/
theorem armWindowsCountDown : Obligations.ArmWindowsCountDown := by
  unfold Obligations.ArmWindowsCountDown
  intro s p hrun
  refine ⟨⟨s.tick, exec_leaseTick hrun, fun ha => ?unarmed, fun a ha hw => ?unlimited, fun a ha hw => ?reduced,
    fun a ha hw => ?ended⟩, fun a ha hw => ⟨s.tick, ?expiry, exec_leaseTick hrun, ?dropped, tick_event_end p a ha hw⟩,
    fun h => ?idle⟩
  case expiry => simp [exec, execArmWindowExpiry, State.windowEnds, hrun, ha, hw]
  case idle =>
    have hends : s.windowEnds p = false := by
      unfold State.windowEnds
      cases ha : (s.commit p).armed with
      | none => rfl
      | some a => simpa using h a ha
    simp [exec, execArmWindowExpiry, hends]
  all_goals rw [tick_commit, ha]
  case unlimited => simp [hw]
  case reduced => simp [show a.window ≠ 0 by omega, show a.window ≠ 1 by omega]
  case ended | dropped => simp [hw]

/-- Whatever a lease tick does to an armed set, the host's staging list stands (R74). -/
theorem tick_staging (s : State) (p : Port) : (s.tick.commit p).staging = (s.commit p).staging := by
  rw [tick_commit]
  (repeat' split) <;> rfl

/-- Settles O28: LEASE_EXPIRY is the whole tick where the lease named stands at 1, and else nothing. -/
theorem leaseExpiryEndsTheLease : Obligations.LeaseExpiryEndsTheLease := by
  unfold Obligations.LeaseExpiryEndsTheLease
  intro s c hrun
  refine ⟨fun l hheld hlast => ⟨s.tick, ?expiry, exec_leaseTick hrun, tick_lease_ended hheld hlast,
    tick_chan_ended hheld hlast, tick_staging s l.holder⟩, fun h => ?idle⟩
  case expiry => simp [exec, execLeaseExpiry, State.leaseEnds, hrun, hheld, hlast]
  case idle =>
    have hends : s.leaseEnds c = false := by
      unfold State.leaseEnds
      cases hheld : (s.lease c).held with
      | none => rfl
      | some l => simpa using h l hheld
    simp [exec, execLeaseExpiry, hends]

/-- A lease stands through fewer ticks than it has milliseconds, each of which takes one (R35, R37). -/
theorem repeated_leaseTick_held (n : Nat) (hrun : s.inReset = false) (hheld : (s.lease c).held = some l)
    (hn : n < l.remaining) :
    ∃ (t : State) (k : Lease), repeated .leaseTick n s = some t ∧ (t.lease c).held = some k ∧ k.holder = l.holder ∧
      k.duration = l.duration ∧ k.remaining = l.remaining - n ∧ (t.lease c).waiters = (s.lease c).waiters ∧
      t.inReset = false := by
  induction n generalizing s l with
  | zero => exact ⟨s, l, rfl, hheld, rfl, rfl, rfl, rfl, hrun⟩
  | succ n ih =>
    have htick := tick_lease_reduced hheld (by omega)
    obtain ⟨t, k, hrep, hk, hholder, hduration, hremaining, hwaiters, ht⟩ :=
      ih (s := s.tick) (by simpa using hrun) (congrArg LeaseRecord.held htick) (by simp; omega)
    refine ⟨t, k, (repeated_succ (exec_leaseTick hrun) n).trans hrep, hk, hholder, hduration, ?_, ?_, ht⟩
    · simp only at hremaining
      omega
    · rw [hwaiters, htick]

theorem repeated_add_one {i : Instr} {n : Nat} {u : State} (h : repeated i n s = some t) (hx : exec i t = .next u) :
    repeated i (n + 1) s = some u := by
  induction n generalizing s with
  | zero =>
    obtain rfl := Option.some.inj h
    simp [repeated, hx]
  | succ n ih =>
    obtain ⟨v, hv⟩ := exec_next i s
    rw [repeated_succ hv] at h ⊢
    exact ih h

/-- Settles O29: after remaining - 1 ticks the lease stands at its last millisecond, and the next tick ends it. -/
theorem leaseLastsItsRemaining : Obligations.LeaseLastsItsRemaining := by
  unfold Obligations.LeaseLastsItsRemaining
  intro s c l hi hrun hheld
  refine ⟨fun n hn => ?stands, ?ends⟩
  case stands =>
    obtain ⟨t, k, hrep, hk, hholder, hduration, hremaining, hwaiters, -⟩ := repeated_leaseTick_held n hrun hheld hn
    exact ⟨t, k, hrep, hk, hholder, hduration, hremaining, hwaiters⟩
  case ends =>
    have hleast := ((hi.leases c).times l hheld).1
    obtain ⟨n, hn⟩ : ∃ n, l.remaining = n + 1 := Nat.exists_eq_succ_of_ne_zero (by omega)
    obtain ⟨t, k, hrep, hk, -, -, hremaining, hwaiters, ht⟩ := repeated_leaseTick_held n hrun hheld (by omega)
    refine ⟨t.tick, hn ▸ repeated_add_one hrep (exec_leaseTick ht), ?_⟩
    rw [tick_lease_ended hk (by omega), hwaiters]

/-! The SYNC edge (R75, R178) -/

/-- Settles O37: the edge on an armed qualifier is the sync event, with the qualifier disarmed behind it. -/
theorem syncEdgeFiresEverySet : Obligations.SyncEdgeFiresEverySet := by
  unfold Obligations.SyncEdgeFiresEverySet
  intro s hi
  refine ⟨fun hrun harmed => ?fires, fun hrun hdisarmed => ?disarmed, fun hrun => ?arms, fun hr => ⟨?edge, ?low⟩⟩
  case fires =>
    have hdone := syncEvent_done hi
    refine ⟨{ s.syncEvent with syncArmed := false }, by simp [exec, execSyncEdge, hrun, harmed],
      { hdone with rest := congrArg (fun t : State => { t with syncArmed := false }) hdone.rest }, rfl, ?_⟩
    exact s.syncEvent_ports
  case disarmed => simp [exec, execSyncEdge, hdisarmed]
  case arms => simp [exec, execSyncQualifierArm, hrun]
  case edge => simp [exec, execSyncEdge, hr]
  case low => simp [exec, execSyncQualifierArm, hr]

end Sys2Proof.Safety

/-! PROOFS. The channel table: the shared checks of R15, Set Fallback (R17), Set Ramp (R93), Force Safe (R127) and Clear
Fault (R130). -/

namespace Sys2Proof.Safety

open Sys2Proof.Machine

variable {s : State} {p : Port} {c : Channel}

/-! The shared checks (R15) -/

theorem settingChecks_badArgument (s : State) (p : Port) {b : Byte} (hb : 16 ≤ b.toNat) :
    s.settingChecks p b = .error (Reply.bare .badArgument) := by
  simp [State.settingChecks, channelOf_eq_none hb]

theorem settingChecks_unavailable (p : Port) (h : (s.chan c).state = .unavailable) :
    s.settingChecks p (channelByte c) = .error (Reply.naming .unavailable c) := by
  simp [State.settingChecks, h]

theorem settingChecks_notHolder (h : (s.chan c).state ≠ .unavailable) (hp : s.holder c ≠ some p) :
    s.settingChecks p (channelByte c) = .error (Reply.naming .notHolder c) := by
  simp [State.settingChecks, h, holds_eq_false_iff_holder.mpr hp]

/-- What the shared checks refuse, each of the four setting commands replies, and changes nothing (R15). -/
theorem takeCommand_setting_refused {name : CommandName}
    (hname : name ∈ [CommandName.setLimits, .setFallback, .setRamp, .clearFault]) {args : List Byte} {r : Reply}
    (h : s.settingChecks p (args.getD 0 0) = .error r) : takeCommand name p args s = (s, r) := by
  have hchecks : s.settingChecks p (argByte args 0) = .error r := h
  simp only [List.mem_cons, List.not_mem_nil, or_false] at hname
  rcases hname with rfl | rfl | rfl | rfl
  · simp [takeCommand, takeSetLimits, hchecks]
  · simp [takeCommand, takeSetFallback, hchecks]
  · simp [takeCommand, takeSetRamp, hchecks]
  · simp [takeCommand, takeClearFault, hchecks]

/-- Settles O38: the framing refuses the four commands in STARTING, the shared checks after it. -/
theorem settingCommandsShareChecks : Obligations.SettingCommandsShareChecks := by
  unfold Obligations.SettingCommandsShareChecks
  intro s p name args hl hname hlen
  have hlater : name.takenInStarting = false ∧ name ≠ .repeatReply ∧ name ≠ .portClear := by
    simp only [List.mem_cons, List.not_mem_nil, or_false] at hname
    rcases hname with rfl | rfl | rfl | rfl <;> decide
  obtain ⟨hstarting, hrepeat, hclear⟩ := hlater
  refine ⟨fun hstart => command_notReady hl hlen hstart hstarting, fun hrun hb => ?noChannel,
    fun c hrun hc hu => ?unavailable, fun c hrun hc hu hp => ?notHolder⟩
  all_goals refine command_answers_unchanged hl hlen (.inl hrun) hrepeat hclear (takeCommand_setting_refused hname ?_)
  case noChannel => exact settingChecks_badArgument s p hb
  case unavailable => rw [hc]; exact settingChecks_unavailable p hu
  case notHolder => rw [hc]; exact settingChecks_notHolder hu hp

/-! Set Fallback (R17) -/

theorem setFallback_args (c : Channel) (code : Code) :
    argByte ([channelByte c] ++ wordBytes code) 0 = channelByte c ∧
      argWord ([channelByte c] ++ wordBytes code) 1 = code := by
  simp [argWord, argByte, wordBytes]

/-- On a channel that passes the checks of R15, Set Fallback refuses a code outside the window, and else replaces the
fallback (R17). -/
theorem takeCommand_setFallback (hu : (s.chan c).state ≠ .unavailable) (hh : s.holder c = some p) (code : Code) :
    takeCommand .setFallback p ([channelByte c] ++ wordBytes code) s =
      if code < (s.chan c).limitLow ∨ (s.chan c).limitHigh < code then (s, Reply.naming .outOfWindow c)
      else (s.applyFallback c code, Reply.bare .ok) := by
  obtain ⟨hchan, hcode⟩ := setFallback_args c code
  unfold takeCommand takeSetFallback
  dsimp only
  rw [hchan, settingChecks_held (channelOf_channelByte c) hu hh, hcode]

/-- Every channel's record after an accepted Set Fallback. -/
theorem applyFallback_chan (s : State) (c : Channel) (code : Code) (d : Channel) :
    (s.applyFallback c code).chan d =
      if c = d then
        if (s.chan c).state = .safe ∧ (s.chan c).target ≠ code then movedToFallback { s.chan c with fallback := code }
        else { s.chan c with fallback := code }
      else s.chan d := by
  unfold State.applyFallback
  dsimp only
  split
  · by_cases hcd : c = d
    · subst hcd; simp [State.toFallback_chan, toFallback_eq_movedToFallback]
    · simp [State.toFallback_chan, hcd]
  · exact s.setChan_chan_get ..

/-- The motion of a SAFE channel to its fallback places the fallback, unless the channel ramps (R11 steps 2 and 3). -/
theorem toFallback_queue (s : State) (c : Channel) :
    (s.toFallback c).queue =
      if (s.chan c).rampToFallback = true ∧ (s.chan c).rampStep ≠ 0 then s.queue
      else place s.queue c (s.chan c).fallback .safe := by
  have hramps : (s.chan c).rampsToFallback = true ↔ (s.chan c).rampToFallback = true ∧ (s.chan c).rampStep ≠ 0 := by
    simp [ChannelRecord.rampsToFallback]
  unfold State.toFallback
  simp only [hramps]
  split <;> rfl

theorem applyFallback_queue (s : State) (c : Channel) (code : Code) :
    (s.applyFallback c code).queue =
      if (s.chan c).state = .safe ∧ (s.chan c).target ≠ code ∧
          ¬((s.chan c).rampToFallback = true ∧ (s.chan c).rampStep ≠ 0) then
        place s.queue c code .safe
      else s.queue := by
  unfold State.applyFallback
  dsimp only
  by_cases hmoves : (s.chan c).state = .safe ∧ (s.chan c).target ≠ code
  · rw [if_pos hmoves, toFallback_queue, State.setChan_chan_self, State.setChan_queue]
    by_cases hramps : (s.chan c).rampToFallback = true ∧ (s.chan c).rampStep ≠ 0
    · rw [if_pos hramps, if_neg fun h => h.2.2 hramps]
    · rw [if_neg hramps, if_pos ⟨hmoves.1, hmoves.2, hramps⟩]
  · rw [if_neg hmoves, if_neg fun h => hmoves ⟨h.1, h.2.1⟩]
    rfl

theorem applyFallback_frame (s : State) (c : Channel) (code : Code) :
    s.applyFallback c code =
      { s with channels := (s.applyFallback c code).channels, queue := (s.applyFallback c code).queue } := by
  apply State.ext <;> simp

/-- Settles O40: the two clauses are the two outcomes of `takeCommand_setFallback`. -/
theorem setFallbackMovesASafeChannel : Obligations.SetFallbackMovesASafeChannel := by
  unfold Obligations.SetFallbackMovesASafeChannel
  intro s p c code hl hrun hu hh
  have htake := takeCommand_setFallback hu hh code
  refine ⟨fun hout => ?refused, fun hlow hhigh => ?accepted⟩
  case refused =>
    rw [if_pos hout] at htake
    exact command_answers_unchanged (name := .setFallback) hl rfl (.inl hrun) nofun nofun htake
  case accepted =>
    rw [if_neg (not_or.mpr ⟨BitVec.not_lt.mpr hlow, BitVec.not_lt.mpr hhigh⟩)] at htake
    obtain ⟨P, hexec, hanswers⟩ := command_answers (name := .setFallback) hl rfl (.inl hrun) nofun nofun htake
    exact ⟨_, hexec, hanswers, (applyFallback_chan s c code c).trans (if_pos rfl), applyFallback_queue s c code,
      fun d hd => (applyFallback_chan s c code d).trans (if_neg hd.symm),
      congrArg (withPorts · P) (applyFallback_frame s c code)⟩

/-! Set Ramp (R93) -/

theorem setRamp_args (c : Channel) (step : Code) (o : Byte) :
    argByte ([channelByte c] ++ wordBytes step ++ [o]) 0 = channelByte c ∧
      argWord ([channelByte c] ++ wordBytes step ++ [o]) 1 = step ∧
      argByte ([channelByte c] ++ wordBytes step ++ [o]) 3 = o := by
  simp [argWord, argByte, wordBytes]

/-- On a channel that passes the checks of R15, Set Ramp refuses an options byte with a reserved bit set, and else writes
the step and both options (R93). -/
theorem takeCommand_setRamp (hu : (s.chan c).state ≠ .unavailable) (hh : s.holder c = some p) (step : Code) (o : Byte) :
    takeCommand .setRamp p ([channelByte c] ++ wordBytes step ++ [o]) s =
      if o &&& 0xFC ≠ 0 then (s, Reply.naming .badArgument c)
      else
        (s.setChan c
          { s.chan c with rampStep := step, rampToFallback := o.getLsbD 0, rampDoneReport := o.getLsbD 1 },
          Reply.bare .ok) := by
  obtain ⟨hchan, hstep, hoptions⟩ := setRamp_args c step o
  unfold takeCommand takeSetRamp
  dsimp only
  rw [hchan, settingChecks_held (channelOf_channelByte c) hu hh, hstep, hoptions]

/-- Settles O41. -/
theorem setRampWritesStepAndOptions : Obligations.SetRampWritesStepAndOptions := by
  unfold Obligations.SetRampWritesStepAndOptions
  intro s p c step o hl
  refine ⟨fun hstart => command_notReady (name := .setRamp) hl rfl hstart rfl, fun hrun hu hh hbad => ?refused,
    fun hrun hu hh hgood => ?written⟩
  case refused =>
    have htake := takeCommand_setRamp hu hh step o
    rw [if_pos hbad] at htake
    exact command_answers_unchanged (name := .setRamp) hl rfl (.inl hrun) nofun nofun htake
  case written =>
    have htake := takeCommand_setRamp hu hh step o
    rw [if_neg (not_not.mpr hgood)] at htake
    obtain ⟨P, hexec, hanswers⟩ := command_answers (name := .setRamp) hl rfl (.inl hrun) nofun nofun htake
    exact ⟨_, hexec, hanswers, s.setChan_chan_self c _, fun d hd => s.setChan_chan_ne c _ d hd.symm, rfl⟩

/-! Force Safe (R127) -/

/-- The channels that Force Safe takes: those the sender holds that are SAFE or LIVE (R127). -/
theorem forceable_iff :
    s.forceable p c = true ↔ s.holder c = some p ∧ ((s.chan c).state = .safe ∨ (s.chan c).state = .live) := by
  simp [State.forceable, holds_iff_holder]

theorem takeCommand_forceSafe_badArgument (s : State) (p : Port) :
    takeCommand .forceSafe p (wordBytes 0) s = (s, Reply.bare .badArgument) := by
  simp [takeCommand, takeForceSafe, argWord_only]

theorem takeCommand_forceSafe (s : State) (p : Port) {m done refused : Mask} (hm : m ≠ 0)
    (hdone : done = maskOf (fun c => inMask m c && s.forceable p c))
    (hrefused : refused = maskOf (fun c => inMask m c && !s.forceable p c)) :
    takeCommand .forceSafe p (wordBytes m) s =
      (safeAll (fun c => inMask done c) s,
        { status :=
            if refused = 0 then .ok
            else if (ascending 16).any (fun c => inMask refused c && decide (s.holder c ≠ some p)) then .notHolder
            else .faulted
          data := wordBytes done ++ wordBytes refused }) := by
  have hholds : ∀ c, (!s.holds p c) = decide (s.holder c ≠ some p) := fun c => by
    rw [Bool.eq_iff_iff]
    simp [holds_eq_false_iff_holder]
  subst hdone hrefused
  unfold takeCommand takeForceSafe
  dsimp only
  rw [argWord_only, if_neg hm]
  simp only [hholds]
  simp [safeAll, Reply.masks]

/-- Settles O43: the two masks and the status are decided on the state that stood before the command. -/
theorem forceSafeTakesHeldChannels : Obligations.ForceSafeTakesHeldChannels := by
  unfold Obligations.ForceSafeTakesHeldChannels
  intro s p m hl
  refine ⟨fun hstart => command_notReady (name := .forceSafe) hl rfl hstart rfl, fun hrun hzero => ?refused,
    fun hrun hm => ?taken⟩
  case refused =>
    subst hzero
    exact command_answers_unchanged (name := .forceSafe) hl rfl (.inl hrun) nofun nofun
      (takeCommand_forceSafe_badArgument s p)
  case taken =>
    obtain ⟨P, hexec, hanswers⟩ := command_answers (name := .forceSafe) hl rfl (.inl hrun) nofun nofun
      (takeCommand_forceSafe s p hm rfl rfl)
    refine ⟨_, _, _, hexec, hanswers, fun c => ?done, fun c => ?refused, safeAll_chan _ s, safeAll_queue _ s,
      congrArg (withPorts · P) (safeAll_frame _ s)⟩
    case done => rw [inMask_maskOf, Bool.and_eq_true, forceable_iff]
    case refused => rw [inMask_maskOf, Bool.and_eq_true, Bool.not_eq_true', ← Bool.not_eq_true, forceable_iff]

/-! Clear Fault (R130) -/

/-- On a channel that passes the checks of R15, Clear Fault recovers a FAULTED channel, and refuses any other (R130). -/
theorem takeCommand_clearFault (hu : (s.chan c).state ≠ .unavailable) (hh : s.holder c = some p) :
    takeCommand .clearFault p [channelByte c] s =
      if (s.chan c).state = .faulted then (s.recover c, Reply.bare .ok) else (s, Reply.naming .badArgument c) := by
  unfold takeCommand takeClearFault
  dsimp only
  rw [show argByte [channelByte c] 0 = channelByte c from rfl, settingChecks_held (channelOf_channelByte c) hu hh]

/-- A recovered channel is SAFE at its fallback, with no failure counted; the other channels stand (R130). -/
theorem recover_chan (s : State) (c d : Channel) :
    (s.recover c).chan d =
      if c = d then
        { s.chan c with
          state := .safe, failures := 0, target := (s.chan c).fallback, present := (s.chan c).fallback }
      else s.chan d := by
  unfold State.recover
  by_cases hcd : c = d
  · subst hcd; simp [State.jumpTo_chan]
  · simp [State.jumpTo_chan, hcd]

theorem recover_frame (s : State) (c : Channel) :
    s.recover c = { s with channels := (s.recover c).channels, queue := (s.recover c).queue } := by
  apply State.ext <;> simp

/-- No entry waits for a FAULTED channel (R118). -/
theorem not_waiting_of_faulted (hi : Inv s) (h : (s.chan c).state = .faulted) : ∀ e ∈ s.queue, e.channel ≠ c := by
  rintro e he rfl
  exact (hi.link.waitingDeliverable e he).1 h

/-- Settles O44: the RECOVERY entry stands at the tail, for no entry waits for a FAULTED channel. -/
theorem clearFaultRecovers : Obligations.ClearFaultRecovers := by
  unfold Obligations.ClearFaultRecovers
  intro s p c hl
  refine ⟨fun hstart => command_notReady (name := .clearFault) hl rfl hstart rfl, fun hrun hu hh hsound => ?refused,
    fun hrun hh hfaulted => ?recovered⟩
  case refused =>
    have htake := takeCommand_clearFault hu hh
    rw [if_neg hsound] at htake
    exact command_answers_unchanged (name := .clearFault) hl rfl (.inl hrun) nofun nofun htake
  case recovered =>
    have htake := takeCommand_clearFault (by simp [hfaulted]) hh
    rw [if_pos hfaulted] at htake
    obtain ⟨P, hexec, hanswers⟩ := command_answers (name := .clearFault) hl rfl (.inl hrun) nofun nofun htake
    exact ⟨_, hexec, hanswers, (recover_chan s c c).trans (if_pos rfl), rfl,
      fun hi => place_eq_append (not_waiting_of_faulted hi hfaulted) _ _,
      fun d hd => (recover_chan s c d).trans (if_neg hd.symm), congrArg (withPorts · P) (recover_frame s c)⟩

end Sys2Proof.Safety

/-! PROOFS. The ramp engine over many ticks (R87, R89), and the event unit's Set Event Mask (R170) and Event Test (R171). -/

namespace Sys2Proof.Safety

open Sys2Proof.Machine

variable {s : State} {p : Port} {c : Channel}

/-! A ramp over many ticks (R87, R89) -/

/-- A channel that a ramp tick moves by steps: SAFE or LIVE, with a step other than 0. -/
def Ramps (r : ChannelRecord) : Prop := (r.state = .safe ∨ r.state = .live) ∧ r.rampStep ≠ 0

section
variable {r : ChannelRecord} (h : Ramps r)
include h

/-- Below its target, present rises by the step and stops at the target (R87). -/
theorem presentAfterTick_up (hup : r.present ≤ r.target) :
    (presentAfterTick r).toNat = min r.target.toNat (r.present.toNat + r.rampStep.toNat) := by
  obtain ⟨hstate, hstep⟩ := h
  unfold presentAfterTick
  by_cases hat : r.present = r.target
  · rw [if_neg fun h => h.2 hat, hat]
    omega
  · rw [if_pos ⟨hstate, hat⟩, if_neg hstep, if_pos (by bv_omega)]
    split <;> bv_omega

/-- Above its target, present falls by the step and stops at the target (R87). -/
theorem presentAfterTick_down (hdown : r.target ≤ r.present) :
    (presentAfterTick r).toNat = max r.target.toNat (r.present.toNat - r.rampStep.toNat) := by
  obtain ⟨hstate, hstep⟩ := h
  unfold presentAfterTick
  by_cases hat : r.present = r.target
  · rw [if_neg fun h => h.2 hat, hat]
    omega
  · rw [if_pos ⟨hstate, hat⟩, if_neg hstep, if_neg (by bv_omega)]
    split <;> bv_omega

end

/-- Settles O46: one more tick before n of them is one more step, for a tick leaves the state of the channel, its target
and its step. -/
theorem rampArrivesInItsTicks : Obligations.RampArrivesInItsTicks := by
  unfold Obligations.RampArrivesInItsTicks
  intro s c n
  induction n generalizing s with
  | zero =>
    intro _ _ _
    refine ⟨s, rfl, fun hup => ?_, fun hdown => ?_⟩
    · rw [BitVec.le_def] at hup
      omega
    · rw [BitVec.le_def] at hdown
      omega
  | succ n ih =>
    intro hrun hstate hstep
    have hchan := rampTick_chan s c
    obtain ⟨t, hrep, hup, hdown⟩ :=
      ih s.rampTick (by simpa using hrun) (by rw [hchan]; exact hstate) (by rw [hchan]; exact hstep)
    rw [hchan] at hup hdown
    simp only at hup hdown
    refine ⟨t, (repeated_succ (exec_rampTick hrun) n).trans hrep, fun h => ?up, fun h => ?down⟩
    case up =>
      have hone := presentAfterTick_up ⟨hstate, hstep⟩ h
      rw [hup (by bv_omega), hone, Nat.succ_mul]
      omega
    case down =>
      have hone := presentAfterTick_down ⟨hstate, hstep⟩ h
      rw [hdown (by bv_omega), hone, Nat.succ_mul]
      omega

/-! Set Event Mask and Event Test (R170, R171) -/

/-- A reserved mask bit, or an enable other than 00h and 01h, is refused (R170). -/
theorem takeCommand_setEventMask_badArgument (s : State) (p : Port) {m y : Byte}
    (h : m &&& 0xC0 ≠ 0 ∨ (y ≠ 0 ∧ y ≠ 1)) :
    takeCommand .setEventMask p [m, y] s = (s, Reply.bare .badArgument) := by
  have hbad : m &&& 0xC0 ≠ 0 ∨ 1 < y := h.imp_right fun ⟨hzero, hone⟩ => by bv_omega
  exact if_pos hbad

theorem takeCommand_setEventMask (s : State) (p : Port) {m y : Byte} (hm : m &&& 0xC0 = 0) (hy : y = 0 ∨ y = 1) :
    takeCommand .setEventMask p [m, y] s =
      (s.setEvent p { s.event p with mask := m.setWidth 6, enable := decide (y = 1) }, Reply.bare .ok) := by
  have hgood : ¬(m &&& 0xC0 ≠ 0 ∨ 1 < y) := by
    rintro (hbad | hbad)
    · exact hbad hm
    · rcases hy with rfl | rfl <;> exact absurd hbad (by decide)
  exact if_neg hgood

/-- The interrupt line is driven with the enable set and a record queued (R172). -/
theorem interruptDriven_iff : s.interruptDriven p = true ↔ (s.event p).enable = true ∧ (s.event p).queue ≠ [] := by
  simp [State.interruptDriven]

/-- Event Test hands its sender a TEST record (R171). -/
theorem takeCommand_eventTest (s : State) (p : Port) :
    takeCommand .eventTest p [] s =
      (s.setEvent p ((s.event p).take { kind := .test, channel := 0xFF, reason := 0, tag := 0, time := s.timeCount }),
        Reply.bare .ok) := rfl

/-- Settles O57: each of the two commands writes the sender's part of the event unit alone. -/
theorem setEventMaskAndEventTest : Obligations.SetEventMaskAndEventTest := by
  unfold Obligations.SetEventMaskAndEventTest
  intro s p hl
  refine ⟨fun m y hbad => ?refused, fun m y hm hy => ?written, ?test⟩
  case refused =>
    exact command_answers_unchanged (name := .setEventMask) hl rfl (.inr rfl) nofun nofun
      (takeCommand_setEventMask_badArgument s p hbad)
  case written =>
    obtain ⟨t, hexec, hanswers, hown, hothers, hframe⟩ := command_answers_setEvent (name := .setEventMask) hl rfl (.inr rfl)
      nofun nofun (takeCommand_setEventMask s p hm hy)
    refine ⟨t, hexec, hanswers, hown, ?line, hothers, hframe⟩
    case line => rw [interruptDriven_iff, hown, decide_eq_true_eq]
  case test =>
    exact command_answers_setEvent (name := .eventTest) hl rfl (.inr rfl) nofun nofun (takeCommand_eventTest s p)

end Sys2Proof.Safety

/-! PROOFS. The converter link: the probe of the slots (R102 to R106), the write and its verify (R111 to R117), and the end of start-up (R106). -/

namespace Sys2Proof.Safety

open Sys2Proof.Machine

variable {s : State} {e : UpdateEntry} {k : Slot}

/-! The frame of each link phase (R97) -/

theorem linkFrame_inReset (h : s.inReset = true) : s.linkFrame = none := if_pos h

theorem linkFrame_idle (h : s.linkPhase = .idle) : s.linkFrame = none := by
  unfold State.linkFrame
  rw [h]
  exact ite_self none

section
variable (hrun : s.inReset = false)
include hrun

theorem linkFrame_probing (hphase : s.linkPhase = .probing) (hprobed : s.probed = some k) :
    s.linkFrame = some { slot := k, bytes := [0xE0, 0, 0] } := by
  simp [State.linkFrame, readIdentFrame, hrun, hphase, hprobed]

theorem linkFrame_writing (hphase : s.linkPhase = .writing) (hflying : s.inFlight = some e) :
    s.linkFrame = some (writeCodeFrame e) := by
  simp [State.linkFrame, hrun, hphase, hflying]

theorem linkFrame_verifying (hphase : s.linkPhase = .verifying) (hflying : s.inFlight = some e) :
    s.linkFrame = some (readCodeFrame e) := by
  simp [State.linkFrame, hrun, hphase, hflying]

end

/-! What a converter makes of the two frames (R99, R161) -/

/-- The high nibble of a first byte is the request and the low nibble the converter channel (R161). -/
theorem converterNibble_request (k : ConverterChannel) :
    ((0x20 ||| BitVec.ofNat 8 k.val : Byte) >>> 4 = 2 ∧ converterNibble (0x20 ||| BitVec.ofNat 8 k.val) = some k) ∧
      (0x60 ||| BitVec.ofNat 8 k.val : Byte) >>> 4 = 6 ∧ converterNibble (0x60 ||| BitVec.ofNat 8 k.val) = some k := by
  revert k
  decide

theorem converterRequest_writeCodeFrame (e : UpdateEntry) :
    converterRequest (writeCodeFrame e).bytes = .write (converterChannelOf e.channel) e.code := by
  obtain ⟨⟨hrequest, hchannel⟩, -⟩ := converterNibble_request (converterChannelOf e.channel)
  unfold writeCodeFrame converterRequest
  simp only [wordBytes, hrequest, hchannel, wordOf_hi_lo]
  rfl

theorem converterRequest_readCodeFrame (e : UpdateEntry) :
    converterRequest (readCodeFrame e).bytes = .read (converterChannelOf e.channel) := by
  obtain ⟨-, hrequest, hchannel⟩ := converterNibble_request (converterChannelOf e.channel)
  unfold readCodeFrame converterRequest
  simp only [hrequest, hchannel]
  rfl

/-- The converter answers the Read Code of a channel with the code that its Write Code has brought (R99). -/
theorem answer_after_writeCodeFrame (v : Converter) (e : UpdateEntry) :
    (v.after 24 (writeCodeFrame e).bytes).answer (readCodeFrame e).bytes = some (hiByte e.code, loByte e.code) := by
  have hwritten : v.after 24 (writeCodeFrame e).bytes =
      { v with held := v.held.set (converterChannelOf e.channel) e.code } := by
    refine (if_pos (c := 24 = Config.linkFrameEdges) rfl).trans ?_
    rw [converterRequest_writeCodeFrame]
  rw [hwritten, Converter.answer, converterRequest_readCodeFrame]
  simp only [Table.get_set_self]

/-- Settles O48: each step of the transaction writes the link's own fields, so the frame of the next phase can be read
off the entry in flight; the converter's side is a write and a read of one table cell. -/
theorem linkWritesThenReadsBack : Obligations.LinkWritesThenReadsBack := by
  unfold Obligations.LinkWritesThenReadsBack
  refine ⟨fun s e rest hidle hqueue => ?taken, fun s hnot => ?notTaken, fun s e hphase hflying => ?written,
    fun s hnot => ?notWritten, fun v e => ⟨answer_after_writeCodeFrame v e, fun edges bytes hedges => if_neg hedges⟩⟩
  case taken =>
    have hexec : exec .linkTakeEntry s = .next { s with queue := rest, inFlight := some e, linkPhase := .writing } := by
      simp [exec, execLinkTakeEntry, hidle, hqueue]
    exact ⟨_, hexec, rfl, fun hrun => ⟨_, linkFrame_writing hrun rfl rfl, rfl, writeCodeFrame_bytes e⟩⟩
  case notTaken =>
    show Host.Outcome.next _ = _
    congr 1
    split
    next hidle hqueue =>
      rcases hnot with hphase | hempty
      · exact absurd hidle hphase
      · rw [hempty] at hqueue
        exact nomatch hqueue
    next => rfl
  case written =>
    have hexec : exec .writeCodeDone s = .next { s with linkPhase := .verifying } := by
      simp [exec, execWriteCodeDone, hphase]
    exact ⟨_, hexec, rfl, fun hrun => ⟨_, linkFrame_verifying hrun rfl hflying, rfl, readCodeFrame_bytes e⟩⟩
  case notWritten => exact congrArg Host.Outcome.next (if_neg hnot)

/-! The end of start-up (R106) -/

/-- With no channel STARTING any more, a STARTING part becomes RUNNING and tells every host (R106). -/
theorem endStartup_ends (hphase : s.devicePhase = .starting) (hnone : ∀ c, (s.chan c).state ≠ .starting) :
    s.endStartup =
      ({ s with devicePhase := .running }).sendAll .startupDone noChannel noReason (s.presenceMask.setWidth 16) := by
  have hfalse : s.anyStarting = false :=
    Bool.eq_false_iff.mpr fun hany => let ⟨c, hc⟩ := any_starting.mp hany; hnone c hc
  exact if_pos ⟨hphase, hfalse⟩

theorem endStartup_ends_devicePhase (hphase : s.devicePhase = .starting)
    (hnone : ∀ c, (s.chan c).state ≠ .starting) : s.endStartup.devicePhase = .running := by
  rw [endStartup_ends hphase hnone, State.sendAll_devicePhase]

/-- Every host receives STARTUP_DONE with the presence mask (R106). -/
theorem endStartup_ends_event (hphase : s.devicePhase = .starting) (hnone : ∀ c, (s.chan c).state ≠ .starting)
    (q : Port) :
    s.endStartup.event q = (s.event q).take
      { kind := .startupDone, channel := 0xFF, reason := 0, tag := s.presenceMask.setWidth 16, time := s.timeCount } := by
  rw [endStartup_ends hphase hnone, State.sendAll_event]
  rfl

/-! The verify result (R113, R115) -/

theorem verify_eq_verifyMatch (s : State) (e : UpdateEntry) : s.verify e e.code = s.verifyMatch e := if_pos rfl

/-- A mismatch on a channel with two failures is the third (R115). -/
theorem verify_eq_verifyFault {read : Code} (hread : read ≠ e.code) (hcount : (s.chan e.channel).failures = 2) :
    s.verify e read = s.verifyFault e read := by
  have hthird : ¬(s.chan e.channel).failures + 1 < Config.failuresToFault := by
    rw [hcount]
    decide
  unfold State.verify
  rw [if_neg hread, if_neg hthird]

theorem verifyFault_chan (s : State) (e : UpdateEntry) (read : Code) (c : Channel) :
    (s.verifyFault e read).chan c = if e.channel = c then (s.chan e.channel).fault else s.chan c := by
  unfold State.verifyFault
  rw [State.sendHolderOrAll_chan, State.unplace_chan]
  exact State.setChan_chan_get ..

theorem verifyFault_queue (s : State) (e : UpdateEntry) (read : Code) :
    (s.verifyFault e read).queue = s.queue.filter (fun x => decide (x.channel ≠ e.channel)) := by
  unfold State.verifyFault
  rw [State.sendHolderOrAll_queue]
  exact List.filter_congr fun x _ => by simp [bne, beq_eq_decide]

/-- A record to a channel's holder reaches every host where the channel has none. -/
theorem sendHolderOrAll_event (s : State) (holder : Option Port) (kind : EventKind) (channel reason : Byte) (tag : Word)
    (q : Port) :
    (s.sendHolderOrAll holder kind channel reason tag).event q =
      if holder = some q ∨ holder = none then
        (s.event q).take { kind := kind, channel := channel, reason := reason, tag := tag, time := s.timeCount }
      else s.event q := by
  cases holder with
  | none => simpa [State.sendHolderOrAll] using s.sendAll_event q kind channel reason tag
  | some p => simpa [State.sendHolderOrAll] using s.sendTo_event p q kind channel reason tag

theorem verifyFault_event (s : State) (e : UpdateEntry) (read : Code) (q : Port) :
    (s.verifyFault e read).event q =
      if s.holder e.channel = some q ∨ s.holder e.channel = none then
        (s.event q).take { kind := .channelFault, channel := channelByte e.channel, reason := loByte read,
                           tag := e.code, time := s.timeCount }
      else s.event q := by
  unfold State.verifyFault
  rw [sendHolderOrAll_event]
  simp only [State.unplace_event, State.setChan_event, State.unplace_timeCount, State.setChan_timeCount]

/-- The verify result is acted on, the transaction ends, and with it perhaps start-up (R106, R112, R117). -/
theorem exec_verifyResult_landed (hphase : s.linkPhase = .verifying) (hflying : s.inFlight = some e) (read : Code) :
    exec (.verifyResult read) s = .next (landed (s.verify e read)).endStartup :=
  exec_verifyResult hphase hflying read

/-- Settles O49: a match writes the record of its channel; the end of the transaction touches no other field but by the end
of start-up. -/
theorem verifyMatchConfirms : Obligations.VerifyMatchConfirms := by
  unfold Obligations.VerifyMatchConfirms
  intro s e hphase hflying
  have hexec := exec_verifyResult_landed hphase hflying e.code
  rw [verify_eq_verifyMatch] at hexec
  refine ⟨_, hexec, ?own, fun c hc => ?other, ?flying, ?phase, fun hrun => ?running, ?frame⟩
  case own => exact (State.endStartup_chan ..).trans (State.setChan_chan_self _ e.channel _)
  case other => exact (State.endStartup_chan ..).trans (State.setChan_chan_ne _ _ _ _ hc.symm)
  case flying => exact State.endStartup_inFlight _
  case phase => exact State.endStartup_linkPhase _
  case running =>
    rw [endStartup_running (landed (s.verifyMatch e)) hrun]
    exact ⟨hrun, rfl⟩
  case frame => apply State.ext <;> simp [landed]

/-- Settles O51: the third failure is the branch of the count of two, and in a RUNNING part nothing follows it. -/
theorem thirdFailureFaultsTheChannel : Obligations.ThirdFailureFaultsTheChannel := by
  unfold Obligations.ThirdFailureFaultsTheChannel
  intro s e read hphase hflying hread hcount
  have hexec := exec_verifyResult_landed hphase hflying read
  rw [verify_eq_verifyFault hread hcount] at hexec
  have hstays (hrun : s.devicePhase = .running) :
      (landed (s.verifyFault e read)).endStartup = landed (s.verifyFault e read) :=
    endStartup_running _ ((State.verifyFault_devicePhase ..).trans hrun)
  refine ⟨_, hexec, ?own, fun c hc => ?other, ?queue, ?flying, ?phase, fun hrun q => ?events, fun hrun => ?running,
    ?frame⟩
  case own => exact (State.endStartup_chan ..).trans ((verifyFault_chan s e read e.channel).trans (if_pos rfl))
  case other => exact (State.endStartup_chan ..).trans ((verifyFault_chan s e read c).trans (if_neg hc.symm))
  case queue => exact (State.endStartup_queue _).trans (verifyFault_queue s e read)
  case flying => exact State.endStartup_inFlight _
  case phase => exact State.endStartup_linkPhase _
  case events => exact (congrArg (State.event · q) (hstays hrun)).trans (verifyFault_event s e read q)
  case running =>
    exact (congrArg State.devicePhase (hstays hrun)).trans ((State.verifyFault_devicePhase ..).trans hrun)
  case frame => apply State.ext <;> simp [landed]

/-- Where the channel has no holder and no three failures, a verify result sends CHANNEL_FAULT to every host exactly by its
third failure (R115). -/
theorem verify_event_of_no_holder {read : Code} (hholder : s.holder e.channel = none)
    (hcount : (s.chan e.channel).failures < 3) (q : Port) :
    (s.verify e read).event q =
      if read ≠ e.code ∧ (s.chan e.channel).failures = 2 then
        (s.event q).take { kind := .channelFault, channel := channelByte e.channel, reason := loByte read,
                           tag := e.code, time := s.timeCount }
      else s.event q := by
  by_cases hread : read = e.code
  case pos => rw [hread, verify_eq_verifyMatch, if_neg (fun h => h.1 rfl), State.verifyMatch_event]
  case neg =>
    by_cases hthird : (s.chan e.channel).failures = 2
    case pos => rw [verify_eq_verifyFault hread hthird, verifyFault_event, if_pos (.inr hholder), if_pos ⟨hread, hthird⟩]
    case neg =>
      rw [verify_eq_verifyRetry hread (by omega), if_neg (fun h => hthird h.2), State.verifyRetry_event]

/-- The channel of the entry in flight is not FAULTED, so it has not failed three times (R116, R118). -/
theorem Inv.flying_failures (h : Inv s) (hflying : s.inFlight = some e) : (s.chan e.channel).failures < 3 := by
  obtain ⟨hmax, hfaulted⟩ := (h.channels e.channel).failureCount
  obtain ⟨hnotFaulted, -⟩ := h.link.flyingDeliverable e hflying
  exact lt_of_le_of_ne hmax fun hthree => hnotFaulted (hfaulted.mp hthree)

/-- While the part is STARTING no channel has a holder (R23). -/
theorem Inv.starting_holder (h : Inv s) (hstarting : s.devicePhase = .starting) (c : Channel) : s.holder c = none := by
  unfold State.holder
  rw [h.startup.noLease hstarting c]
  rfl

/-- The presence mask is read off the slot table alone (R100). -/
theorem presenceMask_congr {t : State} (h : t.slots = s.slots) : t.presenceMask = s.presenceMask := by
  simp only [State.presenceMask, State.slot, h]

/-- Settles O52: the result is acted on first, and start-up ends behind it by the channels it has left. -/
theorem startupEndsWithItsLastChannel : Obligations.StartupEndsWithItsLastChannel := by
  unfold Obligations.StartupEndsWithItsLastChannel
  intro s e read hi hstarting hphase hflying
  have hbefore := verify_event_of_no_holder (read := read) (hi.starting_holder hstarting e.channel)
    (hi.flying_failures hflying)
  have hphase' : (landed (s.verify e read)).devicePhase = .starting := (State.verify_devicePhase ..).trans hstarting
  have hmask : (landed (s.verify e read)).presenceMask = s.presenceMask := presenceMask_congr (State.verify_slots ..)
  have htime : (landed (s.verify e read)).timeCount = s.timeCount := State.verify_timeCount ..
  refine ⟨(landed (s.verify e read)).endStartup, (s.verify e read).event, s.presenceMask,
    exec_verifyResult_landed hphase hflying read, hbefore, presenceMask_shows, fun hnone => ?ended, fun hsome => ?goesOn⟩
  case ended =>
    simp only [State.endStartup_chan] at hnone
    refine ⟨endStartup_ends_devicePhase hphase' hnone, fun q => ?_⟩
    rw [endStartup_ends_event hphase' hnone, hmask, htime]
    rfl
  case goesOn =>
    simp only [State.endStartup_chan] at hsome
    rw [endStartup_of_starting_channel fun _ => hsome]
    exact ⟨hphase', fun q => rfl⟩

/-! The probe (R102 to R106) -/

/-- The slot being probed is the first that is PROBING (R102). -/
theorem probed_eq_some (hprobing : (s.slot k).state = .probing) (hfirst : ∀ j, j < k → (s.slot j).state ≠ .probing) :
    s.probed = some k :=
  find?_ascending_eq_some (by simp [hprobing]) fun j hj => by simp [hfirst j hj]

theorem exec_probeSlot (hrun : s.inReset = false) (hphase : s.linkPhase = .probing) (hprobed : s.probed = some k)
    (mark revision : Byte) : exec (.probeSlot mark revision) s = .next (s.decideSlot k mark revision).endProbe := by
  simp [exec, execProbeSlot, hrun, hphase, hprobed]

/-- While a slot is PROBING the probe goes on (R102). -/
theorem endProbe_of_probing {j : Slot} (hprobing : (s.slot j).state = .probing) : s.endProbe = s := by
  unfold State.endProbe
  split
  next => rfl
  next hnone => exact absurd hprobing (probed_none hnone j)

/-- With no slot PROBING any more the probe ends (R104, R106). -/
theorem endProbe_ends (hnone : ∀ j, (s.slot j).state ≠ .probing) :
    s.endProbe = ({ s with linkPhase := .idle }).placeStarts.endStartup := by
  unfold State.endProbe
  split
  next j hprobed => exact absurd (probed_some hprobed) (hnone j)
  next => rfl

/-- Into an empty queue, the start-up writes go in channel order (R104). -/
theorem placeStarts_queue_of_empty (hempty : s.queue = []) (hfallback : ∀ c, (s.chan c).fallback = 0) :
    s.placeStarts.queue =
      ((ascending 16).filter (fun c => decide ((s.slot (slotOf c)).state = .present))).map
        (fun c => { channel := c, code := 0, origin := .start }) := by
  have hplaced := place_all (ascending 16) (fun c => decide ((s.slot (slotOf c)).state = .present))
    (fun _ => 0) [] (List.nodup_finRange 16) (by simp)
  simp only [decide_eq_true_eq, List.nil_append] at hplaced
  rw [placeStarts_queue, hempty]
  simp only [hfallback]
  exact hplaced

/-- The mask of no PRESENT slot is 0 (R100). -/
theorem presenceMask_eq_zero (hnone : ∀ j, (s.slot j).state ≠ .present) : s.presenceMask = 0 := by
  obtain ⟨hslots, hrest⟩ := presenceMask_shows (s := s)
  refine BitVec.eq_of_getLsbD_eq fun i _ => ?_
  refine Eq.trans ?_ BitVec.getLsbD_zero.symm
  rcases Nat.lt_or_ge i 4 with hi | hi
  · exact Bool.eq_false_iff.mpr fun hset => hnone ⟨i, hi⟩ ((hslots ⟨i, hi⟩).mp hset)
  · exact hrest i hi

/-- The fallback of every channel is 0 while the link is PROBING (R5, R6). -/
theorem Inv.probing_fallback (h : Inv s) (hphase : s.linkPhase = .probing) (c : Channel) : (s.chan c).fallback = 0 := by
  rcases h.link.probingChannel hphase c with hreset | hunavailable
  · rw [hreset]
    rfl
  · rw [(h.channels c).unavailableRests hunavailable]
    rfl

/-- A slot's outcome leaves each channel with the state it had, or UNAVAILABLE (R103). -/
theorem decideSlot_state (h : Inv s) (hphase : s.linkPhase = .probing) (mark revision : Byte) (c : Channel) :
    ((s.decideSlot k mark revision).chan c).state = .starting ∨
      ((s.decideSlot k mark revision).chan c).state = .unavailable := by
  rw [decideSlot_chan]
  split
  next => exact .inr rfl
  next =>
    refine (h.link.probingChannel hphase c).imp (fun hreset => ?_) id
    rw [hreset]
    rfl

theorem decideSlot_fallback (h : Inv s) (hphase : s.linkPhase = .probing) (mark revision : Byte) (c : Channel) :
    ((s.decideSlot k mark revision).chan c).fallback = 0 := by
  have hzero := h.probing_fallback hphase c
  rw [decideSlot_chan]
  split <;> exact hzero

/-- A slot's outcome writes the slot table and the channel table (R102, R103). -/
theorem decideSlot_frame (s : State) (k : Slot) (mark revision : Byte) :
    s.decideSlot k mark revision =
      { s with slots := (s.decideSlot k mark revision).slots, channels := (s.decideSlot k mark revision).channels } := by
  apply State.ext <;> simp

/-- The first of a slot's four channels. -/
def firstChannelOf (k : Slot) : Channel := ⟨4 * k.val, by omega⟩

theorem slotOf_firstChannelOf (k : Slot) : slotOf (firstChannelOf k) = k := by
  revert k
  decide

/-- After the outcome of the last PROBING slot no slot is PROBING (R102). -/
theorem decideSlot_not_probing (hlast : ∀ j, j ≠ k → (s.slot j).state ≠ .probing) (mark revision : Byte) (j : Slot) :
    ((s.decideSlot k mark revision).slot j).state ≠ .probing := by
  rw [decideSlot_slot]
  split
  next => split <;> nofun
  next hne => exact hlast j fun h => hne h.symm

/-- The part between the end of its probe and the end of start-up: the start-up writes wait on an IDLE link (R104). -/
def probeEnded (u : State) : State := ({ u with linkPhase := .idle }).placeStarts

theorem probeEnded_frame (u : State) :
    probeEnded u = { u with queue := (probeEnded u).queue, linkPhase := .idle } := by
  apply State.ext <;> simp [probeEnded]

theorem probeEnded_chan (u : State) (c : Channel) : (probeEnded u).chan c = u.chan c :=
  State.placeStarts_chan { u with linkPhase := .idle } c

theorem probeEnded_slot (u : State) (j : Slot) : (probeEnded u).slot j = u.slot j :=
  State.placeStarts_slot { u with linkPhase := .idle } j

theorem probeEnded_event (u : State) (p : Port) : (probeEnded u).event p = u.event p :=
  State.placeStarts_event { u with linkPhase := .idle } p

theorem probeEnded_devicePhase (u : State) : (probeEnded u).devicePhase = u.devicePhase :=
  State.placeStarts_devicePhase { u with linkPhase := .idle }

theorem probeEnded_timeCount (u : State) : (probeEnded u).timeCount = u.timeCount :=
  State.placeStarts_timeCount { u with linkPhase := .idle }

/-- Once every slot is decided, a channel is still STARTING exactly where a slot is PRESENT: the channels of the ABSENT
ones are UNAVAILABLE (R103). -/
theorem exists_starting_iff_present {u : State}
    (habsent : ∀ c, (u.slot (slotOf c)).state = .absent ↔ (u.chan c).state = .unavailable)
    (hstate : ∀ c, (u.chan c).state = .starting ∨ (u.chan c).state = .unavailable)
    (hdecided : ∀ j, (u.slot j).state ≠ .probing) :
    (∃ c, (u.chan c).state = .starting) ↔ ∃ j, (u.slot j).state = .present := by
  constructor
  · rintro ⟨c, hc⟩
    refine ⟨slotOf c, ?_⟩
    cases hslot : (u.slot (slotOf c)).state with
    | present => rfl
    | probing => exact absurd hslot (hdecided _)
    | absent => exact nomatch hc.symm.trans ((habsent c).mp hslot)
  · rintro ⟨j, hj⟩
    refine ⟨firstChannelOf j, (hstate _).resolve_right fun hunavailable => ?_⟩
    have hslot := (habsent _).mpr hunavailable
    rw [slotOf_firstChannelOf] at hslot
    exact nomatch hj.symm.trans hslot

section
variable {u : State} (hstart : (∃ c, (u.chan c).state = .starting) ↔ ∃ j, (u.slot j).state = .present)
include hstart

/-- With a PRESENT slot, start-up goes on behind the end of the probe (R106). -/
theorem probeEnded_endStartup_of_present (hpresent : ∃ j, (u.slot j).state = .present) :
    (probeEnded u).endStartup = probeEnded u := by
  refine endStartup_of_starting_channel fun _ => ?_
  obtain ⟨c, hc⟩ := hstart.mpr hpresent
  exact ⟨c, by rw [probeEnded_chan]; exact hc⟩

/-- With no PRESENT slot, start-up ends with the probe, and STARTUP_DONE says so (R106). -/
theorem probeEnded_endStartup_of_no_present (hphase : u.devicePhase = .starting)
    (hnone : ∀ j, (u.slot j).state ≠ .present) :
    (probeEnded u).endStartup.devicePhase = .running ∧
      ∀ p, (probeEnded u).endStartup.event p = (u.event p).take
        { kind := .startupDone, channel := 0xFF, reason := 0, tag := 0, time := u.timeCount } := by
  have hphase' : (probeEnded u).devicePhase = .starting := (probeEnded_devicePhase u).trans hphase
  have hnone' : ∀ c, ((probeEnded u).chan c).state ≠ .starting := fun c hc => by
    obtain ⟨j, hj⟩ := hstart.mp ⟨c, by rw [← probeEnded_chan]; exact hc⟩
    exact hnone j hj
  have hmask : (probeEnded u).presenceMask = 0 :=
    presenceMask_eq_zero fun j => by rw [probeEnded_slot]; exact hnone j
  refine ⟨endStartup_ends_devicePhase hphase' hnone', fun p => ?_⟩
  rw [endStartup_ends_event hphase' hnone', hmask, probeEnded_event, probeEnded_timeCount]
  rfl

end

/-- Settles O47: the outcome writes the slot and its channels. When it is the last one, the start-up writes follow, and
start-up ends with them exactly where no slot is PRESENT: by the law of absent slots every channel is then UNAVAILABLE. -/
theorem probeDecidesEachSlot : Obligations.ProbeDecidesEachSlot := by
  unfold Obligations.ProbeDecidesEachSlot
  intro s k mark revision hi hrun hphase hprobing hfirst
  have hprobed := probed_eq_some hprobing hfirst
  have hexec := exec_probeSlot hrun hphase hprobed mark revision
  obtain ⟨hempty, hstarting⟩ := hi.link.probingEmpty hphase
  have hslot (j : Slot) : ((s.decideSlot k mark revision).endProbe).slot j = _ :=
    (State.endProbe_slot ..).trans (decideSlot_slot k j mark revision)
  have hchan (c : Channel) : ((s.decideSlot k mark revision).endProbe).chan c = _ :=
    (State.endProbe_chan ..).trans (decideSlot_chan k mark revision c)
  refine ⟨linkFrame_probing hrun hphase hprobed, _, hexec, fun hmark => ⟨?present, fun c => ?presentChan⟩,
    fun hmark => ⟨?absent, fun c => ?absentChan⟩, fun j hj => (hslot j).trans (if_neg hj.symm), ?goesOn, fun hlast => ?ended⟩
  case present => exact (hslot k).trans ((if_pos rfl).trans (if_pos hmark))
  case presentChan => exact (hchan c).trans (if_neg fun h => h.1 hmark)
  case absent => exact (hslot k).trans ((if_pos rfl).trans (if_neg hmark))
  case absentChan =>
    refine (hchan c).trans (if_congr ?_ rfl rfl)
    exact ⟨fun ⟨_, hof⟩ => congrArg Fin.val hof, fun hof => ⟨hmark, Fin.ext hof⟩⟩
  case goesOn =>
    rintro ⟨j, hj, hother⟩
    have hsame : (s.decideSlot k mark revision).slot j = s.slot j :=
      (decideSlot_slot k j mark revision).trans (if_neg hj.symm)
    rw [endProbe_of_probing (j := j) (by rw [hsame]; exact hother)]
    exact decideSlot_frame s k mark revision
  case ended =>
    have hdecided := decideSlot_not_probing hlast mark revision
    have hstart := exists_starting_iff_present (fun c => by simpa using (hi.exec hexec).link.absentSlot c)
      (decideSlot_state hi hphase mark revision) hdecided
    have hends : (s.decideSlot k mark revision).endProbe = (probeEnded _).endStartup := endProbe_ends hdecided
    refine ⟨?link, ?queue, fun hpresent => ?startupGoesOn, fun hnone => ?startupEnds, ?frame⟩
    case link => rw [hends, State.endStartup_linkPhase, probeEnded_frame]
    case queue =>
      simp only [State.endProbe_slot]
      rw [hends, State.endStartup_queue]
      exact placeStarts_queue_of_empty (s := { s.decideSlot k mark revision with linkPhase := .idle })
        ((State.decideSlot_queue ..).trans hempty) (decideSlot_fallback hi hphase mark revision)
    case startupGoesOn =>
      simp only [State.endProbe_slot] at hpresent
      rw [hends, probeEnded_endStartup_of_present hstart hpresent]
      refine ⟨?_, fun p => ?_⟩
      · rw [probeEnded_devicePhase, State.decideSlot_devicePhase, hstarting]
      · rw [probeEnded_event, State.decideSlot_event]
    case startupEnds =>
      simp only [State.endProbe_slot] at hnone
      rw [hends]
      simpa using probeEnded_endStartup_of_no_present hstart (by simpa using hstarting) hnone
    case frame => apply State.ext <;> simp

end Sys2Proof.Safety

/-! PROOFS. Device reset and its end (R151, R177, R178), and the outputs at rest (R97, R177). -/

namespace Sys2Proof.Safety

open Sys2Proof.Machine

variable {s : State} {p : Port}

/-! The outputs between frames and at the reset values -/

/-- Between two frames every chip select is high and the clock rests (R97). -/
theorem linkLines_of_no_frame (h : s.linkFrame = none) : (∀ k, s.chipSelectHigh k = true) ∧ s.dsck = .low := by
  simp [State.chipSelectHigh, State.dsck, h]

/-- A deselected port drives nothing (R135). -/
theorem sdo_of_deselected (h : (s.port p).phase = .deselected) : s.sdo p = .highImpedance := by
  simp [State.sdo, h]

/-- While device reset lasts, every output of a part at its reset values rests (R177). -/
theorem ResetValues.outputs_rest (h : ResetValues s) (hreset : s.inReset = true) :
    (∀ p, s.sdo p = .highImpedance ∧ s.interruptDriven p = false) ∧ (∀ k, s.chipSelectHigh k = true) ∧
      s.dsck = .low ∧ s.dsdo = .low := by
  obtain ⟨hselects, hclock⟩ := linkLines_of_no_frame (linkFrame_inReset hreset)
  refine ⟨fun p => ⟨sdo_of_deselected (h.ports p).1, ?_⟩, hselects, hclock, if_pos hreset⟩
  simp [State.interruptDriven, h.events p]

/-- Settles O58: device reset is the record of reset values but for the chip selects and the waiting commands, and at those
values the outputs rest. -/
theorem deviceResetReturnsEveryBlock : Obligations.DeviceResetReturnsEveryBlock := by
  unfold Obligations.DeviceResetReturnsEveryBlock
  refine ⟨resetValues_reset, rfl, fun s => ?_⟩
  have hvalues := resetValues_deviceReset s
  obtain ⟨hports, hselects, hclock, hdata⟩ := hvalues.outputs_rest rfl
  refine ⟨s.deviceReset, rfl, hvalues, rfl, fun p => ?_, linkFrame_inReset rfl, hselects, hclock, hdata, rfl⟩
  obtain ⟨hsdo, hline⟩ := hports p
  exact ⟨hsdo, hline, by rw [deviceReset_port]; rfl⟩

/-- The straps of a port are the two bits of its rank (R151). -/
theorem strapRank_toNat (rankA rankB : BitVec 3) (p : Port) :
    (strapRank rankA rankB p).toNat = 2 * (rankB.getLsbD p.val).toNat + (rankA.getLsbD p.val).toNat := by
  unfold strapRank
  cases rankB.getLsbD p.val <;> cases rankA.getLsbD p.val <;> decide

/-- Settles O59: the end of device reset writes the ranks, the clocks and the two input filters; the slots, still PROBING,
give the first frame of the probe. -/
theorem resetEndSamplesTheStraps : Obligations.ResetEndSamplesTheStraps := by
  unfold Obligations.ResetEndSamplesTheStraps
  intro s rankA rankB syncHigh hi hreset
  have hframe := resetEnd_frame s rankA rankB syncHigh
  have hport := resetEnd_port s rankA rankB syncHigh
  have hvalues := (hi.reset hreset).resetEnd rankA rankB syncHigh
  have hrank (p : Port) : (s.resetEnd rankA rankB syncHigh).rank p = strapRank rankA rankB p :=
    congrArg PortRecord.rank (hport p)
  have hprobed : (s.resetEnd rankA rankB syncHigh).probed = some 0 :=
    probed_eq_some (congrArg SlotRecord.state (hvalues.slots 0)) fun j hj => absurd hj (Fin.not_lt_zero j)
  obtain ⟨-, -, hphase⟩ := hvalues.queue
  have hexec : exec (.deviceResetEnd rankA rankB syncHigh) s = .next (s.resetEnd rankA rankB syncHigh) :=
    congrArg Host.Outcome.next (if_pos hreset)
  refine ⟨_, hexec, rfl, rfl, rfl, rfl, fun p => ?ranks, fun p => ?ports, linkFrame_probing rfl hphase hprobed, hframe⟩
  case ranks => rw [hrank, strapRank_toNat]
  case ports => rw [hrank, hport]

/-- Every frame of the link is of three bytes, and device reset sends none (R97, R161, R177). -/
theorem linkFrame_eq_some {f : LinkFrame} (h : s.linkFrame = some f) : s.inReset = false ∧ f.bytes.length = 3 := by
  unfold State.linkFrame at h
  split at h
  next => exact nomatch h
  next hrun =>
    refine ⟨Bool.eq_false_iff.mpr hrun, ?_⟩
    split at h
    next =>
      obtain ⟨k, -, rfl⟩ := Option.map_eq_some_iff.mp h
      rfl
    next => exact nomatch h
    next =>
      obtain ⟨e, -, rfl⟩ := Option.map_eq_some_iff.mp h
      rfl
    next =>
      obtain ⟨e, -, rfl⟩ := Option.map_eq_some_iff.mp h
      rfl

/-- Settles O60: in reset by the reset values, and otherwise by the frame under way, if there is one. -/
theorem outputsRestInReset : Obligations.OutputsRestInReset := by
  unfold Obligations.OutputsRestInReset
  intro s
  refine ⟨fun hi hreset => (hi.reset hreset).outputs_rest hreset, linkLines_of_no_frame, fun f hf => ?frame,
    linkFrame_idle⟩
  case frame =>
    obtain ⟨hrun, hlength⟩ := linkFrame_eq_some hf
    refine ⟨fun k => ?select, ?clock, ?data, hlength⟩
    case select =>
      simp only [State.chipSelectHigh, hf, bne_eq_false_iff_eq]
      exact eq_comm
    case clock => simp [State.dsck, hf, Config.linkFrameEdges]
    case data => simp [State.dsdo, hrun, hf]

end Sys2Proof.Safety
